-- ==== Sys2Proof/Word.lean ====
section
/-! DEFINITION. The word types (spec 00_scope R8, R10, R11): 32-bit registers and addresses, bytes, halfwords,
register numbers. -/

namespace Sys2Proof

/-- A register value or an address: 32 bits (R8). -/
abbrev Word := BitVec 32

/-- The smallest addressable unit (R80). -/
abbrev Byte := BitVec 8

/-- A THUMB instruction or a halfword access (R8, R91). -/
abbrev Half := BitVec 16

/-- A register number 0..15 (R12). -/
abbrev RegNum := BitVec 4

/-- A THUMB low register number 0..7 (R330). -/
abbrev LowReg := BitVec 3

end Sys2Proof
end

