-- ==== Sys2Proof/Config.lean ====
section
/-! DEFINITION. What an implementation fixes (the open parameters of spec 00_scope R9, as plain data) and the free
values (the draw oracle of R16 and R20, as constants without a body). -/

namespace Sys2Proof

/-- UNDEF_POLICY (92 D7): what an undefined encoding does. -/
inductive UndefPolicy
  | trap
  | skip
  deriving DecidableEq, Repr

/-- BOOT (92 D16): the state reset leaves. -/
inductive Boot
  | cartridgeDirect
  | bios
  deriving DecidableEq, Repr

/-- The open parameters of R9, fixed for one machine. The state carries this record and no step changes it (log
entry 1). -/
structure Params where
  /-- ROM_SIZE in bytes (R8: 32 KiB to 32 MiB). -/
  romSize : Nat
  /-- ROM_MIRROR (R87). -/
  romMirror : Bool
  /-- SRAM_SIZE is 2 ^ sramBits (R88: a power of two). -/
  sramBits : Nat
  undefPolicy : UndefPolicy
  boot : Boot
  /-- The I/O offsets the external handler IO_EXTERNAL claims (R112). -/
  ioClaims : List (BitVec 10)
  deriving DecidableEq, Repr

/-- The parameter values of `State.reset` (DESIGN CHOICE, log entry 1; the defaults of 92 where it gives one). -/
def standardParams : Params where
  romSize := 0x02000000
  romMirror := false
  sramBits := 15
  undefPolicy := .trap
  boot := .cartridgeDirect
  ioClaims := []

namespace Config

/-- The draw oracle for a bit (R20): an uninterpreted value for each draw number (log entry 4). -/
opaque freeBit : Nat → Bool

/-- The draw oracle for a word (R20): an uninterpreted value for each draw number (log entry 4). -/
opaque freeWord : Nat → Word

end Config

end Sys2Proof
end

