-- ==== Sys2Proof/Machine/State.lean ====
section
/-! DEFINITION. The machine state (spec 10_state), the reasons a step can stop, and the state after reset (R70, R480,
R481). -/

namespace Sys2Proof.Machine

/-- The seven processor modes (R31). Another mode number cannot be held by CPSR (R31, R37). -/
inductive Mode
  | usr | fiq | irq | svc | abt | und | sys
  deriving DecidableEq, Repr

/-- CPSR (R50). Bits 27..8 are reserved and read as 0, so they are not held. -/
structure Cpsr where
  n : Bool
  z : Bool
  c : Bool
  v : Bool
  i : Bool
  f : Bool
  t : Bool
  mode : Mode
  deriving DecidableEq, Repr

/-- An SPSR (R54): the layout of CPSR, but any 5-bit mode value can be stored (R231). -/
structure Spsr where
  n : Bool
  z : Bool
  c : Bool
  v : Bool
  i : Bool
  f : Bool
  t : Bool
  mode : BitVec 5
  deriving DecidableEq, Repr

/-- One DMA channel (R57): the programmed registers and the internal latches. -/
structure DmaChannel where
  sad : Word
  dad : Word
  cntL : BitVec 16
  cntH : BitVec 16
  isrc : Word
  idst : Word
  deriving DecidableEq, Repr

/-- A scheduler event (R60): `kind` names an external callback. -/
structure Event where
  due : Nat
  seq : Nat
  kind : Nat
  deriving DecidableEq, Repr

/-- The bytes of all storage, by storage key (the address of the byte within the first image of its region), in one
canonical form: keys strictly rising, and no byte equal to what an unlisted key reads as. -/
abbrev Memory := List Host.Cell

/-- The machine state. -/
structure State where
  /-- The banked registers other than R15 (R30), by physical index: 0..7 R0..R7; 8..14 R8_usr..R14_usr; 15..21
  R8_fiq..R14_fiq; 22, 23 R13, R14_irq; 24, 25 svc; 26, 27 abt; 28, 29 und. -/
  regs : Vector Word 30
  /-- R15: two instructions past the executing one after the refill (R42, R44). -/
  r15 : Word
  cpsr : Cpsr
  /-- SPSR_fiq, SPSR_irq, SPSR_svc, SPSR_abt, SPSR_und (R54). -/
  spsr : Vector Spsr 5
  /-- Prefetched instruction values, oldest first; a THUMB halfword is zero-extended (R44). -/
  pipe : List Word
  /-- Set by a flush, cleared by the refill (R44, log entry 13). -/
  flushed : Bool
  /-- The last instruction value fetched (R59). -/
  openBus : Word
  mem : Memory
  /-- IE bits 13..0 (R56). -/
  ie : BitVec 14
  /-- IF bits 13..0 (R56). -/
  iff : BitVec 14
  /-- IME bit 0 (R56). -/
  ime : Bool
  halted : Bool
  dma : Vector DmaChannel 4
  /-- Cycles since reset (R60, R430; log entry 8). -/
  now : Nat
  /-- The scheduler's insertion counter (R60). -/
  seq : Nat
  /-- The pending events, in insertion order (R60, log entry 16). -/
  queue : List Event
  /-- DMA cycles not yet added to `now` (R61). -/
  pendingCycles : Nat
  /-- The external components' own state, which the model does not interpret (log entry 10). -/
  ext : Nat
  /-- How many free values have been drawn (R20, log entry 4). -/
  draws : Nat
  /-- The open parameters (R9); no step changes them (log entry 1). -/
  params : Params
  deriving DecidableEq, Repr

/-- Why a step stops without an outcome the spec gives. -/
inductive Fault
  /-- Raised by a bus write or a trigger that starts a DMA run (Bus.lean, `startDma`) whose nested runs start one another
  for ever: R452, R453 and R465 have each wait for the next, and give no state after. A finite nesting, of any depth,
  never raises it. Safe (log entry 6). -/
  | dmaEndless
  /-- Raised by the tick (Scheduler.lean) of a host whose handlers never end, or schedule events without end: R443 says
  the tick does not terminate, 93 calls it "stuck". Handlers and ticks that end, however long, never raise it. Safe (log
  entry 7). -/
  | tickEndless
  deriving DecidableEq, Repr

/-- Forms the spec refuses (R14, R489, 93): each is `refuse Unpredictable(reason)` of the rule named. -/
inductive Refusal
  /-- An instruction whose arm of `exec` has no meaning yet. Raised by no arm now. Safe. -/
  | notModelled (mnemonic : String)
  /-- MRS with Rd = 15 (R230). Raised by `execMrs`. Safe. -/
  | mrsToPc
  /-- MUL or MLA with an operand R15 (R240, R241). Raised by `execMul`, `execMla`. Safe. -/
  | multiplyWithPc
  /-- A long multiply with RdHi = RdLo or an operand R15 (R242). Raised by the four long multiplies. Safe. -/
  | longMultiplyRegisters
  /-- A single or halfword transfer that writes back to R15 (R250, R260). Raised by those transfers. Safe. -/
  | writebackToPc
  /-- LDRB with Rd = 15 (R252). Raised by `execLdrb` and `execLdrbt`. Safe. -/
  | ldrbToPc
  /-- A halfword transfer with P = 0 and W = 1 (R260). Raised by the four halfword transfers. Safe. -/
  | halfwordPostIndexWithW
  /-- A halfword transfer with Rd = 15 (R260). Raised by the four halfword transfers. Safe. -/
  | halfwordTransferWithPc
  /-- LDM or STM with base R15 (R270). Raised by the five block transfers. Safe. -/
  | blockBasePc
  /-- User-bank STM with W = 1 (R275). Raised by `execStmUser`. Safe. -/
  | userBankStmWithWriteback
  /-- User-bank LDM with W = 1 (R276). Raised by `execLdmUser`. Safe. -/
  | userBankLdmWithWriteback
  /-- SWP or SWPB with a register R15 (R285, R286). Raised by `execSwp`, `execSwpb`. Safe. -/
  | swapWithPc
  deriving DecidableEq, Repr

/-- The outcome of a step or of an instruction. -/
abbrev Result := Host.Outcome State Fault Refusal

/-- CPSR after reset with BOOT = cartridge_direct (R70). -/
def Cpsr.reset : Cpsr :=
  ⟨false, false, false, false, false, false, false, .sys⟩

/-- CPSR after reset with BOOT = bios: 0x000000D3 (R481). -/
def Cpsr.resetBios : Cpsr :=
  ⟨false, false, false, false, true, true, false, .svc⟩

/-- An SPSR of zeros (R70). -/
def Spsr.zero : Spsr :=
  ⟨false, false, false, false, false, false, false, 0⟩

/-- The fields of a word read as a PSR (R50, R54; log entry 21). -/
def Spsr.ofWord (w : Word) : Spsr :=
  ⟨w.getLsbD 31, w.getLsbD 30, w.getLsbD 29, w.getLsbD 28, w.getLsbD 7, w.getLsbD 6, w.getLsbD 5,
    w.extractLsb' 0 5⟩

/-- A DMA channel of zeros (R70). -/
def DmaChannel.zero : DmaChannel :=
  ⟨0, 0, 0, 0, 0, 0⟩

/-- The banked registers after reset with BOOT = cartridge_direct (log entry 12): R13_usr, R13_irq and R13_svc have the
values of R70, every other register is 0. -/
def regsReset : Vector Word 30 :=
  #v[0, 0, 0, 0, 0, 0, 0, 0, 0, 0, 0, 0, 0, 0x03007F00, 0, 0, 0, 0, 0, 0, 0, 0, 0x03007FA0, 0, 0x03007FE0, 0,
    0, 0, 0, 0]

/-- The banked registers after reset with BOOT = bios: all 0 but R14_svc, which is UNKNOWN (R481). -/
def regsResetBios : Vector Word 30 :=
  #v[0, 0, 0, 0, 0, 0, 0, 0, 0, 0, 0, 0, 0, 0, 0, 0, 0, 0, 0, 0, 0, 0, 0, 0, 0, Config.freeWord 0, 0, 0, 0, 0]

/-- Reset with BOOT = cartridge_direct (R70, R480; `draws` and `ext` by log entry 5). -/
def State.resetCartridge (p : Params) : State where
  regs := regsReset
  r15 := 0x08000000
  cpsr := .reset
  spsr := #v[.zero, .zero, .zero, .zero, .zero]
  pipe := []
  flushed := true
  openBus := 0
  mem := []
  ie := 0
  iff := 0
  ime := false
  halted := false
  dma := #v[.zero, .zero, .zero, .zero]
  now := 0
  seq := 0
  queue := []
  pendingCycles := 0
  ext := 0
  draws := 0
  params := p

/-- Reset with BOOT = bios: the architectural reset (R481); R14_svc and SPSR_svc are UNKNOWN draws. -/
def State.resetBios (p : Params) : State :=
  { State.resetCartridge p with
    regs := regsResetBios
    r15 := 0
    cpsr := .resetBios
    spsr := #v[.zero, .zero, Spsr.ofWord (Config.freeWord 1), .zero, .zero]
    draws := 2 }

/-- Reset with given parameters; BOOT chooses the state (R480, R481). -/
def State.resetWith (p : Params) : State :=
  match p.boot with
  | .cartridgeDirect => State.resetCartridge p
  | .bios => State.resetBios p

/-- The machine right after reset, with the parameter values of log entry 1. -/
def State.reset : State :=
  State.resetWith standardParams

end Sys2Proof.Machine
end

