-- ==== Sys2Proof/Machine/External.lean ====
section
/-! DEFINITION. The external parameters IO_EXTERNAL (R112) and EVENT_HANDLERS (R440), as uninterpreted functions of the
machine state. Their own state is `State.ext`, which the model never reads. -/

namespace Sys2Proof.Machine

/-- The events of `trigger_dma` (R462). -/
inductive DmaEvent
  | hblank
  | vblank
  | fifo (i : Fin 2)
  deriving DecidableEq, Repr

/-- What an external component asks of the core: the calls R440 allows an event handler. -/
inductive HostCall
  /-- `schedule(d, kind)` (R440). -/
  | schedule (delay kind : Nat)
  /-- `raise_interrupt(k)` (R402). -/
  | raiseInterrupt (k : Fin 14)
  /-- `trigger_dma(e)` (R462). -/
  | triggerDma (e : DmaEvent)
  /-- A byte write to an I/O offset. -/
  | writeIo (o : BitVec 10) (b : Byte)
  deriving DecidableEq, Repr

end Sys2Proof.Machine

namespace Sys2Proof.Config

open Sys2Proof.Machine

/-- IO_EXTERNAL, reading a claimed offset: the byte, and the external components' state after the read (R112, log
entry 10). -/
opaque ioRead : State → BitVec 10 → Byte × Nat

/-- IO_EXTERNAL, writing a claimed offset: the external components' state after the write, the interrupts they raise,
and the events (delay, kind) they schedule (R112, R431, log entry 10). -/
opaque ioWrite : State → BitVec 10 → Byte → Nat × List (Fin 14) × List (Nat × Nat)

/-- EVENT_HANDLERS: the next call the handler of an event makes after `done` calls, if it makes one, and the external
components' state then (R440, log entry 11). -/
opaque handlerCall : State → Event → Nat → Option HostCall × Nat

end Sys2Proof.Config
end

