-- ==== Sys2Proof/Machine/Memory.lean ====
section
/-! DEFINITION. Storage: what an unlisted byte reads as, reading and writing one byte, the canonical form, and the
address decoder (R82 to R88, R110). -/

namespace Sys2Proof.Machine

/-- What an unlisted storage key reads as: SRAM 0xFF, every other byte 0 (R70; for the BIOS and ROM images see log
entry 2). SRAM keys begin at 0x0E000000. -/
def unlisted (key : Nat) : Byte :=
  if 0x0E000000 ≤ key then 0xFF else 0

/-- The byte stored under `key`. -/
def memGet : Memory → Nat → Byte
  | [], key => unlisted key
  | (k, b) :: rest, key => if key = k then b else memGet rest key

/-- A cell under `key`, unless the byte is what an unlisted key reads as. -/
def cellFor (key : Nat) (b : Byte) (rest : Memory) : Memory :=
  if b = unlisted key then rest else (key, b) :: rest

/-- Store `b` under `key`, keeping the canonical form. -/
def memSet : Memory → Nat → Byte → Memory
  | [], key, b => cellFor key b []
  | (k, c) :: rest, key, b =>
    if key < k then cellFor key b ((k, c) :: rest)
    else if key = k then cellFor key b rest
    else (k, c) :: memSet rest key b

/-- Keys from `lo` up, strictly rising, and no byte that need not be listed. -/
def memWfFrom : Nat → Memory → Bool
  | _, [] => true
  | lo, (k, b) :: rest => decide (lo ≤ k) && b != unlisted k && memWfFrom (k + 1) rest

/-- The canonical form of a memory. -/
def Memory.wf (m : Memory) : Bool :=
  memWfFrom 0 m

/-- The regions that hold storage (R82). -/
inductive Region
  | bios | ewram | iwram | palette | vram | oam | rom | sram
  deriving DecidableEq, Repr

/-- The storage key of a region's first byte: its first address (R82). -/
def regionBase : Region → Nat
  | .bios => 0x00000000
  | .ewram => 0x02000000
  | .iwram => 0x03000000
  | .palette => 0x05000000
  | .vram => 0x06000000
  | .oam => 0x07000000
  | .rom => 0x08000000
  | .sram => 0x0E000000

/-- BIOS and ROM ignore writes (R83, R87). -/
def readOnly : Region → Bool
  | .bios | .rom => true
  | .ewram | .iwram | .palette | .vram | .oam | .sram => false

/-- What an address reaches (R82). -/
inductive Target
  /-- The byte at `offset` of a region's storage. -/
  | cell (r : Region) (offset : Nat)
  /-- The BIOS region beyond 16 KiB: reads 0, ignores writes (R83). -/
  | zero
  /-- An I/O byte (R110). -/
  | io (o : BitVec 10)
  /-- Unmapped: reads open bus, ignores writes (R90). -/
  | unmapped
  deriving DecidableEq, Repr

/-- The VRAM offset of an address (R86). -/
def vramOffset (a : Nat) : Nat :=
  let o := a % 0x20000
  if 0x18000 ≤ o then o - 0x8000 else o

/-- The ROM byte of an address (R87, log entry 20). -/
def romTarget (p : Params) (a : Nat) : Target :=
  let o := a % 0x02000000
  if o < p.romSize then .cell .rom o
  else if p.romMirror then .cell .rom (o % p.romSize)
  else .unmapped

/-- The address decoder (R82): the region is addr[31:24]. -/
def locate (p : Params) (addr : Word) : Target :=
  let a := addr.toNat
  match a / 0x01000000 with
  | 0x00 | 0x01 => if a ≤ 0x00003FFF then .cell .bios a else .zero
  | 0x02 => .cell .ewram (a % 0x40000)
  | 0x03 => .cell .iwram (a % 0x8000)
  | 0x04 => .io (addr.extractLsb' 0 10)
  | 0x05 => .cell .palette (a % 0x400)
  | 0x06 => .cell .vram (vramOffset a)
  | 0x07 => .cell .oam (a % 0x400)
  | 0x08 | 0x09 | 0x0A | 0x0B | 0x0C | 0x0D => romTarget p a
  | 0x0E | 0x0F => .cell .sram (a % 2 ^ p.sramBits)
  | _ => .unmapped

/-- The byte at a storage place. -/
def cellGet (r : Region) (offset : Nat) (s : State) : Byte :=
  memGet s.mem (regionBase r + offset)

/-- The state with a byte placed in storage, read-only or not (the host's loader; CPU writes go through `putCell`). -/
def loadCell (r : Region) (offset : Nat) (b : Byte) (s : State) : State :=
  { s with mem := memSet s.mem (regionBase r + offset) b }

/-- A bus write of one byte to storage; BIOS and ROM ignore it (R83, R87). -/
def putCell (r : Region) (offset : Nat) (b : Byte) (s : State) : State :=
  if readOnly r then s else loadCell r offset b s

/-- The byte of `open_bus` in the lane of an unmapped address (R90). -/
def openBusLane (addr : Word) (s : State) : Byte :=
  (s.openBus >>> (8 * (addr.toNat % 4))).setWidth 8

end Sys2Proof.Machine
end

