-- ==== Sys2Proof/Machine/Ops.lean ====
section
/-! DEFINITION. The named operations over registers and status: the banked view, branches and the pipeline flush, the
PSRs, free values, taking an exception and returning from one. -/

namespace Sys2Proof.Machine

/-- Continue from a next state; a fault or a refusal ends the step. -/
def andThen (r : Result) (k : State → Result) : Result :=
  match r with
  | .next s => k s
  | .fault f => .fault f
  | .refused f => .refused f

/-! Computations without a bound. Some rules recurse with no bound on the depth (R441, R453, R465). Each is written as a
function of a bound, which answers `.fault stop` where the bound is too small, and `unbounded` takes the answer that
every large enough bound gives. -/

/-- The bound was too small. -/
def ranOut (stop : Fault) : Result → Bool
  | .fault f => f == stop
  | .next _ | .refused _ => false

/-- The answer of the first bound, from `k` up, that is large enough, if there is one. -/
def firstAnswer (stop : Fault) (f : Nat → Result) (k : Nat) : Option Result :=
  if ranOut stop (f k) then firstAnswer stop f (k + 1) else some (f k)
partial_fixpoint

/-- The answer `f` gives under every large enough bound; `.fault stop` where no bound is large enough. The bound 64 is
asked first, so that an ordinary run evaluates without a search. -/
def unbounded (stop : Fault) (f : Nat → Result) : Result :=
  match f 64 with
  | .next s => .next s
  | .refused r => .refused r
  | .fault g => if g = stop then (firstAnswer stop f 65).getD (.fault stop) else .fault g

/-! Modes (R31). -/

/-- The mode number (R31). -/
def modeBits : Mode → BitVec 5
  | .usr => 0x10
  | .fiq => 0x11
  | .irq => 0x12
  | .svc => 0x13
  | .abt => 0x17
  | .und => 0x1B
  | .sys => 0x1F

/-- The mode a number names, if it is one of the seven (R31). -/
def modeOf (b : BitVec 5) : Option Mode :=
  match b.toNat with
  | 0x10 => some .usr
  | 0x11 => some .fiq
  | 0x12 => some .irq
  | 0x13 => some .svc
  | 0x17 => some .abt
  | 0x1B => some .und
  | 0x1F => some .sys
  | _ => none

/-- The index of a mode's SPSR; USR and SYS have none (R54). -/
def spsrIndex : Mode → Option (Fin 5)
  | .fiq => some 0
  | .irq => some 1
  | .svc => some 2
  | .abt => some 3
  | .und => some 4
  | .usr | .sys => none

/-! Registers (R30, R33). -/

/-- The physical index of R13 in a mode (R33); R14's is the next. -/
def stackIndex : Mode → Nat
  | .usr | .sys => 13
  | .fiq => 20
  | .irq => 22
  | .svc => 24
  | .abt => 26
  | .und => 28

/-- `view(m, n)` of R33 for n in 0..14, as an index into `State.regs`; R15 is not banked and never looked up here. -/
def physIndex (m : Mode) (n : RegNum) : Nat :=
  if n.toNat < 8 then n.toNat
  else if n.toNat < 13 then (if m = .fiq then n.toNat + 7 else n.toNat)
  else stackIndex m + (n.toNat - 13) % 2

theorem physIndex_lt (m : Mode) (n : RegNum) : physIndex m n < 30 := by
  revert n; cases m <;> decide

/-- Read register `n` through the view of mode `m` (R33). -/
def getRegIn (m : Mode) (n : RegNum) (s : State) : Word :=
  if n = 15 then s.r15 else s.regs[physIndex m n]'(physIndex_lt m n)

/-- Read `R[n]`, the current mode's view (R12, R33, R42). -/
def getReg (n : RegNum) (s : State) : Word :=
  getRegIn s.cpsr.mode n s

/-- Write one of R0..R14 through the view of mode `m` (R33). -/
def putRegIn (m : Mode) (n : RegNum) (v : Word) (s : State) : State :=
  { s with regs := s.regs.set (physIndex m n) v (physIndex_lt m n) }

/-- The instruction width in bytes (R15 of 00_scope). -/
def instrBytes (s : State) : Word :=
  if s.cpsr.t then 2 else 4

/-- `InstrAddr`, the address of the executing instruction (R40). -/
def instrAddr (s : State) : Word :=
  s.r15 - 2 * instrBytes s

/-- The address a branch to `v` reaches in the present state (R41). -/
def alignPc (thumb : Bool) (v : Word) : Word :=
  if thumb then v &&& 0xFFFFFFFE else v &&& 0xFFFFFFFC

/-- A write of R15: align, then flush the pipeline (R41, R44). -/
def branchTo (v : Word) (s : State) : State :=
  { s with r15 := alignPc s.cpsr.t v, pipe := [], flushed := true }

/-- `R[n] <- v` through the view of mode `m`; n = 15 is a branch (R12, R41). -/
def setRegIn (m : Mode) (n : RegNum) (v : Word) (s : State) : State :=
  if n = 15 then branchTo v s else putRegIn m n v s

/-- `R[n] <- v` (R12). -/
def setReg (n : RegNum) (v : Word) (s : State) : State :=
  setRegIn s.cpsr.mode n v s

/-- A low register's number (R330). -/
def low (r : LowReg) : RegNum :=
  r.setWidth 4

/-! Program status registers (R50 to R55). -/

/-- CPSR as a word; the reserved bits read 0 (R50). -/
def cpsrWord (p : Cpsr) : Word :=
  BitVec.ofBool p.n ++ BitVec.ofBool p.z ++ BitVec.ofBool p.c ++ BitVec.ofBool p.v ++ 0#20
    ++ BitVec.ofBool p.i ++ BitVec.ofBool p.f ++ BitVec.ofBool p.t ++ modeBits p.mode

/-- An SPSR as a word; the reserved bits read 0 (R54). -/
def spsrWord (p : Spsr) : Word :=
  BitVec.ofBool p.n ++ BitVec.ofBool p.z ++ BitVec.ofBool p.c ++ BitVec.ofBool p.v ++ 0#20
    ++ BitVec.ofBool p.i ++ BitVec.ofBool p.f ++ BitVec.ofBool p.t ++ p.mode

/-- The SPSR that saves a CPSR (R411). -/
def saveCpsr (p : Cpsr) : Spsr :=
  ⟨p.n, p.z, p.c, p.v, p.i, p.f, p.t, modeBits p.mode⟩

/-- The CPSR an SPSR restores; an invalid mode number leaves the mode unchanged (R37, R417). -/
def restoredCpsr (p : Spsr) (old : Cpsr) : Cpsr :=
  ⟨p.n, p.z, p.c, p.v, p.i, p.f, p.t, (modeOf p.mode).getD old.mode⟩

/-- `CPSR <- SPSR` of the current mode; USR and SYS have no SPSR and leave CPSR unchanged (R206, R277, R417). -/
def restoreCpsr (s : State) : State :=
  match spsrIndex s.cpsr.mode with
  | some k => { s with cpsr := restoredCpsr s.spsr[k] s.cpsr }
  | none => s

/-- `WriteCPSR(v, mask)` (R232, R233): flags in any mode, I, F and a valid mode number outside USR, never T. -/
def writeCpsr (v : Word) (mask : BitVec 4) (s : State) : State :=
  let old := s.cpsr
  let flags : Cpsr :=
    if mask.getLsbD 3 then
      { old with n := v.getLsbD 31, z := v.getLsbD 30, c := v.getLsbD 29, v := v.getLsbD 28 }
    else old
  let all : Cpsr :=
    if mask.getLsbD 0 && old.mode != .usr then
      { flags with i := v.getLsbD 7, f := v.getLsbD 6, mode := (modeOf (v.extractLsb' 0 5)).getD old.mode }
    else flags
  { s with cpsr := all }

/-- An SPSR after MSR (R231): mask bit 3 writes the flags, mask bit 0 bits 7..0. -/
def writtenSpsr (v : Word) (mask : BitVec 4) (old : Spsr) : Spsr :=
  let flags : Spsr :=
    if mask.getLsbD 3 then
      { old with n := v.getLsbD 31, z := v.getLsbD 30, c := v.getLsbD 29, v := v.getLsbD 28 }
    else old
  if mask.getLsbD 0 then
    { flags with i := v.getLsbD 7, f := v.getLsbD 6, t := v.getLsbD 5, mode := v.extractLsb' 0 5 }
  else flags

/-- MSR to SPSR: nothing in USR and SYS (R54, R231). -/
def writeSpsr (v : Word) (mask : BitVec 4) (s : State) : State :=
  match spsrIndex s.cpsr.mode with
  | some k => { s with spsr := s.spsr.set k (writtenSpsr v mask s.spsr[k]) }
  | none => s

/-! Free values (R20, log entry 4). -/

/-- Draw a bit. -/
def drawBit (s : State) : Bool × State :=
  (Config.freeBit s.draws, { s with draws := s.draws + 1 })

/-- Draw a word. -/
def drawWord (s : State) : Word × State :=
  (Config.freeWord s.draws, { s with draws := s.draws + 1 })

/-- Read SPSR as a word; in USR and SYS an UNKNOWN word is drawn (R54). -/
def readSpsr (s : State) : Word × State :=
  match spsrIndex s.cpsr.mode with
  | some k => (spsrWord s.spsr[k], s)
  | none => drawWord s

/-! Exceptions (R400, R411, R417). -/

/-- Save CPSR in the SPSR of mode `m` (R411). USR and SYS are never entered so and have no SPSR. -/
def saveSpsr (m : Mode) (p : Cpsr) (s : State) : State :=
  match spsrIndex m with
  | some k => { s with spsr := s.spsr.set k (saveCpsr p) }
  | none => s

/-- `Enter(mode, vector, lr)` (R411): switch mode, save the old CPSR, clear T, set I, write R14 of the new mode,
branch to the vector. F is unchanged. -/
def enterException (m : Mode) (vector lr : Word) (s : State) : State :=
  let s1 := saveSpsr m s.cpsr { s with cpsr := { s.cpsr with mode := m, t := false, i := true } }
  branchTo vector (putRegIn m 14 lr s1)

/-- Take the software interrupt (R413). -/
def takeSwi (s : State) : State :=
  enterException .svc 0x00000008 (instrAddr s + instrBytes s) s

/-- Take the undefined-instruction exception (R414). -/
def takeUndefined (s : State) : State :=
  enterException .und 0x00000004 (instrAddr s + instrBytes s) s

/-- Take an IRQ, after the refill and before the next instruction (R412). -/
def takeIrq (s : State) : State :=
  enterException .irq 0x00000018 (s.r15 - (if s.cpsr.t then 0 else 4)) s

/-- An undefined encoding, by UNDEF_POLICY (R310, D7). -/
def undefinedEncoding (s : State) : State :=
  match s.params.undefPolicy with
  | .trap => takeUndefined s
  | .skip => s

/-- The return from an exception with result `v` for R15 (R206, R277, R417): restore CPSR, then branch, aligned by the
restored T. -/
def returnFromException (v : Word) (s : State) : State :=
  branchTo v (restoreCpsr s)

/-! Interrupts (R62, R402). -/

/-- An enabled source is pending (R421). -/
def wakePending (s : State) : Bool :=
  s.ie &&& s.iff != 0

/-- The IRQ line (R62). -/
def irqLine (s : State) : Bool :=
  s.ime && wakePending s

/-- `raise_interrupt(k)` (R402). -/
def raiseInterrupt (k : Fin 14) (s : State) : State :=
  { s with iff := s.iff ||| (1#14 <<< k.val) }

end Sys2Proof.Machine
end

