-- ==== Sys2Proof/Machine/Bus.lean ====
section
/-! DEFINITION. The bus (R80 to R101), the I/O registers the core owns (R110 to R113), and the DMA engine that runs
inside a bus write (R450 to R466). -/

namespace Sys2Proof.Machine

/-- Access widths (R91). -/
inductive Width
  | byte | half | word
  deriving DecidableEq, Repr

/-- Alignment of a plain access (R95). -/
def alignTo (w : Width) (addr : Word) : Word :=
  match w with
  | .byte => addr
  | .half => addr &&& 0xFFFFFFFE
  | .word => addr &&& 0xFFFFFFFC

/-- Byte `k` of a value, counting from the least significant (R81). -/
def byteAt {n : Nat} (v : BitVec n) (k : Nat) : Byte :=
  v.extractLsb' (8 * k) 8

/-- A value with byte `k` replaced. -/
def withByte {n : Nat} (v : BitVec n) (k : Nat) (b : Byte) : BitVec n :=
  (v &&& ~~~((0xFF#8).setWidth n <<< (8 * k))) ||| (b.setWidth n <<< (8 * k))

/-! The I/O registers of the core (R111). -/

/-- What an I/O offset names; `k` is the byte within the register. -/
inductive IoReg
  | sad (ch : Fin 4) (k : Nat)
  | dad (ch : Fin 4) (k : Nat)
  | cntL (ch : Fin 4) (k : Nat)
  | cntH (ch : Fin 4) (k : Nat)
  | ie (k : Nat)
  | iff (k : Nat)
  | ime (k : Nat)
  | haltcnt
  /-- Not the core's (R112). -/
  | external
  deriving DecidableEq, Repr

/-- The registers of DMA channel `ch`, by offset within its 12 bytes (R111). -/
def dmaReg (ch : Fin 4) (k : Nat) : IoReg :=
  if k < 4 then .sad ch k
  else if k < 8 then .dad ch (k - 4)
  else if k < 10 then .cntL ch (k - 8)
  else .cntH ch (k - 10)

/-- The register at an I/O offset (R111). -/
def ioReg (o : BitVec 10) : IoReg :=
  let n := o.toNat
  if 0xB0 ≤ n ∧ n < 0xE0 then dmaReg (Fin.ofNat 4 ((n - 0xB0) / 12)) ((n - 0xB0) % 12)
  else if n = 0x200 then .ie 0
  else if n = 0x201 then .ie 1
  else if n = 0x202 then .iff 0
  else if n = 0x203 then .iff 1
  else if n = 0x208 then .ime 0
  else if n = 0x209 then .ime 1
  else if n = 0x301 then .haltcnt
  else .external

/-- Read an offset the core does not own: its handler, or 0 (R112). -/
def externalRead (o : BitVec 10) (s : State) : Byte × State :=
  if s.params.ioClaims.contains o then
    ((Config.ioRead s o).1, { s with ext := (Config.ioRead s o).2 })
  else (0, s)

/-- Read one I/O byte (R110 to R112). SAD, DAD and CNT_L are write-only and read 0 (R451). -/
def ioReadByte (o : BitVec 10) (s : State) : Byte × State :=
  match ioReg o with
  | .sad _ _ | .dad _ _ | .cntL _ _ => (0, s)
  | .cntH ch k => (byteAt s.dma[ch].cntH k, s)
  | .ie k => (byteAt (s.ie.setWidth 16) k, s)
  | .iff k => (byteAt (s.iff.setWidth 16) k, s)
  | .ime k => (if k = 0 then (BitVec.ofBool s.ime).setWidth 8 else 0, s)
  | .haltcnt => (0, s)
  | .external => externalRead o s

/-! Reading the bus. -/

/-- Read one byte of the bus (R82 to R90, R110). -/
def busRead (addr : Word) (s : State) : Byte × State :=
  match locate s.params addr with
  | .cell r offset => (cellGet r offset s, s)
  | .zero => (0, s)
  | .io o => ioReadByte o s
  | .unmapped => (openBusLane addr s, s)

/-- `MemRead(addr, n)`, zero-extended (R13, R81, R95). -/
def memRead (w : Width) (addr : Word) (s : State) : Word × State :=
  let a := alignTo w addr
  match w with
  | .byte =>
    let b0 := busRead a s
    (b0.1.setWidth 32, b0.2)
  | .half =>
    let b0 := busRead a s
    let b1 := busRead (a + 1) b0.2
    ((b1.1 ++ b0.1).setWidth 32, b1.2)
  | .word =>
    let b0 := busRead a s
    let b1 := busRead (a + 1) b0.2
    let b2 := busRead (a + 2) b1.2
    let b3 := busRead (a + 3) b2.2
    (b3.1 ++ b2.1 ++ b1.1 ++ b0.1, b3.2)

/-- `MemReadRot(a, 4)` (R96). -/
def memReadRot (addr : Word) (s : State) : Word × State :=
  let r := memRead .word addr s
  (r.1.rotateRight (8 * (addr.toNat % 4)), r.2)

/-- `MemReadHalfRot(a)` (R97). -/
def memReadHalfRot (addr : Word) (s : State) : Word × State :=
  let r := memRead .half addr s
  (if addr.getLsbD 0 then r.1.rotateRight 8 else r.1, r.2)

/-- `sext_8(MemRead(a, 1))` (R98). -/
def memReadByteSigned (addr : Word) (s : State) : Word × State :=
  let r := memRead .byte addr s
  ((r.1.setWidth 8 : Byte).signExtend 32, r.2)

/-- `MemReadHalfSigned(a)` (R98). -/
def memReadHalfSigned (addr : Word) (s : State) : Word × State :=
  if addr.getLsbD 0 then memReadByteSigned addr s
  else
    let r := memRead .half addr s
    ((r.1.setWidth 16 : Half).signExtend 32, r.2)

/-! DMA registers (R57, R450, R451). -/

/-- The stored bits of SAD (R451). -/
def sadMask (ch : Fin 4) : Word :=
  if ch = 0 then 0x07FFFFFF else 0x0FFFFFFF

/-- The stored bits of DAD (R451). -/
def dadMask (ch : Fin 4) : Word :=
  if ch = 3 then 0x0FFFFFFF else 0x07FFFFFF

/-- The stored bits of CNT_L (R451). -/
def cntLMask (ch : Fin 4) : BitVec 16 :=
  if ch = 3 then 0xFFFF else 0x3FFF

/-- The stored bits of CNT_H (R450). -/
def cntHMask (ch : Fin 4) : BitVec 16 :=
  if ch = 3 then 0xFFE0 else 0xF7E0

/-- CNT_H.dst_ctrl (R450). -/
def dstCtrl (c : BitVec 16) : BitVec 2 := c.extractLsb' 5 2

/-- CNT_H.src_ctrl (R450). -/
def srcCtrl (c : BitVec 16) : BitVec 2 := c.extractLsb' 7 2

/-- CNT_H.repeat (R450). -/
def dmaRepeat (c : BitVec 16) : Bool := c.getLsbD 9

/-- CNT_H.type (R450). -/
def dmaWordType (c : BitVec 16) : Bool := c.getLsbD 10

/-- CNT_H.timing (R450): 0 Immediate, 1 VBlank, 2 HBlank, 3 Special. -/
def dmaTiming (c : BitVec 16) : BitVec 2 := c.extractLsb' 12 2

/-- CNT_H.irq (R450). -/
def dmaIrq (c : BitVec 16) : Bool := c.getLsbD 14

/-- CNT_H.enable (R450). -/
def dmaEnabled (c : BitVec 16) : Bool := c.getLsbD 15

/-- Replace a channel. -/
def setDma (ch : Fin 4) (d : DmaChannel) (s : State) : State :=
  { s with dma := s.dma.set ch d }

/-- The state after CNT_H of a channel is written at the enable edge: the latches take SAD and DAD (R452). -/
def latchDma (ch : Fin 4) (s : State) : State :=
  setDma ch { s.dma[ch] with isrc := s.dma[ch].sad, idst := s.dma[ch].dad } s

/-- A write of the high byte of CNT_H, which may start a transfer (R452); `run` is `Run`. -/
def writeCntHigh (run : Fin 4 → State → Result) (ch : Fin 4) (b : Byte) (s : State) : Result :=
  let old := s.dma[ch].cntH
  let new := withByte old 1 b &&& cntHMask ch
  let s1 := setDma ch { s.dma[ch] with cntH := new } s
  if !dmaEnabled old && dmaEnabled new then
    let s2 := latchDma ch s1
    if dmaTiming new = 0 then run ch s2 else .next s2
  else .next s1

/-! External effects (R402, R440). -/

/-- `schedule(d, kind)` (R440). -/
def schedule (delay kind : Nat) (s : State) : State :=
  { s with queue := s.queue ++ [⟨s.now + delay, s.seq, kind⟩], seq := s.seq + 1 }

/-- Write an offset the core does not own: its handler, or nothing (R112). -/
def externalWrite (o : BitVec 10) (b : Byte) (s : State) : State :=
  if s.params.ioClaims.contains o then
    let r := Config.ioWrite s o b
    let s1 := r.2.1.foldl (fun t k => raiseInterrupt k t) { s with ext := r.1 }
    r.2.2.foldl (fun t d => schedule d.1 d.2 t) s1
  else s

/-! Writing the bus. -/

/-- Write one I/O byte (R110 to R113). -/
def ioWriteByte (run : Fin 4 → State → Result) (o : BitVec 10) (b : Byte) (s : State) : Result :=
  match ioReg o with
  | .sad ch k => .next (setDma ch { s.dma[ch] with sad := withByte s.dma[ch].sad k b &&& sadMask ch } s)
  | .dad ch k => .next (setDma ch { s.dma[ch] with dad := withByte s.dma[ch].dad k b &&& dadMask ch } s)
  | .cntL ch k => .next (setDma ch { s.dma[ch] with cntL := withByte s.dma[ch].cntL k b &&& cntLMask ch } s)
  | .cntH ch k =>
    if k = 0 then .next (setDma ch { s.dma[ch] with cntH := withByte s.dma[ch].cntH 0 b &&& cntHMask ch } s)
    else writeCntHigh run ch b s
  | .ie k => .next { s with ie := (withByte (s.ie.setWidth 16) k b).setWidth 14 }
  | .iff k => .next { s with iff := s.iff &&& ~~~((b.setWidth 16 <<< (8 * k)).setWidth 14) }
  | .ime k => .next (if k = 0 then { s with ime := b.getLsbD 0 } else s)
  | .haltcnt => .next { s with halted := true }
  | .external => .next (externalWrite o b s)

/-- Write one byte of the bus, whatever the width of the access it belongs to. -/
def busWrite (run : Fin 4 → State → Result) (addr : Word) (b : Byte) (s : State) : Result :=
  match locate s.params addr with
  | .cell r offset => .next (putCell r offset b s)
  | .zero => .next s
  | .io o => ioWriteByte run o b s
  | .unmapped => .next s

/-- A byte access: palette and VRAM write both bytes of the halfword, OAM none (R94). -/
def byteWrite (run : Fin 4 → State → Result) (addr : Word) (b : Byte) (s : State) : Result :=
  match locate s.params addr with
  | .cell .palette _ | .cell .vram _ =>
    andThen (busWrite run (addr &&& 0xFFFFFFFE) b s) fun s1 => busWrite run (addr ||| 1) b s1
  | .cell .oam _ => .next s
  | .cell .bios _ | .cell .ewram _ | .cell .iwram _ | .cell .rom _ | .cell .sram _ | .zero | .io _ | .unmapped =>
    busWrite run addr b s

/-- `MemWrite(addr, n, v)`; `run` starts a DMA transfer (R13, R93 to R95, R110). -/
def memWrite (run : Fin 4 → State → Result) (w : Width) (addr : Word) (v : Word) (s : State) : Result :=
  let a := alignTo w addr
  match w with
  | .byte => byteWrite run a (byteAt v 0) s
  | .half =>
    andThen (busWrite run a (byteAt v 0) s) fun s1 => busWrite run (a + 1) (byteAt v 1) s1
  | .word =>
    andThen (busWrite run a (byteAt v 0) s) fun s1 =>
    andThen (busWrite run (a + 1) (byteAt v 1) s1) fun s2 =>
    andThen (busWrite run (a + 2) (byteAt v 2) s2) fun s3 => busWrite run (a + 3) (byteAt v 3) s3

/-! The DMA engine (R453 to R465). -/

/-- The parameters of one transfer (R453, steps 1 to 3): unit width, length, and the two control values used. -/
structure DmaPlan where
  width : Width
  len : Nat
  src : BitVec 2
  dst : BitVec 2
  deriving DecidableEq, Repr

/-- A sound-FIFO transfer (R453 step 3, R457). -/
def fifoTransfer (ch : Fin 4) (c : BitVec 16) : Bool :=
  dmaTiming c == 3 && (ch == 1 || ch == 2)

/-- The length of a transfer; 0 means the maximum (R461). -/
def dmaLength (ch : Fin 4) (cntL : BitVec 16) : Nat :=
  if cntL = 0 then (if ch = 3 then 0x10000 else 0x4000) else cntL.toNat

/-- The plan of a transfer, from the registers at its start (R453). The FIFO override comes first (D36). -/
def dmaPlan (ch : Fin 4) (d : DmaChannel) : DmaPlan :=
  let src := if srcCtrl d.cntH = 3 then 0 else srcCtrl d.cntH
  if fifoTransfer ch d.cntH then ⟨.word, 4, src, 2⟩
  else ⟨if dmaWordType d.cntH then .word else .half, dmaLength ch d.cntL, src, dstCtrl d.cntH⟩

/-- Bytes of a unit (R460). -/
def unitBytes : Width → Word
  | .byte => 1
  | .half => 2
  | .word => 4

/-- How far an address moves after a unit (R453: `ws * delta(ctrl)`). -/
def dmaDelta (ctrl : BitVec 2) (w : Width) : Word :=
  if ctrl = 1 then 0 - unitBytes w
  else if ctrl = 2 then 0
  else unitBytes w

/-- One unit of a transfer: a read, a write, and the latches move (R453 step 4, R454). -/
def dmaUnit (run : Fin 4 → State → Result) (ch : Fin 4) (p : DmaPlan) (s : State) : Result :=
  let r := memRead p.width s.dma[ch].isrc s
  andThen (memWrite run p.width r.2.dma[ch].idst r.1 r.2) fun s1 =>
    .next (setDma ch
      { s1.dma[ch] with
        isrc := s1.dma[ch].isrc + dmaDelta p.src p.width
        idst := s1.dma[ch].idst + dmaDelta p.dst p.width } s1)

/-- The units of a transfer, one after another. -/
def dmaUnits (run : Fin 4 → State → Result) (ch : Fin 4) (p : DmaPlan) : Nat → State → Result
  | 0, s => .next s
  | n + 1, s => andThen (dmaUnit run ch p s) (dmaUnits run ch p n)

/-- A channel after a transfer whose control value was `c` (R453 steps 5 and 6). -/
def finishedChannel (c : BitVec 16) (p : DmaPlan) (d : DmaChannel) : DmaChannel where
  sad := d.sad
  dad := d.dad
  cntL := d.cntL
  cntH := if dmaRepeat c && dmaTiming c != 0 then d.cntH else d.cntH &&& 0x7FFF
  isrc := d.isrc
  idst := if p.dst = 3 then d.dad else d.idst

/-- The end-of-transfer interrupt (R463). -/
def raiseDmaIrq (ch : Fin 4) (c : BitVec 16) (s : State) : State :=
  if dmaIrq c then raiseInterrupt (Fin.ofNat 14 (8 + ch.val)) s else s

/-- The cycles of a transfer, to be paid by the next tick (R464). -/
def addPending (n : Nat) (s : State) : State :=
  { s with pendingCycles := s.pendingCycles + n }

/-- The end of a transfer whose control value was `c` (R453 steps 5 and 6, R463, R464). -/
def dmaFinish (ch : Fin 4) (c : BitVec 16) (p : DmaPlan) (s : State) : State :=
  addPending p.len (raiseDmaIrq ch c (setDma ch (finishedChannel c p s.dma[ch]) s))

/-- `Run(ch)` (R453); `run` is what an enable edge inside the transfer starts. The plan and the control value are those
at the start (DEDUCED, log entry 19). -/
def runBody (run : Fin 4 → State → Result) (ch : Fin 4) (s : State) : Result :=
  let p := dmaPlan ch s.dma[ch]
  andThen (dmaUnits run ch p p.len s) fun s1 => .next (dmaFinish ch s.dma[ch].cntH p s1)

/-- `Run(ch)` with at most `k` transfers active at once. -/
def dmaRun : Nat → Fin 4 → State → Result
  | 0, _, _ => .fault .dmaEndless
  | k + 1, ch, s => runBody (dmaRun k) ch s

/-- `Run(ch)`, with transfers nested to any depth (R452, R465); `startDma_eq` says that it is `runBody` with itself as
what an enable edge starts (log entry 6). -/
def startDma (ch : Fin 4) (s : State) : Result :=
  unbounded .dmaEndless fun k => dmaRun k ch s

/-- A store of the CPU: `MemWrite(addr, n, v)` (R13). -/
def store (w : Width) (addr v : Word) (s : State) : Result :=
  memWrite startDma w addr v s

/-- A channel an event triggers: armed, with the event's timing (R462). -/
def triggered (e : DmaEvent) (ch : Fin 4) (c : BitVec 16) : Bool :=
  dmaEnabled c &&
    match e with
    | .hblank => dmaTiming c == 2
    | .vblank => dmaTiming c == 1
    | .fifo i => dmaTiming c == 3 && ch.val == i.val + 1

/-- Run a channel if the event triggers it when the loop reaches it (R462). -/
def triggerChannel (e : DmaEvent) (ch : Fin 4) (s : State) : Result :=
  if triggered e ch s.dma[ch].cntH then startDma ch s else .next s

/-- `trigger_dma(event)`: the channels in ascending order (R462, R465). -/
def triggerDma (e : DmaEvent) (s : State) : Result :=
  andThen (triggerChannel e 0 s) fun s1 =>
  andThen (triggerChannel e 1 s1) fun s2 =>
  andThen (triggerChannel e 2 s2) fun s3 => triggerChannel e 3 s3

end Sys2Proof.Machine
end

