-- ==== Sys2Proof/Syntax.lean ====
section
/-! DEFINITION. The instructions: one constructor per row of spec/opcode_table.json, in the table's order (ARM rows,
then THUMB rows, whose constructors begin with `t`). Fields are those of the formats R131 and R160. Bits a format
leaves without an operand (R171, R361) are kept as fields, so that an instruction determines its word; no meaning
reads them (log entry 23). -/

namespace Sys2Proof

/-- The condition field (R140), in the order of its values 0..15. -/
inductive Cond
  | eq | ne | cs | cc | mi | pl | vs | vc | hi | ls | ge | lt | gt | le | al | nv
  deriving DecidableEq, Repr

/-- Shift types (R131, bits 6..5), in the order of their values 0..3. -/
inductive ShiftType
  | lsl | lsr | asr | ror
  deriving DecidableEq, Repr

/-- Operand 2 of a data-processing instruction (R147). -/
inductive Operand2
  /-- I = 1: `imm8` rotated right by `2 * rot`. -/
  | imm (rot : BitVec 4) (imm8 : Byte)
  /-- I = 0, bit 4 = 0: `Rm` shifted by an immediate amount. -/
  | shiftImm (amount : BitVec 5) (ty : ShiftType) (rm : RegNum)
  /-- I = 0, bit 4 = 1: `Rm` shifted by the low byte of `Rs`. -/
  | shiftReg (rs : RegNum) (ty : ShiftType) (rm : RegNum)
  deriving DecidableEq, Repr

/-- The offset of a single data transfer (R149). -/
inductive Offset
  | imm (imm12 : BitVec 12)
  | reg (amount : BitVec 5) (ty : ShiftType) (rm : RegNum)
  deriving DecidableEq, Repr

/-- The offset of a halfword transfer (R149); the register form ignores bits 11..8 (R171). -/
inductive HalfOffset
  | imm (imm8 : Byte)
  | reg (ignored : BitVec 4) (rm : RegNum)
  deriving DecidableEq, Repr

/-- The P, U and W bits of a transfer (R250, R270). -/
structure Index where
  p : Bool
  u : Bool
  w : Bool
  deriving DecidableEq, Repr

/-- The P, U, N, W bits of a coprocessor data transfer (R131). -/
structure CopIndex where
  p : Bool
  u : Bool
  n : Bool
  w : Bool
  deriving DecidableEq, Repr

/-- One constructor per row of spec/opcode_table.json. -/
inductive Instr
  -- ARM branch and exchange (R305)
  | bx (c : Cond) (rm : RegNum)
  -- ARM multiply (R240, R241); `ign` is bits 15..12 of MUL (R171)
  | mul (c : Cond) (sf : Bool) (rd ign rs rm : RegNum)
  | mla (c : Cond) (sf : Bool) (rd rn rs rm : RegNum)
  -- ARM multiply long (R242 to R245)
  | umull (c : Cond) (sf : Bool) (hi lo rs rm : RegNum)
  | umlal (c : Cond) (sf : Bool) (hi lo rs rm : RegNum)
  | smull (c : Cond) (sf : Bool) (hi lo rs rm : RegNum)
  | smlal (c : Cond) (sf : Bool) (hi lo rs rm : RegNum)
  -- ARM single data swap (R285, R286)
  | swp (c : Cond) (rn rd rm : RegNum)
  | swpb (c : Cond) (rn rd rm : RegNum)
  -- ARM halfword data transfer (R260 to R264)
  | strh (c : Cond) (ix : Index) (rn rd : RegNum) (off : HalfOffset)
  | ldrh (c : Cond) (ix : Index) (rn rd : RegNum) (off : HalfOffset)
  | ldrsb (c : Cond) (ix : Index) (rn rd : RegNum) (off : HalfOffset)
  | ldrsh (c : Cond) (ix : Index) (rn rd : RegNum) (off : HalfOffset)
  -- ARM undefined spaces (R170, R310); `rest` is bits 27..0
  | undStoreSh10 (c : Cond) (rest : BitVec 28)
  | undStoreSh11 (c : Cond) (rest : BitVec 28)
  | undMulSwap (c : Cond) (rest : BitVec 28)
  -- ARM PSR transfer (R230, R231); `spsr` is the R bit
  | mrs (c : Cond) (spsr : Bool) (rd : RegNum)
  | msrReg (c : Cond) (spsr : Bool) (mask : BitVec 4) (rm : RegNum)
  | msrImm (c : Cond) (spsr : Bool) (mask : BitVec 4) (rot : BitVec 4) (imm8 : Byte)
  | undPsr (c : Cond) (rest : BitVec 28)
  -- ARM data processing (R204 to R222); `sf` is the S bit
  | and (c : Cond) (sf : Bool) (rn rd : RegNum) (op2 : Operand2)
  | eor (c : Cond) (sf : Bool) (rn rd : RegNum) (op2 : Operand2)
  | sub (c : Cond) (sf : Bool) (rn rd : RegNum) (op2 : Operand2)
  | rsb (c : Cond) (sf : Bool) (rn rd : RegNum) (op2 : Operand2)
  | add (c : Cond) (sf : Bool) (rn rd : RegNum) (op2 : Operand2)
  | adc (c : Cond) (sf : Bool) (rn rd : RegNum) (op2 : Operand2)
  | sbc (c : Cond) (sf : Bool) (rn rd : RegNum) (op2 : Operand2)
  | rsc (c : Cond) (sf : Bool) (rn rd : RegNum) (op2 : Operand2)
  | tst (c : Cond) (rn ign : RegNum) (op2 : Operand2)
  | teq (c : Cond) (rn ign : RegNum) (op2 : Operand2)
  | cmp (c : Cond) (rn ign : RegNum) (op2 : Operand2)
  | cmn (c : Cond) (rn ign : RegNum) (op2 : Operand2)
  | orr (c : Cond) (sf : Bool) (rn rd : RegNum) (op2 : Operand2)
  | mov (c : Cond) (sf : Bool) (ign rd : RegNum) (op2 : Operand2)
  | bic (c : Cond) (sf : Bool) (rn rd : RegNum) (op2 : Operand2)
  | mvn (c : Cond) (sf : Bool) (ign rd : RegNum) (op2 : Operand2)
  -- ARM undefined space 011..1 (R145 line 10)
  | und011 (c : Cond) (rest : BitVec 28)
  -- ARM single data transfer; the T forms have P = 0 and W = 1 (R255)
  | strt (c : Cond) (u : Bool) (rn rd : RegNum) (off : Offset)
  | ldrt (c : Cond) (u : Bool) (rn rd : RegNum) (off : Offset)
  | strbt (c : Cond) (u : Bool) (rn rd : RegNum) (off : Offset)
  | ldrbt (c : Cond) (u : Bool) (rn rd : RegNum) (off : Offset)
  | str (c : Cond) (ix : Index) (rn rd : RegNum) (off : Offset)
  | ldr (c : Cond) (ix : Index) (rn rd : RegNum) (off : Offset)
  | strb (c : Cond) (ix : Index) (rn rd : RegNum) (off : Offset)
  | ldrb (c : Cond) (ix : Index) (rn rd : RegNum) (off : Offset)
  -- ARM block data transfer (R270 to R277)
  | stm (c : Cond) (ix : Index) (rn : RegNum) (list : BitVec 16)
  | stmUser (c : Cond) (ix : Index) (rn : RegNum) (list : BitVec 16)
  | ldm (c : Cond) (ix : Index) (rn : RegNum) (list : BitVec 16)
  | ldmReturn (c : Cond) (ix : Index) (rn : RegNum) (list : BitVec 16)
  | ldmUser (c : Cond) (ix : Index) (rn : RegNum) (list : BitVec 16)
  -- ARM branch (R300, R301)
  | b (c : Cond) (offset : BitVec 24)
  | bl (c : Cond) (offset : BitVec 24)
  -- ARM coprocessor: undefined here (R312)
  | ldc (c : Cond) (ix : CopIndex) (rn crd cp : RegNum) (offset : Byte)
  | stc (c : Cond) (ix : CopIndex) (rn crd cp : RegNum) (offset : Byte)
  | cdp (c : Cond) (op1 crn crd cp : RegNum) (op2 : BitVec 3) (crm : RegNum)
  | mrc (c : Cond) (op1 : BitVec 3) (crn rd cp : RegNum) (op2 : BitVec 3) (crm : RegNum)
  | mcr (c : Cond) (op1 : BitVec 3) (crn rd cp : RegNum) (op2 : BitVec 3) (crm : RegNum)
  -- ARM software interrupt (R308)
  | swi (c : Cond) (comment : BitVec 24)
  -- THUMB F2 (R334 to R337)
  | tAddReg (rn rs rd : LowReg)
  | tSubReg (rn rs rd : LowReg)
  | tAddImm3 (imm3 : BitVec 3) (rs rd : LowReg)
  | tSubImm3 (imm3 : BitVec 3) (rs rd : LowReg)
  -- THUMB F1 (R331 to R333)
  | tLslImm (amount : BitVec 5) (rs rd : LowReg)
  | tLsrImm (amount : BitVec 5) (rs rd : LowReg)
  | tAsrImm (amount : BitVec 5) (rs rd : LowReg)
  -- THUMB F3 (R338 to R341)
  | tMovImm8 (rd : LowReg) (imm8 : Byte)
  | tCmpImm8 (rd : LowReg) (imm8 : Byte)
  | tAddImm8 (rd : LowReg) (imm8 : Byte)
  | tSubImm8 (rd : LowReg) (imm8 : Byte)
  -- THUMB F4 (R342 to R357)
  | tAnd (rs rd : LowReg)
  | tEor (rs rd : LowReg)
  | tLslReg (rs rd : LowReg)
  | tLsrReg (rs rd : LowReg)
  | tAsrReg (rs rd : LowReg)
  | tAdc (rs rd : LowReg)
  | tSbc (rs rd : LowReg)
  | tRorReg (rs rd : LowReg)
  | tTst (rs rd : LowReg)
  | tNeg (rs rd : LowReg)
  | tCmpReg (rs rd : LowReg)
  | tCmn (rs rd : LowReg)
  | tOrr (rs rd : LowReg)
  | tMul (rs rd : LowReg)
  | tBic (rs rd : LowReg)
  | tMvn (rs rd : LowReg)
  -- THUMB F5 (R358 to R361); the register numbers include H1 and H2; `ign` is H1 and Rd of BX
  | tAddHi (rd rs : RegNum)
  | tCmpHi (rd rs : RegNum)
  | tMovHi (rd rs : RegNum)
  | tBx (ign rs : RegNum)
  -- THUMB F6 (R362)
  | tLdrPc (rd : LowReg) (word8 : Byte)
  -- THUMB F7 (R363 to R366)
  | tStrReg (ro rb rd : LowReg)
  | tStrbReg (ro rb rd : LowReg)
  | tLdrReg (ro rb rd : LowReg)
  | tLdrbReg (ro rb rd : LowReg)
  -- THUMB F8 (R367 to R370)
  | tStrhReg (ro rb rd : LowReg)
  | tLdsb (ro rb rd : LowReg)
  | tLdrhReg (ro rb rd : LowReg)
  | tLdsh (ro rb rd : LowReg)
  -- THUMB F9 (R371 to R374)
  | tStrImm (offset : BitVec 5) (rb rd : LowReg)
  | tLdrImm (offset : BitVec 5) (rb rd : LowReg)
  | tStrbImm (offset : BitVec 5) (rb rd : LowReg)
  | tLdrbImm (offset : BitVec 5) (rb rd : LowReg)
  -- THUMB F10 (R375, R376)
  | tStrhImm (offset : BitVec 5) (rb rd : LowReg)
  | tLdrhImm (offset : BitVec 5) (rb rd : LowReg)
  -- THUMB F11 (R377, R378)
  | tStrSp (rd : LowReg) (word8 : Byte)
  | tLdrSp (rd : LowReg) (word8 : Byte)
  -- THUMB F12 (R379, R380)
  | tAddPc (rd : LowReg) (word8 : Byte)
  | tAddSp (rd : LowReg) (word8 : Byte)
  -- THUMB F13 (R381)
  | tAddSpImm (neg : Bool) (word7 : BitVec 7)
  -- THUMB F14 (R382, R383); `r` adds LR or PC
  | tPush (r : Bool) (list : Byte)
  | tPop (r : Bool) (list : Byte)
  -- THUMB undefined, rest of 1011 (R391)
  | tUnd1011 (rest : BitVec 12)
  -- THUMB F15 (R384, R385)
  | tStmia (rb : LowReg) (list : Byte)
  | tLdmia (rb : LowReg) (list : Byte)
  -- THUMB F17 (R387)
  | tSwi (value : Byte)
  -- THUMB undefined, condition 1110 of F16 (R391)
  | tUndCond (rest : Byte)
  -- THUMB F16 (R386)
  | tBCond (c : Cond) (offset : Byte)
  -- THUMB F18 (R388)
  | tB (offset : BitVec 11)
  -- THUMB undefined, 11101 (R391)
  | tUnd11101 (rest : BitVec 11)
  -- THUMB F19 (R389, R390)
  | tBlPrefix (offset : BitVec 11)
  | tBlSuffix (offset : BitVec 11)
  deriving DecidableEq, Repr

end Sys2Proof
end

