-- ==== Sys2Proof/Machine/Flags.lean ====
section
/-! DEFINITION. Conditions (R140, R141), the arithmetic helpers (R200 to R203) and the writing of the flags. -/

namespace Sys2Proof.Machine

/-- The LUT mask of a condition (R140): bit k is set iff the condition holds for NZCV = k. -/
def condMask : Cond → BitVec 16
  | .eq => 0xF0F0
  | .ne => 0x0F0F
  | .cs => 0xCCCC
  | .cc => 0x3333
  | .mi => 0xFF00
  | .pl => 0x00FF
  | .vs => 0xAAAA
  | .vc => 0x5555
  | .hi => 0x0C0C
  | .ls => 0xF3F3
  | .ge => 0xAA55
  | .lt => 0x55AA
  | .gt => 0x0A05
  | .le => 0xF5FA
  | .al => 0xFFFF
  | .nv => 0x0000

/-- The NZCV nibble of CPSR (R141). -/
def nzcv (p : Cpsr) : BitVec 4 :=
  BitVec.ofBool p.n ++ BitVec.ofBool p.z ++ BitVec.ofBool p.c ++ BitVec.ofBool p.v

/-- `ConditionPassed(cond)` (R141). -/
def condPassed (c : Cond) (s : State) : Bool :=
  (condMask c).getLsbD (nzcv s.cpsr).toNat

/-- An instruction whose condition fails has no effect (R141, R485). -/
def whenPassed (c : Cond) (k : State → Result) (s : State) : Result :=
  if condPassed c s then k s else .next s

/-- A result with its carry and overflow. -/
structure Alu where
  res : Word
  c : Bool
  v : Bool
  deriving DecidableEq, Repr

/-- Overflow of an addition (R200). -/
def addOverflow (a b res : Word) : Bool :=
  (~~~(a ^^^ b) &&& (b ^^^ res)).getLsbD 31

/-- Overflow of a subtraction (R202). -/
def subOverflow (a b res : Word) : Bool :=
  ((a ^^^ b) &&& (a ^^^ res)).getLsbD 31

/-- `add(a, b)` (R200). -/
def aluAdd (a b : Word) : Alu :=
  let res := a + b
  ⟨res, res.ult a, addOverflow a b res⟩

/-- `adc(a, b, c)` (R201): the carry is bit 32 of the 33-bit sum. -/
def aluAdc (a b : Word) (c : Bool) : Alu :=
  let s33 : BitVec 33 := a.setWidth 33 + b.setWidth 33 + (BitVec.ofBool c).setWidth 33
  let res := s33.setWidth 32
  ⟨res, s33.getLsbD 32, addOverflow a b res⟩

/-- `sub(a, b)` (R202): the carry is "no borrow". -/
def aluSub (a b : Word) : Alu :=
  let res := a - b
  ⟨res, b.ule a, subOverflow a b res⟩

/-- `sbc(a, b, c)` (R203): the carry compares in 33 bits. -/
def aluSbc (a b : Word) (c : Bool) : Alu :=
  let cin : Word := (BitVec.ofBool c).setWidth 32
  let res := a - b - 1 + cin
  ⟨res, ((b.setWidth 33 : BitVec 33) + 1 - (BitVec.ofBool c).setWidth 33).ule (a.setWidth 33), subOverflow a b res⟩

/-- A logical result: C from the shifter, V unchanged (R205). -/
def aluLogic (res : Word) (carry : Bool) (old : Cpsr) : Alu :=
  ⟨res, carry, old.v⟩

/-- Set N and Z from a result (R204). -/
def setNz (res : Word) (s : State) : State :=
  { s with cpsr := { s.cpsr with n := res.getLsbD 31, z := res == 0 } }

/-- Set C. -/
def setCarry (c : Bool) (s : State) : State :=
  { s with cpsr := { s.cpsr with c := c } }

/-- Set V. -/
def setOverflow (v : Bool) (s : State) : State :=
  { s with cpsr := { s.cpsr with v := v } }

/-- Set N, Z, C and V from a result (R204). -/
def setFlags (r : Alu) (s : State) : State :=
  setOverflow r.v (setCarry r.c (setNz r.res s))

/-- Draw an UNKNOWN value for C (R246). -/
def drawCarry (s : State) : State :=
  let d := drawBit s
  setCarry d.1 d.2

/-- Draw an UNKNOWN value for V (R246). -/
def drawOverflow (s : State) : State :=
  let d := drawBit s
  setOverflow d.1 d.2

end Sys2Proof.Machine
end

