-- ==== Sys2Proof/Machine/Operands.lean ====
section
/-! DEFINITION. Operand forms: the barrel shifter (R150 to R158), operand 2 (R147), load and store offsets and
addresses (R149, R250, R260), block-transfer addresses (R270, R274), branch offsets (R149, R161). -/

namespace Sys2Proof.Machine

/-- A shifted value and the shifter's carry-out (R150). -/
structure Shifted where
  val : Word
  carry : Bool
  deriving DecidableEq, Repr

/-- All bits equal to bit 31. -/
def signFill (v : Word) : Word :=
  if v.getLsbD 31 then 0xFFFFFFFF else 0

/-- `ShiftImm(type, v, n)` (R151 to R154); `cin` is CPSR.C. -/
def shiftByImm (ty : ShiftType) (v : Word) (amount : BitVec 5) (cin : Bool) : Shifted :=
  let n := amount.toNat
  match ty with
  | .lsl => if n = 0 then ⟨v, cin⟩ else ⟨v <<< n, v.getLsbD (32 - n)⟩
  | .lsr => if n = 0 then ⟨0, v.getLsbD 31⟩ else ⟨v >>> n, v.getLsbD (n - 1)⟩
  | .asr => if n = 0 then ⟨signFill v, v.getLsbD 31⟩ else ⟨v.sshiftRight n, v.getLsbD (n - 1)⟩
  | .ror => if n = 0 then ⟨BitVec.ofBool cin ++ v.extractLsb' 1 31, v.getLsbD 0⟩
            else ⟨v.rotateRight n, v.getLsbD (n - 1)⟩

/-- `ShiftReg(type, v, a)` (R155 to R158), `a` the low byte of Rs. -/
def shiftByReg (ty : ShiftType) (v : Word) (amount : Byte) (cin : Bool) : Shifted :=
  let a := amount.toNat
  if a = 0 then ⟨v, cin⟩
  else
    match ty with
    | .lsl =>
      if a ≤ 31 then ⟨v <<< a, v.getLsbD (32 - a)⟩
      else if a = 32 then ⟨0, v.getLsbD 0⟩ else ⟨0, false⟩
    | .lsr =>
      if a ≤ 31 then ⟨v >>> a, v.getLsbD (a - 1)⟩
      else if a = 32 then ⟨0, v.getLsbD 31⟩ else ⟨0, false⟩
    | .asr =>
      if a ≤ 31 then ⟨v.sshiftRight a, v.getLsbD (a - 1)⟩ else ⟨signFill v, v.getLsbD 31⟩
    | .ror =>
      let n := a % 32
      if n = 0 then ⟨v, v.getLsbD 31⟩ else ⟨v.rotateRight n, v.getLsbD (n - 1)⟩

/-- `ror(zext_8(imm8), 2*rot)` (R147, R148). -/
def rotatedImm (rot : BitVec 4) (imm8 : Byte) : Word :=
  (imm8.setWidth 32 : Word).rotateRight (2 * rot.toNat)

/-- Whether operand 2 is a register shifted by a register (R43 a). -/
def isShiftReg : Operand2 → Bool
  | .shiftReg .. => true
  | .imm .. | .shiftImm .. => false

/-- `R[n]` as a data-processing operand: R15 reads InstrAddr + 12 beside a register-shifted operand (R43 a, R147). -/
def dataProcReg (shiftReg : Bool) (n : RegNum) (s : State) : Word :=
  if shiftReg && n == 15 then instrAddr s + 12 else getReg n s

/-- `shifter_operand` and `shifter_carry` (R147). -/
def operand2 (op2 : Operand2) (s : State) : Shifted :=
  match op2 with
  | .imm rot imm8 =>
    let v := rotatedImm rot imm8
    ⟨v, if rot = 0 then s.cpsr.c else v.getLsbD 31⟩
  | .shiftImm amount ty rm => shiftByImm ty (getReg rm s) amount s.cpsr.c
  | .shiftReg rs ty rm =>
    shiftByReg ty (dataProcReg true rm s) ((dataProcReg true rs s).setWidth 8) s.cpsr.c

/-- The offset of a single data transfer (R149, R250). -/
def transferOffset (off : Offset) (s : State) : Word :=
  match off with
  | .imm imm12 => imm12.setWidth 32
  | .reg amount ty rm => (shiftByImm ty (getReg rm s) amount s.cpsr.c).val

/-- The offset of a halfword transfer (R149, R260). -/
def halfOffset (off : HalfOffset) (s : State) : Word :=
  match off with
  | .imm imm8 => imm8.setWidth 32
  | .reg _ rm => getReg rm s

/-- The addresses of a transfer (R250): `addr` is accessed, `back` written to the base register when `wb`. -/
structure Transfer where
  addr : Word
  back : Word
  wb : Bool
  deriving DecidableEq, Repr

/-- The address computation of R250, from the base register and the offset. -/
def transferAt (ix : Index) (rn : RegNum) (offset : Word) (s : State) : Transfer :=
  let base := getReg rn s
  let moved := if ix.u then base + offset else base - offset
  ⟨if ix.p then moved else base, moved, !ix.p || ix.w⟩

/-- The value a store takes from Rd: R15 gives InstrAddr + 12 (R43 b). -/
def storedReg (n : RegNum) (s : State) : Word :=
  if n = 15 then instrAddr s + 12 else getReg n s

/-- Writeback of a transfer's base register. -/
def writeBack (t : Transfer) (rn : RegNum) (s : State) : State :=
  if t.wb then setReg rn t.back s else s

/-- The listed registers, lowest first (R270). -/
def listed {n : Nat} (list : BitVec n) : List RegNum :=
  ([0, 1, 2, 3, 4, 5, 6, 7, 8, 9, 10, 11, 12, 13, 14, 15] : List RegNum).filter fun r => list.getLsbD r.toNat

/-- How far the base of a block transfer moves: 4 bytes a register, as for 16 registers when none is listed (R270,
R274). -/
def blockBytes {n : Nat} (list : BitVec n) : Word :=
  match listed list with
  | [] => 0x40
  | _ :: rest => BitVec.ofNat 32 (4 * (rest.length + 1))

/-- The address of the first word of a block transfer (R270, R274). -/
def blockStart (ix : Index) (base size : Word) : Word :=
  match ix.p, ix.u with
  | false, true => base
  | true, true => base + 4
  | false, false => base - size + 4
  | true, false => base - size

/-- The base after a block transfer (R270, R274). -/
def blockBase (ix : Index) (base size : Word) : Word :=
  if ix.u then base + size else base - size

/-- `sext_26(offset24 << 2)` (R149). -/
def branchOffset (offset : BitVec 24) : Word :=
  (offset ++ 0#2).signExtend 32

/-- The word-aligned PC of the THUMB PC-relative forms (R43 c). -/
def thumbPcBase (s : State) : Word :=
  (instrAddr s + 4) &&& 0xFFFFFFFC

end Sys2Proof.Machine
end

