-- ==== Sys2Proof/Machine/Block.lean ====
section
/-! DEFINITION. Block data transfer: LDM and STM (R270 to R277), and the word loops the THUMB forms share. -/

namespace Sys2Proof.Machine

/-- The registers a block transfer moves: the listed ones, or R15 alone when none is listed (R270, R274). -/
def blockRegs {n : Nat} (list : BitVec n) : List RegNum :=
  match listed list with
  | [] => [15]
  | r :: rest => r :: rest

/-- Load registers from consecutive words (R99, R271); `put` writes one. -/
def loadWords (put : RegNum → Word → State → State) : List RegNum → Word → State → State
  | [], _, s => s
  | r :: rest, addr, s => loadWords put rest (addr + 4) (put r (memRead .word addr s).1 (memRead .word addr s).2)

/-- Store registers to consecutive words (R99, R272); `get` reads one. -/
def storeWords (get : RegNum → State → Word) : List RegNum → Word → State → Result
  | [], _, s => .next s
  | r :: rest, addr, s => andThen (store .word addr (get r s) s) (storeWords get rest (addr + 4))

/-- Store registers to consecutive words, the base written back after the first store (R272). -/
def storeBlock (get : RegNum → State → Word) (back : State → State) (regs : List RegNum) (addr : Word)
    (s : State) : Result :=
  match regs with
  | [] => .next (back s)
  | r :: rest =>
    andThen (store .word addr (get r s) s) fun s1 => storeWords get rest (addr + 4) (back s1)

/-- Writeback of a block transfer's base (R270). -/
def blockBack (ix : Index) (rn : RegNum) (base size : Word) (s : State) : State :=
  if ix.w then setReg rn (blockBase ix base size) s else s

/-- The registers an LDM loads, with `put` (R271, R274, R276, R277). -/
def loadMultiple (put : RegNum → Word → State → State) (ix : Index) (rn : RegNum) (list : BitVec 16) (s : State) :
    Result :=
  if rn = 15 then .refused .blockBasePc
  else
    let base := getReg rn s
    let size := blockBytes list
    .next (loadWords put (blockRegs list) (blockStart ix base size) (blockBack ix rn base size s))

/-- The registers an STM stores, with `get` (R272, R274, R275). -/
def storeMultiple (get : RegNum → State → Word) (ix : Index) (rn : RegNum) (list : BitVec 16) (s : State) :
    Result :=
  if rn = 15 then .refused .blockBasePc
  else
    let base := getReg rn s
    let size := blockBytes list
    storeBlock get (blockBack ix rn base size) (blockRegs list) (blockStart ix base size) s

/-- A load of LDM^ with R15 (R277): R15 is the exception return. -/
def putReturning (r : RegNum) (v : Word) (s : State) : State :=
  if r = 15 then returnFromException v s else setReg r v s

/-- What a user-bank STM stores of a register (R275). -/
def storedUserReg (r : RegNum) (s : State) : Word :=
  if r = 15 then instrAddr s + 12 else getRegIn .usr r s

/-- LDM (R271, R274). -/
def execLdm (c : Cond) (ix : Index) (rn : RegNum) (list : BitVec 16) (s : State) : Result :=
  whenPassed c (loadMultiple setReg ix rn list) s

/-- LDM with S = 1 and R15 (R277). -/
def execLdmReturn (c : Cond) (ix : Index) (rn : RegNum) (list : BitVec 16) (s : State) : Result :=
  whenPassed c (loadMultiple putReturning ix rn list) s

/-- LDM of user-bank registers (R276; DEDUCED for an empty list and for the base, log entries 14 and 22). -/
def execLdmUser (c : Cond) (ix : Index) (rn : RegNum) (list : BitVec 16) (s : State) : Result :=
  whenPassed c (fun t =>
    if ix.w then .refused .userBankLdmWithWriteback else loadMultiple (setRegIn .usr) ix rn list t) s

/-- STM (R272, R274). -/
def execStm (c : Cond) (ix : Index) (rn : RegNum) (list : BitVec 16) (s : State) : Result :=
  whenPassed c (storeMultiple storedReg ix rn list) s

/-- STM of user-bank registers (R275; DEDUCED for an empty list and for the base, log entries 14 and 22). -/
def execStmUser (c : Cond) (ix : Index) (rn : RegNum) (list : BitVec 16) (s : State) : Result :=
  whenPassed c (fun t =>
    if ix.w then .refused .userBankStmWithWriteback else storeMultiple storedUserReg ix rn list t) s

end Sys2Proof.Machine
end

