-- ==== Sys2Proof/Machine/Branch.lean ====
section
/-! DEFINITION. ARM branches (R300 to R305), the software interrupt (R308) and the undefined and coprocessor
instructions (R310 to R312). -/

namespace Sys2Proof.Machine

/-- Branch and exchange to `v` (R305, R361). -/
def exchangeTo (v : Word) (s : State) : State :=
  branchTo v { s with cpsr := { s.cpsr with t := v.getLsbD 0 } }

/-- B (R300). -/
def execB (c : Cond) (offset : BitVec 24) (s : State) : Result :=
  whenPassed c (fun t => .next (branchTo (instrAddr t + 8 + branchOffset offset) t)) s

/-- BL (R301). -/
def execBl (c : Cond) (offset : BitVec 24) (s : State) : Result :=
  whenPassed c (fun t =>
    .next (branchTo (instrAddr t + 8 + branchOffset offset) (setReg 14 (instrAddr t + 4) t))) s

/-- BX (R305). -/
def execBx (c : Cond) (rm : RegNum) (s : State) : Result :=
  whenPassed c (fun t => .next (exchangeTo (getReg rm t) t)) s

/-- SWI (R308); the comment field is ignored. -/
def execSwi (c : Cond) (s : State) : Result :=
  whenPassed c (fun t => .next (takeSwi t)) s

/-- An undefined instruction (R310, R311). -/
def undefinedArm (c : Cond) (s : State) : Result :=
  whenPassed c (fun t => .next (undefinedEncoding t)) s

/-- The halfword store space with SH = 10 (R170). -/
def execUndStoreSh10 (c : Cond) (s : State) : Result :=
  undefinedArm c s

/-- The halfword store space with SH = 11 (R170). -/
def execUndStoreSh11 (c : Cond) (s : State) : Result :=
  undefinedArm c s

/-- The multiply and swap space (R170). -/
def execUndMulSwap (c : Cond) (s : State) : Result :=
  undefinedArm c s

/-- The PSR space (R170). -/
def execUndPsr (c : Cond) (s : State) : Result :=
  undefinedArm c s

/-- The space 011..1 (R170). -/
def execUnd011 (c : Cond) (s : State) : Result :=
  undefinedArm c s

/-- LDC: no coprocessor answers (R312). -/
def execLdc (c : Cond) (s : State) : Result :=
  undefinedArm c s

/-- STC: no coprocessor answers (R312). -/
def execStc (c : Cond) (s : State) : Result :=
  undefinedArm c s

/-- CDP: no coprocessor answers (R312). -/
def execCdp (c : Cond) (s : State) : Result :=
  undefinedArm c s

/-- MRC: no coprocessor answers (R312). -/
def execMrc (c : Cond) (s : State) : Result :=
  undefinedArm c s

/-- MCR: no coprocessor answers (R312). -/
def execMcr (c : Cond) (s : State) : Result :=
  undefinedArm c s

end Sys2Proof.Machine
end

