-- ==== Sys2Proof/Machine/DataProc.lean ====
section
/-! DEFINITION. ARM data processing (R204 to R222). -/

namespace Sys2Proof.Machine

/-- An operation of data processing: Rn, operand 2 and CPSR give the result and the flags (R204, R205). -/
abbrev AluOp := Word → Shifted → Cpsr → Alu

/-- AND, TST (R207, R215). -/
def andOp : AluOp := fun a b p => aluLogic (a &&& b.val) b.carry p

/-- EOR, TEQ (R208, R216). -/
def eorOp : AluOp := fun a b p => aluLogic (a ^^^ b.val) b.carry p

/-- SUB, CMP (R209, R217). -/
def subOp : AluOp := fun a b _ => aluSub a b.val

/-- RSB (R210). -/
def rsbOp : AluOp := fun a b _ => aluSub b.val a

/-- ADD, CMN (R211, R218). -/
def addOp : AluOp := fun a b _ => aluAdd a b.val

/-- ADC (R212). -/
def adcOp : AluOp := fun a b p => aluAdc a b.val p.c

/-- SBC (R213). -/
def sbcOp : AluOp := fun a b p => aluSbc a b.val p.c

/-- RSC (R214). -/
def rscOp : AluOp := fun a b p => aluSbc b.val a p.c

/-- ORR (R219). -/
def orrOp : AluOp := fun a b p => aluLogic (a ||| b.val) b.carry p

/-- MOV (R220): Rn is ignored. -/
def movOp : AluOp := fun _ b p => aluLogic b.val b.carry p

/-- BIC (R221). -/
def bicOp : AluOp := fun a b p => aluLogic (a &&& ~~~b.val) b.carry p

/-- MVN (R222): Rn is ignored. -/
def mvnOp : AluOp := fun _ b p => aluLogic (~~~b.val) b.carry p

/-- The result and flags of an operation on the operands of an instruction (R204). -/
def aluResult (f : AluOp) (rn : RegNum) (op2 : Operand2) (s : State) : Alu :=
  f (dataProcReg (isShiftReg op2) rn s) (operand2 op2 s) s.cpsr

/-- Write Rd, and the flags if S = 1 (R204); S = 1 with Rd = 15 is the exception return (R206). -/
def writeResult (sf : Bool) (rd : RegNum) (r : Alu) (s : State) : State :=
  if sf then
    if rd = 15 then returnFromException r.res s else setFlags r (setReg rd r.res s)
  else setReg rd r.res s

/-- An operation that writes Rd (R204). -/
def dataProc (f : AluOp) (c : Cond) (sf : Bool) (rn rd : RegNum) (op2 : Operand2) (s : State) : Result :=
  whenPassed c (fun t => .next (writeResult sf rd (aluResult f rn op2 t) t)) s

/-- An operation that only sets flags (R215 to R218). -/
def compareOp (f : AluOp) (c : Cond) (rn : RegNum) (op2 : Operand2) (s : State) : Result :=
  whenPassed c (fun t => .next (setFlags (aluResult f rn op2 t) t)) s

/-- AND (R207). -/
def execAnd (c : Cond) (sf : Bool) (rn rd : RegNum) (op2 : Operand2) (s : State) : Result :=
  dataProc andOp c sf rn rd op2 s

/-- EOR (R208). -/
def execEor (c : Cond) (sf : Bool) (rn rd : RegNum) (op2 : Operand2) (s : State) : Result :=
  dataProc eorOp c sf rn rd op2 s

/-- SUB (R209). -/
def execSub (c : Cond) (sf : Bool) (rn rd : RegNum) (op2 : Operand2) (s : State) : Result :=
  dataProc subOp c sf rn rd op2 s

/-- RSB (R210). -/
def execRsb (c : Cond) (sf : Bool) (rn rd : RegNum) (op2 : Operand2) (s : State) : Result :=
  dataProc rsbOp c sf rn rd op2 s

/-- ADD (R211). -/
def execAdd (c : Cond) (sf : Bool) (rn rd : RegNum) (op2 : Operand2) (s : State) : Result :=
  dataProc addOp c sf rn rd op2 s

/-- ADC (R212). -/
def execAdc (c : Cond) (sf : Bool) (rn rd : RegNum) (op2 : Operand2) (s : State) : Result :=
  dataProc adcOp c sf rn rd op2 s

/-- SBC (R213). -/
def execSbc (c : Cond) (sf : Bool) (rn rd : RegNum) (op2 : Operand2) (s : State) : Result :=
  dataProc sbcOp c sf rn rd op2 s

/-- RSC (R214). -/
def execRsc (c : Cond) (sf : Bool) (rn rd : RegNum) (op2 : Operand2) (s : State) : Result :=
  dataProc rscOp c sf rn rd op2 s

/-- TST (R215). -/
def execTst (c : Cond) (rn : RegNum) (op2 : Operand2) (s : State) : Result :=
  compareOp andOp c rn op2 s

/-- TEQ (R216). -/
def execTeq (c : Cond) (rn : RegNum) (op2 : Operand2) (s : State) : Result :=
  compareOp eorOp c rn op2 s

/-- CMP (R217). -/
def execCmp (c : Cond) (rn : RegNum) (op2 : Operand2) (s : State) : Result :=
  compareOp subOp c rn op2 s

/-- CMN (R218). -/
def execCmn (c : Cond) (rn : RegNum) (op2 : Operand2) (s : State) : Result :=
  compareOp addOp c rn op2 s

/-- ORR (R219). -/
def execOrr (c : Cond) (sf : Bool) (rn rd : RegNum) (op2 : Operand2) (s : State) : Result :=
  dataProc orrOp c sf rn rd op2 s

/-- MOV (R220). -/
def execMov (c : Cond) (sf : Bool) (ign rd : RegNum) (op2 : Operand2) (s : State) : Result :=
  dataProc movOp c sf ign rd op2 s

/-- BIC (R221). -/
def execBic (c : Cond) (sf : Bool) (rn rd : RegNum) (op2 : Operand2) (s : State) : Result :=
  dataProc bicOp c sf rn rd op2 s

/-- MVN (R222). -/
def execMvn (c : Cond) (sf : Bool) (ign rd : RegNum) (op2 : Operand2) (s : State) : Result :=
  dataProc mvnOp c sf ign rd op2 s

end Sys2Proof.Machine
end

