-- ==== Sys2Proof/Machine/LoadStore.lean ====
section
/-! DEFINITION. ARM single and halfword data transfers (R250 to R264) and the data swaps (R285, R286). -/

namespace Sys2Proof.Machine

/-- A load: read, write back, then write Rd (R251); writeback to R15 is refused (R250). -/
def loadTo (read : Word → State → Word × State) (ix : Index) (rn rd : RegNum) (offset : Word) (s : State) :
    Result :=
  let t := transferAt ix rn offset s
  if t.wb && rn == 15 then .refused .writebackToPc
  else .next (setReg rd (read t.addr s).1 (writeBack t rn (read t.addr s).2))

/-- A store: write, then write back (R253); writeback to R15 is refused (R250). -/
def storeFrom (w : Width) (ix : Index) (rn rd : RegNum) (offset : Word) (s : State) : Result :=
  let t := transferAt ix rn offset s
  if t.wb && rn == 15 then .refused .writebackToPc
  else andThen (store w t.addr (storedReg rd s) s) fun s1 => .next (writeBack t rn s1)

/-- LDRB and LDRBT (R252, R255): Rd = 15 is refused. -/
def loadByteTo (ix : Index) (rn rd : RegNum) (offset : Word) (s : State) : Result :=
  if rd = 15 then .refused .ldrbToPc else loadTo (memRead .byte) ix rn rd offset s

/-- The P, U, W bits of a T form (R255): those of a post-indexed transfer (DEDUCED, log entry 15). -/
def postIndexed (u : Bool) : Index :=
  ⟨false, u, false⟩

/-- LDR (R251). -/
def execLdr (c : Cond) (ix : Index) (rn rd : RegNum) (off : Offset) (s : State) : Result :=
  whenPassed c (fun t => loadTo memReadRot ix rn rd (transferOffset off t) t) s

/-- LDRB (R252). -/
def execLdrb (c : Cond) (ix : Index) (rn rd : RegNum) (off : Offset) (s : State) : Result :=
  whenPassed c (fun t => loadByteTo ix rn rd (transferOffset off t) t) s

/-- STR (R253). -/
def execStr (c : Cond) (ix : Index) (rn rd : RegNum) (off : Offset) (s : State) : Result :=
  whenPassed c (fun t => storeFrom .word ix rn rd (transferOffset off t) t) s

/-- STRB (R254). -/
def execStrb (c : Cond) (ix : Index) (rn rd : RegNum) (off : Offset) (s : State) : Result :=
  whenPassed c (fun t => storeFrom .byte ix rn rd (transferOffset off t) t) s

/-- LDRT: the post-indexed LDR (R255). -/
def execLdrt (c : Cond) (u : Bool) (rn rd : RegNum) (off : Offset) (s : State) : Result :=
  whenPassed c (fun t => loadTo memReadRot (postIndexed u) rn rd (transferOffset off t) t) s

/-- LDRBT: the post-indexed LDRB (R255), refused where LDRB is (DEDUCED, log entry 15). -/
def execLdrbt (c : Cond) (u : Bool) (rn rd : RegNum) (off : Offset) (s : State) : Result :=
  whenPassed c (fun t => loadByteTo (postIndexed u) rn rd (transferOffset off t) t) s

/-- STRT: the post-indexed STR (R255). -/
def execStrt (c : Cond) (u : Bool) (rn rd : RegNum) (off : Offset) (s : State) : Result :=
  whenPassed c (fun t => storeFrom .word (postIndexed u) rn rd (transferOffset off t) t) s

/-- STRBT: the post-indexed STRB (R255). -/
def execStrbt (c : Cond) (u : Bool) (rn rd : RegNum) (off : Offset) (s : State) : Result :=
  whenPassed c (fun t => storeFrom .byte (postIndexed u) rn rd (transferOffset off t) t) s

/-- The forms of R260 that are refused whatever Rn is. -/
def halfRefusal (ix : Index) (rd : RegNum) : Option Refusal :=
  if !ix.p && ix.w then some .halfwordPostIndexWithW
  else if rd = 15 then some .halfwordTransferWithPc
  else none

/-- A halfword transfer, unless R260 refuses the form. -/
def halfTransfer (ix : Index) (rd : RegNum) (k : State → Result) (s : State) : Result :=
  match halfRefusal ix rd with
  | some r => .refused r
  | none => k s

/-- LDRH (R261). -/
def execLdrh (c : Cond) (ix : Index) (rn rd : RegNum) (off : HalfOffset) (s : State) : Result :=
  whenPassed c (halfTransfer ix rd fun t => loadTo memReadHalfRot ix rn rd (halfOffset off t) t) s

/-- STRH (R262). -/
def execStrh (c : Cond) (ix : Index) (rn rd : RegNum) (off : HalfOffset) (s : State) : Result :=
  whenPassed c (halfTransfer ix rd fun t => storeFrom .half ix rn rd (halfOffset off t) t) s

/-- LDRSB (R263). -/
def execLdrsb (c : Cond) (ix : Index) (rn rd : RegNum) (off : HalfOffset) (s : State) : Result :=
  whenPassed c (halfTransfer ix rd fun t => loadTo memReadByteSigned ix rn rd (halfOffset off t) t) s

/-- LDRSH (R264). -/
def execLdrsh (c : Cond) (ix : Index) (rn rd : RegNum) (off : HalfOffset) (s : State) : Result :=
  whenPassed c (halfTransfer ix rd fun t => loadTo memReadHalfSigned ix rn rd (halfOffset off t) t) s

/-- SWP and SWPB (R285, R286): read, write, then Rd; any register 15 is refused. -/
def swap (read : Word → State → Word × State) (w : Width) (rn rd rm : RegNum) (s : State) : Result :=
  if rn = 15 ∨ rd = 15 ∨ rm = 15 then .refused .swapWithPc
  else
    let r := read (getReg rn s) s
    andThen (store w (getReg rn s) (getReg rm s) r.2) fun s1 => .next (setReg rd r.1 s1)

/-- SWP (R285). -/
def execSwp (c : Cond) (rn rd rm : RegNum) (s : State) : Result :=
  whenPassed c (swap memReadRot .word rn rd rm) s

/-- SWPB (R286). -/
def execSwpb (c : Cond) (rn rd rm : RegNum) (s : State) : Result :=
  whenPassed c (swap (memRead .byte) .byte rn rd rm) s

end Sys2Proof.Machine
end

