-- ==== Sys2Proof/Machine/Multiply.lean ====
section
/-! DEFINITION. Multiplies (R240 to R246). C, and V after a long multiply, are free values (log entry 4). -/

namespace Sys2Proof.Machine

/-- Write a 32-bit product, and N, Z and an UNKNOWN C if S = 1 (R240, R246). -/
def mulFinish (sf : Bool) (rd : RegNum) (res : Word) (s : State) : State :=
  if sf then drawCarry (setNz res (setReg rd res s)) else setReg rd res s

/-- N and Z of a 64-bit product (R242). -/
def setNzLong (p : BitVec 64) (s : State) : State :=
  { s with cpsr := { s.cpsr with n := p.getLsbD 63, z := p == 0 } }

/-- Write a 64-bit product, and N, Z and UNKNOWN C and V if S = 1 (R242, R246). -/
def mullFinish (sf : Bool) (hi lo : RegNum) (p : BitVec 64) (s : State) : State :=
  let s1 := setReg hi (p.extractLsb' 32 32) (setReg lo (p.extractLsb' 0 32) s)
  if sf then drawOverflow (drawCarry (setNzLong p s1)) else s1

/-- The register restrictions of a long multiply (R242, D35). -/
def mullRefused (hi lo rs rm : RegNum) : Bool :=
  hi == lo || hi == 15 || lo == 15 || rs == 15 || rm == 15

/-- A long multiply with product `p` (R242). -/
def mull (sf : Bool) (hi lo rs rm : RegNum) (p : State → BitVec 64) (s : State) : Result :=
  if mullRefused hi lo rs rm then .refused .longMultiplyRegisters
  else .next (mullFinish sf hi lo (p s) s)

/-- `zext_64(R[Rm]) * zext_64(R[Rs])` (R242). -/
def unsignedProduct (rs rm : RegNum) (s : State) : BitVec 64 :=
  (getReg rm s).setWidth 64 * (getReg rs s).setWidth 64

/-- `sext_64(R[Rm]) * sext_64(R[Rs])` (R244). -/
def signedProduct (rs rm : RegNum) (s : State) : BitVec 64 :=
  (getReg rm s).signExtend 64 * (getReg rs s).signExtend 64

/-- `R[RdHi] : R[RdLo]` (R243). -/
def accumulator (hi lo : RegNum) (s : State) : BitVec 64 :=
  getReg hi s ++ getReg lo s

/-- MUL (R240). -/
def execMul (c : Cond) (sf : Bool) (rd rs rm : RegNum) (s : State) : Result :=
  whenPassed c (fun t =>
    if rd = 15 ∨ rs = 15 ∨ rm = 15 then .refused .multiplyWithPc
    else .next (mulFinish sf rd (getReg rm t * getReg rs t) t)) s

/-- MLA (R241). -/
def execMla (c : Cond) (sf : Bool) (rd rn rs rm : RegNum) (s : State) : Result :=
  whenPassed c (fun t =>
    if rd = 15 ∨ rn = 15 ∨ rs = 15 ∨ rm = 15 then .refused .multiplyWithPc
    else .next (mulFinish sf rd (getReg rm t * getReg rs t + getReg rn t) t)) s

/-- UMULL (R242). -/
def execUmull (c : Cond) (sf : Bool) (hi lo rs rm : RegNum) (s : State) : Result :=
  whenPassed c (mull sf hi lo rs rm (unsignedProduct rs rm)) s

/-- UMLAL (R243). -/
def execUmlal (c : Cond) (sf : Bool) (hi lo rs rm : RegNum) (s : State) : Result :=
  whenPassed c (mull sf hi lo rs rm fun t => unsignedProduct rs rm t + accumulator hi lo t) s

/-- SMULL (R244). -/
def execSmull (c : Cond) (sf : Bool) (hi lo rs rm : RegNum) (s : State) : Result :=
  whenPassed c (mull sf hi lo rs rm (signedProduct rs rm)) s

/-- SMLAL (R245). -/
def execSmlal (c : Cond) (sf : Bool) (hi lo rs rm : RegNum) (s : State) : Result :=
  whenPassed c (mull sf hi lo rs rm fun t => signedProduct rs rm t + accumulator hi lo t) s

end Sys2Proof.Machine
end

