-- ==== Sys2Proof/Machine/Psr.lean ====
section
/-! DEFINITION. PSR transfer (R230 to R233). -/

namespace Sys2Proof.Machine

/-- MRS of CPSR or SPSR to a register (R230). -/
def mrsTo (spsr : Bool) (rd : RegNum) (s : State) : Result :=
  if rd = 15 then .refused .mrsToPc
  else if spsr then .next (setReg rd (readSpsr s).1 (readSpsr s).2)
  else .next (setReg rd (cpsrWord s.cpsr) s)

/-- MSR of a value to CPSR or SPSR (R231). -/
def msrFrom (spsr : Bool) (mask : BitVec 4) (v : Word) (s : State) : Result :=
  .next (if spsr then writeSpsr v mask s else writeCpsr v mask s)

/-- MRS (R230). -/
def execMrs (c : Cond) (spsr : Bool) (rd : RegNum) (s : State) : Result :=
  whenPassed c (mrsTo spsr rd) s

/-- MSR from a register (R231). -/
def execMsrReg (c : Cond) (spsr : Bool) (mask : BitVec 4) (rm : RegNum) (s : State) : Result :=
  whenPassed c (fun t => msrFrom spsr mask (getReg rm t) t) s

/-- MSR of an immediate (R231, R148). -/
def execMsrImm (c : Cond) (spsr : Bool) (mask rot : BitVec 4) (imm8 : Byte) (s : State) : Result :=
  whenPassed c (msrFrom spsr mask (rotatedImm rot imm8)) s

end Sys2Proof.Machine
end

