-- ==== Sys2Proof/Machine/ThumbAlu.lean ====
section
/-! DEFINITION. THUMB formats 1 to 5 (R331 to R361) and the address generation of formats 12 and 13 (R379 to R381). -/

namespace Sys2Proof.Machine

/-- Write a low register and N, Z, C, V (R334). -/
def thumbWrite (rd : LowReg) (r : Alu) (s : State) : Result :=
  .next (setFlags r (setReg (low rd) r.res s))

/-- Write a low register, N, Z and C; V is unchanged (R331, R344). -/
def thumbShift (rd : LowReg) (r : Shifted) (s : State) : Result :=
  .next (setCarry r.carry (setNz r.val (setReg (low rd) r.val s)))

/-- Write a low register, N and Z; C and V are unchanged (R338, R342). -/
def thumbLogic (rd : LowReg) (res : Word) (s : State) : Result :=
  .next (setNz res (setReg (low rd) res s))

/-- Set N, Z, C, V and write no register (R339, R352). -/
def thumbCompare (r : Alu) (s : State) : Result :=
  .next (setFlags r s)

/-- ADD Rd, Rs, Rn (R334). -/
def execTAddReg (rn rs rd : LowReg) (s : State) : Result :=
  thumbWrite rd (aluAdd (getReg (low rs) s) (getReg (low rn) s)) s

/-- SUB Rd, Rs, Rn (R335). -/
def execTSubReg (rn rs rd : LowReg) (s : State) : Result :=
  thumbWrite rd (aluSub (getReg (low rs) s) (getReg (low rn) s)) s

/-- ADD Rd, Rs, #imm3 (R336). -/
def execTAddImm3 (imm3 : BitVec 3) (rs rd : LowReg) (s : State) : Result :=
  thumbWrite rd (aluAdd (getReg (low rs) s) (imm3.setWidth 32)) s

/-- SUB Rd, Rs, #imm3 (R337). -/
def execTSubImm3 (imm3 : BitVec 3) (rs rd : LowReg) (s : State) : Result :=
  thumbWrite rd (aluSub (getReg (low rs) s) (imm3.setWidth 32)) s

/-- LSL Rd, Rs, #n (R331). -/
def execTLslImm (amount : BitVec 5) (rs rd : LowReg) (s : State) : Result :=
  thumbShift rd (shiftByImm .lsl (getReg (low rs) s) amount s.cpsr.c) s

/-- LSR Rd, Rs, #n (R332). -/
def execTLsrImm (amount : BitVec 5) (rs rd : LowReg) (s : State) : Result :=
  thumbShift rd (shiftByImm .lsr (getReg (low rs) s) amount s.cpsr.c) s

/-- ASR Rd, Rs, #n (R333). -/
def execTAsrImm (amount : BitVec 5) (rs rd : LowReg) (s : State) : Result :=
  thumbShift rd (shiftByImm .asr (getReg (low rs) s) amount s.cpsr.c) s

/-- MOV Rd, #imm8 (R338). -/
def execTMovImm8 (rd : LowReg) (imm8 : Byte) (s : State) : Result :=
  thumbLogic rd (imm8.setWidth 32) s

/-- CMP Rd, #imm8 (R339). -/
def execTCmpImm8 (rd : LowReg) (imm8 : Byte) (s : State) : Result :=
  thumbCompare (aluSub (getReg (low rd) s) (imm8.setWidth 32)) s

/-- ADD Rd, #imm8 (R340). -/
def execTAddImm8 (rd : LowReg) (imm8 : Byte) (s : State) : Result :=
  thumbWrite rd (aluAdd (getReg (low rd) s) (imm8.setWidth 32)) s

/-- SUB Rd, #imm8 (R341). -/
def execTSubImm8 (rd : LowReg) (imm8 : Byte) (s : State) : Result :=
  thumbWrite rd (aluSub (getReg (low rd) s) (imm8.setWidth 32)) s

/-- AND (R342). -/
def execTAnd (rs rd : LowReg) (s : State) : Result :=
  thumbLogic rd (getReg (low rd) s &&& getReg (low rs) s) s

/-- EOR (R343). -/
def execTEor (rs rd : LowReg) (s : State) : Result :=
  thumbLogic rd (getReg (low rd) s ^^^ getReg (low rs) s) s

/-- A shift by the low byte of Rs (R344). -/
def thumbShiftReg (ty : ShiftType) (rs rd : LowReg) (s : State) : Result :=
  thumbShift rd (shiftByReg ty (getReg (low rd) s) ((getReg (low rs) s).setWidth 8) s.cpsr.c) s

/-- LSL by register (R344). -/
def execTLslReg (rs rd : LowReg) (s : State) : Result :=
  thumbShiftReg .lsl rs rd s

/-- LSR by register (R345). -/
def execTLsrReg (rs rd : LowReg) (s : State) : Result :=
  thumbShiftReg .lsr rs rd s

/-- ASR by register (R346). -/
def execTAsrReg (rs rd : LowReg) (s : State) : Result :=
  thumbShiftReg .asr rs rd s

/-- ADC (R347). -/
def execTAdc (rs rd : LowReg) (s : State) : Result :=
  thumbWrite rd (aluAdc (getReg (low rd) s) (getReg (low rs) s) s.cpsr.c) s

/-- SBC (R348). -/
def execTSbc (rs rd : LowReg) (s : State) : Result :=
  thumbWrite rd (aluSbc (getReg (low rd) s) (getReg (low rs) s) s.cpsr.c) s

/-- ROR by register (R349). -/
def execTRorReg (rs rd : LowReg) (s : State) : Result :=
  thumbShiftReg .ror rs rd s

/-- TST (R350). -/
def execTTst (rs rd : LowReg) (s : State) : Result :=
  .next (setNz (getReg (low rd) s &&& getReg (low rs) s) s)

/-- NEG (R351). -/
def execTNeg (rs rd : LowReg) (s : State) : Result :=
  thumbWrite rd (aluSub 0 (getReg (low rs) s)) s

/-- CMP (R352). -/
def execTCmpReg (rs rd : LowReg) (s : State) : Result :=
  thumbCompare (aluSub (getReg (low rd) s) (getReg (low rs) s)) s

/-- CMN (R353). -/
def execTCmn (rs rd : LowReg) (s : State) : Result :=
  thumbCompare (aluAdd (getReg (low rd) s) (getReg (low rs) s)) s

/-- ORR (R354). -/
def execTOrr (rs rd : LowReg) (s : State) : Result :=
  thumbLogic rd (getReg (low rd) s ||| getReg (low rs) s) s

/-- MUL (R355): C is a free value (R246). -/
def execTMul (rs rd : LowReg) (s : State) : Result :=
  let res := getReg (low rd) s * getReg (low rs) s
  .next (drawCarry (setNz res (setReg (low rd) res s)))

/-- BIC (R356). -/
def execTBic (rs rd : LowReg) (s : State) : Result :=
  thumbLogic rd (getReg (low rd) s &&& ~~~getReg (low rs) s) s

/-- MVN (R357). -/
def execTMvn (rs rd : LowReg) (s : State) : Result :=
  thumbLogic rd (~~~getReg (low rs) s) s

/-- ADD Rd/Hd, Rs/Hs (R358). -/
def execTAddHi (rd rs : RegNum) (s : State) : Result :=
  .next (setReg rd (getReg rd s + getReg rs s) s)

/-- CMP Rd/Hd, Rs/Hs (R359). -/
def execTCmpHi (rd rs : RegNum) (s : State) : Result :=
  thumbCompare (aluSub (getReg rd s) (getReg rs s)) s

/-- MOV Rd/Hd, Rs/Hs (R360). -/
def execTMovHi (rd rs : RegNum) (s : State) : Result :=
  .next (setReg rd (getReg rs s) s)

/-- BX Rs/Hs (R361). -/
def execTBx (rs : RegNum) (s : State) : Result :=
  .next (exchangeTo (getReg rs s) s)

/-- `zext(word8) << 2` (R161). -/
def word8Offset (word8 : Byte) : Word :=
  word8.setWidth 32 <<< 2

/-- ADD Rd, PC, #imm (R379). -/
def execTAddPc (rd : LowReg) (word8 : Byte) (s : State) : Result :=
  .next (setReg (low rd) (thumbPcBase s + word8Offset word8) s)

/-- ADD Rd, SP, #imm (R380). -/
def execTAddSp (rd : LowReg) (word8 : Byte) (s : State) : Result :=
  .next (setReg (low rd) (getReg 13 s + word8Offset word8) s)

/-- ADD SP, #imm (R381). -/
def execTAddSpImm (neg : Bool) (word7 : BitVec 7) (s : State) : Result :=
  let off : Word := word7.setWidth 32 <<< 2
  .next (setReg 13 (if neg then getReg 13 s - off else getReg 13 s + off) s)

end Sys2Proof.Machine
end

