-- ==== Sys2Proof/Machine/ThumbBranch.lean ====
section
/-! DEFINITION. THUMB branches, the software interrupt and the undefined encodings (R386 to R391). -/

namespace Sys2Proof.Machine

/-- B<cond> (R386). -/
def execTBCond (c : Cond) (offset : Byte) (s : State) : Result :=
  whenPassed c (fun t => .next (branchTo (instrAddr t + 4 + (offset ++ 0#1).signExtend 32) t)) s

/-- SWI (R387); the value is ignored. -/
def execTSwi (s : State) : Result :=
  .next (takeSwi s)

/-- B (R388). -/
def execTB (offset : BitVec 11) (s : State) : Result :=
  .next (branchTo (instrAddr s + 4 + (offset ++ 0#1).signExtend 32) s)

/-- BL prefix (R389). -/
def execTBlPrefix (offset : BitVec 11) (s : State) : Result :=
  .next (setReg 14 (instrAddr s + 4 + (offset ++ 0#12).signExtend 32) s)

/-- BL suffix (R390). -/
def execTBlSuffix (offset : BitVec 11) (s : State) : Result :=
  let s1 := branchTo (getReg 14 s + (offset.setWidth 32 <<< 1)) s
  .next (setReg 14 ((instrAddr s + 2) ||| 1) s1)

/-- The spare encodings of 1011xxxx (R391). -/
def execTUnd1011 (s : State) : Result :=
  .next (undefinedEncoding s)

/-- Condition 1110 of format 16 (R391). -/
def execTUndCond (s : State) : Result :=
  .next (undefinedEncoding s)

/-- The encodings 11101xxx (R391). -/
def execTUnd11101 (s : State) : Result :=
  .next (undefinedEncoding s)

end Sys2Proof.Machine
end

