-- ==== Sys2Proof/Machine/ThumbMemory.lean ====
section
/-! DEFINITION. THUMB loads and stores (R362 to R378) and multiple transfers (R382 to R385). -/

namespace Sys2Proof.Machine

/-- Load a low register (R362 to R378). -/
def thumbLoad (read : Word → State → Word × State) (rd : LowReg) (addr : Word) (s : State) : Result :=
  .next (setReg (low rd) (read addr s).1 (read addr s).2)

/-- Store a low register (R363 to R377). -/
def thumbStore (w : Width) (rd : LowReg) (addr : Word) (s : State) : Result :=
  store w addr (getReg (low rd) s) s

/-- `R[Rb] + R[Ro]` (R363). -/
def regAddr (ro rb : LowReg) (s : State) : Word :=
  getReg (low rb) s + getReg (low ro) s

/-- `R[Rb] + (offset5 << k)` (R371, R373, R375). -/
def immAddr (k : Nat) (offset : BitVec 5) (rb : LowReg) (s : State) : Word :=
  getReg (low rb) s + (offset.setWidth 32 <<< k)

/-- LDR Rd, [PC, #imm] (R362). -/
def execTLdrPc (rd : LowReg) (word8 : Byte) (s : State) : Result :=
  thumbLoad (memRead .word) rd (thumbPcBase s + word8Offset word8) s

/-- STR Rd, [Rb, Ro] (R363). -/
def execTStrReg (ro rb rd : LowReg) (s : State) : Result :=
  thumbStore .word rd (regAddr ro rb s) s

/-- STRB Rd, [Rb, Ro] (R364). -/
def execTStrbReg (ro rb rd : LowReg) (s : State) : Result :=
  thumbStore .byte rd (regAddr ro rb s) s

/-- LDR Rd, [Rb, Ro] (R365). -/
def execTLdrReg (ro rb rd : LowReg) (s : State) : Result :=
  thumbLoad memReadRot rd (regAddr ro rb s) s

/-- LDRB Rd, [Rb, Ro] (R366). -/
def execTLdrbReg (ro rb rd : LowReg) (s : State) : Result :=
  thumbLoad (memRead .byte) rd (regAddr ro rb s) s

/-- STRH Rd, [Rb, Ro] (R367). -/
def execTStrhReg (ro rb rd : LowReg) (s : State) : Result :=
  thumbStore .half rd (regAddr ro rb s) s

/-- LDSB Rd, [Rb, Ro] (R368). -/
def execTLdsb (ro rb rd : LowReg) (s : State) : Result :=
  thumbLoad memReadByteSigned rd (regAddr ro rb s) s

/-- LDRH Rd, [Rb, Ro] (R369). -/
def execTLdrhReg (ro rb rd : LowReg) (s : State) : Result :=
  thumbLoad memReadHalfRot rd (regAddr ro rb s) s

/-- LDSH Rd, [Rb, Ro] (R370). -/
def execTLdsh (ro rb rd : LowReg) (s : State) : Result :=
  thumbLoad memReadHalfSigned rd (regAddr ro rb s) s

/-- STR Rd, [Rb, #imm] (R371). -/
def execTStrImm (offset : BitVec 5) (rb rd : LowReg) (s : State) : Result :=
  thumbStore .word rd (immAddr 2 offset rb s) s

/-- LDR Rd, [Rb, #imm] (R372). -/
def execTLdrImm (offset : BitVec 5) (rb rd : LowReg) (s : State) : Result :=
  thumbLoad memReadRot rd (immAddr 2 offset rb s) s

/-- STRB Rd, [Rb, #imm] (R373). -/
def execTStrbImm (offset : BitVec 5) (rb rd : LowReg) (s : State) : Result :=
  thumbStore .byte rd (immAddr 0 offset rb s) s

/-- LDRB Rd, [Rb, #imm] (R374). -/
def execTLdrbImm (offset : BitVec 5) (rb rd : LowReg) (s : State) : Result :=
  thumbLoad (memRead .byte) rd (immAddr 0 offset rb s) s

/-- STRH Rd, [Rb, #imm] (R375). -/
def execTStrhImm (offset : BitVec 5) (rb rd : LowReg) (s : State) : Result :=
  thumbStore .half rd (immAddr 1 offset rb s) s

/-- LDRH Rd, [Rb, #imm] (R376). -/
def execTLdrhImm (offset : BitVec 5) (rb rd : LowReg) (s : State) : Result :=
  thumbLoad memReadHalfRot rd (immAddr 1 offset rb s) s

/-- STR Rd, [SP, #imm] (R377). -/
def execTStrSp (rd : LowReg) (word8 : Byte) (s : State) : Result :=
  thumbStore .word rd (getReg 13 s + word8Offset word8) s

/-- LDR Rd, [SP, #imm] (R378). -/
def execTLdrSp (rd : LowReg) (word8 : Byte) (s : State) : Result :=
  thumbLoad memReadRot rd (getReg 13 s + word8Offset word8) s

/-- What a THUMB multiple store stores of a register: R15, the empty list's, gives InstrAddr + 6 (R382, R384). -/
def storedThumbReg (r : RegNum) (s : State) : Word :=
  if r = 15 then instrAddr s + 6 else getReg r s

/-- The list of PUSH and POP as sixteen bits: the low registers, and `extra` (LR or PC) (R382, R383). -/
def stackList (extra : Bool) (k : Nat) (list : Byte) : BitVec 16 :=
  list.setWidth 16 ||| (if extra then 1#16 <<< k else 0)

/-- PUSH (R382): the stores go up from SP - 4n, and SP is written last. -/
def execTPush (r : Bool) (list : Byte) (s : State) : Result :=
  let regs := stackList r 14 list
  let top := getReg 13 s - blockBytes regs
  andThen (storeWords storedThumbReg (blockRegs regs) top s) fun s1 => .next (setReg 13 top s1)

/-- POP (R383). -/
def execTPop (r : Bool) (list : Byte) (s : State) : Result :=
  let regs := stackList r 15 list
  let base := getReg 13 s
  .next (setReg 13 (base + blockBytes regs) (loadWords setReg (blockRegs regs) base s))

/-- STMIA (R384): the base is written back after the first store. -/
def execTStmia (rb : LowReg) (list : Byte) (s : State) : Result :=
  let base := getReg (low rb) s
  storeBlock storedThumbReg (setReg (low rb) (base + blockBytes list)) (blockRegs list) base s

/-- LDMIA (R385): a loaded base wins over the writeback. -/
def execTLdmia (rb : LowReg) (list : Byte) (s : State) : Result :=
  let base := getReg (low rb) s
  .next (loadWords setReg (blockRegs list) base (setReg (low rb) (base + blockBytes list) s))

end Sys2Proof.Machine
end

