-- ==== Sys2Proof/Machine/Dispatch.lean ====
section
/-! DEFINITION. The dispatch of R485 and R486: one arm per instruction, each a call of its meaning (log entry
18). -/

namespace Sys2Proof.Machine

def exec (i : Instr) (s : State) : Host.Outcome State Fault Refusal :=
  match i with
  | .bx c rm => Sys2Proof.Machine.execBx c rm s
  | .mul c sf rd _ rs rm => Sys2Proof.Machine.execMul c sf rd rs rm s
  | .mla c sf rd rn rs rm => Sys2Proof.Machine.execMla c sf rd rn rs rm s
  | .umull c sf hi lo rs rm => Sys2Proof.Machine.execUmull c sf hi lo rs rm s
  | .umlal c sf hi lo rs rm => Sys2Proof.Machine.execUmlal c sf hi lo rs rm s
  | .smull c sf hi lo rs rm => Sys2Proof.Machine.execSmull c sf hi lo rs rm s
  | .smlal c sf hi lo rs rm => Sys2Proof.Machine.execSmlal c sf hi lo rs rm s
  | .swp c rn rd rm => Sys2Proof.Machine.execSwp c rn rd rm s
  | .swpb c rn rd rm => Sys2Proof.Machine.execSwpb c rn rd rm s
  | .strh c ix rn rd off => Sys2Proof.Machine.execStrh c ix rn rd off s
  | .ldrh c ix rn rd off => Sys2Proof.Machine.execLdrh c ix rn rd off s
  | .ldrsb c ix rn rd off => Sys2Proof.Machine.execLdrsb c ix rn rd off s
  | .ldrsh c ix rn rd off => Sys2Proof.Machine.execLdrsh c ix rn rd off s
  | .undStoreSh10 c _ => Sys2Proof.Machine.execUndStoreSh10 c s
  | .undStoreSh11 c _ => Sys2Proof.Machine.execUndStoreSh11 c s
  | .undMulSwap c _ => Sys2Proof.Machine.execUndMulSwap c s
  | .mrs c spsr rd => Sys2Proof.Machine.execMrs c spsr rd s
  | .msrReg c spsr mask rm => Sys2Proof.Machine.execMsrReg c spsr mask rm s
  | .msrImm c spsr mask rot imm8 => Sys2Proof.Machine.execMsrImm c spsr mask rot imm8 s
  | .undPsr c _ => Sys2Proof.Machine.execUndPsr c s
  | .and c sf rn rd op2 => Sys2Proof.Machine.execAnd c sf rn rd op2 s
  | .eor c sf rn rd op2 => Sys2Proof.Machine.execEor c sf rn rd op2 s
  | .sub c sf rn rd op2 => Sys2Proof.Machine.execSub c sf rn rd op2 s
  | .rsb c sf rn rd op2 => Sys2Proof.Machine.execRsb c sf rn rd op2 s
  | .add c sf rn rd op2 => Sys2Proof.Machine.execAdd c sf rn rd op2 s
  | .adc c sf rn rd op2 => Sys2Proof.Machine.execAdc c sf rn rd op2 s
  | .sbc c sf rn rd op2 => Sys2Proof.Machine.execSbc c sf rn rd op2 s
  | .rsc c sf rn rd op2 => Sys2Proof.Machine.execRsc c sf rn rd op2 s
  | .tst c rn _ op2 => Sys2Proof.Machine.execTst c rn op2 s
  | .teq c rn _ op2 => Sys2Proof.Machine.execTeq c rn op2 s
  | .cmp c rn _ op2 => Sys2Proof.Machine.execCmp c rn op2 s
  | .cmn c rn _ op2 => Sys2Proof.Machine.execCmn c rn op2 s
  | .orr c sf rn rd op2 => Sys2Proof.Machine.execOrr c sf rn rd op2 s
  | .mov c sf ign rd op2 => Sys2Proof.Machine.execMov c sf ign rd op2 s
  | .bic c sf rn rd op2 => Sys2Proof.Machine.execBic c sf rn rd op2 s
  | .mvn c sf ign rd op2 => Sys2Proof.Machine.execMvn c sf ign rd op2 s
  | .und011 c _ => Sys2Proof.Machine.execUnd011 c s
  | .strt c u rn rd off => Sys2Proof.Machine.execStrt c u rn rd off s
  | .ldrt c u rn rd off => Sys2Proof.Machine.execLdrt c u rn rd off s
  | .strbt c u rn rd off => Sys2Proof.Machine.execStrbt c u rn rd off s
  | .ldrbt c u rn rd off => Sys2Proof.Machine.execLdrbt c u rn rd off s
  | .str c ix rn rd off => Sys2Proof.Machine.execStr c ix rn rd off s
  | .ldr c ix rn rd off => Sys2Proof.Machine.execLdr c ix rn rd off s
  | .strb c ix rn rd off => Sys2Proof.Machine.execStrb c ix rn rd off s
  | .ldrb c ix rn rd off => Sys2Proof.Machine.execLdrb c ix rn rd off s
  | .stm c ix rn list => Sys2Proof.Machine.execStm c ix rn list s
  | .stmUser c ix rn list => Sys2Proof.Machine.execStmUser c ix rn list s
  | .ldm c ix rn list => Sys2Proof.Machine.execLdm c ix rn list s
  | .ldmReturn c ix rn list => Sys2Proof.Machine.execLdmReturn c ix rn list s
  | .ldmUser c ix rn list => Sys2Proof.Machine.execLdmUser c ix rn list s
  | .b c offset => Sys2Proof.Machine.execB c offset s
  | .bl c offset => Sys2Proof.Machine.execBl c offset s
  | .ldc c _ _ _ _ _ => Sys2Proof.Machine.execLdc c s
  | .stc c _ _ _ _ _ => Sys2Proof.Machine.execStc c s
  | .cdp c _ _ _ _ _ _ => Sys2Proof.Machine.execCdp c s
  | .mrc c _ _ _ _ _ _ => Sys2Proof.Machine.execMrc c s
  | .mcr c _ _ _ _ _ _ => Sys2Proof.Machine.execMcr c s
  | .swi c _ => Sys2Proof.Machine.execSwi c s
  | .tAddReg rn rs rd => Sys2Proof.Machine.execTAddReg rn rs rd s
  | .tSubReg rn rs rd => Sys2Proof.Machine.execTSubReg rn rs rd s
  | .tAddImm3 imm3 rs rd => Sys2Proof.Machine.execTAddImm3 imm3 rs rd s
  | .tSubImm3 imm3 rs rd => Sys2Proof.Machine.execTSubImm3 imm3 rs rd s
  | .tLslImm amount rs rd => Sys2Proof.Machine.execTLslImm amount rs rd s
  | .tLsrImm amount rs rd => Sys2Proof.Machine.execTLsrImm amount rs rd s
  | .tAsrImm amount rs rd => Sys2Proof.Machine.execTAsrImm amount rs rd s
  | .tMovImm8 rd imm8 => Sys2Proof.Machine.execTMovImm8 rd imm8 s
  | .tCmpImm8 rd imm8 => Sys2Proof.Machine.execTCmpImm8 rd imm8 s
  | .tAddImm8 rd imm8 => Sys2Proof.Machine.execTAddImm8 rd imm8 s
  | .tSubImm8 rd imm8 => Sys2Proof.Machine.execTSubImm8 rd imm8 s
  | .tAnd rs rd => Sys2Proof.Machine.execTAnd rs rd s
  | .tEor rs rd => Sys2Proof.Machine.execTEor rs rd s
  | .tLslReg rs rd => Sys2Proof.Machine.execTLslReg rs rd s
  | .tLsrReg rs rd => Sys2Proof.Machine.execTLsrReg rs rd s
  | .tAsrReg rs rd => Sys2Proof.Machine.execTAsrReg rs rd s
  | .tAdc rs rd => Sys2Proof.Machine.execTAdc rs rd s
  | .tSbc rs rd => Sys2Proof.Machine.execTSbc rs rd s
  | .tRorReg rs rd => Sys2Proof.Machine.execTRorReg rs rd s
  | .tTst rs rd => Sys2Proof.Machine.execTTst rs rd s
  | .tNeg rs rd => Sys2Proof.Machine.execTNeg rs rd s
  | .tCmpReg rs rd => Sys2Proof.Machine.execTCmpReg rs rd s
  | .tCmn rs rd => Sys2Proof.Machine.execTCmn rs rd s
  | .tOrr rs rd => Sys2Proof.Machine.execTOrr rs rd s
  | .tMul rs rd => Sys2Proof.Machine.execTMul rs rd s
  | .tBic rs rd => Sys2Proof.Machine.execTBic rs rd s
  | .tMvn rs rd => Sys2Proof.Machine.execTMvn rs rd s
  | .tAddHi rd rs => Sys2Proof.Machine.execTAddHi rd rs s
  | .tCmpHi rd rs => Sys2Proof.Machine.execTCmpHi rd rs s
  | .tMovHi rd rs => Sys2Proof.Machine.execTMovHi rd rs s
  | .tBx _ rs => Sys2Proof.Machine.execTBx rs s
  | .tLdrPc rd word8 => Sys2Proof.Machine.execTLdrPc rd word8 s
  | .tStrReg ro rb rd => Sys2Proof.Machine.execTStrReg ro rb rd s
  | .tStrbReg ro rb rd => Sys2Proof.Machine.execTStrbReg ro rb rd s
  | .tLdrReg ro rb rd => Sys2Proof.Machine.execTLdrReg ro rb rd s
  | .tLdrbReg ro rb rd => Sys2Proof.Machine.execTLdrbReg ro rb rd s
  | .tStrhReg ro rb rd => Sys2Proof.Machine.execTStrhReg ro rb rd s
  | .tLdsb ro rb rd => Sys2Proof.Machine.execTLdsb ro rb rd s
  | .tLdrhReg ro rb rd => Sys2Proof.Machine.execTLdrhReg ro rb rd s
  | .tLdsh ro rb rd => Sys2Proof.Machine.execTLdsh ro rb rd s
  | .tStrImm offset rb rd => Sys2Proof.Machine.execTStrImm offset rb rd s
  | .tLdrImm offset rb rd => Sys2Proof.Machine.execTLdrImm offset rb rd s
  | .tStrbImm offset rb rd => Sys2Proof.Machine.execTStrbImm offset rb rd s
  | .tLdrbImm offset rb rd => Sys2Proof.Machine.execTLdrbImm offset rb rd s
  | .tStrhImm offset rb rd => Sys2Proof.Machine.execTStrhImm offset rb rd s
  | .tLdrhImm offset rb rd => Sys2Proof.Machine.execTLdrhImm offset rb rd s
  | .tStrSp rd word8 => Sys2Proof.Machine.execTStrSp rd word8 s
  | .tLdrSp rd word8 => Sys2Proof.Machine.execTLdrSp rd word8 s
  | .tAddPc rd word8 => Sys2Proof.Machine.execTAddPc rd word8 s
  | .tAddSp rd word8 => Sys2Proof.Machine.execTAddSp rd word8 s
  | .tAddSpImm neg word7 => Sys2Proof.Machine.execTAddSpImm neg word7 s
  | .tPush r list => Sys2Proof.Machine.execTPush r list s
  | .tPop r list => Sys2Proof.Machine.execTPop r list s
  | .tUnd1011 _ => Sys2Proof.Machine.execTUnd1011 s
  | .tStmia rb list => Sys2Proof.Machine.execTStmia rb list s
  | .tLdmia rb list => Sys2Proof.Machine.execTLdmia rb list s
  | .tSwi _ => Sys2Proof.Machine.execTSwi s
  | .tUndCond _ => Sys2Proof.Machine.execTUndCond s
  | .tBCond c offset => Sys2Proof.Machine.execTBCond c offset s
  | .tB offset => Sys2Proof.Machine.execTB offset s
  | .tUnd11101 _ => Sys2Proof.Machine.execTUnd11101 s
  | .tBlPrefix offset => Sys2Proof.Machine.execTBlPrefix offset s
  | .tBlSuffix offset => Sys2Proof.Machine.execTBlSuffix offset s

end Sys2Proof.Machine
end

