-- ==== Sys2Proof/WellFormed.lean ====
section
/-! DEFINITION. Well-formed instructions: those some word encodes. The conditions are the ones the decode order of
R145 and R146 leaves on the fields: a T form is not an LDR or STR, a user-bank LDM has no R15, an undefined
constructor's bits lie in its space and in no earlier row's. -/

namespace Sys2Proof

/-- `word & mask == value`, the test of R145 and R146. -/
def hits {n : Nat} (word : BitVec n) (mask value : Nat) : Bool :=
  word &&& BitVec.ofNat n mask == BitVec.ofNat n value

/-- The value of a condition field (R140). -/
def Cond.bits : Cond → BitVec 4
  | .eq => 0 | .ne => 1 | .cs => 2 | .cc => 3 | .mi => 4 | .pl => 5 | .vs => 6 | .vc => 7
  | .hi => 8 | .ls => 9 | .ge => 10 | .lt => 11 | .gt => 12 | .le => 13 | .al => 14 | .nv => 15

/-- A word of the undefined space of R145 line 8: opcode TST, TEQ, CMP or CMN with S = 0, on none of lines 1 to 7. -/
def inPsrSpace (w : Word) : Bool :=
  hits w 0x0D900000 0x01000000 && !hits w 0x0FFFFFF0 0x012FFF10 && !hits w 0x0E000090 0x00000090
    && !hits w 0x0FBF0FFF 0x010F0000 && !hits w 0x0FB0FFF0 0x0120F000 && !hits w 0x0FB0F000 0x0320F000

/-- A word of the undefined space of R145 line 6: SH = 00, on none of lines 2 to 4. -/
def inMulSwapSpace (w : Word) : Bool :=
  hits w 0x0E0000F0 0x00000090 && !hits w 0x0FC000F0 0x00000090 && !hits w 0x0F8000F0 0x00800090
    && !hits w 0x0FB00FF0 0x01000090

/-- P = 0 with W = 1 is a T form (R255), not one of LDR, STR, LDRB, STRB. -/
def Index.notT (ix : Index) : Bool :=
  ix.p || !ix.w

/-- The instruction is one that some word encodes. -/
def Instr.wf : Instr → Bool
  | .undStoreSh10 c rest => hits (c.bits ++ rest : Word) 0x0E1000F0 0x000000D0
  | .undStoreSh11 c rest => hits (c.bits ++ rest : Word) 0x0E1000F0 0x000000F0
  | .undMulSwap c rest => inMulSwapSpace (c.bits ++ rest : Word)
  | .undPsr c rest => inPsrSpace (c.bits ++ rest : Word)
  | .und011 c rest => hits (c.bits ++ rest : Word) 0x0E000010 0x06000010
  | .str _ ix _ _ _ => ix.notT
  | .ldr _ ix _ _ _ => ix.notT
  | .strb _ ix _ _ _ => ix.notT
  | .ldrb _ ix _ _ _ => ix.notT
  | .ldmReturn _ _ _ list => list.getLsbD 15
  | .ldmUser _ _ _ list => !list.getLsbD 15
  | .tUnd1011 rest => !hits (0xB#4 ++ rest : Half) 0xFF00 0xB000 && !hits (0xB#4 ++ rest : Half) 0xF600 0xB400
  | .tBCond c _ => c != .al && c != .nv
  | .bx .. | .mul .. | .mla .. | .umull .. | .umlal .. | .smull .. | .smlal .. | .swp .. | .swpb ..
  | .strh .. | .ldrh .. | .ldrsb .. | .ldrsh .. | .mrs .. | .msrReg .. | .msrImm ..
  | .and .. | .eor .. | .sub .. | .rsb .. | .add .. | .adc .. | .sbc .. | .rsc .. | .tst .. | .teq .. | .cmp ..
  | .cmn .. | .orr .. | .mov .. | .bic .. | .mvn .. | .strt .. | .ldrt .. | .strbt .. | .ldrbt ..
  | .stm .. | .stmUser .. | .ldm .. | .b .. | .bl .. | .ldc .. | .stc .. | .cdp .. | .mrc .. | .mcr .. | .swi ..
  | .tAddReg .. | .tSubReg .. | .tAddImm3 .. | .tSubImm3 .. | .tLslImm .. | .tLsrImm .. | .tAsrImm ..
  | .tMovImm8 .. | .tCmpImm8 .. | .tAddImm8 .. | .tSubImm8 .. | .tAnd .. | .tEor .. | .tLslReg .. | .tLsrReg ..
  | .tAsrReg .. | .tAdc .. | .tSbc .. | .tRorReg .. | .tTst .. | .tNeg .. | .tCmpReg .. | .tCmn .. | .tOrr ..
  | .tMul .. | .tBic .. | .tMvn .. | .tAddHi .. | .tCmpHi .. | .tMovHi .. | .tBx .. | .tLdrPc .. | .tStrReg ..
  | .tStrbReg .. | .tLdrReg .. | .tLdrbReg .. | .tStrhReg .. | .tLdsb .. | .tLdrhReg .. | .tLdsh .. | .tStrImm ..
  | .tLdrImm .. | .tStrbImm .. | .tLdrbImm .. | .tStrhImm .. | .tLdrhImm .. | .tStrSp .. | .tLdrSp .. | .tAddPc ..
  | .tAddSp .. | .tAddSpImm .. | .tPush .. | .tPop .. | .tStmia .. | .tLdmia .. | .tSwi .. | .tUndCond .. | .tB ..
  | .tUnd11101 .. | .tBlPrefix .. | .tBlSuffix .. => true

end Sys2Proof
end

