-- ==== Sys2Proof/Decode.lean ====
section
/-! DEFINITION. The decoder (R143 to R146, R160, R170) and, after it, an encoder written from the format tables R131
and R160. The ordered matches of R145 and R146 are `armLine` and `thumbLine`; every word and halfword matches a
line, so only a byte sequence that is too short is rejected. -/

namespace Sys2Proof

/-- The field of `len` bits whose lowest bit is `lo` (R10). -/
def fld {n : Nat} (w : BitVec n) (lo len : Nat) : BitVec len :=
  w.extractLsb' lo len

/-- Bit `i` (R10). -/
def bit {n : Nat} (w : BitVec n) (i : Nat) : Bool :=
  fld w i 1 == 1#1

/-- The condition a field value names (R140). -/
def condOf (b : BitVec 4) : Cond :=
  match b.toNat with
  | 0 => .eq | 1 => .ne | 2 => .cs | 3 => .cc | 4 => .mi | 5 => .pl | 6 => .vs | 7 => .vc
  | 8 => .hi | 9 => .ls | 10 => .ge | 11 => .lt | 12 => .gt | 13 => .le | 14 => .al | _ => .nv

/-- The shift type of bits 6..5 (R131). -/
def shiftOf (b : BitVec 2) : ShiftType :=
  match b.toNat with
  | 0 => .lsl | 1 => .lsr | 2 => .asr | _ => .ror

/-- The lines of R145 (line 7 has three, one per match). -/
inductive ArmLine
  | bx | mul | mull | swp | half | mulSwapSpace | mrs | msrReg | msrImm | psrSpace
  | dataProc | undef | single | block | branch | coproc | swi
  deriving DecidableEq, Repr

/-- The first line of R145 that `w` matches. -/
def armLine (w : Word) : ArmLine :=
  if hits w 0x0FFFFFF0 0x012FFF10 then .bx
  else if hits w 0x0FC000F0 0x00000090 then .mul
  else if hits w 0x0F8000F0 0x00800090 then .mull
  else if hits w 0x0FB00FF0 0x01000090 then .swp
  else if hits w 0x0E000090 0x00000090 && !hits w 0x00000060 0 then .half
  else if hits w 0x0E0000F0 0x00000090 then .mulSwapSpace
  else if hits w 0x0FBF0FFF 0x010F0000 then .mrs
  else if hits w 0x0FB0FFF0 0x0120F000 then .msrReg
  else if hits w 0x0FB0F000 0x0320F000 then .msrImm
  else if hits w 0x0D900000 0x01000000 then .psrSpace
  else if hits w 0x0C000000 0x00000000 then .dataProc
  else if hits w 0x0E000010 0x06000010 then .undef
  else if hits w 0x0C000000 0x04000000 then .single
  else if hits w 0x0E000000 0x08000000 then .block
  else if hits w 0x0E000000 0x0A000000 then .branch
  else if !hits w 0x0F000000 0x0F000000 && hits w 0x0C000000 0x0C000000 then .coproc
  else .swi

/-- Operand 2 (R131, R147). -/
def decodeOperand2 (w : Word) : Operand2 :=
  if bit w 25 then .imm (fld w 8 4) (fld w 0 8)
  else if bit w 4 then .shiftReg (fld w 8 4) (shiftOf (fld w 5 2)) (fld w 0 4)
  else .shiftImm (fld w 7 5) (shiftOf (fld w 5 2)) (fld w 0 4)

/-- The offset of a single data transfer (R149). -/
def decodeOffset (w : Word) : Offset :=
  if bit w 25 then .reg (fld w 7 5) (shiftOf (fld w 5 2)) (fld w 0 4) else .imm (fld w 0 12)

/-- The offset of a halfword transfer (R131, R149): bit 22 chooses the immediate form. -/
def decodeHalfOffset (w : Word) : HalfOffset :=
  if bit w 22 then .imm (fld w 8 4 ++ fld w 0 4) else .reg (fld w 8 4) (fld w 0 4)

/-- P, U, W (bits 24, 23, 21). -/
def decodeIndex (w : Word) : Index :=
  ⟨bit w 24, bit w 23, bit w 21⟩

/-- Data processing by opcode, bits 24..21 (R131). -/
def decodeDataProc (c : Cond) (w : Word) : Instr :=
  let sf := bit w 20
  let rn := fld w 16 4
  let rd := fld w 12 4
  let op2 := decodeOperand2 w
  match (fld w 21 4).toNat with
  | 0 => .and c sf rn rd op2
  | 1 => .eor c sf rn rd op2
  | 2 => .sub c sf rn rd op2
  | 3 => .rsb c sf rn rd op2
  | 4 => .add c sf rn rd op2
  | 5 => .adc c sf rn rd op2
  | 6 => .sbc c sf rn rd op2
  | 7 => .rsc c sf rn rd op2
  | 8 => .tst c rn rd op2
  | 9 => .teq c rn rd op2
  | 10 => .cmp c rn rd op2
  | 11 => .cmn c rn rd op2
  | 12 => .orr c sf rn rd op2
  | 13 => .mov c sf rn rd op2
  | 14 => .bic c sf rn rd op2
  | _ => .mvn c sf rn rd op2

/-- Multiply and accumulate by bit 21 (R131). -/
def decodeMul (c : Cond) (w : Word) : Instr :=
  if bit w 21 then .mla c (bit w 20) (fld w 16 4) (fld w 12 4) (fld w 8 4) (fld w 0 4)
  else .mul c (bit w 20) (fld w 16 4) (fld w 12 4) (fld w 8 4) (fld w 0 4)

/-- Long multiplies by U (bit 22, signed) and A (bit 21, accumulate) (R131). -/
def decodeMull (c : Cond) (w : Word) : Instr :=
  let sf := bit w 20
  let hi := fld w 16 4
  let lo := fld w 12 4
  let rs := fld w 8 4
  let rm := fld w 0 4
  match bit w 22, bit w 21 with
  | false, false => .umull c sf hi lo rs rm
  | false, true => .umlal c sf hi lo rs rm
  | true, false => .smull c sf hi lo rs rm
  | true, true => .smlal c sf hi lo rs rm

/-- Swaps by B (bit 22). -/
def decodeSwp (c : Cond) (w : Word) : Instr :=
  if bit w 22 then .swpb c (fld w 16 4) (fld w 12 4) (fld w 0 4)
  else .swp c (fld w 16 4) (fld w 12 4) (fld w 0 4)

/-- Halfword transfers by L (bit 20) and SH (bits 6..5); L = 0 with SH = 10 or 11 is undefined (R170). -/
def decodeHalf (c : Cond) (w : Word) : Instr :=
  let ix := decodeIndex w
  let rn := fld w 16 4
  let rd := fld w 12 4
  let off := decodeHalfOffset w
  match bit w 20, bit w 6, bit w 5 with
  | true, false, _ => .ldrh c ix rn rd off
  | true, true, false => .ldrsb c ix rn rd off
  | true, true, true => .ldrsh c ix rn rd off
  | false, false, _ => .strh c ix rn rd off
  | false, true, false => .undStoreSh10 c (fld w 0 28)
  | false, true, true => .undStoreSh11 c (fld w 0 28)

/-- Single data transfers by L (bit 20) and B (bit 22); P = 0 with W = 1 is the T form (R255). -/
def decodeSingle (c : Cond) (w : Word) : Instr :=
  let ix := decodeIndex w
  let rn := fld w 16 4
  let rd := fld w 12 4
  let off := decodeOffset w
  if ix.notT then
    match bit w 20, bit w 22 with
    | false, false => .str c ix rn rd off
    | true, false => .ldr c ix rn rd off
    | false, true => .strb c ix rn rd off
    | true, true => .ldrb c ix rn rd off
  else
    match bit w 20, bit w 22 with
    | false, false => .strt c ix.u rn rd off
    | true, false => .ldrt c ix.u rn rd off
    | false, true => .strbt c ix.u rn rd off
    | true, true => .ldrbt c ix.u rn rd off

/-- Block transfers by L (bit 20), S (bit 22) and, for LDM with S, R15 in the list (R275 to R277). -/
def decodeBlock (c : Cond) (w : Word) : Instr :=
  let ix := decodeIndex w
  let rn := fld w 16 4
  let list := fld w 0 16
  match bit w 20, bit w 22 with
  | false, false => .stm c ix rn list
  | false, true => .stmUser c ix rn list
  | true, false => .ldm c ix rn list
  | true, true => if bit w 15 then .ldmReturn c ix rn list else .ldmUser c ix rn list

/-- Coprocessor instructions (R131): data transfer, data operation, register transfer. -/
def decodeCoproc (c : Cond) (w : Word) : Instr :=
  if bit w 25 then
    if bit w 4 then
      if bit w 20 then .mrc c (fld w 21 3) (fld w 16 4) (fld w 12 4) (fld w 8 4) (fld w 5 3) (fld w 0 4)
      else .mcr c (fld w 21 3) (fld w 16 4) (fld w 12 4) (fld w 8 4) (fld w 5 3) (fld w 0 4)
    else .cdp c (fld w 20 4) (fld w 16 4) (fld w 12 4) (fld w 8 4) (fld w 5 3) (fld w 0 4)
  else
    let ix : CopIndex := ⟨bit w 24, bit w 23, bit w 22, bit w 21⟩
    if bit w 20 then .ldc c ix (fld w 16 4) (fld w 12 4) (fld w 8 4) (fld w 0 8)
    else .stc c ix (fld w 16 4) (fld w 12 4) (fld w 8 4) (fld w 0 8)

/-- The ARM decoder (R145): total on every word. -/
def decodeArm (w : Word) : Instr :=
  let c := condOf (fld w 28 4)
  match armLine w with
  | .bx => .bx c (fld w 0 4)
  | .mul => decodeMul c w
  | .mull => decodeMull c w
  | .swp => decodeSwp c w
  | .half => decodeHalf c w
  | .mulSwapSpace => .undMulSwap c (fld w 0 28)
  | .mrs => .mrs c (bit w 22) (fld w 12 4)
  | .msrReg => .msrReg c (bit w 22) (fld w 16 4) (fld w 0 4)
  | .msrImm => .msrImm c (bit w 22) (fld w 16 4) (fld w 8 4) (fld w 0 8)
  | .psrSpace => .undPsr c (fld w 0 28)
  | .dataProc => decodeDataProc c w
  | .undef => .und011 c (fld w 0 28)
  | .single => decodeSingle c w
  | .block => decodeBlock c w
  | .branch => if bit w 24 then .bl c (fld w 0 24) else .b c (fld w 0 24)
  | .coproc => decodeCoproc c w
  | .swi => .swi c (fld w 0 24)

/-- The rows of R146. -/
inductive ThumbLine
  | f2 | f1 | f3 | f4 | f5 | f6 | f7 | f8 | f9 | f10 | f11 | f12 | f13 | f14 | und1011
  | f15 | f17 | undCond | f16 | f18 | und11101 | f19
  deriving DecidableEq, Repr

/-- The first row of R146 that `h` matches. -/
def thumbLine (h : Half) : ThumbLine :=
  if hits h 0xF800 0x1800 then .f2
  else if hits h 0xE000 0x0000 then .f1
  else if hits h 0xE000 0x2000 then .f3
  else if hits h 0xFC00 0x4000 then .f4
  else if hits h 0xFC00 0x4400 then .f5
  else if hits h 0xF800 0x4800 then .f6
  else if hits h 0xF200 0x5000 then .f7
  else if hits h 0xF200 0x5200 then .f8
  else if hits h 0xE000 0x6000 then .f9
  else if hits h 0xF000 0x8000 then .f10
  else if hits h 0xF000 0x9000 then .f11
  else if hits h 0xF000 0xA000 then .f12
  else if hits h 0xFF00 0xB000 then .f13
  else if hits h 0xF600 0xB400 then .f14
  else if hits h 0xF000 0xB000 then .und1011
  else if hits h 0xF000 0xC000 then .f15
  else if hits h 0xFF00 0xDF00 then .f17
  else if hits h 0xFF00 0xDE00 then .undCond
  else if hits h 0xF000 0xD000 then .f16
  else if hits h 0xF800 0xE000 then .f18
  else if hits h 0xF800 0xE800 then .und11101
  else .f19

/-- F4 by op, bits 9..6 (R160). -/
def decodeF4 (h : Half) : Instr :=
  let rs := fld h 3 3
  let rd := fld h 0 3
  match (fld h 6 4).toNat with
  | 0 => .tAnd rs rd
  | 1 => .tEor rs rd
  | 2 => .tLslReg rs rd
  | 3 => .tLsrReg rs rd
  | 4 => .tAsrReg rs rd
  | 5 => .tAdc rs rd
  | 6 => .tSbc rs rd
  | 7 => .tRorReg rs rd
  | 8 => .tTst rs rd
  | 9 => .tNeg rs rd
  | 10 => .tCmpReg rs rd
  | 11 => .tCmn rs rd
  | 12 => .tOrr rs rd
  | 13 => .tMul rs rd
  | 14 => .tBic rs rd
  | _ => .tMvn rs rd

/-- F5 by op, bits 9..8; H1 and H2 add 8 to Rd and Rs (R160). -/
def decodeF5 (h : Half) : Instr :=
  let rd : RegNum := fld h 7 1 ++ fld h 0 3
  let rs : RegNum := fld h 6 1 ++ fld h 3 3
  match bit h 9, bit h 8 with
  | false, false => .tAddHi rd rs
  | false, true => .tCmpHi rd rs
  | true, false => .tMovHi rd rs
  | true, true => .tBx rd rs

/-- The THUMB decoder (R146, R160): total on every halfword. -/
def decodeThumb (h : Half) : Instr :=
  let r0 := fld h 0 3
  let r3 := fld h 3 3
  let r6 := fld h 6 3
  let r8 := fld h 8 3
  let imm8 := fld h 0 8
  match thumbLine h with
  | .f2 =>
    match bit h 10, bit h 9 with
    | false, false => .tAddReg r6 r3 r0
    | false, true => .tSubReg r6 r3 r0
    | true, false => .tAddImm3 r6 r3 r0
    | true, true => .tSubImm3 r6 r3 r0
  | .f1 =>
    match bit h 12, bit h 11 with
    | false, false => .tLslImm (fld h 6 5) r3 r0
    | false, true => .tLsrImm (fld h 6 5) r3 r0
    | true, _ => .tAsrImm (fld h 6 5) r3 r0
  | .f3 =>
    match bit h 12, bit h 11 with
    | false, false => .tMovImm8 r8 imm8
    | false, true => .tCmpImm8 r8 imm8
    | true, false => .tAddImm8 r8 imm8
    | true, true => .tSubImm8 r8 imm8
  | .f4 => decodeF4 h
  | .f5 => decodeF5 h
  | .f6 => .tLdrPc r8 imm8
  | .f7 =>
    match bit h 11, bit h 10 with
    | false, false => .tStrReg r6 r3 r0
    | false, true => .tStrbReg r6 r3 r0
    | true, false => .tLdrReg r6 r3 r0
    | true, true => .tLdrbReg r6 r3 r0
  | .f8 =>
    match bit h 11, bit h 10 with
    | false, false => .tStrhReg r6 r3 r0
    | false, true => .tLdsb r6 r3 r0
    | true, false => .tLdrhReg r6 r3 r0
    | true, true => .tLdsh r6 r3 r0
  | .f9 =>
    match bit h 12, bit h 11 with
    | false, false => .tStrImm (fld h 6 5) r3 r0
    | false, true => .tLdrImm (fld h 6 5) r3 r0
    | true, false => .tStrbImm (fld h 6 5) r3 r0
    | true, true => .tLdrbImm (fld h 6 5) r3 r0
  | .f10 => if bit h 11 then .tLdrhImm (fld h 6 5) r3 r0 else .tStrhImm (fld h 6 5) r3 r0
  | .f11 => if bit h 11 then .tLdrSp r8 imm8 else .tStrSp r8 imm8
  | .f12 => if bit h 11 then .tAddSp r8 imm8 else .tAddPc r8 imm8
  | .f13 => .tAddSpImm (bit h 7) (fld h 0 7)
  | .f14 => if bit h 11 then .tPop (bit h 8) imm8 else .tPush (bit h 8) imm8
  | .und1011 => .tUnd1011 (fld h 0 12)
  | .f15 => if bit h 11 then .tLdmia r8 imm8 else .tStmia r8 imm8
  | .f17 => .tSwi imm8
  | .undCond => .tUndCond imm8
  | .f16 => .tBCond (condOf (fld h 8 4)) imm8
  | .f18 => .tB (fld h 0 11)
  | .und11101 => .tUnd11101 (fld h 0 11)
  | .f19 => if bit h 11 then .tBlSuffix (fld h 0 11) else .tBlPrefix (fld h 0 11)

/-- An instruction as fetched: its length is decided by CPSR.T alone (R130). -/
inductive Code
  | arm (w : Word)
  | thumb (h : Half)
  deriving DecidableEq, Repr

/-- The instruction a fetched value stands for (R130). -/
def decodeCode : Code → Instr
  | .arm w => decodeArm w
  | .thumb h => decodeThumb h

/-- Why a byte sequence has no instruction: it ends too soon. -/
inductive DecodeError
  | truncated
  deriving DecidableEq, Repr

/-- The next instruction of a byte sequence, little-endian (R81, R130), with the bytes after it. -/
def decodeBytes (thumb : Bool) : List Byte → Except DecodeError (Instr × List Byte)
  | b0 :: b1 :: rest =>
    if thumb then .ok (decodeThumb (b1 ++ b0), rest)
    else
      match rest with
      | b2 :: b3 :: rest' => .ok (decodeArm (b3 ++ b2 ++ b1 ++ b0), rest')
      | _ => .error .truncated
  | _ => .error .truncated

/-- The bytes of an instruction of `n` bytes whose bits are `w`, lowest address first (R81). -/
def bytesOf : Nat → Nat → List Byte
  | 0, _ => []
  | n + 1, w => BitVec.ofNat 8 w :: bytesOf n (w / 256)

/-- The host's question: the instruction whose bits, as spec/opcode_table.json numbers them, are `w`. A row of 32
bits is an ARM instruction, one of 16 bits a THUMB instruction (R130). -/
def decodeTableWord (nbits w : Nat) : Option Instr :=
  if nbits = 32 ∨ nbits = 16 then
    match decodeBytes (nbits == 16) (bytesOf (nbits / 8) w) with
    | .ok (i, _) => some i
    | .error _ => none
  else none

/-! The encoder. -/

/-- Bits 6..5 of a shift type (R131). -/
def ShiftType.bits : ShiftType → BitVec 2
  | .lsl => 0 | .lsr => 1 | .asr => 2 | .ror => 3

/-- The I bit, bit 25, of an operand 2 (R131). -/
def Operand2.iBit : Operand2 → BitVec 1
  | .imm .. => 1
  | .shiftImm .. | .shiftReg .. => 0

/-- Bits 11..0 of an operand 2 (R131). -/
def Operand2.bits : Operand2 → BitVec 12
  | .imm rot imm8 => rot ++ imm8
  | .shiftImm amount ty rm => amount ++ ty.bits ++ 0#1 ++ rm
  | .shiftReg rs ty rm => rs ++ 0#1 ++ ty.bits ++ 1#1 ++ rm

/-- The I bit, bit 25, of a single data transfer (R131). -/
def Offset.iBit : Offset → BitVec 1
  | .imm _ => 0
  | .reg .. => 1

/-- Bits 11..0 of a single data transfer (R131, R149). -/
def Offset.bits : Offset → BitVec 12
  | .imm imm12 => imm12
  | .reg amount ty rm => amount ++ ty.bits ++ 0#1 ++ rm

/-- Bit 22 of a halfword transfer: 1 for an immediate (R131). -/
def HalfOffset.immBit : HalfOffset → BitVec 1
  | .imm _ => 1
  | .reg .. => 0

/-- Bits 11..8 of a halfword transfer (R131). -/
def HalfOffset.high : HalfOffset → BitVec 4
  | .imm imm8 => imm8.extractLsb' 4 4
  | .reg ignored _ => ignored

/-- Bits 3..0 of a halfword transfer (R131). -/
def HalfOffset.low : HalfOffset → BitVec 4
  | .imm imm8 => imm8.extractLsb' 0 4
  | .reg _ rm => rm

/-- One bit of a word. -/
def one (v : Bool) : BitVec 1 :=
  BitVec.ofBool v

/-- A data-processing word (R131). -/
def encodeDataProc (c : Cond) (opcode : BitVec 4) (sf : Bool) (rn rd : RegNum) (op2 : Operand2) : Word :=
  c.bits ++ 0#2 ++ op2.iBit ++ opcode ++ one sf ++ rn ++ rd ++ op2.bits

/-- A long multiply word (R131). -/
def encodeMull (c : Cond) (signed acc : BitVec 1) (sf : Bool) (hi lo rs rm : RegNum) : Word :=
  c.bits ++ 1#5 ++ signed ++ acc ++ one sf ++ hi ++ lo ++ rs ++ 9#4 ++ rm

/-- A halfword transfer word (R131). -/
def encodeHalf (c : Cond) (ix : Index) (l : BitVec 1) (sh : BitVec 2) (rn rd : RegNum) (off : HalfOffset) : Word :=
  c.bits ++ 0#3 ++ one ix.p ++ one ix.u ++ off.immBit ++ one ix.w ++ l ++ rn ++ rd ++ off.high ++ 1#1 ++ sh ++ 1#1
    ++ off.low

/-- A single data transfer word (R131). -/
def encodeSingle (c : Cond) (ix : Index) (byte l : BitVec 1) (rn rd : RegNum) (off : Offset) : Word :=
  c.bits ++ 1#2 ++ off.iBit ++ one ix.p ++ one ix.u ++ byte ++ one ix.w ++ l ++ rn ++ rd ++ off.bits

/-- A block transfer word (R131). -/
def encodeBlock (c : Cond) (ix : Index) (s l : BitVec 1) (rn : RegNum) (list : BitVec 16) : Word :=
  c.bits ++ 4#3 ++ one ix.p ++ one ix.u ++ s ++ one ix.w ++ l ++ rn ++ list

/-- An F4 halfword (R160). -/
def encodeF4 (op : BitVec 4) (rs rd : LowReg) : Half :=
  0b010000#6 ++ op ++ rs ++ rd

/-- An F5 halfword (R160). -/
def encodeF5 (op : BitVec 2) (rd rs : RegNum) : Half :=
  0b010001#6 ++ op ++ rd.extractLsb' 3 1 ++ rs.extractLsb' 3 1 ++ rs.extractLsb' 0 3 ++ rd.extractLsb' 0 3

/-- The word or halfword that encodes an instruction (R131, R160). -/
def encode : Instr → Code
  | .bx c rm => .arm (c.bits ++ 0x12FFF1#24 ++ rm)
  | .mul c sf rd ign rs rm => .arm (c.bits ++ 0#7 ++ one sf ++ rd ++ ign ++ rs ++ 9#4 ++ rm)
  | .mla c sf rd rn rs rm => .arm (c.bits ++ 1#7 ++ one sf ++ rd ++ rn ++ rs ++ 9#4 ++ rm)
  | .umull c sf hi lo rs rm => .arm (encodeMull c 0 0 sf hi lo rs rm)
  | .umlal c sf hi lo rs rm => .arm (encodeMull c 0 1 sf hi lo rs rm)
  | .smull c sf hi lo rs rm => .arm (encodeMull c 1 0 sf hi lo rs rm)
  | .smlal c sf hi lo rs rm => .arm (encodeMull c 1 1 sf hi lo rs rm)
  | .swp c rn rd rm => .arm (c.bits ++ 0b00010000#8 ++ rn ++ rd ++ 0x09#8 ++ rm)
  | .swpb c rn rd rm => .arm (c.bits ++ 0b00010100#8 ++ rn ++ rd ++ 0x09#8 ++ rm)
  | .strh c ix rn rd off => .arm (encodeHalf c ix 0 0b01 rn rd off)
  | .ldrh c ix rn rd off => .arm (encodeHalf c ix 1 0b01 rn rd off)
  | .ldrsb c ix rn rd off => .arm (encodeHalf c ix 1 0b10 rn rd off)
  | .ldrsh c ix rn rd off => .arm (encodeHalf c ix 1 0b11 rn rd off)
  | .undStoreSh10 c rest => .arm (c.bits ++ rest)
  | .undStoreSh11 c rest => .arm (c.bits ++ rest)
  | .undMulSwap c rest => .arm (c.bits ++ rest)
  | .mrs c spsr rd => .arm (c.bits ++ 0b00010#5 ++ one spsr ++ 0b001111#6 ++ rd ++ 0#12)
  | .msrReg c spsr mask rm => .arm (c.bits ++ 0b00010#5 ++ one spsr ++ 0b10#2 ++ mask ++ 0xF00#12 ++ rm)
  | .msrImm c spsr mask rot imm8 =>
    .arm (c.bits ++ 0b00110#5 ++ one spsr ++ 0b10#2 ++ mask ++ 0xF#4 ++ rot ++ imm8)
  | .undPsr c rest => .arm (c.bits ++ rest)
  | .and c sf rn rd op2 => .arm (encodeDataProc c 0 sf rn rd op2)
  | .eor c sf rn rd op2 => .arm (encodeDataProc c 1 sf rn rd op2)
  | .sub c sf rn rd op2 => .arm (encodeDataProc c 2 sf rn rd op2)
  | .rsb c sf rn rd op2 => .arm (encodeDataProc c 3 sf rn rd op2)
  | .add c sf rn rd op2 => .arm (encodeDataProc c 4 sf rn rd op2)
  | .adc c sf rn rd op2 => .arm (encodeDataProc c 5 sf rn rd op2)
  | .sbc c sf rn rd op2 => .arm (encodeDataProc c 6 sf rn rd op2)
  | .rsc c sf rn rd op2 => .arm (encodeDataProc c 7 sf rn rd op2)
  | .tst c rn ign op2 => .arm (encodeDataProc c 8 true rn ign op2)
  | .teq c rn ign op2 => .arm (encodeDataProc c 9 true rn ign op2)
  | .cmp c rn ign op2 => .arm (encodeDataProc c 10 true rn ign op2)
  | .cmn c rn ign op2 => .arm (encodeDataProc c 11 true rn ign op2)
  | .orr c sf rn rd op2 => .arm (encodeDataProc c 12 sf rn rd op2)
  | .mov c sf ign rd op2 => .arm (encodeDataProc c 13 sf ign rd op2)
  | .bic c sf rn rd op2 => .arm (encodeDataProc c 14 sf rn rd op2)
  | .mvn c sf ign rd op2 => .arm (encodeDataProc c 15 sf ign rd op2)
  | .und011 c rest => .arm (c.bits ++ rest)
  | .strt c u rn rd off => .arm (encodeSingle c ⟨false, u, true⟩ 0 0 rn rd off)
  | .ldrt c u rn rd off => .arm (encodeSingle c ⟨false, u, true⟩ 0 1 rn rd off)
  | .strbt c u rn rd off => .arm (encodeSingle c ⟨false, u, true⟩ 1 0 rn rd off)
  | .ldrbt c u rn rd off => .arm (encodeSingle c ⟨false, u, true⟩ 1 1 rn rd off)
  | .str c ix rn rd off => .arm (encodeSingle c ix 0 0 rn rd off)
  | .ldr c ix rn rd off => .arm (encodeSingle c ix 0 1 rn rd off)
  | .strb c ix rn rd off => .arm (encodeSingle c ix 1 0 rn rd off)
  | .ldrb c ix rn rd off => .arm (encodeSingle c ix 1 1 rn rd off)
  | .stm c ix rn list => .arm (encodeBlock c ix 0 0 rn list)
  | .stmUser c ix rn list => .arm (encodeBlock c ix 1 0 rn list)
  | .ldm c ix rn list => .arm (encodeBlock c ix 0 1 rn list)
  | .ldmReturn c ix rn list => .arm (encodeBlock c ix 1 1 rn list)
  | .ldmUser c ix rn list => .arm (encodeBlock c ix 1 1 rn list)
  | .b c offset => .arm (c.bits ++ 0xA#4 ++ offset)
  | .bl c offset => .arm (c.bits ++ 0xB#4 ++ offset)
  | .ldc c ix rn crd cp offset =>
    .arm (c.bits ++ 0b110#3 ++ one ix.p ++ one ix.u ++ one ix.n ++ one ix.w ++ 1#1 ++ rn ++ crd ++ cp ++ offset)
  | .stc c ix rn crd cp offset =>
    .arm (c.bits ++ 0b110#3 ++ one ix.p ++ one ix.u ++ one ix.n ++ one ix.w ++ 0#1 ++ rn ++ crd ++ cp ++ offset)
  | .cdp c op1 crn crd cp op2 crm => .arm (c.bits ++ 0b1110#4 ++ op1 ++ crn ++ crd ++ cp ++ op2 ++ 0#1 ++ crm)
  | .mrc c op1 crn rd cp op2 crm =>
    .arm (c.bits ++ 0b1110#4 ++ op1 ++ 1#1 ++ crn ++ rd ++ cp ++ op2 ++ 1#1 ++ crm)
  | .mcr c op1 crn rd cp op2 crm =>
    .arm (c.bits ++ 0b1110#4 ++ op1 ++ 0#1 ++ crn ++ rd ++ cp ++ op2 ++ 1#1 ++ crm)
  | .swi c comment => .arm (c.bits ++ 0xF#4 ++ comment)
  | .tAddReg rn rs rd => .thumb (0b0001100#7 ++ rn ++ rs ++ rd)
  | .tSubReg rn rs rd => .thumb (0b0001101#7 ++ rn ++ rs ++ rd)
  | .tAddImm3 imm3 rs rd => .thumb (0b0001110#7 ++ imm3 ++ rs ++ rd)
  | .tSubImm3 imm3 rs rd => .thumb (0b0001111#7 ++ imm3 ++ rs ++ rd)
  | .tLslImm amount rs rd => .thumb (0b00000#5 ++ amount ++ rs ++ rd)
  | .tLsrImm amount rs rd => .thumb (0b00001#5 ++ amount ++ rs ++ rd)
  | .tAsrImm amount rs rd => .thumb (0b00010#5 ++ amount ++ rs ++ rd)
  | .tMovImm8 rd imm8 => .thumb (0b00100#5 ++ rd ++ imm8)
  | .tCmpImm8 rd imm8 => .thumb (0b00101#5 ++ rd ++ imm8)
  | .tAddImm8 rd imm8 => .thumb (0b00110#5 ++ rd ++ imm8)
  | .tSubImm8 rd imm8 => .thumb (0b00111#5 ++ rd ++ imm8)
  | .tAnd rs rd => .thumb (encodeF4 0 rs rd)
  | .tEor rs rd => .thumb (encodeF4 1 rs rd)
  | .tLslReg rs rd => .thumb (encodeF4 2 rs rd)
  | .tLsrReg rs rd => .thumb (encodeF4 3 rs rd)
  | .tAsrReg rs rd => .thumb (encodeF4 4 rs rd)
  | .tAdc rs rd => .thumb (encodeF4 5 rs rd)
  | .tSbc rs rd => .thumb (encodeF4 6 rs rd)
  | .tRorReg rs rd => .thumb (encodeF4 7 rs rd)
  | .tTst rs rd => .thumb (encodeF4 8 rs rd)
  | .tNeg rs rd => .thumb (encodeF4 9 rs rd)
  | .tCmpReg rs rd => .thumb (encodeF4 10 rs rd)
  | .tCmn rs rd => .thumb (encodeF4 11 rs rd)
  | .tOrr rs rd => .thumb (encodeF4 12 rs rd)
  | .tMul rs rd => .thumb (encodeF4 13 rs rd)
  | .tBic rs rd => .thumb (encodeF4 14 rs rd)
  | .tMvn rs rd => .thumb (encodeF4 15 rs rd)
  | .tAddHi rd rs => .thumb (encodeF5 0 rd rs)
  | .tCmpHi rd rs => .thumb (encodeF5 1 rd rs)
  | .tMovHi rd rs => .thumb (encodeF5 2 rd rs)
  | .tBx ign rs => .thumb (encodeF5 3 ign rs)
  | .tLdrPc rd word8 => .thumb (0b01001#5 ++ rd ++ word8)
  | .tStrReg ro rb rd => .thumb (0b0101000#7 ++ ro ++ rb ++ rd)
  | .tStrbReg ro rb rd => .thumb (0b0101010#7 ++ ro ++ rb ++ rd)
  | .tLdrReg ro rb rd => .thumb (0b0101100#7 ++ ro ++ rb ++ rd)
  | .tLdrbReg ro rb rd => .thumb (0b0101110#7 ++ ro ++ rb ++ rd)
  | .tStrhReg ro rb rd => .thumb (0b0101001#7 ++ ro ++ rb ++ rd)
  | .tLdsb ro rb rd => .thumb (0b0101011#7 ++ ro ++ rb ++ rd)
  | .tLdrhReg ro rb rd => .thumb (0b0101101#7 ++ ro ++ rb ++ rd)
  | .tLdsh ro rb rd => .thumb (0b0101111#7 ++ ro ++ rb ++ rd)
  | .tStrImm offset rb rd => .thumb (0b01100#5 ++ offset ++ rb ++ rd)
  | .tLdrImm offset rb rd => .thumb (0b01101#5 ++ offset ++ rb ++ rd)
  | .tStrbImm offset rb rd => .thumb (0b01110#5 ++ offset ++ rb ++ rd)
  | .tLdrbImm offset rb rd => .thumb (0b01111#5 ++ offset ++ rb ++ rd)
  | .tStrhImm offset rb rd => .thumb (0b10000#5 ++ offset ++ rb ++ rd)
  | .tLdrhImm offset rb rd => .thumb (0b10001#5 ++ offset ++ rb ++ rd)
  | .tStrSp rd word8 => .thumb (0b10010#5 ++ rd ++ word8)
  | .tLdrSp rd word8 => .thumb (0b10011#5 ++ rd ++ word8)
  | .tAddPc rd word8 => .thumb (0b10100#5 ++ rd ++ word8)
  | .tAddSp rd word8 => .thumb (0b10101#5 ++ rd ++ word8)
  | .tAddSpImm neg word7 => .thumb (0xB0#8 ++ one neg ++ word7)
  | .tPush r list => .thumb (0b1011010#7 ++ one r ++ list)
  | .tPop r list => .thumb (0b1011110#7 ++ one r ++ list)
  | .tUnd1011 rest => .thumb (0xB#4 ++ rest)
  | .tStmia rb list => .thumb (0b11000#5 ++ rb ++ list)
  | .tLdmia rb list => .thumb (0b11001#5 ++ rb ++ list)
  | .tSwi value => .thumb (0xDF#8 ++ value)
  | .tUndCond rest => .thumb (0xDE#8 ++ rest)
  | .tBCond c offset => .thumb (0xD#4 ++ c.bits ++ offset)
  | .tB offset => .thumb (0b11100#5 ++ offset)
  | .tUnd11101 rest => .thumb (0b11101#5 ++ rest)
  | .tBlPrefix offset => .thumb (0b11110#5 ++ offset)
  | .tBlSuffix offset => .thumb (0b11111#5 ++ offset)

/-- The bytes of a fetched value, lowest address first (R81). -/
def Code.bytes : Code → List Byte
  | .arm w => bytesOf 4 w.toNat
  | .thumb h => bytesOf 2 h.toNat

end Sys2Proof
end

