-- ==== Sys2Proof/Machine/Scheduler.lean ====
section
/-! DEFINITION. The cycle scheduler (R440 to R445): the tick, the event handlers' calls, the end of a step, and the
host's calls on a machine between steps (R470). -/

namespace Sys2Proof.Machine

/-- The order in which events fire (R442). -/
def firesBefore (a b : Event) : Bool :=
  decide (a.due < b.due) || (a.due == b.due && decide (a.seq < b.seq))

/-- The first of two candidates. -/
def earlier (a : Option Event) (b : Event) : Option Event :=
  match a with
  | none => some b
  | some x => if firesBefore b x then some b else some x

/-- The due event with the least (due, seq), if one is due (R441). -/
def nextDue (now : Nat) (queue : List Event) : Option Event :=
  (queue.filter fun e => decide (e.due ≤ now)).foldl earlier none

/-- Do what an external component asks (R440, R470). -/
def hostCall (c : HostCall) (s : State) : Result :=
  match c with
  | .schedule delay kind => .next (schedule delay kind s)
  | .raiseInterrupt k => .next (raiseInterrupt k s)
  | .triggerDma e => triggerDma e s
  | .writeIo o b => ioWriteByte startDma o b s

/-- What the handler of an event does after `done` of its calls: it ends, or makes one more call and goes on as `rest`
(R440). -/
def handlerBody (rest : Nat → State → Result) (e : Event) (done : Nat) (s : State) : Result :=
  match Config.handlerCall s e done with
  | (none, x) => .next { s with ext := x }
  | (some c, x) => andThen (hostCall c { s with ext := x }) (rest (done + 1))

/-- The handler of an event from the state after `done` of its calls, with fewer than the given number still to come. -/
def handlerCalls (e : Event) : Nat → Nat → State → Result
  | 0, _, _ => .fault .tickEndless
  | k + 1, done, s => handlerBody (handlerCalls e k) e done s

/-- The handler of an event from the state after `done` of its calls, with any number still to come; `runHandlerFrom_eq`
says that it is `handlerBody` going on as itself. -/
def runHandlerFrom (e : Event) (done : Nat) (s : State) : Result :=
  unbounded .tickEndless fun k => handlerCalls e k done s

/-- `EVENT_HANDLERS(e.kind)`, the function from state to state of R440 (log entries 7 and 11). -/
def runHandler (e : Event) (s : State) : Result :=
  runHandlerFrom e 0 s

/-- One turn of the loop of `tick` (R441): end, or take the first due event, run its handler and go on as `rest`. -/
def fireBody (rest : State → Result) (s : State) : Result :=
  match nextDue s.now s.queue with
  | none => .next s
  | some e => andThen (runHandler e { s with queue := s.queue.erase e }) rest

/-- The loop of `tick`, firing fewer than the given number of events. -/
def fireFewer : Nat → State → Result
  | 0, _ => .fault .tickEndless
  | k + 1, s => fireBody (fireFewer k) s

/-- The loop of `tick`, firing any number of events (R441); `fireEvents_eq` says that it is `fireBody` going on as itself
(log entry 7). -/
def fireEvents (s : State) : Result :=
  unbounded .tickEndless fun k => fireFewer k s

/-- `tick(n)` (R441). -/
def tick (n : Nat) (s : State) : Result :=
  fireEvents { s with now := s.now + n }

/-- The end of a step: `tick(1 + pending_cycles)`, with `pending_cycles` taken before the handlers run, so that a
transfer a handler starts is paid at the next step (R464, R484, log entry 9). -/
def endStep (s : State) : Result :=
  tick (1 + s.pendingCycles) { s with pendingCycles := 0 }

/-- The host loads the persisted SRAM bytes, from offset `offset` up (R63, R470; log entries 12 and 17). -/
def loadSram : Nat → List Byte → State → State
  | _, [], s => s
  | offset, b :: rest, s => loadSram (offset + 1) rest (loadCell .sram (offset % 2 ^ s.params.sramBits) b s)

/-- The host reads `n` SRAM bytes from offset `offset` up (R63, R470). -/
def dumpSram : Nat → Nat → State → List Byte
  | _, 0, _ => []
  | offset, n + 1, s => cellGet .sram (offset % 2 ^ s.params.sramBits) s :: dumpSram (offset + 1) n s

end Sys2Proof.Machine
end

