-- ==== Sys2Proof/Machine/Fetch.lean ====
section
/-! DEFINITION. The start of a step (R484): wake or idle, the refill of the pipeline, the IRQ check, and the
instruction taken from the pipeline; and the placing of an instruction where the next step fetches it. -/

namespace Sys2Proof.Machine

/-- The width of an instruction fetch (R92, R100). -/
def fetchWidth (s : State) : Width :=
  if s.cpsr.t then .half else .word

/-- Fetch one entry at R15 and advance R15 (R44, R89, R484). -/
def refillOne (s : State) : State :=
  let r := memRead (fetchWidth s) s.r15 s
  { r.2 with
    openBus := r.1
    pipe := r.2.pipe ++ [r.1]
    r15 := r.2.r15 + instrBytes r.2
    flushed := false }

/-- The refill: until the pipeline holds two entries (R484). -/
def refill (s : State) : State :=
  match s.pipe.length with
  | 0 => refillOne (refillOne s)
  | 1 => refillOne s
  | _ => s

/-- The instruction at the front of the pipeline, decoded by CPSR.T (R53, R484). -/
def frontInstr (s : State) : Instr :=
  if s.cpsr.t then decodeThumb ((s.pipe.headD 0).setWidth 16) else decodeArm (s.pipe.headD 0)

/-- What a step does before it ends with the tick (R408, R484). -/
inductive Begun
  /-- The machine is halted and nothing wakes it. -/
  | idle (s : State)
  /-- An IRQ was taken. -/
  | irq (s : State)
  /-- An instruction is to be executed. -/
  | run (i : Instr) (s : State)
  deriving DecidableEq, Repr

/-- Wake, refill, and choose between IRQ entry and the next instruction (R408, R421, R484). -/
def beginStep (s : State) : Begun :=
  if s.halted && !wakePending s then .idle s
  else
    let s1 := refill { s with halted := false }
    if irqLine s1 && !s1.cpsr.i then .irq (takeIrq s1)
    else .run (frontInstr s1) { s1 with pipe := s1.pipe.tail }

/-- Place bytes in storage from `addr` up, read-only or not; addresses without storage are left alone. -/
def placeBytes : Word → List Byte → State → State
  | _, [], s => s
  | addr, b :: rest, s =>
    placeBytes (addr + 1) rest
      (match locate s.params addr with
       | .cell r offset => loadCell r offset b s
       | .zero | .io _ | .unmapped => s)

/-- The address of the oldest instruction in the pipeline, or R15 when it is empty. -/
def nextAddr (s : State) : Word :=
  s.r15 - instrBytes s * BitVec.ofNat 32 s.pipe.length

/-- The state whose next step fetches and runs the instruction with bits `w` (16 bits: THUMB; else ARM): the bytes at
the next instruction's address, the pipeline flushed there, CPSR.T, the machine not halted, and IME off only where an
IRQ would be taken instead. -/
def placeInstr (nbits w : Nat) (s : State) : State :=
  let thumb := nbits == 16
  let addr := alignPc thumb (nextAddr s)
  let s1 := placeBytes addr (bytesOf (if thumb then 2 else 4) w) s
  { s1 with
    r15 := addr
    pipe := []
    flushed := true
    halted := false
    ime := s1.ime && (s1.cpsr.i || !wakePending s1)
    cpsr := { s1.cpsr with t := thumb } }

end Sys2Proof.Machine
end

