-- ==== Sys2Proof/Machine/Step.lean ====
section
/-! DEFINITION. One step of the machine (R484), runs (R488), and the host's way to place an instruction. -/

namespace Sys2Proof.Machine

/-- `step()` (R484). -/
def step (s : State) : Host.Outcome State Fault Refusal :=
  match beginStep s with
  | .idle s1 => endStep s1
  | .irq s1 => endStep s1
  | .run i s1 => andThen (exec i s1) endStep

/-- `run_until(c)` (R488), of at most `fuel` steps; each step advances `now`, so `c - now` steps are enough (R491). -/
def runUntil : Nat → Nat → State → Result
  | 0, _, s => .next s
  | fuel + 1, c, s => if s.now < c then andThen (step s) (runUntil fuel c) else .next s

/-- `s` with an instruction placed where the next step fetches (log entry 3). -/
def State.withFetchWord (s : State) (nbits w : Nat) : State :=
  placeInstr nbits w s

end Sys2Proof.Machine
end

