-- ==== Sys2Proof/Safety.lean ====
section
/-! DEFINITION. The terms the claims are stated in: what a store changes, which registers an instruction keeps, and the
invariant every step keeps. -/

namespace Sys2Proof.Machine

/-! Reading and writing memory. -/

/-- The address is in the I/O region (R82). -/
def isIo (a : Word) : Bool :=
  a.extractLsb' 24 8 == 0x04

/-- Reading the address reaches a component outside the core (R112). -/
def claimed (a : Word) (s : State) : Bool :=
  isIo a && s.params.ioClaims.contains (a.extractLsb' 0 10) && ioReg (a.extractLsb' 0 10) == .external

/-- The byte an address reads as. -/
def readByte (a : Word) (s : State) : Byte :=
  (busRead a s).1

/-- The addresses and bytes of a store outside the I/O region, lowest first (R81, R94, R95): a byte store to palette
or VRAM has two, one to OAM none. -/
def bytesOfStore (p : Params) (w : Width) (addr v : Word) : List (Word × Byte) :=
  match w with
  | .byte =>
    match locate p addr with
    | .cell .palette _ | .cell .vram _ => [(addr &&& 0xFFFFFFFE, byteAt v 0), (addr ||| 1, byteAt v 0)]
    | .cell .oam _ => []
    | .cell .bios _ | .cell .ewram _ | .cell .iwram _ | .cell .rom _ | .cell .sram _ | .zero | .io _ | .unmapped =>
      [(addr, byteAt v 0)]
  | .half => [(addr &&& 0xFFFFFFFE, byteAt v 0), ((addr &&& 0xFFFFFFFE) + 1, byteAt v 1)]
  | .word =>
    [(addr &&& 0xFFFFFFFC, byteAt v 0), ((addr &&& 0xFFFFFFFC) + 1, byteAt v 1),
      ((addr &&& 0xFFFFFFFC) + 2, byteAt v 2), ((addr &&& 0xFFFFFFFC) + 3, byteAt v 3)]

/-- The byte that bytes written one after another leave at `a`, if any reaches the place of `a`; BIOS and ROM take
none (R83, R87). -/
def lastWritten (p : Params) (bytes : List (Word × Byte)) (a : Word) : Option Byte :=
  match locate p a with
  | .cell r o =>
    if readOnly r then none
    else (bytes.reverse.find? fun x => locate p x.1 == .cell r o).map (·.2)
  | .zero | .io _ | .unmapped => none

/-- The memory of `t` is that of `s` with `bytes` written: every address outside the I/O region reads as the last byte
written to its place, and otherwise as before. -/
def Wrote (bytes : List (Word × Byte)) (s t : State) : Prop :=
  ∀ a, isIo a = false → readByte a t = (lastWritten s.params bytes a).getD (readByte a s)

/-- Every address outside the I/O region reads as before. -/
def SameMemory (s t : State) : Prop :=
  ∀ a, isIo a = false → readByte a t = readByte a s

/-! Registers. -/

/-- Every banked register other than those `rs` names in the mode of `s` is unchanged. -/
def KeepsRegsBut (rs : List RegNum) (s t : State) : Prop :=
  ∀ m n, n ≠ 15 → (∀ r ∈ rs, r ≠ 15 → physIndex m n ≠ physIndex s.cpsr.mode r) → getRegIn m n t = getRegIn m n s

/-- Only registers and CPSR may differ. -/
def OnlyRegs (s t : State) : Prop :=
  t = { s with regs := t.regs, cpsr := t.cpsr }

end Sys2Proof.Machine

namespace Sys2Proof

open Sys2Proof.Machine

/-! Classes of instructions. -/

/-- The condition field of an ARM instruction (R131), and of THUMB format 16. -/
def Instr.cond : Instr → Option Cond
  | .bx c .. | .mul c .. | .mla c .. | .umull c .. | .umlal c .. | .smull c .. | .smlal c .. | .swp c .. | .swpb c ..
  | .strh c .. | .ldrh c .. | .ldrsb c .. | .ldrsh c .. | .undStoreSh10 c .. | .undStoreSh11 c ..
  | .undMulSwap c .. | .mrs c .. | .msrReg c .. | .msrImm c .. | .undPsr c .. | .and c .. | .eor c .. | .sub c ..
  | .rsb c .. | .add c .. | .adc c .. | .sbc c .. | .rsc c .. | .tst c .. | .teq c .. | .cmp c .. | .cmn c ..
  | .orr c .. | .mov c .. | .bic c .. | .mvn c .. | .und011 c .. | .strt c .. | .ldrt c .. | .strbt c ..
  | .ldrbt c .. | .str c .. | .ldr c .. | .strb c .. | .ldrb c .. | .stm c .. | .stmUser c .. | .ldm c ..
  | .ldmReturn c .. | .ldmUser c .. | .b c .. | .bl c .. | .ldc c .. | .stc c .. | .cdp c .. | .mrc c .. | .mcr c ..
  | .swi c .. | .tBCond c .. => some c
  | .tAddReg .. | .tSubReg .. | .tAddImm3 .. | .tSubImm3 .. | .tLslImm .. | .tLsrImm .. | .tAsrImm ..
  | .tMovImm8 .. | .tCmpImm8 .. | .tAddImm8 .. | .tSubImm8 .. | .tAnd .. | .tEor .. | .tLslReg .. | .tLsrReg ..
  | .tAsrReg .. | .tAdc .. | .tSbc .. | .tRorReg .. | .tTst .. | .tNeg .. | .tCmpReg .. | .tCmn .. | .tOrr ..
  | .tMul .. | .tBic .. | .tMvn .. | .tAddHi .. | .tCmpHi .. | .tMovHi .. | .tBx .. | .tLdrPc .. | .tStrReg ..
  | .tStrbReg .. | .tLdrReg .. | .tLdrbReg .. | .tStrhReg .. | .tLdsb .. | .tLdrhReg .. | .tLdsh .. | .tStrImm ..
  | .tLdrImm .. | .tStrbImm .. | .tLdrbImm .. | .tStrhImm .. | .tLdrhImm .. | .tStrSp .. | .tLdrSp .. | .tAddPc ..
  | .tAddSp .. | .tAddSpImm .. | .tPush .. | .tPop .. | .tUnd1011 .. | .tStmia .. | .tLdmia .. | .tSwi ..
  | .tUndCond .. | .tB .. | .tUnd11101 .. | .tBlPrefix .. | .tBlSuffix .. => none

/-- The instruction stores to memory. -/
def Instr.storing : Instr → Bool
  | .swp .. | .swpb .. | .strh .. | .strt .. | .strbt .. | .str .. | .strb .. | .stm .. | .stmUser .. | .tStrReg ..
  | .tStrbReg .. | .tStrhReg .. | .tStrImm .. | .tStrbImm .. | .tStrhImm .. | .tStrSp .. | .tPush ..
  | .tStmia .. => true
  | .bx .. | .mul .. | .mla .. | .umull .. | .umlal .. | .smull .. | .smlal .. | .ldrh .. | .ldrsb .. | .ldrsh ..
  | .undStoreSh10 .. | .undStoreSh11 .. | .undMulSwap .. | .mrs .. | .msrReg .. | .msrImm .. | .undPsr .. | .and ..
  | .eor .. | .sub .. | .rsb .. | .add .. | .adc .. | .sbc .. | .rsc .. | .tst .. | .teq .. | .cmp .. | .cmn ..
  | .orr .. | .mov .. | .bic .. | .mvn .. | .und011 .. | .ldrt .. | .ldrbt .. | .ldr .. | .ldrb .. | .ldm ..
  | .ldmReturn .. | .ldmUser .. | .b .. | .bl .. | .ldc .. | .stc .. | .cdp .. | .mrc .. | .mcr .. | .swi ..
  | .tAddReg .. | .tSubReg .. | .tAddImm3 .. | .tSubImm3 .. | .tLslImm .. | .tLsrImm .. | .tAsrImm ..
  | .tMovImm8 .. | .tCmpImm8 .. | .tAddImm8 .. | .tSubImm8 .. | .tAnd .. | .tEor .. | .tLslReg .. | .tLsrReg ..
  | .tAsrReg .. | .tAdc .. | .tSbc .. | .tRorReg .. | .tTst .. | .tNeg .. | .tCmpReg .. | .tCmn .. | .tOrr ..
  | .tMul .. | .tBic .. | .tMvn .. | .tAddHi .. | .tCmpHi .. | .tMovHi .. | .tBx .. | .tLdrPc .. | .tLdrReg ..
  | .tLdrbReg .. | .tLdsb .. | .tLdrhReg .. | .tLdsh .. | .tLdrImm .. | .tLdrbImm .. | .tLdrhImm .. | .tLdrSp ..
  | .tAddPc .. | .tAddSp .. | .tAddSpImm .. | .tPop .. | .tUnd1011 .. | .tLdmia .. | .tSwi .. | .tUndCond ..
  | .tBCond .. | .tB .. | .tUnd11101 .. | .tBlPrefix .. | .tBlSuffix .. => false

/-- The exception an instruction raises when it executes (R308, R310, R312, R387, R391), by the mode it enters. -/
def Instr.raises : Instr → Option Mode
  | .swi .. | .tSwi .. => some .svc
  | .undStoreSh10 .. | .undStoreSh11 .. | .undMulSwap .. | .undPsr .. | .und011 .. | .ldc .. | .stc .. | .cdp ..
  | .mrc .. | .mcr .. | .tUnd1011 .. | .tUndCond .. | .tUnd11101 .. => some .und
  | .bx .. | .mul .. | .mla .. | .umull .. | .umlal .. | .smull .. | .smlal .. | .swp .. | .swpb .. | .strh ..
  | .ldrh .. | .ldrsb .. | .ldrsh .. | .mrs .. | .msrReg .. | .msrImm .. | .and .. | .eor .. | .sub .. | .rsb ..
  | .add .. | .adc .. | .sbc .. | .rsc .. | .tst .. | .teq .. | .cmp .. | .cmn .. | .orr .. | .mov .. | .bic ..
  | .mvn .. | .strt .. | .ldrt .. | .strbt .. | .ldrbt .. | .str .. | .ldr .. | .strb .. | .ldrb .. | .stm ..
  | .stmUser .. | .ldm .. | .ldmReturn .. | .ldmUser .. | .b .. | .bl .. | .tAddReg .. | .tSubReg ..
  | .tAddImm3 .. | .tSubImm3 .. | .tLslImm .. | .tLsrImm .. | .tAsrImm .. | .tMovImm8 .. | .tCmpImm8 ..
  | .tAddImm8 .. | .tSubImm8 .. | .tAnd .. | .tEor .. | .tLslReg .. | .tLsrReg .. | .tAsrReg .. | .tAdc ..
  | .tSbc .. | .tRorReg .. | .tTst .. | .tNeg .. | .tCmpReg .. | .tCmn .. | .tOrr .. | .tMul .. | .tBic ..
  | .tMvn .. | .tAddHi .. | .tCmpHi .. | .tMovHi .. | .tBx .. | .tLdrPc .. | .tStrReg .. | .tStrbReg ..
  | .tLdrReg .. | .tLdrbReg .. | .tStrhReg .. | .tLdsb .. | .tLdrhReg .. | .tLdsh .. | .tStrImm .. | .tLdrImm ..
  | .tStrbImm .. | .tLdrbImm .. | .tStrhImm .. | .tLdrhImm .. | .tStrSp .. | .tLdrSp .. | .tAddPc .. | .tAddSp ..
  | .tAddSpImm .. | .tPush .. | .tPop .. | .tStmia .. | .tLdmia .. | .tBCond .. | .tB .. | .tBlPrefix ..
  | .tBlSuffix .. => none

/-- The base register, where a transfer writes it back (R250). -/
def writtenBase (ix : Index) (rn : RegNum) : List RegNum :=
  if !ix.p || ix.w then [rn] else []

/-- The base register, where a block transfer writes it back (R270). -/
def writtenBlockBase (ix : Index) (rn : RegNum) : List RegNum :=
  if ix.w then [rn] else []

/-- The registers an instruction may write, each with the mode through whose view it is written: `m` is the current
mode; a user-bank LDM writes those of USR (R276), an exception R14 of the mode entered (R411). -/
def Instr.writes (m : Mode) : Instr → List (Mode × RegNum)
  | .bx .. | .tBx .. | .b .. | .tB .. | .tBCond .. => []
  | .bl .. | .tBlPrefix .. | .tBlSuffix .. => [(m, 14)]
  | .mul _ _ rd .. | .mla _ _ rd .. => [(m, rd)]
  | .umull _ _ hi lo .. | .umlal _ _ hi lo .. | .smull _ _ hi lo .. | .smlal _ _ hi lo .. => [(m, hi), (m, lo)]
  | .swp _ _ rd _ | .swpb _ _ rd _ => [(m, rd)]
  | .strh _ ix rn _ _ => (writtenBase ix rn).map (m, ·)
  | .ldrh _ ix rn rd _ | .ldrsb _ ix rn rd _ | .ldrsh _ ix rn rd _ => (rd :: writtenBase ix rn).map (m, ·)
  | .undStoreSh10 .. | .undStoreSh11 .. | .undMulSwap .. | .undPsr .. | .und011 .. | .ldc .. | .stc .. | .cdp ..
  | .mrc .. | .mcr .. | .tUnd1011 .. | .tUndCond .. | .tUnd11101 .. => [(.und, 14)]
  | .swi .. | .tSwi .. => [(.svc, 14)]
  | .mrs _ _ rd => [(m, rd)]
  | .msrReg .. | .msrImm .. => []
  | .and _ _ _ rd _ | .eor _ _ _ rd _ | .sub _ _ _ rd _ | .rsb _ _ _ rd _ | .add _ _ _ rd _ | .adc _ _ _ rd _
  | .sbc _ _ _ rd _ | .rsc _ _ _ rd _ | .orr _ _ _ rd _ | .mov _ _ _ rd _ | .bic _ _ _ rd _
  | .mvn _ _ _ rd _ => [(m, rd)]
  | .tst .. | .teq .. | .cmp .. | .cmn .. => []
  | .strt _ _ rn _ _ | .strbt _ _ rn _ _ => [(m, rn)]
  | .ldrt _ _ rn rd _ | .ldrbt _ _ rn rd _ => [(m, rd), (m, rn)]
  | .str _ ix rn _ _ | .strb _ ix rn _ _ => (writtenBase ix rn).map (m, ·)
  | .ldr _ ix rn rd _ | .ldrb _ ix rn rd _ => (rd :: writtenBase ix rn).map (m, ·)
  | .stm _ ix rn _ => (writtenBlockBase ix rn).map (m, ·)
  | .stmUser .. => []
  | .ldm _ ix rn list | .ldmReturn _ ix rn list => (writtenBlockBase ix rn ++ listed list).map (m, ·)
  | .ldmUser _ _ _ list => (listed list).map (.usr, ·)
  | .tAddReg _ _ rd | .tSubReg _ _ rd | .tAddImm3 _ _ rd | .tSubImm3 _ _ rd | .tLslImm _ _ rd | .tLsrImm _ _ rd
  | .tAsrImm _ _ rd | .tMovImm8 rd _ | .tAddImm8 rd _ | .tSubImm8 rd _ | .tAnd _ rd | .tEor _ rd | .tLslReg _ rd
  | .tLsrReg _ rd | .tAsrReg _ rd | .tAdc _ rd | .tSbc _ rd | .tRorReg _ rd | .tNeg _ rd | .tOrr _ rd | .tMul _ rd
  | .tBic _ rd | .tMvn _ rd | .tLdrPc rd _ | .tLdrReg _ _ rd | .tLdrbReg _ _ rd | .tLdsb _ _ rd | .tLdrhReg _ _ rd
  | .tLdsh _ _ rd | .tLdrImm _ _ rd | .tLdrbImm _ _ rd | .tLdrhImm _ _ rd | .tLdrSp rd _ | .tAddPc rd _
  | .tAddSp rd _ => [(m, low rd)]
  | .tAddHi rd _ | .tMovHi rd _ => [(m, rd)]
  | .tCmpImm8 .. | .tTst .. | .tCmpReg .. | .tCmn .. | .tCmpHi .. => []
  | .tStrReg .. | .tStrbReg .. | .tStrhReg .. | .tStrImm .. | .tStrbImm .. | .tStrhImm .. | .tStrSp .. => []
  | .tAddSpImm .. | .tPush .. => [(m, 13)]
  | .tPop _ list => (13 :: listed list).map (m, ·)
  | .tStmia rb _ => [(m, low rb)]
  | .tLdmia rb list => (low rb :: listed list).map (m, ·)

/-- What of CPSR an instruction may change. -/
inductive Status
  /-- Nothing. -/
  | keep
  /-- N and Z. -/
  | nz
  /-- N, Z and C. -/
  | nzc
  /-- N, Z, C and V. -/
  | nzcv
  /-- T (R53). -/
  | thumb
  /-- All but T (R233). -/
  | allButT
  /-- Everything: an exception entry or return. -/
  | all
  deriving DecidableEq, Repr

/-- What a data-processing instruction may change of CPSR: with S = 1, the flags `k`, or all of it with Rd = 15 (R204,
R206). -/
def dataStatus (sf : Bool) (rd : RegNum) (k : Status) : Status :=
  if sf then (if rd = 15 then .all else k) else .keep

/-- What of CPSR an instruction may change (R51 to R53). -/
def Instr.status : Instr → Status
  | .bx .. | .tBx .. => .thumb
  | .b .. | .bl .. | .tB .. | .tBCond .. | .tBlPrefix .. | .tBlSuffix .. => .keep
  | .mul _ sf .. | .mla _ sf .. => if sf then .nzc else .keep
  | .umull _ sf .. | .umlal _ sf .. | .smull _ sf .. | .smlal _ sf .. => if sf then .nzcv else .keep
  | .swp .. | .swpb .. | .strh .. | .ldrh .. | .ldrsb .. | .ldrsh .. | .strt .. | .ldrt .. | .strbt .. | .ldrbt ..
  | .str .. | .ldr .. | .strb .. | .ldrb .. | .stm .. | .stmUser .. | .ldm .. | .ldmUser .. => .keep
  | .ldmReturn .. => .all
  | .undStoreSh10 .. | .undStoreSh11 .. | .undMulSwap .. | .undPsr .. | .und011 .. | .ldc .. | .stc .. | .cdp ..
  | .mrc .. | .mcr .. | .tUnd1011 .. | .tUndCond .. | .tUnd11101 .. | .swi .. | .tSwi .. => .all
  | .mrs .. => .keep
  | .msrReg _ spsr .. | .msrImm _ spsr .. => if spsr then .keep else .allButT
  | .and _ sf _ rd _ | .eor _ sf _ rd _ | .orr _ sf _ rd _ | .mov _ sf _ rd _ | .bic _ sf _ rd _
  | .mvn _ sf _ rd _ => dataStatus sf rd .nzc
  | .sub _ sf _ rd _ | .rsb _ sf _ rd _ | .add _ sf _ rd _ | .adc _ sf _ rd _ | .sbc _ sf _ rd _
  | .rsc _ sf _ rd _ => dataStatus sf rd .nzcv
  | .tst .. | .teq .. => .nzc
  | .cmp .. | .cmn .. => .nzcv
  | .tAddReg .. | .tSubReg .. | .tAddImm3 .. | .tSubImm3 .. | .tCmpImm8 .. | .tAddImm8 .. | .tSubImm8 .. | .tAdc ..
  | .tSbc .. | .tNeg .. | .tCmpReg .. | .tCmn .. | .tCmpHi .. => .nzcv
  | .tLslImm .. | .tLsrImm .. | .tAsrImm .. | .tLslReg .. | .tLsrReg .. | .tAsrReg .. | .tRorReg ..
  | .tMul .. => .nzc
  | .tMovImm8 .. | .tAnd .. | .tEor .. | .tTst .. | .tOrr .. | .tBic .. | .tMvn .. => .nz
  | .tAddHi .. | .tMovHi .. | .tLdrPc .. | .tStrReg .. | .tStrbReg .. | .tLdrReg .. | .tLdrbReg .. | .tStrhReg ..
  | .tLdsb .. | .tLdrhReg .. | .tLdsh .. | .tStrImm .. | .tLdrImm .. | .tStrbImm .. | .tLdrbImm .. | .tStrhImm ..
  | .tLdrhImm .. | .tStrSp .. | .tLdrSp .. | .tAddPc .. | .tAddSp .. | .tAddSpImm .. | .tPush .. | .tPop ..
  | .tStmia .. | .tLdmia .. => .keep

/-- `q` differs from `p` only in what `k` allows. -/
def Status.Allows (k : Status) (p q : Cpsr) : Prop :=
  match k with
  | .keep => q = p
  | .nz => q = { p with n := q.n, z := q.z }
  | .nzc => q = { p with n := q.n, z := q.z, c := q.c }
  | .nzcv => q = { p with n := q.n, z := q.z, c := q.c, v := q.v }
  | .thumb => q = { p with t := q.t }
  | .allButT => q.t = p.t
  | .all => True

/-- The instruction may write an SPSR: MSR to it, or an exception (R54, R411). -/
def Instr.writesSpsr (i : Instr) : Bool :=
  i.raises.isSome ||
    match i with
    | .msrReg _ spsr .. | .msrImm _ spsr .. => spsr
    | _ => false

end Sys2Proof

namespace Sys2Proof.Machine

/-! What a completed instruction leaves. -/

/-- CPSR with N, Z, C and V of a result (R204). -/
def flagsOf (r : Alu) (p : Cpsr) : Cpsr :=
  { p with n := r.res.getLsbD 31, z := r.res == 0, c := r.c, v := r.v }

/-- CPSR with N and Z of a result. -/
def nzOf (v : Word) (p : Cpsr) : Cpsr :=
  { p with n := v.getLsbD 31, z := v == 0 }

/-- From `s` to `t`, `rd` is written with `v` and CPSR becomes `p`; every other register and all else are unchanged. -/
structure Sets (rd : RegNum) (v : Word) (p : Cpsr) (s t : State) : Prop where
  reg : getReg rd t = v
  cpsr : t.cpsr = p
  keeps : KeepsRegsBut [rd] s t
  only : OnlyRegs s t

/-- From `s` to `t`, the machine branches to `v` with CPSR `p` (R41, R44); all else is unchanged. -/
def Jumps (v : Word) (p : Cpsr) (s t : State) : Prop :=
  t = { s with r15 := alignPc p.t v, pipe := [], flushed := true, cpsr := p }

/-- From `s` to `t`, an exception is entered (R411): mode `m`, T clear, I set, F unchanged; the old CPSR in the SPSR of
`m`; `lr` in R14 of `m`; R15 at `vector`, the pipeline flushed; all else unchanged. -/
structure Entered (m : Mode) (vector lr : Word) (s t : State) : Prop where
  cpsr : t.cpsr = { s.cpsr with mode := m, t := false, i := true }
  saved : ∃ k, spsrIndex m = some k ∧ spsrWord t.spsr[k] = cpsrWord s.cpsr ∧
    ∀ j, j ≠ k → t.spsr[j] = s.spsr[j]
  link : getReg 14 t = lr
  keeps : ∀ m' n, n ≠ 15 → physIndex m' n ≠ physIndex m 14 → getRegIn m' n t = getRegIn m' n s
  pc : t.r15 = vector ∧ t.pipe = [] ∧ t.flushed = true
  only : t = { s with
    regs := t.regs, r15 := t.r15, pipe := t.pipe, flushed := t.flushed, cpsr := t.cpsr, spsr := t.spsr }

/-- From `s` to `t`, a load (R251): the value read in `rd` (not R15), the base written back unless it is `rd`. -/
structure Loaded (read : Word → State → Word × State) (tr : Transfer) (rn rd : RegNum) (s t : State) : Prop where
  value : getReg rd t = (read tr.addr s).1
  base : tr.wb = true → rn ≠ rd → getReg rn t = tr.back
  keeps : KeepsRegsBut (if tr.wb then [rd, rn] else [rd]) s t
  only : t = { s with regs := t.regs, ext := t.ext }

/-- From `s` to `t`, a store of `v` (R253): the bytes written, then the base written back. -/
structure Stored (w : Width) (v : Word) (tr : Transfer) (rn : RegNum) (s t : State) : Prop where
  memory : Wrote (bytesOfStore s.params w tr.addr v) s t
  wf : Memory.wf t.mem = true
  base : tr.wb = true → getReg rn t = tr.back
  keeps : KeepsRegsBut (if tr.wb then [rn] else []) s t
  only : t = { s with regs := t.regs, mem := t.mem }

/-- From `u`, what the store itself leaves, to `t`: the base is written back (R250, R253), nothing else changes. -/
structure WrittenBack (tr : Transfer) (rn : RegNum) (u t : State) : Prop where
  base : tr.wb = true → getReg rn t = tr.back
  keeps : KeepsRegsBut (if tr.wb then [rn] else []) u t
  only : t = { u with regs := t.regs }

/-- From `s` to `t`, words are loaded from `addr` up into `regs`, each through the view of mode `m`, and the base (if
any) becomes `back` unless it is loaded (R271). R15, if it is loaded, is not described here. -/
structure LoadedWords (m : Mode) (regs : List RegNum) (addr : Word) (base : Option (RegNum × Word)) (s t : State) :
    Prop where
  values : ∀ k r, regs[k]? = some r → r ≠ 15 →
    getRegIn m r t = (memRead .word (addr + BitVec.ofNat 32 (4 * k)) s).1
  after : ∀ x ∈ base, x.1 ∉ regs → getRegIn s.cpsr.mode x.1 t = x.2
  keeps : ∀ m' n, n ≠ 15 → (∀ r ∈ regs, r ≠ 15 → physIndex m' n ≠ physIndex m r) →
    (∀ x ∈ base, physIndex m' n ≠ physIndex s.cpsr.mode x.1) → getRegIn m' n t = getRegIn m' n s

/-- The bytes of words stored at consecutive addresses from `addr` up (R99). -/
def bytesOfWords (p : Params) (addr : Word) : List Word → List (Word × Byte)
  | [] => []
  | v :: rest => bytesOfStore p .word addr v ++ bytesOfWords p (addr + 4) rest

/-- The word a block store stores of a listed register `r`: R15 gives `pcValue`; the base gives its new value, unless it
is the lowest register listed (R272). -/
def blockValue (pcValue : Word) (regs : List RegNum) (base : Option (RegNum × Word)) (s : State) (r : RegNum) : Word :=
  if r = 15 then pcValue
  else
    match base with
    | some x => if r = x.1 && regs.head? != some r then x.2 else getReg r s
    | none => getReg r s

/-- From `s` to `t`, the words `vs` are stored from `addr` up, and the base (if any) is written (R272). -/
structure StoredWords (addr : Word) (vs : List Word) (base : Option (RegNum × Word)) (s t : State) : Prop where
  memory : Wrote (bytesOfWords s.params addr vs) s t
  wf : Memory.wf t.mem = true
  after : ∀ x ∈ base, getReg x.1 t = x.2
  keeps : KeepsRegsBut (base.toList.map (·.1)) s t
  only : t = { s with regs := t.regs, mem := t.mem }

/-- Words stored one after another from `addr` up (R99). -/
def storeAll : Word → List Word → State → Result
  | _, [], s => .next s
  | addr, v :: rest, s => andThen (store .word addr v s) (storeAll (addr + 4) rest)

/-- Words stored one after another from `addr` up, the base (if any) written after the first (R272). -/
def storeAllBack (addr : Word) (vs : List Word) (base : Option (RegNum × Word)) (s : State) : Result :=
  match vs with
  | [] => .next s
  | v :: rest =>
    andThen (store .word addr v s) fun u => storeAll (addr + 4) rest (base.elim u fun x => setReg x.1 x.2 u)

/-- The registers a block transfer moves: those listed, or R15 where none is (R270, R274). -/
def movedRegs (regs : List RegNum) : List RegNum :=
  if regs = [] then [15] else regs

/-- How far a block transfer moves its base: 4 bytes for each register listed, 0x40 where none is (R270, R274). -/
def movedBytes (regs : List RegNum) : Word :=
  if regs = [] then 0x40 else BitVec.ofNat 32 (4 * regs.length)

/-- No word of a block transfer lies in the I/O region. -/
def BlockOutsideIo (n : Nat) (addr : Word) : Prop :=
  ∀ k, k < n → isIo (addr + BitVec.ofNat 32 (4 * k)) = false

/-- From `s` to `t`, R15 and the rest after a load of `regs` from `addr` up that leaves CPSR `p`: R15, if it is loaded,
is loaded last and branches (R271, R277); registers apart, nothing else changes. -/
structure AfterLoads (regs : List RegNum) (addr : Word) (p : Cpsr) (s t : State) : Prop where
  branch : 15 ∈ regs → t.r15 = alignPc p.t (memRead .word (addr + BitVec.ofNat 32 (4 * (regs.length - 1))) s).1 ∧
    t.pipe = [] ∧ t.flushed = true
  stay : 15 ∉ regs → t.r15 = s.r15 ∧ t.pipe = s.pipe ∧ t.flushed = s.flushed
  cpsr : t.cpsr = p
  only : t = { s with regs := t.regs, r15 := t.r15, pipe := t.pipe, flushed := t.flushed, cpsr := t.cpsr }

/-- CPSR `p` after an exception return from `s` (R417): the SPSR of the mode of `s`, its mode field only if it is a mode
number (R37); with no SPSR, unchanged. -/
structure Restored (s : State) (p : Cpsr) : Prop where
  valid : ∀ k m, spsrIndex s.cpsr.mode = some k → modeBits m = s.spsr[k].mode → cpsrWord p = spsrWord s.spsr[k]
  invalid : ∀ k, spsrIndex s.cpsr.mode = some k → (∀ m, modeBits m ≠ s.spsr[k].mode) →
    p = ⟨s.spsr[k].n, s.spsr[k].z, s.spsr[k].c, s.spsr[k].v, s.spsr[k].i, s.spsr[k].f, s.spsr[k].t, s.cpsr.mode⟩
  absent : spsrIndex s.cpsr.mode = none → p = s.cpsr

/-! Forms of one shape, each with what the rule of its instruction says of it. -/

/-- The operations that write Rd, with the result and flags from `a` (Rn), `b` (operand 2 and its carry) and CPSR
(R205, R207 to R214, R219 to R222). -/
def dataProcForms (c : Cond) (sf : Bool) (rn rd : RegNum) (op2 : Operand2) (a : Word) (b : Shifted) (p : Cpsr) :
    List (Instr × Alu) :=
  [(.and c sf rn rd op2, ⟨a &&& b.val, b.carry, p.v⟩), (.eor c sf rn rd op2, ⟨a ^^^ b.val, b.carry, p.v⟩),
    (.sub c sf rn rd op2, aluSub a b.val), (.rsb c sf rn rd op2, aluSub b.val a),
    (.add c sf rn rd op2, aluAdd a b.val), (.adc c sf rn rd op2, aluAdc a b.val p.c),
    (.sbc c sf rn rd op2, aluSbc a b.val p.c), (.rsc c sf rn rd op2, aluSbc b.val a p.c),
    (.orr c sf rn rd op2, ⟨a ||| b.val, b.carry, p.v⟩), (.mov c sf rn rd op2, ⟨b.val, b.carry, p.v⟩),
    (.bic c sf rn rd op2, ⟨a &&& ~~~b.val, b.carry, p.v⟩), (.mvn c sf rn rd op2, ⟨~~~b.val, b.carry, p.v⟩)]

/-- The operations that only set flags (R215 to R218); `ign` is the Rd field. -/
def compareForms (c : Cond) (rn ign : RegNum) (op2 : Operand2) (a : Word) (b : Shifted) (p : Cpsr) :
    List (Instr × Alu) :=
  [(.tst c rn ign op2, ⟨a &&& b.val, b.carry, p.v⟩), (.teq c rn ign op2, ⟨a ^^^ b.val, b.carry, p.v⟩),
    (.cmp c rn ign op2, aluSub a b.val), (.cmn c rn ign op2, aluAdd a b.val)]

/-- The long multiplies with their products (R242 to R245), from Rm, Rs and RdHi:RdLo. -/
def longForms (c : Cond) (sf : Bool) (hi lo rs rm : RegNum) (m n h l : Word) : List (Instr × BitVec 64) :=
  [(.umull c sf hi lo rs rm, BitVec.ofNat 64 (m.toNat * n.toNat)),
    (.umlal c sf hi lo rs rm, BitVec.ofNat 64 (m.toNat * n.toNat + (h.toNat * 2 ^ 32 + l.toNat))),
    (.smull c sf hi lo rs rm, BitVec.ofInt 64 (m.toInt * n.toInt)),
    (.smlal c sf hi lo rs rm, BitVec.ofInt 64 (m.toInt * n.toInt + (h.toInt * 2 ^ 32 + l.toNat)))]

/-- The word and byte loads with their index bits and reads (R251, R252, R255). -/
def singleLoads (c : Cond) (ix : Index) (rn rd : RegNum) (off : Offset) :
    List (Instr × Index × (Word → State → Word × State)) :=
  [(.ldr c ix rn rd off, ix, memReadRot), (.ldrb c ix rn rd off, ix, memRead .byte),
    (.ldrt c ix.u rn rd off, ⟨false, ix.u, false⟩, memReadRot),
    (.ldrbt c ix.u rn rd off, ⟨false, ix.u, false⟩, memRead .byte)]

/-- The word and byte stores with their index bits and widths (R253 to R255). -/
def singleStores (c : Cond) (ix : Index) (rn rd : RegNum) (off : Offset) : List (Instr × Index × Width) :=
  [(.str c ix rn rd off, ix, .word), (.strb c ix rn rd off, ix, .byte),
    (.strt c ix.u rn rd off, ⟨false, ix.u, false⟩, .word),
    (.strbt c ix.u rn rd off, ⟨false, ix.u, false⟩, .byte)]

/-- The halfword and signed loads with their reads (R261, R263, R264). -/
def halfLoads (c : Cond) (ix : Index) (rn rd : RegNum) (off : HalfOffset) :
    List (Instr × (Word → State → Word × State)) :=
  [(.ldrh c ix rn rd off, memReadHalfRot), (.ldrsb c ix rn rd off, memReadByteSigned),
    (.ldrsh c ix rn rd off, memReadHalfSigned)]

/-- The undefined and coprocessor instructions of ARM state (R170, R312), every field of each on its own. -/
def undefinedForms (c : Cond) (rest : BitVec 28) (cix : CopIndex) (rn crd cpNum crm op1 : RegNum) (op1s op2 : BitVec 3)
    (offset : Byte) : List Instr :=
  [.undStoreSh10 c rest, .undStoreSh11 c rest, .undMulSwap c rest, .undPsr c rest, .und011 c rest,
    .ldc c cix rn crd cpNum offset, .stc c cix rn crd cpNum offset, .cdp c op1 rn crd cpNum op2 crm,
    .mrc c op1s rn crd cpNum op2 crm, .mcr c op1s rn crd cpNum op2 crm]

/-- The undefined encodings of THUMB state (R391). -/
def thumbUndefinedForms (r12 : BitVec 12) (r8 : Byte) (r11 : BitVec 11) : List Instr :=
  [.tUnd1011 r12, .tUndCond r8, .tUnd11101 r11]

/-- The THUMB operations on low registers, with the register written, the result, and CPSR after (R331 to R349, R351,
R354, R356, R357): `a`, `b`, `d` are Rs, Rn and the old Rd, `s3`, `s8`, `s5` the immediates. -/
def thumbForms (rn rs rd : LowReg) (s3 : BitVec 3) (s5 : BitVec 5) (s8 : Byte) (a b d : Word) (p : Cpsr) :
    List (Instr × Word × Cpsr) :=
  let arith (i : Instr) (r : Alu) : Instr × Word × Cpsr := (i, r.res, flagsOf r p)
  let shift (i : Instr) (r : Shifted) : Instr × Word × Cpsr := (i, r.val, { nzOf r.val p with c := r.carry })
  let logic (i : Instr) (v : Word) : Instr × Word × Cpsr := (i, v, nzOf v p)
  [arith (.tAddReg rn rs rd) (aluAdd a b), arith (.tSubReg rn rs rd) (aluSub a b),
    arith (.tAddImm3 s3 rs rd) (aluAdd a (BitVec.ofNat 32 s3.toNat)),
    arith (.tSubImm3 s3 rs rd) (aluSub a (BitVec.ofNat 32 s3.toNat)),
    shift (.tLslImm s5 rs rd) (shiftByImm .lsl a s5 p.c), shift (.tLsrImm s5 rs rd) (shiftByImm .lsr a s5 p.c),
    shift (.tAsrImm s5 rs rd) (shiftByImm .asr a s5 p.c),
    logic (.tMovImm8 rd s8) (BitVec.ofNat 32 s8.toNat),
    arith (.tAddImm8 rd s8) (aluAdd d (BitVec.ofNat 32 s8.toNat)),
    arith (.tSubImm8 rd s8) (aluSub d (BitVec.ofNat 32 s8.toNat)),
    logic (.tAnd rs rd) (d &&& a), logic (.tEor rs rd) (d ^^^ a),
    shift (.tLslReg rs rd) (shiftByReg .lsl d (a.extractLsb' 0 8) p.c),
    shift (.tLsrReg rs rd) (shiftByReg .lsr d (a.extractLsb' 0 8) p.c),
    shift (.tAsrReg rs rd) (shiftByReg .asr d (a.extractLsb' 0 8) p.c),
    arith (.tAdc rs rd) (aluAdc d a p.c), arith (.tSbc rs rd) (aluSbc d a p.c),
    shift (.tRorReg rs rd) (shiftByReg .ror d (a.extractLsb' 0 8) p.c),
    arith (.tNeg rs rd) (aluSub 0 a), logic (.tOrr rs rd) (d ||| a), logic (.tBic rs rd) (d &&& ~~~a),
    logic (.tMvn rs rd) (~~~a)]

/-- The THUMB comparisons with CPSR after (R339, R350, R352, R353, R359). -/
def thumbCompares (rs rd : LowReg) (h k : RegNum) (s8 : Byte) (s : State) : List (Instr × Cpsr) :=
  let a := getReg (low rs) s
  let d := getReg (low rd) s
  [(.tCmpImm8 rd s8, flagsOf (aluSub d (BitVec.ofNat 32 s8.toNat)) s.cpsr), (.tTst rs rd, nzOf (d &&& a) s.cpsr),
    (.tCmpReg rs rd, flagsOf (aluSub d a) s.cpsr), (.tCmn rs rd, flagsOf (aluAdd d a) s.cpsr),
    (.tCmpHi h k, flagsOf (aluSub (getReg h s) (getReg k s)) s.cpsr)]

/-- The THUMB loads with their reads and addresses (R362, R365, R366, R368 to R370, R372, R374, R376, R378). -/
def thumbLoads (ro rb rd : LowReg) (o5 : BitVec 5) (w8 : Byte) (s : State) :
    List (Instr × (Word → State → Word × State) × Word) :=
  let byReg := getReg (low rb) s + getReg (low ro) s
  let b := getReg (low rb) s
  [(.tLdrPc rd w8, memRead .word, ((instrAddr s + 4) &&& 0xFFFFFFFC) + BitVec.ofNat 32 (4 * w8.toNat)),
    (.tLdrReg ro rb rd, memReadRot, byReg), (.tLdrbReg ro rb rd, memRead .byte, byReg),
    (.tLdsb ro rb rd, memReadByteSigned, byReg), (.tLdrhReg ro rb rd, memReadHalfRot, byReg),
    (.tLdsh ro rb rd, memReadHalfSigned, byReg),
    (.tLdrImm o5 rb rd, memReadRot, b + BitVec.ofNat 32 (4 * o5.toNat)),
    (.tLdrbImm o5 rb rd, memRead .byte, b + BitVec.ofNat 32 o5.toNat),
    (.tLdrhImm o5 rb rd, memReadHalfRot, b + BitVec.ofNat 32 (2 * o5.toNat)),
    (.tLdrSp rd w8, memReadRot, getReg 13 s + BitVec.ofNat 32 (4 * w8.toNat))]

/-- The THUMB stores with their widths and addresses (R363, R364, R367, R371, R373, R375, R377). -/
def thumbStores (ro rb rd : LowReg) (o5 : BitVec 5) (w8 : Byte) (s : State) : List (Instr × Width × Word) :=
  let byReg := getReg (low rb) s + getReg (low ro) s
  let b := getReg (low rb) s
  [(.tStrReg ro rb rd, .word, byReg), (.tStrbReg ro rb rd, .byte, byReg), (.tStrhReg ro rb rd, .half, byReg),
    (.tStrImm o5 rb rd, .word, b + BitVec.ofNat 32 (4 * o5.toNat)),
    (.tStrbImm o5 rb rd, .byte, b + BitVec.ofNat 32 o5.toNat),
    (.tStrhImm o5 rb rd, .half, b + BitVec.ofNat 32 (2 * o5.toNat)),
    (.tStrSp rd w8, .word, getReg 13 s + BitVec.ofNat 32 (4 * w8.toNat))]

/-! Reset and DMA triggers. -/

/-- What reset leaves with both boots (R70, R480, R481): the pipeline, the interrupt, DMA and scheduler registers, and
memory. -/
structure ResetShared (s : State) : Prop where
  pipe : s.pipe = [] ∧ s.flushed = true ∧ s.openBus = 0
  interrupts : s.ie = 0 ∧ s.iff = 0 ∧ s.ime = false ∧ s.halted = false
  dma : ∀ ch : Fin 4, s.dma[ch] = ⟨0, 0, 0, 0, 0, 0⟩
  scheduler : s.now = 0 ∧ s.seq = 0 ∧ s.queue = [] ∧ s.pendingCycles = 0
  ram : ∀ a : Word, a.toNat / 0x01000000 ∈ [2, 3, 5, 6, 7] → readByte a s = 0
  sram : ∀ a : Word, a.toNat / 0x01000000 ∈ [14, 15] → readByte a s = 0xFF

/-- The listed channels, one after another, each run if it is enabled with this timing when its turn comes (R462,
R465). -/
def runArmed (timing : BitVec 2) : List (Fin 4) → State → Result
  | [], s => .next s
  | ch :: rest, s =>
    andThen
      (if s.dma[ch].cntH.getLsbD 15 = true ∧ s.dma[ch].cntH.extractLsb' 12 2 = timing then startDma ch s else .next s)
      (runArmed timing rest)

/-! Fetching. -/

/-- The bytes of the instruction at `a` (R130). -/
def codeBytes (thumb : Bool) (a : Word) (s : State) : List Byte :=
  if thumb then [readByte a s, readByte (a + 1) s]
  else [readByte a s, readByte (a + 1) s, readByte (a + 2) s, readByte (a + 3) s]

/-- The value fetched at `a`: the bytes, least significant first, zero-extended (R59, R81). -/
def fetchedAt (thumb : Bool) (a : Word) (s : State) : Word :=
  if thumb then (readByte (a + 1) s ++ readByte a s).setWidth 32
  else readByte (a + 3) s ++ readByte (a + 2) s ++ readByte (a + 1) s ++ readByte a s

/-- No IRQ is taken at the next step boundary (R410). -/
def noIrq (s : State) : Bool :=
  !irqLine s || s.cpsr.i

/-! The invariant. -/

/-- Memory is in canonical form, every DMA register holds only its implemented bits (R450, R451), and the events'
insertion numbers are distinct and below the counter (R60, R440). -/
structure DataInv (s : State) : Prop where
  mem : Memory.wf s.mem = true
  sad : ∀ ch : Fin 4, s.dma[ch].sad &&& sadMask ch = s.dma[ch].sad
  dad : ∀ ch : Fin 4, s.dma[ch].dad &&& dadMask ch = s.dma[ch].dad
  cntL : ∀ ch : Fin 4, s.dma[ch].cntL &&& cntLMask ch = s.dma[ch].cntL
  cntH : ∀ ch : Fin 4, s.dma[ch].cntH &&& cntHMask ch = s.dma[ch].cntH
  below : ∀ e ∈ s.queue, e.seq < s.seq
  distinct : (s.queue.map Event.seq).Nodup

/-- Between steps: the data are as `DataInv` says, at most one prefetched entry is left, none after a flush (R44), R15
is aligned for the instruction state (R41, R100), and in THUMB state every entry is a zero-extended halfword (R44). -/
structure Inv (s : State) : Prop where
  data : DataInv s
  pipe : s.pipe.length ≤ 1
  flushed : s.flushed = true → s.pipe = []
  aligned : alignPc s.cpsr.t s.r15 = s.r15
  halves : s.cpsr.t = true → ∀ v ∈ s.pipe, v.toNat < 0x10000

end Sys2Proof.Machine
end

