-- ==== Sys2Proof/Certificates/Slice0/Obligations.lean ====
section
/-! DEFINITION. The statements for the provers, each named for what it states. Terms are those of Safety.lean. A clause
that rests on a choice of the model names its log entry. -/

open Sys2Proof Sys2Proof.Machine

/-! Encoding. -/

/-- For every well-formed instruction, decoding the word that encodes it gives it back, with every operand (R131,
R145, R146, R160). -/
def Obligations.DecodeEncode : Prop :=
  ∀ i : Instr, i.wf = true → decodeCode (encode i) = i

/-- Every ARM word and every THUMB halfword decodes to a well-formed instruction, whose encoding is that word: the
decoder is total and no bit of the word is lost (R145, R146). -/
def Obligations.EncodeDecode : Prop :=
  ∀ w : Code, (decodeCode w).wf = true ∧ encode (decodeCode w) = w

/-- Decoding bytes reads one instruction of the length of the state, little-endian, and leaves the rest; too few bytes
are rejected by name (R81, R130). -/
def Obligations.DecodeBytesEncode : Prop :=
  (∀ (w : Word) (rest : List Byte),
    decodeBytes false (bytesOf 4 w.toNat ++ rest) = .ok (decodeCode (.arm w), rest)) ∧
  (∀ (h : Half) (rest : List Byte),
    decodeBytes true (bytesOf 2 h.toNat ++ rest) = .ok (decodeCode (.thumb h), rest)) ∧
  (∀ (thumb : Bool) (bytes : List Byte), bytes.length < (if thumb then 2 else 4) →
    decodeBytes thumb bytes = .error .truncated)

/-- Words written out from the spec's encodings decode to the instructions they stand for. -/
def Obligations.WordsDecode : Prop :=
  decodeArm 0xE12FFF10 = .bx .al 0 ∧
  decodeArm 0xE0100291 = .mul .al true 0 0 2 1 ∧
  decodeArm 0xE0A10392 = .umlal .al false 1 0 3 2 ∧
  decodeArm 0xE1420091 = .swpb .al 2 0 1 ∧
  decodeArm 0xE1D270F1 = .ldrsh .al ⟨true, true, false⟩ 2 7 (.imm 1) ∧
  decodeArm 0xE321F0D2 = .msrImm .al false 1 0 0xD2 ∧
  decodeArm 0xE08F0211 = .add .al false 15 0 (.shiftReg 2 .lsl 1) ∧
  decodeArm 0xE4B10004 = .ldrt .al true 1 0 (.imm 4) ∧
  decodeArm 0xE92D4001 = .stm .al ⟨true, false, true⟩ 13 0x4001 ∧
  decodeArm 0xEB00003E = .bl .al 0x3E ∧
  decodeArm 0xE6000010 = .und011 .al 0x6000010 ∧
  decodeArm 0xEF050000 = .swi .al 0x050000 ∧
  decodeThumb 0x0081 = .tLslImm 2 0 1 ∧
  decodeThumb 0x1842 = .tAddReg 1 0 2 ∧
  decodeThumb 0x46F7 = .tMovHi 15 14 ∧
  decodeThumb 0x5E88 = .tLdsh 2 1 0 ∧
  decodeThumb 0xB084 = .tAddSpImm true 4 ∧
  decodeThumb 0xBD01 = .tPop true 1 ∧
  decodeThumb 0xD1FC = .tBCond .ne 0xFC ∧
  decodeThumb 0xDF05 = .tSwi 5 ∧
  decodeThumb 0xF802 = .tBlSuffix 2

/-! The step. -/

/-- A step after a flush fetches two instructions at R15 and executes the first, with R15 two instructions past it: when
the bytes at R15 decode to `i`, `step` is `exec i` followed by the tick. A halted machine that an enabled source wakes, with
no IRQ to take, does the same in that step. The fetches reach no claimed I/O offset. (R44, R89, R421, R484; that the fetch
clears `flushed` is the model's choice, log entry 13.) -/
def Obligations.StepRunsDecoded : Prop :=
  ∀ (s : State) (i : Instr), (s.halted = true → s.ie &&& s.iff ≠ 0) → s.pipe = [] → noIrq s = true →
    (∀ k, k < 2 * (instrBytes s).toNat → claimed (s.r15 + BitVec.ofNat 32 k) s = false) →
    alignPc s.cpsr.t s.r15 = s.r15 → decodeBytes s.cpsr.t (codeBytes s.cpsr.t s.r15 s) = .ok (i, []) →
    let second := fetchedAt s.cpsr.t (s.r15 + instrBytes s)
      { s with openBus := fetchedAt s.cpsr.t s.r15 s }
    step s = andThen (exec i { s with
      halted := false, r15 := s.r15 + 2 * instrBytes s, pipe := [second], openBus := second, flushed := false }) endStep

/-- A step with one prefetched entry executes that entry, whatever memory now holds at its address, and fetches one
more at R15, at no claimed I/O offset; a halted machine that an enabled source wakes, with no IRQ to take, does so too.
(R44, R46, R421, R484, R495; that the fetch clears `flushed` is the model's choice, log entry 13.) -/
def Obligations.StepRunsPrefetched : Prop :=
  ∀ (s : State) (x : Word), (s.halted = true → s.ie &&& s.iff ≠ 0) → s.pipe = [x] → noIrq s = true →
    (∀ k, k < (instrBytes s).toNat → claimed (s.r15 + BitVec.ofNat 32 k) s = false) → alignPc s.cpsr.t s.r15 = s.r15 →
    let fetched := fetchedAt s.cpsr.t s.r15 s
    step s = andThen (exec (if s.cpsr.t then decodeThumb (x.setWidth 16) else decodeArm x) { s with
      halted := false, r15 := s.r15 + instrBytes s, pipe := [fetched], openBus := fetched, flushed := false }) endStep

/-- With the IRQ line asserted and I clear, a step enters IRQ mode instead of executing: R14_irq is the address of the
next instruction plus 4, in both states; a halted machine wakes first (R408, R410 to R412, R421). The refill before it sets
the open-bus latch and, at a claimed I/O offset, the external components' state `ext`: that a claimed read changes no more
is the model's choice, log entry 10. -/
def Obligations.StepTakesIrq : Prop :=
  ∀ s : State, s.pipe.length ≤ 1 → irqLine s = true → s.cpsr.i = false →
    ∃ (open_bus : Word) (ext : Nat) (u : State), step s = endStep u ∧
      Entered .irq 0x18 (nextAddr s + 4) { s with halted := false, openBus := open_bus, ext := ext } u

/-- A halted machine that nothing wakes only advances time: with no event due by then, the step leaves all else
unchanged (R421, R484). -/
def Obligations.HaltedStepIdles : Prop :=
  ∀ s : State, s.halted = true → s.ie &&& s.iff = 0 →
    (∀ e ∈ s.queue, s.now + 1 + s.pendingCycles < e.due) →
    step s = .next { s with now := s.now + 1 + s.pendingCycles, pendingCycles := 0 }

/-- `schedule` adds an event with the next insertion number (R440). `tick` advances time and fires due events one by one,
each removed from the queue before its handler runs, until none is due; the next to fire has the least (due, seq) (R441,
R442). A handler makes its calls one after another: that they are the four R440 names is log entry 11. -/
def Obligations.NextDueIsLeast : Prop :=
  (∀ (now : Nat) (queue : List Event),
    (nextDue now queue = none ↔ ∀ e ∈ queue, now < e.due) ∧
    ∀ e, nextDue now queue = some e → e ∈ queue ∧ e.due ≤ now ∧
      ∀ x ∈ queue, x.due ≤ now → e.due < x.due ∨ (e.due = x.due ∧ e.seq ≤ x.seq)) ∧
  (∀ (delay kind : Nat) (s : State), schedule delay kind s = { s with
    queue := s.queue ++ [⟨s.now + delay, s.seq, kind⟩], seq := s.seq + 1 }) ∧
  (∀ (n : Nat) (s : State), tick n s =
    match nextDue (s.now + n) s.queue with
    | none => .next { s with now := s.now + n }
    | some e => andThen (runHandler e { s with now := s.now + n, queue := s.queue.erase e }) (tick 0)) ∧
  (∀ (e : Event) (s : State), runHandler e s = runHandlerFrom e 0 s) ∧
  (∀ (e : Event) (done : Nat) (s : State), runHandlerFrom e done s =
    match Config.handlerCall s e done with
    | (none, x) => .next { s with ext := x }
    | (some c, x) => andThen (hostCall c { s with ext := x }) (runHandlerFrom e (done + 1)))

/-- Every step advances the cycle counter, and after it no event of the queue is due (R441, R484, R491). -/
def Obligations.StepTicks : Prop :=
  ∀ s t : State, step s = .next t → s.now < t.now ∧ ∀ e ∈ t.queue, t.now < e.due

/-- Every step keeps the invariant: memory and the DMA registers in their form, events numbered, at most one prefetched
entry, R15 aligned, THUMB entries zero-extended halfwords (R41, R44, R60, R100, R450, R451). That no entry is left while
`flushed` is set rests on the refill's clearing it, log entry 13, and that event handlers reach the core by calls alone is log
entry 11: the model's choices. -/
def Obligations.StepKeepsInv : Prop :=
  ∀ s t : State, Inv s → step s = .next t → Inv t

/-- The machine right after reset meets the invariant. -/
def Obligations.ResetInv : Prop :=
  Inv State.reset

/-- No step changes a byte of the BIOS or of the cartridge ROM, or a parameter (R64, R83, R87). -/
def Obligations.StepKeepsRom : Prop :=
  ∀ s t : State, step s = .next t →
    t.params = s.params ∧ (∀ o, o < 0x4000 → cellGet .bios o t = cellGet .bios o s) ∧
    ∀ o, o < 0x02000000 → cellGet .rom o t = cellGet .rom o s

/-- What reset leaves, with both boots (R70, R480, R481); with BOOT = bios R14_svc and SPSR_svc are free (log entry 4). -/
def Obligations.ResetValues : Prop :=
  (∀ p : Params, p.boot = .cartridgeDirect →
    let s := State.resetWith p
    cpsrWord s.cpsr = 0x0000001F ∧ s.r15 = 0x08000000 ∧ ResetShared s ∧
    getRegIn .sys 13 s = 0x03007F00 ∧ getRegIn .irq 13 s = 0x03007FA0 ∧ getRegIn .svc 13 s = 0x03007FE0 ∧
    (∀ m n, n ≠ 15 → ¬ (n = 13 ∧ (m = .usr ∨ m = .sys ∨ m = .irq ∨ m = .svc)) → getRegIn m n s = 0) ∧
    (∀ k : Fin 5, spsrWord s.spsr[k] = 0)) ∧
  (∀ p : Params, p.boot = .bios →
    let s := State.resetWith p
    cpsrWord s.cpsr = 0x000000D3 ∧ s.r15 = 0 ∧ ResetShared s ∧
    (∀ m n, n ≠ 15 → ¬ (n = 14 ∧ m = .svc) → getRegIn m n s = 0) ∧
    (∀ k : Fin 5, spsrIndex .svc ≠ some k → spsrWord s.spsr[k] = 0))

/-! Conditions. -/

/-- When each condition holds, and that the mask of the table selected by NZCV says the same (R140, R141). -/
def Obligations.ConditionTable : Prop :=
  ∀ (s : State) (c : Cond),
    (condPassed c s = true ↔ match c with
      | .eq => s.cpsr.z = true
      | .ne => s.cpsr.z = false
      | .cs => s.cpsr.c = true
      | .cc => s.cpsr.c = false
      | .mi => s.cpsr.n = true
      | .pl => s.cpsr.n = false
      | .vs => s.cpsr.v = true
      | .vc => s.cpsr.v = false
      | .hi => s.cpsr.c = true ∧ s.cpsr.z = false
      | .ls => s.cpsr.c = false ∨ s.cpsr.z = true
      | .ge => s.cpsr.n = s.cpsr.v
      | .lt => s.cpsr.n ≠ s.cpsr.v
      | .gt => s.cpsr.z = false ∧ s.cpsr.n = s.cpsr.v
      | .le => s.cpsr.z = true ∨ s.cpsr.n ≠ s.cpsr.v
      | .al => True
      | .nv => False) ∧
    (condPassed c s = true ↔
      ((condMask c).setWidth 32 >>> ((cpsrWord s.cpsr >>> 28) &&& 0xF)) &&& 1#32 = 1#32)

/-- An instruction whose condition fails has no effect, whatever its class; so none with condition NV has (R141, R142,
R311, R485). -/
def Obligations.ConditionFails : Prop :=
  ∀ (s : State) (i : Instr) (c : Cond), i.cond = some c → condPassed c s = false → exec i s = .next s

/-! The shifter and the arithmetic helpers. -/

/-- The barrel shifter with an immediate amount (R151 to R154). -/
def Obligations.ShiftImmediate : Prop :=
  ∀ (v : Word) (n : BitVec 5) (cin : Bool),
    (shiftByImm .lsl v 0 cin = ⟨v, cin⟩) ∧
    (shiftByImm .lsr v 0 cin = ⟨0, v.getLsbD 31⟩) ∧
    (shiftByImm .asr v 0 cin = ⟨if v.getLsbD 31 then 0xFFFFFFFF else 0, v.getLsbD 31⟩) ∧
    ((shiftByImm .ror v 0 cin).val.toNat = v.toNat / 2 + (if cin then 2 ^ 31 else 0) ∧
      (shiftByImm .ror v 0 cin).carry = v.getLsbD 0) ∧
    (n ≠ 0 →
      ((shiftByImm .lsl v n cin).val.toNat = v.toNat * 2 ^ n.toNat % 2 ^ 32 ∧
        (shiftByImm .lsl v n cin).carry = v.getLsbD (32 - n.toNat)) ∧
      ((shiftByImm .lsr v n cin).val.toNat = v.toNat / 2 ^ n.toNat ∧
        (shiftByImm .lsr v n cin).carry = v.getLsbD (n.toNat - 1)) ∧
      ((shiftByImm .asr v n cin).val.toInt = v.toInt / 2 ^ n.toNat ∧
        (shiftByImm .asr v n cin).carry = v.getLsbD (n.toNat - 1)) ∧
      ((shiftByImm .ror v n cin).val = (v >>> n.toNat ||| v <<< (32 - n.toNat)) ∧
        (shiftByImm .ror v n cin).carry = v.getLsbD (n.toNat - 1)))

/-- The barrel shifter with a register amount 0..255 (R155 to R158). -/
def Obligations.ShiftRegister : Prop :=
  ∀ (v : Word) (amount : Byte) (cin : Bool),
    let a := amount.toNat
    (a = 0 → ∀ ty, shiftByReg ty v amount cin = ⟨v, cin⟩) ∧
    (1 ≤ a → a ≤ 31 →
      ((shiftByReg .lsl v amount cin).val.toNat = v.toNat * 2 ^ a % 2 ^ 32 ∧
        (shiftByReg .lsl v amount cin).carry = v.getLsbD (32 - a)) ∧
      ((shiftByReg .lsr v amount cin).val.toNat = v.toNat / 2 ^ a ∧
        (shiftByReg .lsr v amount cin).carry = v.getLsbD (a - 1)) ∧
      ((shiftByReg .asr v amount cin).val.toInt = v.toInt / 2 ^ a ∧
        (shiftByReg .asr v amount cin).carry = v.getLsbD (a - 1))) ∧
    (a = 32 → shiftByReg .lsl v amount cin = ⟨0, v.getLsbD 0⟩ ∧ shiftByReg .lsr v amount cin = ⟨0, v.getLsbD 31⟩) ∧
    (32 < a → shiftByReg .lsl v amount cin = ⟨0, false⟩ ∧ shiftByReg .lsr v amount cin = ⟨0, false⟩) ∧
    (32 ≤ a →
      shiftByReg .asr v amount cin = ⟨if v.getLsbD 31 then 0xFFFFFFFF else 0, v.getLsbD 31⟩) ∧
    (1 ≤ a → a % 32 = 0 → shiftByReg .ror v amount cin = ⟨v, v.getLsbD 31⟩) ∧
    (a % 32 ≠ 0 →
      shiftByReg .ror v amount cin = ⟨v >>> (a % 32) ||| v <<< (32 - a % 32), v.getLsbD (a % 32 - 1)⟩)

/-- The arithmetic helpers: the result is the exact sum or difference modulo 2^32, C its carry or absence of borrow, V
that the signed result does not fit (R200 to R203). -/
def Obligations.ArithmeticFlags : Prop :=
  ∀ (a b : Word) (c : Bool),
    let k : Nat := if c then 1 else 0
    let borrow : Nat := if c then 0 else 1
    ((aluAdd a b).res = a + b ∧ ((aluAdd a b).c = true ↔ 2 ^ 32 ≤ a.toNat + b.toNat) ∧
      ((aluAdd a b).v = true ↔ (aluAdd a b).res.toInt ≠ a.toInt + b.toInt)) ∧
    ((aluAdc a b c).res = a + b + BitVec.ofNat 32 k ∧
      ((aluAdc a b c).c = true ↔ 2 ^ 32 ≤ a.toNat + b.toNat + k) ∧
      ((aluAdc a b c).v = true ↔ (aluAdc a b c).res.toInt ≠ a.toInt + b.toInt + k)) ∧
    ((aluSub a b).res = a - b ∧ ((aluSub a b).c = true ↔ b.toNat ≤ a.toNat) ∧
      ((aluSub a b).v = true ↔ (aluSub a b).res.toInt ≠ a.toInt - b.toInt)) ∧
    ((aluSbc a b c).res = a - b - BitVec.ofNat 32 borrow ∧
      ((aluSbc a b c).c = true ↔ b.toNat + borrow ≤ a.toNat) ∧
      ((aluSbc a b c).v = true ↔ (aluSbc a b c).res.toInt ≠ a.toInt - b.toInt - borrow)) ∧
    aluSbc a b true = aluSub a b

/-- What R15 reads as, operand 2, the offsets and addresses of transfers, and the registers of a list (R42, R43, R147, R149,
R250, R260, R270, R274). -/
def Obligations.OperandForms : Prop :=
  (∀ s : State, getReg 15 s = instrAddr s + (if s.cpsr.t then 4 else 8) ∧
    dataProcReg true 15 s = instrAddr s + 12 ∧ storedReg 15 s = instrAddr s + 12) ∧
  (∀ (s : State) (rot : BitVec 4) (imm8 : Byte),
    let v : Word := (imm8.setWidth 32 : Word) >>> (2 * rot.toNat) ||| (imm8.setWidth 32 : Word) <<< (32 - 2 * rot.toNat)
    operand2 (.imm rot imm8) s = ⟨v, if rot = 0 then s.cpsr.c else v.getLsbD 31⟩) ∧
  (∀ (s : State) (amount : BitVec 5) (ty : ShiftType) (rm : RegNum),
    operand2 (.shiftImm amount ty rm) s = shiftByImm ty (getReg rm s) amount s.cpsr.c) ∧
  (∀ (s : State) (ty : ShiftType) (rs rm : RegNum), s.cpsr.t = false →
    operand2 (.shiftReg rs ty rm) s =
      shiftByReg ty (if rm = 15 then instrAddr s + 12 else getReg rm s)
        ((if rs = 15 then instrAddr s + 12 else getReg rs s).extractLsb' 0 8) s.cpsr.c) ∧
  (∀ (s : State) (imm12 : BitVec 12) (amount : BitVec 5) (ty : ShiftType) (rm : RegNum),
    transferOffset (.imm imm12) s = BitVec.ofNat 32 imm12.toNat ∧
    transferOffset (.reg amount ty rm) s = (shiftByImm ty (getReg rm s) amount s.cpsr.c).val) ∧
  (∀ (s : State) (imm8 : Byte) (ign : BitVec 4) (rm : RegNum),
    halfOffset (.imm imm8) s = BitVec.ofNat 32 imm8.toNat ∧ halfOffset (.reg ign rm) s = getReg rm s) ∧
  (∀ (s : State) (ix : Index) (rn : RegNum) (offset : Word),
    (transferAt ix rn offset s).back = (if ix.u then getReg rn s + offset else getReg rn s - offset) ∧
    (transferAt ix rn offset s).addr = (if ix.p then (transferAt ix rn offset s).back else getReg rn s) ∧
    ((transferAt ix rn offset s).wb = true ↔ ix.p = false ∨ ix.w = true)) ∧
  (∀ (n : Nat) (list : BitVec n), (∀ r, r ∈ listed list ↔ list.getLsbD r.toNat = true) ∧
    (listed list).Pairwise fun a b => a.toNat < b.toNat) ∧
  (∀ (list : BitVec 16) (base : Word) (w : Bool),
    let size := movedBytes (listed list)
    blockBytes list = size ∧ blockRegs list = movedRegs (listed list) ∧
    blockStart ⟨false, true, w⟩ base size = base ∧ blockStart ⟨true, true, w⟩ base size = base + 4 ∧
    blockStart ⟨false, false, w⟩ base size = base - size + 4 ∧ blockStart ⟨true, false, w⟩ base size = base - size)

/-! Registers and status. -/

/-- The banked registers: a register written through one mode's view is read through another's iff R33 gives both
views the same physical register; R15 is one register in every view, and writing it is a branch (R12, R30, R33, R41). -/
def Obligations.BankedViews : Prop :=
  (∀ (m m' : Mode) (n n' : RegNum) (v : Word) (s : State), n ≠ 15 →
    getRegIn m' n' (setRegIn m n v s) =
      if n' = n ∧ (n.toNat < 8 ∨ (n.toNat < 13 ∧ (m = .fiq ↔ m' = .fiq)) ∨
          (13 ≤ n.toNat ∧ (m = m' ∨ (m = .usr ∧ m' = .sys) ∨ (m = .sys ∧ m' = .usr))))
      then v else getRegIn m' n' s) ∧
  (∀ (m : Mode) (v : Word) (s : State), getRegIn m 15 s = s.r15 ∧ setRegIn m 15 v s = { s with
    r15 := v &&& (if s.cpsr.t then 0xFFFFFFFE else 0xFFFFFFFC), pipe := [], flushed := true })

/-- The layout of CPSR and of an SPSR, the mode numbers, and that USR and SYS have no SPSR and the other modes one each (R31,
R50, R54). -/
def Obligations.PsrLayout : Prop :=
  (∀ p : Cpsr, let w := cpsrWord p
    (w.getLsbD 31 = p.n ∧ w.getLsbD 30 = p.z ∧ w.getLsbD 29 = p.c ∧ w.getLsbD 28 = p.v) ∧
    (w.getLsbD 7 = p.i ∧ w.getLsbD 6 = p.f ∧ w.getLsbD 5 = p.t) ∧
    w.extractLsb' 8 20 = 0 ∧ w.extractLsb' 0 5 = modeBits p.mode) ∧
  (∀ p : Spsr, let w := spsrWord p
    (w.getLsbD 31 = p.n ∧ w.getLsbD 30 = p.z ∧ w.getLsbD 29 = p.c ∧ w.getLsbD 28 = p.v) ∧
    (w.getLsbD 7 = p.i ∧ w.getLsbD 6 = p.f ∧ w.getLsbD 5 = p.t) ∧
    w.extractLsb' 8 20 = 0 ∧ w.extractLsb' 0 5 = p.mode) ∧
  modeBits .usr = 0b10000 ∧ modeBits .fiq = 0b10001 ∧ modeBits .irq = 0b10010 ∧ modeBits .svc = 0b10011 ∧
  modeBits .abt = 0b10111 ∧ modeBits .und = 0b11011 ∧ modeBits .sys = 0b11111 ∧
  (∀ m, spsrIndex m = none ↔ m = .usr ∨ m = .sys) ∧
  ∀ m m' k, spsrIndex m = some k → spsrIndex m' = some k → m = m'

/-! Data processing. -/

/-- The twelve operations that write Rd, with Rd not R15: Rd has the result, the flags are written iff S = 1, and
nothing else changes (R204, R205, R207 to R214, R219 to R222). -/
def Obligations.DataProcResult : Prop :=
  ∀ (s : State) (c : Cond) (sf : Bool) (rn rd : RegNum) (op2 : Operand2), condPassed c s = true → rd ≠ 15 →
    ∀ x ∈ dataProcForms c sf rn rd op2 (dataProcReg (isShiftReg op2) rn s) (operand2 op2 s) s.cpsr,
      ∃ t, exec x.1 s = .next t ∧ Sets rd x.2.res (if sf then flagsOf x.2 s.cpsr else s.cpsr) s t

/-- The same operations with Rd = R15 and S = 0 branch to the result; no flag changes (R41, R204). -/
def Obligations.DataProcBranch : Prop :=
  ∀ (s : State) (c : Cond) (rn : RegNum) (op2 : Operand2), condPassed c s = true →
    ∀ x ∈ dataProcForms c false rn 15 op2 (dataProcReg (isShiftReg op2) rn s) (operand2 op2 s) s.cpsr,
      ∃ t, exec x.1 s = .next t ∧ Jumps x.2.res s.cpsr s t

/-- The same operations with Rd = R15 and S = 1 return from an exception: CPSR is restored from the SPSR of the mode, and
R15 is aligned by the restored T; in USR and SYS CPSR is unchanged (R206, R417). -/
def Obligations.DataProcReturn : Prop :=
  ∀ (s : State) (c : Cond) (rn : RegNum) (op2 : Operand2), condPassed c s = true →
    ∀ x ∈ dataProcForms c true rn 15 op2 (dataProcReg (isShiftReg op2) rn s) (operand2 op2 s) s.cpsr,
      ∃ t, exec x.1 s = .next t ∧ Restored s t.cpsr ∧ Jumps x.2.res t.cpsr s t

/-- TST, TEQ, CMP and CMN write the four flags of their result and nothing else (R215 to R218). -/
def Obligations.CompareResult : Prop :=
  ∀ (s : State) (c : Cond) (rn ign : RegNum) (op2 : Operand2), condPassed c s = true →
    ∀ x ∈ compareForms c rn ign op2 (dataProcReg (isShiftReg op2) rn s) (operand2 op2 s) s.cpsr,
      exec x.1 s = .next { s with cpsr := flagsOf x.2 s.cpsr }

/-! PSR transfer and multiply. -/

/-- MRS with Rd not R15 reads CPSR, or the SPSR of the mode; in USR and SYS, which have none, Rd gets a free value and
the instruction completes (R54, R230; the free value: log entry 4). -/
def Obligations.MrsResult : Prop :=
  ∀ (s : State) (c : Cond) (rd : RegNum), condPassed c s = true → rd ≠ 15 →
    (∃ t, exec (.mrs c false rd) s = .next t ∧ Sets rd (cpsrWord s.cpsr) s.cpsr s t) ∧
    (∀ k, spsrIndex s.cpsr.mode = some k →
      ∃ t, exec (.mrs c true rd) s = .next t ∧ Sets rd (spsrWord s.spsr[k]) s.cpsr s t) ∧
    (spsrIndex s.cpsr.mode = none →
      ∃ t, exec (.mrs c true rd) s = .next t ∧ t.cpsr = s.cpsr ∧ KeepsRegsBut [rd] s t ∧
        t = { s with regs := t.regs, draws := t.draws })

/-- MSR, from a register or an immediate, to CPSR and to SPSR: which fields each mask bit writes, that USR writes only
flags, that an invalid mode number leaves the mode, that T is never written in CPSR, and that nothing else changes (R37,
R54, R55, R148, R231 to R233). -/
def Obligations.MsrResult : Prop :=
  ∀ (s : State) (c : Cond) (mask rot : BitVec 4) (imm8 : Byte) (rm : RegNum), condPassed c s = true →
    ∀ x ∈ ([(fun r => .msrReg c r mask rm, getReg rm s),
        (fun r => .msrImm c r mask rot imm8,
          (imm8.setWidth 32 : Word) >>> (2 * rot.toNat) ||| (imm8.setWidth 32 : Word) <<< (32 - 2 * rot.toNat))] :
        List ((Bool → Instr) × Word)),
      (∃ p, exec (x.1 false) s = .next { s with cpsr := p } ∧ p.t = s.cpsr.t ∧
        (⟨p.n, p.z, p.c, p.v⟩ : Bool × Bool × Bool × Bool) =
          (if mask.getLsbD 3 then ⟨x.2.getLsbD 31, x.2.getLsbD 30, x.2.getLsbD 29, x.2.getLsbD 28⟩
            else ⟨s.cpsr.n, s.cpsr.z, s.cpsr.c, s.cpsr.v⟩) ∧
        (mask.getLsbD 0 = true → s.cpsr.mode ≠ .usr → p.i = x.2.getLsbD 7 ∧ p.f = x.2.getLsbD 6 ∧
          (∀ m, modeBits m = x.2.extractLsb' 0 5 → p.mode = m) ∧
          ((∀ m, modeBits m ≠ x.2.extractLsb' 0 5) → p.mode = s.cpsr.mode)) ∧
        (mask.getLsbD 0 = false ∨ s.cpsr.mode = .usr →
          p.i = s.cpsr.i ∧ p.f = s.cpsr.f ∧ p.mode = s.cpsr.mode)) ∧
      (spsrIndex s.cpsr.mode = none → exec (x.1 true) s = .next s) ∧
      (∀ k, spsrIndex s.cpsr.mode = some k →
        ∃ q, exec (x.1 true) s = .next { s with spsr := s.spsr.set k q } ∧
          (spsrWord q).extractLsb' 28 4 =
            (if mask.getLsbD 3 then x.2.extractLsb' 28 4 else (spsrWord s.spsr[k]).extractLsb' 28 4) ∧
          (spsrWord q).extractLsb' 0 8 =
            (if mask.getLsbD 0 then x.2.extractLsb' 0 8 else (spsrWord s.spsr[k]).extractLsb' 0 8))

/-- MUL, MLA and the THUMB MUL: the low 32 bits of the exact product (and sum); with S = 1 N and Z follow it, C is a free
value and V is unchanged (R240, R241, R246, R355; the free value: log entry 4). -/
def Obligations.MultiplyResult : Prop :=
  ∀ (s : State) (c : Cond) (sf : Bool) (rd rn ign rs rm : RegNum) (trs trd : LowReg), condPassed c s = true →
    rd ≠ 15 → rn ≠ 15 → rs ≠ 15 → rm ≠ 15 →
    ∀ x ∈ ([(.mul c sf rd ign rs rm, sf, rd, (getReg rm s).toNat * (getReg rs s).toNat),
        (.mla c sf rd rn rs rm, sf, rd, (getReg rm s).toNat * (getReg rs s).toNat + (getReg rn s).toNat),
        (.tMul trs trd, true, low trd, (getReg (low trd) s).toNat * (getReg (low trs) s).toNat)] :
        List (Instr × Bool × RegNum × Nat)),
      let v := BitVec.ofNat 32 x.2.2.2
      ∃ t, exec x.1 s = .next t ∧ getReg x.2.2.1 t = v ∧
        t.cpsr = (if x.2.1 then { nzOf v s.cpsr with c := t.cpsr.c } else s.cpsr) ∧
        KeepsRegsBut [x.2.2.1] s t ∧ t = { s with regs := t.regs, cpsr := t.cpsr, draws := t.draws }

/-- The long multiplies: RdHi and RdLo hold the exact product (and sum) modulo 2^64; with S = 1 N and Z follow the 64
bits, C and V are free values (R242 to R246; the free values: log entry 4). -/
def Obligations.LongMultiplyResult : Prop :=
  ∀ (s : State) (c : Cond) (sf : Bool) (hi lo rs rm : RegNum), condPassed c s = true →
    hi ≠ lo → hi ≠ 15 → lo ≠ 15 → rs ≠ 15 → rm ≠ 15 →
    ∀ x ∈ longForms c sf hi lo rs rm (getReg rm s) (getReg rs s) (getReg hi s) (getReg lo s),
      ∃ t, exec x.1 s = .next t ∧ getReg hi t ++ getReg lo t = x.2 ∧
        t.cpsr = (if sf then
          { s.cpsr with n := x.2.getLsbD 63, z := x.2 == 0, c := t.cpsr.c, v := t.cpsr.v } else s.cpsr) ∧
        KeepsRegsBut [hi, lo] s t ∧ t = { s with regs := t.regs, cpsr := t.cpsr, draws := t.draws }

/-! Loads and stores. -/

/-- The reads: bytes compose little-endian at the aligned address, a misaligned word or halfword load rotates, an odd
signed halfword load extends its byte (R81, R93, R95 to R98). -/
def Obligations.ReadValues : Prop :=
  ∀ (s : State) (a : Word), isIo a = false →
    let w := a &&& 0xFFFFFFFC
    let h := a &&& 0xFFFFFFFE
    let word : Word := readByte (w + 3) s ++ readByte (w + 2) s ++ readByte (w + 1) s ++ readByte w s
    let half : Half := readByte (h + 1) s ++ readByte h s
    let turn := 8 * (a.toNat % 4)
    memRead .word a s = (word, s) ∧ memRead .half a s = (half.setWidth 32, s) ∧
    memRead .byte a s = ((readByte a s).setWidth 32, s) ∧
    memReadRot a s = (word >>> turn ||| word <<< (32 - turn), s) ∧
    memReadHalfRot a s =
      (if a.toNat % 2 = 1 then half.setWidth 32 >>> 8 ||| half.setWidth 32 <<< 24 else half.setWidth 32, s) ∧
    memReadByteSigned a s = (BitVec.ofInt 32 (readByte a s).toInt, s) ∧
    memReadHalfSigned a s = (BitVec.ofInt 32 (if a.toNat % 2 = 1 then (readByte a s).toInt else half.toInt), s)

/-- Word, byte, halfword and signed loads, at any address, with Rd not R15 and no writeback to R15: Rd has the value read, the
base is written back, nothing else changes (R250 to R252, R255, R260, R261, R263, R264), but for the external components'
state `ext` at a claimed I/O offset: that such a read changes no more of the core is the model's choice, log entry 10. -/
def Obligations.LoadResult : Prop :=
  ∀ (s : State) (c : Cond) (ix : Index) (rn rd : RegNum), condPassed c s = true → rd ≠ 15 →
    (∀ off : Offset, ∀ x ∈ singleLoads c ix rn rd off,
      let tr := transferAt x.2.1 rn (transferOffset off s) s
      (tr.wb = true → rn ≠ 15) → ∃ t, exec x.1 s = .next t ∧ Loaded x.2.2 tr rn rd s t) ∧
    (∀ off : HalfOffset, ∀ x ∈ halfLoads c ix rn rd off,
      let tr := transferAt ix rn (halfOffset off s) s
      (tr.wb = true → rn ≠ 15) → (ix.w = true → ix.p = true) →
        ∃ t, exec x.1 s = .next t ∧ Loaded x.2 tr rn rd s t)

/-- LDR and LDRT with Rd = R15 branch to the word read, after the writeback; the state stays (R251, R255). At a claimed I/O
offset `ext` may change, and that no more of the core does is the model's choice, log entry 10. -/
def Obligations.LoadToPc : Prop :=
  ∀ (s : State) (c : Cond) (ix : Index) (rn : RegNum) (off : Offset), condPassed c s = true →
    ∀ x ∈ [(Instr.ldr c ix rn 15 off, ix), (.ldrt c ix.u rn 15 off, ⟨false, ix.u, false⟩)],
      let tr := transferAt x.2 rn (transferOffset off s) s
      (tr.wb = true → rn ≠ 15) →
        ∃ t, exec x.1 s = .next t ∧ t.r15 = alignPc s.cpsr.t (memReadRot tr.addr s).1 ∧ t.pipe = [] ∧
          t.flushed = true ∧ (tr.wb = true → getReg rn t = tr.back) ∧
          KeepsRegsBut (if tr.wb then [rn] else []) s t ∧
          t = { s with regs := t.regs, r15 := t.r15, pipe := t.pipe, flushed := t.flushed, ext := t.ext }

/-- Stores with no writeback to R15. At any address the base is written back after the store, nothing else changing.
Outside the I/O region the bytes of the width at the aligned address are written and no other byte changes. R15 stores
InstrAddr + 12 (R43, R94, R95, R250, R253 to R255, R260, R262). -/
def Obligations.StoreResult : Prop :=
  ∀ (s : State) (c : Cond) (ix : Index) (rn rd : RegNum), condPassed c s = true →
    (∀ off : Offset, ∀ x ∈ singleStores c ix rn rd off,
      let tr := transferAt x.2.1 rn (transferOffset off s) s
      let v := if rd = 15 then instrAddr s + 12 else getReg rd s
      (tr.wb = true → rn ≠ 15) →
        (∀ u, store x.2.2 tr.addr v s = .next u → ∃ t, exec x.1 s = .next t ∧ WrittenBack tr rn u t) ∧
        (Memory.wf s.mem = true → isIo tr.addr = false → ∃ t, exec x.1 s = .next t ∧ Stored x.2.2 v tr rn s t)) ∧
    (∀ off : HalfOffset,
      let tr := transferAt ix rn (halfOffset off s) s
      let v := getReg rd s
      rd ≠ 15 → (tr.wb = true → rn ≠ 15) → (ix.w = true → ix.p = true) →
        (∀ u, store .half tr.addr v s = .next u →
          ∃ t, exec (.strh c ix rn rd off) s = .next t ∧ WrittenBack tr rn u t) ∧
        (Memory.wf s.mem = true → isIo tr.addr = false →
          ∃ t, exec (.strh c ix rn rd off) s = .next t ∧ Stored .half v tr rn s t))

/-- SWP and SWPB: at any address the read, then the store of Rm as it was, then Rd, which gets what was read; outside the I/O
region the bytes of Rm are written and nothing else changes (R285, R286). -/
def Obligations.SwapResult : Prop :=
  ∀ (s : State) (c : Cond) (rn rd rm : RegNum), condPassed c s = true → rn ≠ 15 → rd ≠ 15 → rm ≠ 15 →
    ∀ x ∈ ([(.swp c rn rd rm, memReadRot, .word), (.swpb c rn rd rm, memRead .byte, .byte)] :
        List (Instr × (Word → State → Word × State) × Width)),
      let r := x.2.1 (getReg rn s) s
      (∀ u, store x.2.2 (getReg rn s) (getReg rm s) r.2 = .next u →
        ∃ t, exec x.1 s = .next t ∧ getReg rd t = r.1 ∧ KeepsRegsBut [rd] u t ∧ t = { u with regs := t.regs }) ∧
      (isIo (getReg rn s) = false → Memory.wf s.mem = true →
        ∃ t, exec x.1 s = .next t ∧ getReg rd t = r.1 ∧
          Wrote (bytesOfStore s.params x.2.2 (getReg rn s) (getReg rm s)) s t ∧ KeepsRegsBut [rd] s t ∧
          t = { s with regs := t.regs, mem := t.mem })

/-- LDM outside the I/O region: the listed registers get consecutive words, lowest first, a loaded base wins over the
writeback, R15 branches last; the empty list loads R15 and moves the base by 0x40 (R270, R271, R274). -/
def Obligations.BlockLoad : Prop :=
  ∀ (s : State) (c : Cond) (ix : Index) (rn : RegNum) (list : BitVec 16), condPassed c s = true → rn ≠ 15 →
    let regs := movedRegs (listed list)
    let size := movedBytes (listed list)
    let start := blockStart ix (getReg rn s) size
    let back := if ix.w then some (rn, if ix.u then getReg rn s + size else getReg rn s - size) else none
    BlockOutsideIo regs.length start →
      ∃ t, exec (.ldm c ix rn list) s = .next t ∧ LoadedWords s.cpsr.mode regs start back s t ∧
        AfterLoads regs start s.cpsr s t

/-- STM: the listed registers go to consecutive words, lowest first; R15 stores InstrAddr + 12; the base stores its old value
if it is the lowest listed, else the new one, and is written after the first store. At any address the stores are made one
after another; outside the I/O region they complete and nothing else changes (R270, R272, R274). -/
def Obligations.BlockStore : Prop :=
  ∀ (s : State) (c : Cond) (ix : Index) (rn : RegNum) (list : BitVec 16), condPassed c s = true → rn ≠ 15 →
    let regs := movedRegs (listed list)
    let size := movedBytes (listed list)
    let start := blockStart ix (getReg rn s) size
    let back := if ix.w then some (rn, if ix.u then getReg rn s + size else getReg rn s - size) else none
    let words := regs.map (blockValue (instrAddr s + 12) regs back s)
    exec (.stm c ix rn list) s = storeAllBack start words back s ∧
    (BlockOutsideIo regs.length start → Memory.wf s.mem = true →
      ∃ t, exec (.stm c ix rn list) s = .next t ∧ StoredWords start words back s t)

/-- LDM with S = 1 and R15 listed, outside the I/O region: the registers load through the mode's view, then CPSR is
restored and R15 branches, aligned by the restored T (R277, R417). -/
def Obligations.BlockReturn : Prop :=
  ∀ (s : State) (c : Cond) (ix : Index) (rn : RegNum) (list : BitVec 16), condPassed c s = true → rn ≠ 15 →
    list.getLsbD 15 = true →
    let regs := listed list
    let size := movedBytes regs
    let start := blockStart ix (getReg rn s) size
    let back := if ix.w then some (rn, if ix.u then getReg rn s + size else getReg rn s - size) else none
    BlockOutsideIo regs.length start →
      ∃ t, exec (.ldmReturn c ix rn list) s = .next t ∧ LoadedWords s.cpsr.mode regs start back s t ∧
        Restored s t.cpsr ∧ AfterLoads regs start t.cpsr s t

/-- The user-bank forms without writeback: outside the I/O region LDM loads and STM stores the registers of the USR view,
whatever the mode; at any address STM stores word after word (R275, R276). The model's choices: the empty list moves R15 (log
entry 14), and the base is the current mode's register (log entry 22). -/
def Obligations.UserBank : Prop :=
  ∀ (s : State) (c : Cond) (ix : Index) (rn : RegNum) (list : BitVec 16), condPassed c s = true → rn ≠ 15 →
    ix.w = false →
    let regs := movedRegs (listed list)
    let start := blockStart ix (getReg rn s) (movedBytes (listed list))
    let words := regs.map fun r => if r = 15 then instrAddr s + 12 else getRegIn .usr r s
    exec (.stmUser c ix rn list) s = storeAll start words s ∧
    (BlockOutsideIo regs.length start →
      (∃ t, exec (.ldmUser c ix rn list) s = .next t ∧ LoadedWords .usr regs start none s t ∧
        AfterLoads regs start s.cpsr s t) ∧
      (Memory.wf s.mem = true → ∃ t, exec (.stmUser c ix rn list) s = .next t ∧ StoredWords start words none s t))

/-! Branches and exceptions. -/

/-- B, BL and BX of ARM state: the target, the link, and the state BX selects (R300, R301, R305). -/
def Obligations.BranchResult : Prop :=
  ∀ (s : State) (c : Cond) (offset : BitVec 24) (rm : RegNum), condPassed c s = true →
    let target := instrAddr s + 8 + BitVec.ofInt 32 (4 * offset.toInt)
    (∃ t, exec (.b c offset) s = .next t ∧ Jumps target s.cpsr s t) ∧
    (∃ u t, exec (.bl c offset) s = .next t ∧ Sets 14 (instrAddr s + 4) s.cpsr s u ∧ Jumps target s.cpsr u t) ∧
    (∃ t, exec (.bx c rm) s = .next t ∧
      Jumps (getReg rm s) { s.cpsr with t := (getReg rm s).getLsbD 0 } s t)

/-- SWI, in ARM and THUMB state, enters SVC mode at vector 8 with the address of the next instruction in R14_svc (R308,
R387, R411, R413). -/
def Obligations.SoftwareInterrupt : Prop :=
  ∀ (s : State) (c : Cond) (comment : BitVec 24) (value : Byte), condPassed c s = true →
    ∀ i ∈ [Instr.swi c comment, .tSwi value],
      ∃ t, exec i s = .next t ∧ Entered .svc 0x08 (instrAddr s + (if s.cpsr.t then 2 else 4)) s t

/-- The undefined encodings of both states, the coprocessor instructions among them, enter UND mode at vector 4, or, where
UNDEF_POLICY is skip, have no effect (R310, R312, R391, R411, R414). -/
def Obligations.UndefinedInstruction : Prop :=
  ∀ (s : State) (c : Cond) (rest : BitVec 28) (cix : CopIndex) (rn crd cpNum crm op1 : RegNum) (op1s op2 : BitVec 3)
    (offset r8 : Byte) (r12 : BitVec 12) (r11 : BitVec 11), condPassed c s = true →
    ∀ i ∈ undefinedForms c rest cix rn crd cpNum crm op1 op1s op2 offset ++ thumbUndefinedForms r12 r8 r11,
      (s.params.undefPolicy = .trap →
        ∃ t, exec i s = .next t ∧ Entered .und 0x04 (instrAddr s + (if s.cpsr.t then 2 else 4)) s t) ∧
      (s.params.undefPolicy = .skip → exec i s = .next s)

/-- From IRQ entry, `SUBS PC, R14, #4` returns to the instruction that was next, and from SWI and Undefined entry, `MOVS PC, R14`
to the one after, with CPSR as it was and every register but the handler's R14 as it was (R412 to R414, R417, R418). -/
def Obligations.ExceptionReturns : Prop :=
  ∀ s : State,
    (∃ t, exec (.sub .al true 14 15 (.imm 0 4)) (takeIrq s) = .next t ∧ t.cpsr = s.cpsr ∧
      t.r15 = alignPc s.cpsr.t (s.r15 - 2 * instrBytes s) ∧ t.mem = s.mem ∧
      ∀ m n, n ≠ 15 → physIndex m n ≠ physIndex .irq 14 → getRegIn m n t = getRegIn m n s) ∧
    (∃ t, exec (.mov .al true 0 15 (.shiftImm 0 .lsl 14)) (takeSwi s) = .next t ∧ t.cpsr = s.cpsr ∧
      t.r15 = alignPc s.cpsr.t (instrAddr s + instrBytes s) ∧ t.mem = s.mem ∧
      ∀ m n, n ≠ 15 → physIndex m n ≠ physIndex .svc 14 → getRegIn m n t = getRegIn m n s) ∧
    (∃ t, exec (.mov .al true 0 15 (.shiftImm 0 .lsl 14)) (takeUndefined s) = .next t ∧ t.cpsr = s.cpsr ∧
      t.r15 = alignPc s.cpsr.t (instrAddr s + instrBytes s) ∧ t.mem = s.mem ∧
      ∀ m n, n ≠ 15 → physIndex m n ≠ physIndex .und 14 → getRegIn m n t = getRegIn m n s)

/-- The forms the spec refuses, each by its name (R230, R240 to R242, R250, R252, R260, R270, R275, R276, R285, R286). The
model's choices: the T forms are refused where the post-indexed forms are (log entry 15), and which name a form gets that two
rules refuse (log entry 24). -/
def Obligations.RefusedForms : Prop :=
  ∀ (s : State) (c : Cond), condPassed c s = true →
    (∀ spsr, exec (.mrs c spsr 15) s = .refused .mrsToPc) ∧
    (∀ sf rd ign rn rs rm, rd = 15 ∨ rs = 15 ∨ rm = 15 → exec (.mul c sf rd ign rs rm) s = .refused .multiplyWithPc ∧
      exec (.mla c sf rd rn rs rm) s = .refused .multiplyWithPc) ∧
    (∀ sf rd rs rm, exec (.mla c sf rd 15 rs rm) s = .refused .multiplyWithPc) ∧
    (∀ sf hi lo rs rm, hi = lo ∨ hi = 15 ∨ lo = 15 ∨ rs = 15 ∨ rm = 15 →
      ∀ i ∈ [Instr.umull c sf hi lo rs rm, .umlal c sf hi lo rs rm, .smull c sf hi lo rs rm, .smlal c sf hi lo rs rm],
        exec i s = .refused .longMultiplyRegisters) ∧
    (∀ ix rd off, ix.p = false ∨ ix.w = true → exec (.ldr c ix 15 rd off) s = .refused .writebackToPc ∧
      exec (.str c ix 15 rd off) s = .refused .writebackToPc ∧
      exec (.strb c ix 15 rd off) s = .refused .writebackToPc ∧
      (rd ≠ 15 → exec (.ldrb c ix 15 rd off) s = .refused .writebackToPc)) ∧
    (∀ u rd off, exec (.ldrt c u 15 rd off) s = .refused .writebackToPc ∧
      exec (.strt c u 15 rd off) s = .refused .writebackToPc ∧
      exec (.strbt c u 15 rd off) s = .refused .writebackToPc ∧
      (rd ≠ 15 → exec (.ldrbt c u 15 rd off) s = .refused .writebackToPc)) ∧
    (∀ ix u rn off, exec (.ldrb c ix rn 15 off) s = .refused .ldrbToPc ∧
      exec (.ldrbt c u rn 15 off) s = .refused .ldrbToPc) ∧
    (∀ ix rn rd off, ∀ i ∈ [Instr.strh c ix rn rd off, .ldrh c ix rn rd off, .ldrsb c ix rn rd off,
        .ldrsh c ix rn rd off],
      (ix.p = false → ix.w = true → exec i s = .refused .halfwordPostIndexWithW) ∧
      (ix.p = true ∨ ix.w = false → rd = 15 → exec i s = .refused .halfwordTransferWithPc) ∧
      (ix.p = ix.w → rd ≠ 15 → rn = 15 → exec i s = .refused .writebackToPc)) ∧
    (∀ ix list, exec (.ldm c ix 15 list) s = .refused .blockBasePc ∧
      exec (.ldmReturn c ix 15 list) s = .refused .blockBasePc ∧ exec (.stm c ix 15 list) s = .refused .blockBasePc) ∧
    (∀ ix rn list, (ix.w = true → exec (.ldmUser c ix rn list) s = .refused .userBankLdmWithWriteback ∧
        exec (.stmUser c ix rn list) s = .refused .userBankStmWithWriteback) ∧
      (ix.w = false → rn = 15 → exec (.ldmUser c ix rn list) s = .refused .blockBasePc ∧
        exec (.stmUser c ix rn list) s = .refused .blockBasePc)) ∧
    (∀ rn rd rm, rn = 15 ∨ rd = 15 ∨ rm = 15 → exec (.swp c rn rd rm) s = .refused .swapWithPc ∧
      exec (.swpb c rn rd rm) s = .refused .swapWithPc)

/-! THUMB. -/

/-- The THUMB operations on low registers: the register, the flags each rule names, and nothing else; the comparisons
write flags alone (R331 to R354, R356, R357, R359). -/
def Obligations.ThumbAluResult : Prop :=
  ∀ (s : State) (rn rs rd : LowReg) (s3 : BitVec 3) (s5 : BitVec 5) (s8 : Byte) (h k : RegNum),
    (∀ x ∈ thumbForms rn rs rd s3 s5 s8 (getReg (low rs) s) (getReg (low rn) s) (getReg (low rd) s) s.cpsr,
      ∃ t, exec x.1 s = .next t ∧ Sets (low rd) x.2.1 x.2.2 s t) ∧
    (∀ x ∈ thumbCompares rs rd h k s8 s, exec x.1 s = .next { s with cpsr := x.2 })

/-- ADD and MOV of high registers (R15 branches), and the address forms of formats 12 and 13; no flags (R358, R360, R379 to
R381). -/
def Obligations.ThumbHiAndAddress : Prop :=
  ∀ (s : State) (d k : RegNum) (rd : LowReg) (w8 : Byte) (w7 : BitVec 7),
    (∀ x ∈ [(Instr.tAddHi d k, getReg d s + getReg k s), (.tMovHi d k, getReg k s)],
      ∃ t, exec x.1 s = .next t ∧ (d ≠ 15 → Sets d x.2 s.cpsr s t) ∧ (d = 15 → Jumps x.2 s.cpsr s t)) ∧
    (∀ x ∈ [(Instr.tAddPc rd w8, ((instrAddr s + 4) &&& 0xFFFFFFFC) + BitVec.ofNat 32 (4 * w8.toNat)),
        (.tAddSp rd w8, getReg 13 s + BitVec.ofNat 32 (4 * w8.toNat))],
      ∃ t, exec x.1 s = .next t ∧ Sets (low rd) x.2 s.cpsr s t) ∧
    (∀ x ∈ [(Instr.tAddSpImm false w7, getReg 13 s + BitVec.ofNat 32 (4 * w7.toNat)),
        (.tAddSpImm true w7, getReg 13 s - BitVec.ofNat 32 (4 * w7.toNat))],
      ∃ t, exec x.1 s = .next t ∧ Sets 13 x.2 s.cpsr s t)

/-- The THUMB loads, at any address: the register has the value read, nothing else changes (R362, R365, R366, R368 to R370,
R372, R374, R376, R378), but for `ext` at a claimed I/O offset: that such a read changes no more of the core is the model's
choice, log entry 10. -/
def Obligations.ThumbLoadResult : Prop :=
  ∀ (s : State) (ro rb rd : LowReg) (o5 : BitVec 5) (w8 : Byte), ∀ x ∈ thumbLoads ro rb rd o5 w8 s,
    ∃ t, exec x.1 s = .next t ∧ getReg (low rd) t = (x.2.1 x.2.2 s).1 ∧ KeepsRegsBut [low rd] s t ∧
      t = { s with regs := t.regs, ext := t.ext }

/-- The THUMB stores: at any address the instruction is the store of Rd at its address; outside the I/O region the bytes of
the width at the aligned address are written, nothing else changes (R363, R364, R367, R371, R373, R375, R377). -/
def Obligations.ThumbStoreResult : Prop :=
  ∀ (s : State) (ro rb rd : LowReg) (o5 : BitVec 5) (w8 : Byte), ∀ x ∈ thumbStores ro rb rd o5 w8 s,
    exec x.1 s = store x.2.1 x.2.2 (getReg (low rd) s) s ∧
    (Memory.wf s.mem = true → isIo x.2.2 = false →
      ∃ t, exec x.1 s = .next t ∧ Wrote (bytesOfStore s.params x.2.1 x.2.2 (getReg (low rd) s)) s t ∧
        t = { s with mem := t.mem })

/-- PUSH, POP, STMIA and LDMIA: consecutive words, lowest register first; SP or the base moves by 4 bytes a register (0x40
for the empty list, which moves R15); a loaded base wins over the writeback; POP of PC branches and stays in THUMB state. At
any address the stores are made one after another; outside the I/O region every form completes and nothing else changes (R382
to R385). -/
def Obligations.ThumbBlockTransfer : Prop :=
  ∀ (s : State) (r : Bool) (list : Byte) (rb : LowReg),
    let regs := movedRegs (listed list)
    let pushed := listed list ++ (if r then [14] else [])
    let popped := listed list ++ (if r then [15] else [])
    let base := getReg (low rb) s
    let back := base + movedBytes (listed list)
    let top := getReg 13 s - movedBytes pushed
    let pushedWords := (movedRegs pushed).map fun n => if n = 15 then instrAddr s + 6 else getReg n s
    let words := regs.map (blockValue (instrAddr s + 6) regs (some (low rb, back)) s)
    (exec (.tPush r list) s = andThen (storeAll top pushedWords s) fun u => .next (setReg 13 top u)) ∧
    (exec (.tStmia rb list) s = storeAllBack base words (some (low rb, back)) s) ∧
    (Memory.wf s.mem = true → BlockOutsideIo (movedRegs pushed).length top →
      ∃ t, exec (.tPush r list) s = .next t ∧ StoredWords top pushedWords (some (13, top)) s t) ∧
    (BlockOutsideIo (movedRegs popped).length (getReg 13 s) →
      ∃ t, exec (.tPop r list) s = .next t ∧
        LoadedWords s.cpsr.mode (movedRegs popped) (getReg 13 s) (some (13, getReg 13 s + movedBytes popped)) s t ∧
        AfterLoads (movedRegs popped) (getReg 13 s) s.cpsr s t) ∧
    (Memory.wf s.mem = true → BlockOutsideIo regs.length base →
      ∃ t, exec (.tStmia rb list) s = .next t ∧ StoredWords base words (some (low rb, back)) s t) ∧
    (BlockOutsideIo regs.length base →
      ∃ t, exec (.tLdmia rb list) s = .next t ∧
        LoadedWords s.cpsr.mode regs base (some (low rb, back)) s t ∧ AfterLoads regs base s.cpsr s t)

/-- The THUMB branches: B, B<cond> when its condition holds, BX, and the two halves of BL (R361, R386, R388 to R390). -/
def Obligations.ThumbBranchResult : Prop :=
  ∀ (s : State) (c : Cond) (o8 : Byte) (o11 : BitVec 11) (ign k : RegNum),
    (condPassed c s = true → ∃ t, exec (.tBCond c o8) s = .next t ∧
      Jumps (instrAddr s + 4 + BitVec.ofInt 32 (2 * o8.toInt)) s.cpsr s t) ∧
    (∃ t, exec (.tB o11) s = .next t ∧ Jumps (instrAddr s + 4 + BitVec.ofInt 32 (2 * o11.toInt)) s.cpsr s t) ∧
    (∃ t, exec (.tBx ign k) s = .next t ∧ Jumps (getReg k s) { s.cpsr with t := (getReg k s).getLsbD 0 } s t) ∧
    (∃ t, exec (.tBlPrefix o11) s = .next t ∧
      Sets 14 (instrAddr s + 4 + BitVec.ofInt 32 (4096 * o11.toInt)) s.cpsr s t) ∧
    (∃ u t, exec (.tBlSuffix o11) s = .next t ∧ Sets 14 ((instrAddr s + 2) ||| 1) s.cpsr s u ∧
      Jumps (getReg 14 s + BitVec.ofNat 32 (2 * o11.toNat)) s.cpsr u t)

/-! Frames of every instruction. -/

/-- Whatever an instruction does, no banked register changes but those it names: its destinations, a written-back base,
the link, and R14 of the mode an exception enters (R12, R33, R411). -/
def Obligations.RegisterFrame : Prop :=
  ∀ (i : Instr) (s t : State), exec i s = .next t →
    ∀ m n, n ≠ 15 → (∀ x ∈ i.writes s.cpsr.mode, x.2 ≠ 15 → physIndex m n ≠ physIndex x.1 x.2) →
      getRegIn m n t = getRegIn m n s

/-- Whatever an instruction does, CPSR changes only in the flags its rule names (and T by BX, all but T by MSR, all of it
by an exception entry or return), and no SPSR changes but by MSR or an exception (R51 to R53, R204, R233, R330). -/
def Obligations.StatusFrame : Prop :=
  ∀ (i : Instr) (s t : State), exec i s = .next t →
    i.status.Allows s.cpsr t.cpsr ∧ (i.writesSpsr = false → t.spsr = s.spsr)

/-- An instruction that does not store changes no byte of memory and no interrupt, DMA, scheduler or halt state; one that
stores changes neither R15, the pipeline nor CPSR and SPSR, whatever its store starts (R101, R115, R273, R487). At a claimed
I/O offset the external components' state `ext` may change; that a claimed read changes no more of the core, and a claimed
write no more than interrupts and events, is the model's choice, log entry 10. -/
def Obligations.MemoryFrame : Prop :=
  ∀ (i : Instr) (s t : State), exec i s = .next t →
    (i.storing = false → SameMemory s t ∧ t = { s with
      regs := t.regs, r15 := t.r15, pipe := t.pipe, flushed := t.flushed, cpsr := t.cpsr, spsr := t.spsr
      draws := t.draws, ext := t.ext }) ∧
    (i.storing = true → t = { s with
      regs := t.regs, mem := t.mem, ie := t.ie, iff := t.iff, ime := t.ime, halted := t.halted, dma := t.dma
      queue := t.queue, seq := t.seq, pendingCycles := t.pendingCycles, ext := t.ext })

/-- In USR mode no instruction changes the mode, I or F, but by raising an exception (R55, R425). -/
def Obligations.UserConfined : Prop :=
  ∀ (i : Instr) (s t : State), s.cpsr.mode = .usr → exec i s = .next t → i.raises = none →
    t.cpsr.mode = .usr ∧ t.cpsr.i = s.cpsr.i ∧ t.cpsr.f = s.cpsr.f

/-! The bus. -/

/-- What each region's addresses read: mirrors, the VRAM wrap, the gaps that read 0 or open bus (R82 to R88, R90). -/
def Obligations.RegionMap : Prop :=
  ∀ (s : State) (a : Word),
    let region := a.toNat / 0x01000000
    let openByte : Byte := s.openBus.extractLsb' (8 * (a.toNat % 4)) 8
    (region ≤ 1 → readByte a s = if a.toNat < 0x4000 then cellGet .bios a.toNat s else 0) ∧
    (region = 2 → readByte a s = cellGet .ewram (a.toNat % 0x40000) s) ∧
    (region = 3 → readByte a s = cellGet .iwram (a.toNat % 0x8000) s) ∧
    (region = 5 → readByte a s = cellGet .palette (a.toNat % 0x400) s) ∧
    (region = 6 → a.toNat % 0x20000 < 0x18000 → readByte a s = cellGet .vram (a.toNat % 0x20000) s) ∧
    (region = 6 → 0x18000 ≤ a.toNat % 0x20000 → readByte a s = cellGet .vram (a.toNat % 0x20000 - 0x8000) s) ∧
    (region = 7 → readByte a s = cellGet .oam (a.toNat % 0x400) s) ∧
    (8 ≤ region → region ≤ 13 → readByte a s =
      if a.toNat % 0x02000000 < s.params.romSize then cellGet .rom (a.toNat % 0x02000000) s
      else if s.params.romMirror then cellGet .rom (a.toNat % 0x02000000 % s.params.romSize) s else openByte) ∧
    (14 ≤ region → region ≤ 15 → readByte a s = cellGet .sram (a.toNat % 2 ^ s.params.sramBits) s) ∧
    (16 ≤ region → readByte a s = openByte)

/-- Raising an interrupt sets its IF bit, whatever IE and IME; a byte written to IF clears the bits it has set and no
other, and nothing else changes (R402, R403). -/
def Obligations.InterruptFlags : Prop :=
  (∀ (s : State) (k : Fin 14), ∃ f, raiseInterrupt k s = { s with iff := f } ∧
    ∀ j, j < 14 → f.getLsbD j = (s.iff.getLsbD j || decide (j = k.val))) ∧
  (∀ (s : State) (a v : Word) (j : Nat), j < 2 → isIo a = true → a.toNat % 0x400 = 0x202 + j →
    ∃ f, store .byte a v s = .next { s with iff := f } ∧
      ∀ i, i < 14 → f.getLsbD i = (s.iff.getLsbD i && !(decide (i / 8 = j) && v.getLsbD (i % 8))))

/-- The interrupt and halt registers through the bus, at every mirror of the I/O block: IE and IME store and read their
bits, IF reads its bits, any byte to HALTCNT halts (R56, R110, R111, R404, R420). -/
def Obligations.IoRegisters : Prop :=
  ∀ (s : State) (a v : Word), isIo a = true →
    (a.toNat % 0x400 = 0x200 → store .half a v s = .next { s with ie := v.setWidth 14 } ∧
      memRead .half a s = (s.ie.setWidth 32, s)) ∧
    (a.toNat % 0x400 = 0x202 → store .half a v s = .next { s with iff := s.iff &&& ~~~(v.setWidth 14) } ∧
      memRead .half a s = (s.iff.setWidth 32, s)) ∧
    (a.toNat % 0x400 = 0x208 → store .half a v s = .next { s with ime := v.getLsbD 0 } ∧
      memRead .half a s = (if s.ime then 1 else 0, s)) ∧
    (a.toNat % 0x400 = 0x301 → store .byte a v s = .next { s with halted := true } ∧ memRead .byte a s = (0, s))

/-- The DMA registers through the bus: SAD, DAD and CNT_L store their implemented bits and read 0; CNT_H stores its bits and
reads back; its enable edge latches the addresses and, with Immediate timing, runs the transfer inside the store (R110,
R111, R113, R450 to R452). -/
def Obligations.DmaRegisters : Prop :=
  ∀ (s : State) (ch : Fin 4) (a v : Word), isIo a = true →
    let d := s.dma[ch]
    let at_ := 0xB0 + 12 * ch.val
    (a.toNat % 0x400 = at_ → memRead .word a s = (0, s) ∧ store .word a v s = .next { s with
      dma := s.dma.set ch { d with sad := v &&& (if ch = 0 then 0x07FFFFFF else 0x0FFFFFFF) } }) ∧
    (a.toNat % 0x400 = at_ + 4 → memRead .word a s = (0, s) ∧ store .word a v s = .next { s with
      dma := s.dma.set ch { d with dad := v &&& (if ch = 3 then 0x0FFFFFFF else 0x07FFFFFF) } }) ∧
    (a.toNat % 0x400 = at_ + 8 → memRead .half a s = (0, s) ∧ store .half a v s = .next { s with
      dma := s.dma.set ch { d with cntL := v.setWidth 16 &&& (if ch = 3 then 0xFFFF else 0x3FFF) } }) ∧
    (a.toNat % 0x400 = at_ + 10 →
      let h := v.setWidth 16 &&& (if ch = 3 then 0xFFE0 else 0xF7E0)
      let armed := { s with dma := s.dma.set ch { d with cntH := h, isrc := d.sad, idst := d.dad } }
      memRead .half a s = (d.cntH.setWidth 32, s) ∧
      (d.cntH.getLsbD 15 = true ∨ v.getLsbD 15 = false →
        store .half a v s = .next { s with dma := s.dma.set ch { d with cntH := h } }) ∧
      (d.cntH.getLsbD 15 = false → v.getLsbD 15 = true → v.extractLsb' 12 2 ≠ 0 → store .half a v s = .next armed) ∧
      (d.cntH.getLsbD 15 = false → v.getLsbD 15 = true → v.extractLsb' 12 2 = 0 →
        store .half a v s = startDma ch armed))

/-- `Run` is the procedure of R453 in which an enable edge starts `Run` itself, to any depth; HBlank, VBlank and the sound
FIFOs run the enabled channels of their timing in ascending order, each tested when its turn comes; and a transfer outside
the I/O region: how far the latches move, the reload, when the channel stays armed, the end-of-transfer interrupt and the
cycles charged, while registers and status do not change (R452, R453, R455 to R457, R460 to R465). -/
def Obligations.DmaTransfer : Prop :=
  (∀ (s : State) (ch : Fin 4), startDma ch s = runBody startDma ch s) ∧
  (∀ s : State, triggerDma .hblank s = runArmed 2 [0, 1, 2, 3] s ∧ triggerDma .vblank s = runArmed 1 [0, 1, 2, 3] s ∧
    triggerDma (.fifo 0) s = runArmed 3 [1] s ∧ triggerDma (.fifo 1) s = runArmed 3 [2] s) ∧
  ∀ (s : State) (ch : Fin 4),
    let d := s.dma[ch]
    let timing := d.cntH.extractLsb' 12 2
    let fifo := timing = 3 ∧ (ch = 1 ∨ ch = 2)
    let len : Nat := if fifo then 4 else if d.cntL = 0 then (if ch = 3 then 0x10000 else 0x4000) else d.cntL.toNat
    let ws : Word := if fifo ∨ d.cntH.getLsbD 10 = true then 4 else 2
    let srcStep : Word := if d.cntH.extractLsb' 7 2 = 1 then 0 - ws else if d.cntH.extractLsb' 7 2 = 2 then 0 else ws
    let dstCtl : BitVec 2 := if fifo then 2 else d.cntH.extractLsb' 5 2
    let dstStep : Word := if dstCtl = 1 then 0 - ws else if dstCtl = 2 then 0 else ws
    (∀ k, k < len → isIo (d.isrc + BitVec.ofNat 32 k * srcStep) = false ∧
      isIo (d.idst + BitVec.ofNat 32 k * dstStep) = false) →
    ∃ t, startDma ch s = .next t ∧
      t.dma = s.dma.set ch { d with
        cntH := if d.cntH.getLsbD 9 = true ∧ timing ≠ 0 then d.cntH else d.cntH &&& 0x7FFF
        isrc := d.isrc + BitVec.ofNat 32 len * srcStep
        idst := if dstCtl = 3 then d.dad else d.idst + BitVec.ofNat 32 len * dstStep } ∧
      t.iff = (if d.cntH.getLsbD 14 then s.iff ||| (1#14 <<< (8 + ch.val)) else s.iff) ∧
      t.pendingCycles = s.pendingCycles + len ∧
      t = { s with mem := t.mem, dma := t.dma, iff := t.iff, pendingCycles := t.pendingCycles }

/-- A transfer with both addresses incrementing, of `len` units of `ws` bytes between two disjoint ranges of EWRAM, copies
the source bytes to the destination and changes no other byte (R454, R466). -/
def Obligations.DmaCopies : Prop :=
  ∀ (s : State) (ch : Fin 4) (ws : Nat), Memory.wf s.mem = true →
    let d := s.dma[ch]
    let len : Nat := if d.cntL = 0 then (if ch = 3 then 0x10000 else 0x4000) else d.cntL.toNat
    d.cntH.extractLsb' 12 2 ≠ 3 → d.cntH.extractLsb' 7 2 = 0 → d.cntH.extractLsb' 5 2 = 0 →
    ws = (if d.cntH.getLsbD 10 then 4 else 2) → d.isrc.toNat % ws = 0 → d.idst.toNat % ws = 0 →
    0x02000000 ≤ d.isrc.toNat → d.isrc.toNat + len * ws ≤ 0x02040000 →
    0x02000000 ≤ d.idst.toNat → d.idst.toNat + len * ws ≤ 0x02040000 →
    d.isrc.toNat + len * ws ≤ d.idst.toNat ∨ d.idst.toNat + len * ws ≤ d.isrc.toNat →
    ∃ t, startDma ch s = .next t ∧
      (∀ j, j < len * ws → readByte (d.idst + BitVec.ofNat 32 j) t = readByte (d.isrc + BitVec.ofNat 32 j) s) ∧
      ∀ a, isIo a = false → (∀ j, j < len * ws → locate s.params a ≠ locate s.params (d.idst + BitVec.ofNat 32 j)) →
        readByte a t = readByte a s
end

