-- ==== Sys2Proof/Laws/Bits.lean ====
section
/-! SUPPORT. Bit-field lemmas for the round trip of the encoder and the decoder: fields of a concatenation, and the
mask tests of the decode order on a concatenation. -/

namespace Sys2Proof.Laws

theorem extract_high {n m : Nat} (x : BitVec n) (y : BitVec m) (lo k : Nat) (h : m ≤ lo) :
    BitVec.extractLsb' lo k (x ++ y) = BitVec.extractLsb' (lo - m) k x := BitVec.extractLsb'_append_eq_of_le h
theorem extract_low {n m : Nat} (x : BitVec n) (y : BitVec m) (lo k : Nat) (h : lo + k ≤ m) :
    BitVec.extractLsb' lo k (x ++ y) = BitVec.extractLsb' lo k y := BitVec.extractLsb'_append_eq_of_add_le h
theorem extract_self {n : Nat} (x : BitVec n) : BitVec.extractLsb' 0 n x = x := BitVec.extractLsb'_eq_self

theorem append_inj {n m : Nat} (x x' : BitVec n) (y y' : BitVec m) : (x ++ y = x' ++ y') ↔ x = x' ∧ y = y' := by
  constructor
  · intro h
    have h1 := congrArg (BitVec.extractLsb' m n) h
    have h2 := congrArg (BitVec.extractLsb' 0 m) h
    rw [extract_high _ _ _ _ le_rfl, extract_high _ _ _ _ le_rfl, Nat.sub_self, extract_self, extract_self] at h1
    rw [extract_low _ _ _ _ (by omega), extract_low _ _ _ _ (by omega), extract_self, extract_self] at h2
    exact ⟨h1, h2⟩
  · rintro ⟨rfl, rfl⟩; rfl

/-- A number as a bit vector, cut in two. -/
theorem ofNat_append (n m k : Nat) :
    BitVec.ofNat (n + m) k = BitVec.ofNat n (k / 2 ^ m) ++ BitVec.ofNat m (k % 2 ^ m) := by
  apply BitVec.eq_of_toNat_eq
  have h : k / 2 ^ m % 2 ^ n * 2 ^ m + k % 2 ^ m = k % 2 ^ (n + m) := by
    rw [Nat.add_comm n m, Nat.pow_add, Nat.mod_mul, Nat.mul_comm, Nat.add_comm]
  simp only [BitVec.toNat_ofNat, BitVec.toNat_append, Nat.mod_mod, Nat.shiftLeft_eq]
  rw [← h, Nat.mul_comm, ← Nat.two_pow_add_eq_or_of_lt (Nat.mod_lt _ (Nat.two_pow_pos m))]

theorem hits_append {n m : Nat} (x : BitVec n) (y : BitVec m) (a b : Nat) :
    hits (x ++ y) a b = (hits y (a % 2 ^ m) (b % 2 ^ m) && hits x (a / 2 ^ m) (b / 2 ^ m)) := by
  rw [Bool.eq_iff_iff]
  simp only [hits, ofNat_append n m, BitVec.and_append, beq_iff_eq, append_inj, Bool.and_eq_true, and_comm]

theorem hits_none {n : Nat} (x : BitVec n) (v : Nat) : hits x 0 v = (0#n == BitVec.ofNat n v) := by simp [hits]
theorem condOf_bits (c : Cond) : condOf c.bits = c := by cases c <;> rfl
theorem one_eq (b : Bool) : (one b == 1#1) = b := by cases b <;> rfl


theorem fld_append_high {n m : Nat} (x : BitVec n) (y : BitVec m) (lo k : Nat) (h : m ≤ lo) :
    fld (x ++ y) lo k = fld x (lo - m) k :=
  extract_high x y lo k h

theorem fld_append_low {n m : Nat} (x : BitVec n) (y : BitVec m) (lo k : Nat) (h : lo + k ≤ m) :
    fld (x ++ y) lo k = fld y lo k :=
  extract_low x y lo k h

theorem fld_self {n : Nat} (x : BitVec n) : fld x 0 n = x :=
  extract_self x

theorem shiftOf_bits (t : ShiftType) : shiftOf t.bits = t := by cases t <;> rfl

theorem hits_self {n : Nat} (x : BitVec n) (k : Nat) (h : 2 ^ n = k + 1) (v : Nat) :
    hits x k v = (x == BitVec.ofNat n v) := by
  have e : BitVec.ofNat n k = BitVec.allOnes n := by
    apply BitVec.eq_of_toNat_eq
    rw [BitVec.toNat_ofNat, BitVec.toNat_allOnes, Nat.mod_eq_of_lt (by omega)]
    omega
  rw [hits, e, BitVec.and_allOnes]

/-- Two mask tests that ask different values of a common bit cannot both hold. -/
theorem hits_disagree {n : Nat} (x : BitVec n) (m v m' v' : Nat) (h : hits x m v = true)
    (hd : BitVec.ofNat n v &&& BitVec.ofNat n m' ≠ BitVec.ofNat n v' &&& BitVec.ofNat n m) :
    hits x m' v' = false := by
  rw [Bool.eq_false_iff]
  intro h'
  simp only [hits, beq_iff_eq] at h h'
  exact hd (by rw [← h, ← h', BitVec.and_assoc, BitVec.and_assoc, BitVec.and_comm (BitVec.ofNat n m)])

/-- A mask test implies a test of fewer bits. -/
theorem hits_weaken {n : Nat} (x : BitVec n) (m v m' v' : Nat) (h : hits x m v = true)
    (hm : BitVec.ofNat n m &&& BitVec.ofNat n m' = BitVec.ofNat n m')
    (hv : BitVec.ofNat n v &&& BitVec.ofNat n m' = BitVec.ofNat n v') : hits x m' v' = true := by
  simp only [hits, beq_iff_eq] at h ⊢
  rw [← hv, ← h, BitVec.and_assoc, hm]

/-- A failed test of fewer bits implies a failed test. -/
theorem hits_false_of_weaken {n : Nat} (x : BitVec n) (m v m' v' : Nat) (h : hits x m' v' = false)
    (hm : BitVec.ofNat n m &&& BitVec.ofNat n m' = BitVec.ofNat n m')
    (hv : BitVec.ofNat n v &&& BitVec.ofNat n m' = BitVec.ofNat n v') : hits x m v = false := by
  rw [Bool.eq_false_iff]
  intro h'
  rw [hits_weaken x m v m' v' h' hm hv] at h
  cases h

/-- A field the mask covers is the field of the value. -/
theorem fld_of_hits {n : Nat} (x : BitVec n) (m v lo len : Nat) (h : hits x m v = true)
    (hm : fld (BitVec.ofNat n m) lo len = BitVec.allOnes len) : fld x lo len = fld (BitVec.ofNat n v) lo len := by
  simp only [hits, beq_iff_eq] at h
  simp only [fld] at hm ⊢
  rw [← h, BitVec.extractLsb'_and, hm, BitVec.and_allOnes]

/-- A value is the concatenation of its fields. -/
theorem fld_split {n m : Nat} (x : BitVec (n + m)) : fld x m n ++ fld x 0 m = x := by
  apply BitVec.eq_of_getLsbD_eq
  intro i hi
  simp only [fld, BitVec.getLsbD_append, BitVec.getLsbD_extractLsb']
  by_cases h : i < m
  · simp [h]
  · simp [h, show i - m < n by omega, show m + (i - m) = i by omega]

/-- The order of R145 leaves the rows of line 9 to the words of opcodes 8 to 11 with S = 0. -/
theorem not_tests (op : BitVec 4) (h : ¬op &&& 12#4 = 8#4) :
    ¬op &&& 13#4 = 8#4 ∧ ¬op &&& 13#4 = 9#4 ∧ ¬op &&& 15#4 = 9#4 := by
  revert op; decide

/-- One bit, as a field and as a bit. -/
theorem fld_bit {n : Nat} (x : BitVec n) (i : Nat) : fld x i 1 = BitVec.ofBool (x.getLsbD i) := by
  apply BitVec.eq_of_getLsbD_eq
  intro j hj
  obtain rfl : j = 0 := by omega
  simp [fld]

theorem bit_eq {n : Nat} (x : BitVec n) (i : Nat) : bit x i = x.getLsbD i := by
  rw [bit, fld_bit]
  cases x.getLsbD i <;> rfl

end Sys2Proof.Laws
end

