-- ==== Sys2Proof/Laws/State.lean ====
section
/-! SUPPORT. What each update of the state leaves in each field: one lemma per field per update. -/

namespace Sys2Proof.Machine

@[simp] theorem putRegIn_regs (m : Mode) (n : RegNum) (v : Word) (s : State) : (putRegIn m n v s).regs = s.regs.set (physIndex m n) v (physIndex_lt m n) := rfl
@[simp] theorem putRegIn_r15 (m : Mode) (n : RegNum) (v : Word) (s : State) : (putRegIn m n v s).r15 = s.r15 := rfl
@[simp] theorem putRegIn_cpsr (m : Mode) (n : RegNum) (v : Word) (s : State) : (putRegIn m n v s).cpsr = s.cpsr := rfl
@[simp] theorem putRegIn_spsr (m : Mode) (n : RegNum) (v : Word) (s : State) : (putRegIn m n v s).spsr = s.spsr := rfl
@[simp] theorem putRegIn_pipe (m : Mode) (n : RegNum) (v : Word) (s : State) : (putRegIn m n v s).pipe = s.pipe := rfl
@[simp] theorem putRegIn_flushed (m : Mode) (n : RegNum) (v : Word) (s : State) : (putRegIn m n v s).flushed = s.flushed := rfl
@[simp] theorem putRegIn_openBus (m : Mode) (n : RegNum) (v : Word) (s : State) : (putRegIn m n v s).openBus = s.openBus := rfl
@[simp] theorem putRegIn_mem (m : Mode) (n : RegNum) (v : Word) (s : State) : (putRegIn m n v s).mem = s.mem := rfl
@[simp] theorem putRegIn_ie (m : Mode) (n : RegNum) (v : Word) (s : State) : (putRegIn m n v s).ie = s.ie := rfl
@[simp] theorem putRegIn_iff (m : Mode) (n : RegNum) (v : Word) (s : State) : (putRegIn m n v s).iff = s.iff := rfl
@[simp] theorem putRegIn_ime (m : Mode) (n : RegNum) (v : Word) (s : State) : (putRegIn m n v s).ime = s.ime := rfl
@[simp] theorem putRegIn_halted (m : Mode) (n : RegNum) (v : Word) (s : State) : (putRegIn m n v s).halted = s.halted := rfl
@[simp] theorem putRegIn_dma (m : Mode) (n : RegNum) (v : Word) (s : State) : (putRegIn m n v s).dma = s.dma := rfl
@[simp] theorem putRegIn_now (m : Mode) (n : RegNum) (v : Word) (s : State) : (putRegIn m n v s).now = s.now := rfl
@[simp] theorem putRegIn_seq (m : Mode) (n : RegNum) (v : Word) (s : State) : (putRegIn m n v s).seq = s.seq := rfl
@[simp] theorem putRegIn_queue (m : Mode) (n : RegNum) (v : Word) (s : State) : (putRegIn m n v s).queue = s.queue := rfl
@[simp] theorem putRegIn_pendingCycles (m : Mode) (n : RegNum) (v : Word) (s : State) : (putRegIn m n v s).pendingCycles = s.pendingCycles := rfl
@[simp] theorem putRegIn_ext (m : Mode) (n : RegNum) (v : Word) (s : State) : (putRegIn m n v s).ext = s.ext := rfl
@[simp] theorem putRegIn_draws (m : Mode) (n : RegNum) (v : Word) (s : State) : (putRegIn m n v s).draws = s.draws := rfl
@[simp] theorem putRegIn_params (m : Mode) (n : RegNum) (v : Word) (s : State) : (putRegIn m n v s).params = s.params := rfl

@[simp] theorem branchTo_regs (v : Word) (s : State) : (branchTo v s).regs = s.regs := rfl
@[simp] theorem branchTo_r15 (v : Word) (s : State) : (branchTo v s).r15 = alignPc s.cpsr.t v := rfl
@[simp] theorem branchTo_cpsr (v : Word) (s : State) : (branchTo v s).cpsr = s.cpsr := rfl
@[simp] theorem branchTo_spsr (v : Word) (s : State) : (branchTo v s).spsr = s.spsr := rfl
@[simp] theorem branchTo_pipe (v : Word) (s : State) : (branchTo v s).pipe = [] := rfl
@[simp] theorem branchTo_flushed (v : Word) (s : State) : (branchTo v s).flushed = true := rfl
@[simp] theorem branchTo_openBus (v : Word) (s : State) : (branchTo v s).openBus = s.openBus := rfl
@[simp] theorem branchTo_mem (v : Word) (s : State) : (branchTo v s).mem = s.mem := rfl
@[simp] theorem branchTo_ie (v : Word) (s : State) : (branchTo v s).ie = s.ie := rfl
@[simp] theorem branchTo_iff (v : Word) (s : State) : (branchTo v s).iff = s.iff := rfl
@[simp] theorem branchTo_ime (v : Word) (s : State) : (branchTo v s).ime = s.ime := rfl
@[simp] theorem branchTo_halted (v : Word) (s : State) : (branchTo v s).halted = s.halted := rfl
@[simp] theorem branchTo_dma (v : Word) (s : State) : (branchTo v s).dma = s.dma := rfl
@[simp] theorem branchTo_now (v : Word) (s : State) : (branchTo v s).now = s.now := rfl
@[simp] theorem branchTo_seq (v : Word) (s : State) : (branchTo v s).seq = s.seq := rfl
@[simp] theorem branchTo_queue (v : Word) (s : State) : (branchTo v s).queue = s.queue := rfl
@[simp] theorem branchTo_pendingCycles (v : Word) (s : State) : (branchTo v s).pendingCycles = s.pendingCycles := rfl
@[simp] theorem branchTo_ext (v : Word) (s : State) : (branchTo v s).ext = s.ext := rfl
@[simp] theorem branchTo_draws (v : Word) (s : State) : (branchTo v s).draws = s.draws := rfl
@[simp] theorem branchTo_params (v : Word) (s : State) : (branchTo v s).params = s.params := rfl

@[simp] theorem setNz_regs (v : Word) (s : State) : (setNz v s).regs = s.regs := rfl
@[simp] theorem setNz_r15 (v : Word) (s : State) : (setNz v s).r15 = s.r15 := rfl
@[simp] theorem setNz_cpsr (v : Word) (s : State) : (setNz v s).cpsr = { s.cpsr with n := v.getLsbD 31, z := v == 0 } := rfl
@[simp] theorem setNz_spsr (v : Word) (s : State) : (setNz v s).spsr = s.spsr := rfl
@[simp] theorem setNz_pipe (v : Word) (s : State) : (setNz v s).pipe = s.pipe := rfl
@[simp] theorem setNz_flushed (v : Word) (s : State) : (setNz v s).flushed = s.flushed := rfl
@[simp] theorem setNz_openBus (v : Word) (s : State) : (setNz v s).openBus = s.openBus := rfl
@[simp] theorem setNz_mem (v : Word) (s : State) : (setNz v s).mem = s.mem := rfl
@[simp] theorem setNz_ie (v : Word) (s : State) : (setNz v s).ie = s.ie := rfl
@[simp] theorem setNz_iff (v : Word) (s : State) : (setNz v s).iff = s.iff := rfl
@[simp] theorem setNz_ime (v : Word) (s : State) : (setNz v s).ime = s.ime := rfl
@[simp] theorem setNz_halted (v : Word) (s : State) : (setNz v s).halted = s.halted := rfl
@[simp] theorem setNz_dma (v : Word) (s : State) : (setNz v s).dma = s.dma := rfl
@[simp] theorem setNz_now (v : Word) (s : State) : (setNz v s).now = s.now := rfl
@[simp] theorem setNz_seq (v : Word) (s : State) : (setNz v s).seq = s.seq := rfl
@[simp] theorem setNz_queue (v : Word) (s : State) : (setNz v s).queue = s.queue := rfl
@[simp] theorem setNz_pendingCycles (v : Word) (s : State) : (setNz v s).pendingCycles = s.pendingCycles := rfl
@[simp] theorem setNz_ext (v : Word) (s : State) : (setNz v s).ext = s.ext := rfl
@[simp] theorem setNz_draws (v : Word) (s : State) : (setNz v s).draws = s.draws := rfl
@[simp] theorem setNz_params (v : Word) (s : State) : (setNz v s).params = s.params := rfl

@[simp] theorem setNzLong_regs (v : BitVec 64) (s : State) : (setNzLong v s).regs = s.regs := rfl
@[simp] theorem setNzLong_r15 (v : BitVec 64) (s : State) : (setNzLong v s).r15 = s.r15 := rfl
@[simp] theorem setNzLong_cpsr (v : BitVec 64) (s : State) : (setNzLong v s).cpsr = { s.cpsr with n := v.getLsbD 63, z := v == 0 } := rfl
@[simp] theorem setNzLong_spsr (v : BitVec 64) (s : State) : (setNzLong v s).spsr = s.spsr := rfl
@[simp] theorem setNzLong_pipe (v : BitVec 64) (s : State) : (setNzLong v s).pipe = s.pipe := rfl
@[simp] theorem setNzLong_flushed (v : BitVec 64) (s : State) : (setNzLong v s).flushed = s.flushed := rfl
@[simp] theorem setNzLong_openBus (v : BitVec 64) (s : State) : (setNzLong v s).openBus = s.openBus := rfl
@[simp] theorem setNzLong_mem (v : BitVec 64) (s : State) : (setNzLong v s).mem = s.mem := rfl
@[simp] theorem setNzLong_ie (v : BitVec 64) (s : State) : (setNzLong v s).ie = s.ie := rfl
@[simp] theorem setNzLong_iff (v : BitVec 64) (s : State) : (setNzLong v s).iff = s.iff := rfl
@[simp] theorem setNzLong_ime (v : BitVec 64) (s : State) : (setNzLong v s).ime = s.ime := rfl
@[simp] theorem setNzLong_halted (v : BitVec 64) (s : State) : (setNzLong v s).halted = s.halted := rfl
@[simp] theorem setNzLong_dma (v : BitVec 64) (s : State) : (setNzLong v s).dma = s.dma := rfl
@[simp] theorem setNzLong_now (v : BitVec 64) (s : State) : (setNzLong v s).now = s.now := rfl
@[simp] theorem setNzLong_seq (v : BitVec 64) (s : State) : (setNzLong v s).seq = s.seq := rfl
@[simp] theorem setNzLong_queue (v : BitVec 64) (s : State) : (setNzLong v s).queue = s.queue := rfl
@[simp] theorem setNzLong_pendingCycles (v : BitVec 64) (s : State) : (setNzLong v s).pendingCycles = s.pendingCycles := rfl
@[simp] theorem setNzLong_ext (v : BitVec 64) (s : State) : (setNzLong v s).ext = s.ext := rfl
@[simp] theorem setNzLong_draws (v : BitVec 64) (s : State) : (setNzLong v s).draws = s.draws := rfl
@[simp] theorem setNzLong_params (v : BitVec 64) (s : State) : (setNzLong v s).params = s.params := rfl

@[simp] theorem setCarry_regs (b : Bool) (s : State) : (setCarry b s).regs = s.regs := rfl
@[simp] theorem setCarry_r15 (b : Bool) (s : State) : (setCarry b s).r15 = s.r15 := rfl
@[simp] theorem setCarry_cpsr (b : Bool) (s : State) : (setCarry b s).cpsr = { s.cpsr with c := b } := rfl
@[simp] theorem setCarry_spsr (b : Bool) (s : State) : (setCarry b s).spsr = s.spsr := rfl
@[simp] theorem setCarry_pipe (b : Bool) (s : State) : (setCarry b s).pipe = s.pipe := rfl
@[simp] theorem setCarry_flushed (b : Bool) (s : State) : (setCarry b s).flushed = s.flushed := rfl
@[simp] theorem setCarry_openBus (b : Bool) (s : State) : (setCarry b s).openBus = s.openBus := rfl
@[simp] theorem setCarry_mem (b : Bool) (s : State) : (setCarry b s).mem = s.mem := rfl
@[simp] theorem setCarry_ie (b : Bool) (s : State) : (setCarry b s).ie = s.ie := rfl
@[simp] theorem setCarry_iff (b : Bool) (s : State) : (setCarry b s).iff = s.iff := rfl
@[simp] theorem setCarry_ime (b : Bool) (s : State) : (setCarry b s).ime = s.ime := rfl
@[simp] theorem setCarry_halted (b : Bool) (s : State) : (setCarry b s).halted = s.halted := rfl
@[simp] theorem setCarry_dma (b : Bool) (s : State) : (setCarry b s).dma = s.dma := rfl
@[simp] theorem setCarry_now (b : Bool) (s : State) : (setCarry b s).now = s.now := rfl
@[simp] theorem setCarry_seq (b : Bool) (s : State) : (setCarry b s).seq = s.seq := rfl
@[simp] theorem setCarry_queue (b : Bool) (s : State) : (setCarry b s).queue = s.queue := rfl
@[simp] theorem setCarry_pendingCycles (b : Bool) (s : State) : (setCarry b s).pendingCycles = s.pendingCycles := rfl
@[simp] theorem setCarry_ext (b : Bool) (s : State) : (setCarry b s).ext = s.ext := rfl
@[simp] theorem setCarry_draws (b : Bool) (s : State) : (setCarry b s).draws = s.draws := rfl
@[simp] theorem setCarry_params (b : Bool) (s : State) : (setCarry b s).params = s.params := rfl

@[simp] theorem setOverflow_regs (b : Bool) (s : State) : (setOverflow b s).regs = s.regs := rfl
@[simp] theorem setOverflow_r15 (b : Bool) (s : State) : (setOverflow b s).r15 = s.r15 := rfl
@[simp] theorem setOverflow_cpsr (b : Bool) (s : State) : (setOverflow b s).cpsr = { s.cpsr with v := b } := rfl
@[simp] theorem setOverflow_spsr (b : Bool) (s : State) : (setOverflow b s).spsr = s.spsr := rfl
@[simp] theorem setOverflow_pipe (b : Bool) (s : State) : (setOverflow b s).pipe = s.pipe := rfl
@[simp] theorem setOverflow_flushed (b : Bool) (s : State) : (setOverflow b s).flushed = s.flushed := rfl
@[simp] theorem setOverflow_openBus (b : Bool) (s : State) : (setOverflow b s).openBus = s.openBus := rfl
@[simp] theorem setOverflow_mem (b : Bool) (s : State) : (setOverflow b s).mem = s.mem := rfl
@[simp] theorem setOverflow_ie (b : Bool) (s : State) : (setOverflow b s).ie = s.ie := rfl
@[simp] theorem setOverflow_iff (b : Bool) (s : State) : (setOverflow b s).iff = s.iff := rfl
@[simp] theorem setOverflow_ime (b : Bool) (s : State) : (setOverflow b s).ime = s.ime := rfl
@[simp] theorem setOverflow_halted (b : Bool) (s : State) : (setOverflow b s).halted = s.halted := rfl
@[simp] theorem setOverflow_dma (b : Bool) (s : State) : (setOverflow b s).dma = s.dma := rfl
@[simp] theorem setOverflow_now (b : Bool) (s : State) : (setOverflow b s).now = s.now := rfl
@[simp] theorem setOverflow_seq (b : Bool) (s : State) : (setOverflow b s).seq = s.seq := rfl
@[simp] theorem setOverflow_queue (b : Bool) (s : State) : (setOverflow b s).queue = s.queue := rfl
@[simp] theorem setOverflow_pendingCycles (b : Bool) (s : State) : (setOverflow b s).pendingCycles = s.pendingCycles := rfl
@[simp] theorem setOverflow_ext (b : Bool) (s : State) : (setOverflow b s).ext = s.ext := rfl
@[simp] theorem setOverflow_draws (b : Bool) (s : State) : (setOverflow b s).draws = s.draws := rfl
@[simp] theorem setOverflow_params (b : Bool) (s : State) : (setOverflow b s).params = s.params := rfl

@[simp] theorem setFlags_regs (r : Alu) (s : State) : (setFlags r s).regs = s.regs := rfl
@[simp] theorem setFlags_r15 (r : Alu) (s : State) : (setFlags r s).r15 = s.r15 := rfl
@[simp] theorem setFlags_cpsr (r : Alu) (s : State) : (setFlags r s).cpsr = { s.cpsr with n := r.res.getLsbD 31, z := r.res == 0, c := r.c, v := r.v } := rfl
@[simp] theorem setFlags_spsr (r : Alu) (s : State) : (setFlags r s).spsr = s.spsr := rfl
@[simp] theorem setFlags_pipe (r : Alu) (s : State) : (setFlags r s).pipe = s.pipe := rfl
@[simp] theorem setFlags_flushed (r : Alu) (s : State) : (setFlags r s).flushed = s.flushed := rfl
@[simp] theorem setFlags_openBus (r : Alu) (s : State) : (setFlags r s).openBus = s.openBus := rfl
@[simp] theorem setFlags_mem (r : Alu) (s : State) : (setFlags r s).mem = s.mem := rfl
@[simp] theorem setFlags_ie (r : Alu) (s : State) : (setFlags r s).ie = s.ie := rfl
@[simp] theorem setFlags_iff (r : Alu) (s : State) : (setFlags r s).iff = s.iff := rfl
@[simp] theorem setFlags_ime (r : Alu) (s : State) : (setFlags r s).ime = s.ime := rfl
@[simp] theorem setFlags_halted (r : Alu) (s : State) : (setFlags r s).halted = s.halted := rfl
@[simp] theorem setFlags_dma (r : Alu) (s : State) : (setFlags r s).dma = s.dma := rfl
@[simp] theorem setFlags_now (r : Alu) (s : State) : (setFlags r s).now = s.now := rfl
@[simp] theorem setFlags_seq (r : Alu) (s : State) : (setFlags r s).seq = s.seq := rfl
@[simp] theorem setFlags_queue (r : Alu) (s : State) : (setFlags r s).queue = s.queue := rfl
@[simp] theorem setFlags_pendingCycles (r : Alu) (s : State) : (setFlags r s).pendingCycles = s.pendingCycles := rfl
@[simp] theorem setFlags_ext (r : Alu) (s : State) : (setFlags r s).ext = s.ext := rfl
@[simp] theorem setFlags_draws (r : Alu) (s : State) : (setFlags r s).draws = s.draws := rfl
@[simp] theorem setFlags_params (r : Alu) (s : State) : (setFlags r s).params = s.params := rfl

@[simp] theorem drawCarry_regs (s : State) : (drawCarry s).regs = s.regs := rfl
@[simp] theorem drawCarry_r15 (s : State) : (drawCarry s).r15 = s.r15 := rfl
@[simp] theorem drawCarry_cpsr (s : State) : (drawCarry s).cpsr = { s.cpsr with c := Config.freeBit s.draws } := rfl
@[simp] theorem drawCarry_spsr (s : State) : (drawCarry s).spsr = s.spsr := rfl
@[simp] theorem drawCarry_pipe (s : State) : (drawCarry s).pipe = s.pipe := rfl
@[simp] theorem drawCarry_flushed (s : State) : (drawCarry s).flushed = s.flushed := rfl
@[simp] theorem drawCarry_openBus (s : State) : (drawCarry s).openBus = s.openBus := rfl
@[simp] theorem drawCarry_mem (s : State) : (drawCarry s).mem = s.mem := rfl
@[simp] theorem drawCarry_ie (s : State) : (drawCarry s).ie = s.ie := rfl
@[simp] theorem drawCarry_iff (s : State) : (drawCarry s).iff = s.iff := rfl
@[simp] theorem drawCarry_ime (s : State) : (drawCarry s).ime = s.ime := rfl
@[simp] theorem drawCarry_halted (s : State) : (drawCarry s).halted = s.halted := rfl
@[simp] theorem drawCarry_dma (s : State) : (drawCarry s).dma = s.dma := rfl
@[simp] theorem drawCarry_now (s : State) : (drawCarry s).now = s.now := rfl
@[simp] theorem drawCarry_seq (s : State) : (drawCarry s).seq = s.seq := rfl
@[simp] theorem drawCarry_queue (s : State) : (drawCarry s).queue = s.queue := rfl
@[simp] theorem drawCarry_pendingCycles (s : State) : (drawCarry s).pendingCycles = s.pendingCycles := rfl
@[simp] theorem drawCarry_ext (s : State) : (drawCarry s).ext = s.ext := rfl
@[simp] theorem drawCarry_draws (s : State) : (drawCarry s).draws = s.draws + 1 := rfl
@[simp] theorem drawCarry_params (s : State) : (drawCarry s).params = s.params := rfl

@[simp] theorem drawOverflow_regs (s : State) : (drawOverflow s).regs = s.regs := rfl
@[simp] theorem drawOverflow_r15 (s : State) : (drawOverflow s).r15 = s.r15 := rfl
@[simp] theorem drawOverflow_cpsr (s : State) : (drawOverflow s).cpsr = { s.cpsr with v := Config.freeBit s.draws } := rfl
@[simp] theorem drawOverflow_spsr (s : State) : (drawOverflow s).spsr = s.spsr := rfl
@[simp] theorem drawOverflow_pipe (s : State) : (drawOverflow s).pipe = s.pipe := rfl
@[simp] theorem drawOverflow_flushed (s : State) : (drawOverflow s).flushed = s.flushed := rfl
@[simp] theorem drawOverflow_openBus (s : State) : (drawOverflow s).openBus = s.openBus := rfl
@[simp] theorem drawOverflow_mem (s : State) : (drawOverflow s).mem = s.mem := rfl
@[simp] theorem drawOverflow_ie (s : State) : (drawOverflow s).ie = s.ie := rfl
@[simp] theorem drawOverflow_iff (s : State) : (drawOverflow s).iff = s.iff := rfl
@[simp] theorem drawOverflow_ime (s : State) : (drawOverflow s).ime = s.ime := rfl
@[simp] theorem drawOverflow_halted (s : State) : (drawOverflow s).halted = s.halted := rfl
@[simp] theorem drawOverflow_dma (s : State) : (drawOverflow s).dma = s.dma := rfl
@[simp] theorem drawOverflow_now (s : State) : (drawOverflow s).now = s.now := rfl
@[simp] theorem drawOverflow_seq (s : State) : (drawOverflow s).seq = s.seq := rfl
@[simp] theorem drawOverflow_queue (s : State) : (drawOverflow s).queue = s.queue := rfl
@[simp] theorem drawOverflow_pendingCycles (s : State) : (drawOverflow s).pendingCycles = s.pendingCycles := rfl
@[simp] theorem drawOverflow_ext (s : State) : (drawOverflow s).ext = s.ext := rfl
@[simp] theorem drawOverflow_draws (s : State) : (drawOverflow s).draws = s.draws + 1 := rfl
@[simp] theorem drawOverflow_params (s : State) : (drawOverflow s).params = s.params := rfl

@[simp] theorem loadCell_regs (r : Region) (o : Nat) (b : Byte) (s : State) : (loadCell r o b s).regs = s.regs := rfl
@[simp] theorem loadCell_r15 (r : Region) (o : Nat) (b : Byte) (s : State) : (loadCell r o b s).r15 = s.r15 := rfl
@[simp] theorem loadCell_cpsr (r : Region) (o : Nat) (b : Byte) (s : State) : (loadCell r o b s).cpsr = s.cpsr := rfl
@[simp] theorem loadCell_spsr (r : Region) (o : Nat) (b : Byte) (s : State) : (loadCell r o b s).spsr = s.spsr := rfl
@[simp] theorem loadCell_pipe (r : Region) (o : Nat) (b : Byte) (s : State) : (loadCell r o b s).pipe = s.pipe := rfl
@[simp] theorem loadCell_flushed (r : Region) (o : Nat) (b : Byte) (s : State) : (loadCell r o b s).flushed = s.flushed := rfl
@[simp] theorem loadCell_openBus (r : Region) (o : Nat) (b : Byte) (s : State) : (loadCell r o b s).openBus = s.openBus := rfl
@[simp] theorem loadCell_mem (r : Region) (o : Nat) (b : Byte) (s : State) : (loadCell r o b s).mem = memSet s.mem (regionBase r + o) b := rfl
@[simp] theorem loadCell_ie (r : Region) (o : Nat) (b : Byte) (s : State) : (loadCell r o b s).ie = s.ie := rfl
@[simp] theorem loadCell_iff (r : Region) (o : Nat) (b : Byte) (s : State) : (loadCell r o b s).iff = s.iff := rfl
@[simp] theorem loadCell_ime (r : Region) (o : Nat) (b : Byte) (s : State) : (loadCell r o b s).ime = s.ime := rfl
@[simp] theorem loadCell_halted (r : Region) (o : Nat) (b : Byte) (s : State) : (loadCell r o b s).halted = s.halted := rfl
@[simp] theorem loadCell_dma (r : Region) (o : Nat) (b : Byte) (s : State) : (loadCell r o b s).dma = s.dma := rfl
@[simp] theorem loadCell_now (r : Region) (o : Nat) (b : Byte) (s : State) : (loadCell r o b s).now = s.now := rfl
@[simp] theorem loadCell_seq (r : Region) (o : Nat) (b : Byte) (s : State) : (loadCell r o b s).seq = s.seq := rfl
@[simp] theorem loadCell_queue (r : Region) (o : Nat) (b : Byte) (s : State) : (loadCell r o b s).queue = s.queue := rfl
@[simp] theorem loadCell_pendingCycles (r : Region) (o : Nat) (b : Byte) (s : State) : (loadCell r o b s).pendingCycles = s.pendingCycles := rfl
@[simp] theorem loadCell_ext (r : Region) (o : Nat) (b : Byte) (s : State) : (loadCell r o b s).ext = s.ext := rfl
@[simp] theorem loadCell_draws (r : Region) (o : Nat) (b : Byte) (s : State) : (loadCell r o b s).draws = s.draws := rfl
@[simp] theorem loadCell_params (r : Region) (o : Nat) (b : Byte) (s : State) : (loadCell r o b s).params = s.params := rfl

@[simp] theorem setDma_regs (ch : Fin 4) (d : DmaChannel) (s : State) : (setDma ch d s).regs = s.regs := rfl
@[simp] theorem setDma_r15 (ch : Fin 4) (d : DmaChannel) (s : State) : (setDma ch d s).r15 = s.r15 := rfl
@[simp] theorem setDma_cpsr (ch : Fin 4) (d : DmaChannel) (s : State) : (setDma ch d s).cpsr = s.cpsr := rfl
@[simp] theorem setDma_spsr (ch : Fin 4) (d : DmaChannel) (s : State) : (setDma ch d s).spsr = s.spsr := rfl
@[simp] theorem setDma_pipe (ch : Fin 4) (d : DmaChannel) (s : State) : (setDma ch d s).pipe = s.pipe := rfl
@[simp] theorem setDma_flushed (ch : Fin 4) (d : DmaChannel) (s : State) : (setDma ch d s).flushed = s.flushed := rfl
@[simp] theorem setDma_openBus (ch : Fin 4) (d : DmaChannel) (s : State) : (setDma ch d s).openBus = s.openBus := rfl
@[simp] theorem setDma_mem (ch : Fin 4) (d : DmaChannel) (s : State) : (setDma ch d s).mem = s.mem := rfl
@[simp] theorem setDma_ie (ch : Fin 4) (d : DmaChannel) (s : State) : (setDma ch d s).ie = s.ie := rfl
@[simp] theorem setDma_iff (ch : Fin 4) (d : DmaChannel) (s : State) : (setDma ch d s).iff = s.iff := rfl
@[simp] theorem setDma_ime (ch : Fin 4) (d : DmaChannel) (s : State) : (setDma ch d s).ime = s.ime := rfl
@[simp] theorem setDma_halted (ch : Fin 4) (d : DmaChannel) (s : State) : (setDma ch d s).halted = s.halted := rfl
@[simp] theorem setDma_dma (ch : Fin 4) (d : DmaChannel) (s : State) : (setDma ch d s).dma = s.dma.set ch d := rfl
@[simp] theorem setDma_now (ch : Fin 4) (d : DmaChannel) (s : State) : (setDma ch d s).now = s.now := rfl
@[simp] theorem setDma_seq (ch : Fin 4) (d : DmaChannel) (s : State) : (setDma ch d s).seq = s.seq := rfl
@[simp] theorem setDma_queue (ch : Fin 4) (d : DmaChannel) (s : State) : (setDma ch d s).queue = s.queue := rfl
@[simp] theorem setDma_pendingCycles (ch : Fin 4) (d : DmaChannel) (s : State) : (setDma ch d s).pendingCycles = s.pendingCycles := rfl
@[simp] theorem setDma_ext (ch : Fin 4) (d : DmaChannel) (s : State) : (setDma ch d s).ext = s.ext := rfl
@[simp] theorem setDma_draws (ch : Fin 4) (d : DmaChannel) (s : State) : (setDma ch d s).draws = s.draws := rfl
@[simp] theorem setDma_params (ch : Fin 4) (d : DmaChannel) (s : State) : (setDma ch d s).params = s.params := rfl

@[simp] theorem raiseInterrupt_regs (k : Fin 14) (s : State) : (raiseInterrupt k s).regs = s.regs := rfl
@[simp] theorem raiseInterrupt_r15 (k : Fin 14) (s : State) : (raiseInterrupt k s).r15 = s.r15 := rfl
@[simp] theorem raiseInterrupt_cpsr (k : Fin 14) (s : State) : (raiseInterrupt k s).cpsr = s.cpsr := rfl
@[simp] theorem raiseInterrupt_spsr (k : Fin 14) (s : State) : (raiseInterrupt k s).spsr = s.spsr := rfl
@[simp] theorem raiseInterrupt_pipe (k : Fin 14) (s : State) : (raiseInterrupt k s).pipe = s.pipe := rfl
@[simp] theorem raiseInterrupt_flushed (k : Fin 14) (s : State) : (raiseInterrupt k s).flushed = s.flushed := rfl
@[simp] theorem raiseInterrupt_openBus (k : Fin 14) (s : State) : (raiseInterrupt k s).openBus = s.openBus := rfl
@[simp] theorem raiseInterrupt_mem (k : Fin 14) (s : State) : (raiseInterrupt k s).mem = s.mem := rfl
@[simp] theorem raiseInterrupt_ie (k : Fin 14) (s : State) : (raiseInterrupt k s).ie = s.ie := rfl
@[simp] theorem raiseInterrupt_iff (k : Fin 14) (s : State) : (raiseInterrupt k s).iff = s.iff ||| (1#14 <<< k.val) := rfl
@[simp] theorem raiseInterrupt_ime (k : Fin 14) (s : State) : (raiseInterrupt k s).ime = s.ime := rfl
@[simp] theorem raiseInterrupt_halted (k : Fin 14) (s : State) : (raiseInterrupt k s).halted = s.halted := rfl
@[simp] theorem raiseInterrupt_dma (k : Fin 14) (s : State) : (raiseInterrupt k s).dma = s.dma := rfl
@[simp] theorem raiseInterrupt_now (k : Fin 14) (s : State) : (raiseInterrupt k s).now = s.now := rfl
@[simp] theorem raiseInterrupt_seq (k : Fin 14) (s : State) : (raiseInterrupt k s).seq = s.seq := rfl
@[simp] theorem raiseInterrupt_queue (k : Fin 14) (s : State) : (raiseInterrupt k s).queue = s.queue := rfl
@[simp] theorem raiseInterrupt_pendingCycles (k : Fin 14) (s : State) : (raiseInterrupt k s).pendingCycles = s.pendingCycles := rfl
@[simp] theorem raiseInterrupt_ext (k : Fin 14) (s : State) : (raiseInterrupt k s).ext = s.ext := rfl
@[simp] theorem raiseInterrupt_draws (k : Fin 14) (s : State) : (raiseInterrupt k s).draws = s.draws := rfl
@[simp] theorem raiseInterrupt_params (k : Fin 14) (s : State) : (raiseInterrupt k s).params = s.params := rfl

@[simp] theorem schedule_regs (d k : Nat) (s : State) : (schedule d k s).regs = s.regs := rfl
@[simp] theorem schedule_r15 (d k : Nat) (s : State) : (schedule d k s).r15 = s.r15 := rfl
@[simp] theorem schedule_cpsr (d k : Nat) (s : State) : (schedule d k s).cpsr = s.cpsr := rfl
@[simp] theorem schedule_spsr (d k : Nat) (s : State) : (schedule d k s).spsr = s.spsr := rfl
@[simp] theorem schedule_pipe (d k : Nat) (s : State) : (schedule d k s).pipe = s.pipe := rfl
@[simp] theorem schedule_flushed (d k : Nat) (s : State) : (schedule d k s).flushed = s.flushed := rfl
@[simp] theorem schedule_openBus (d k : Nat) (s : State) : (schedule d k s).openBus = s.openBus := rfl
@[simp] theorem schedule_mem (d k : Nat) (s : State) : (schedule d k s).mem = s.mem := rfl
@[simp] theorem schedule_ie (d k : Nat) (s : State) : (schedule d k s).ie = s.ie := rfl
@[simp] theorem schedule_iff (d k : Nat) (s : State) : (schedule d k s).iff = s.iff := rfl
@[simp] theorem schedule_ime (d k : Nat) (s : State) : (schedule d k s).ime = s.ime := rfl
@[simp] theorem schedule_halted (d k : Nat) (s : State) : (schedule d k s).halted = s.halted := rfl
@[simp] theorem schedule_dma (d k : Nat) (s : State) : (schedule d k s).dma = s.dma := rfl
@[simp] theorem schedule_now (d k : Nat) (s : State) : (schedule d k s).now = s.now := rfl
@[simp] theorem schedule_seq (d k : Nat) (s : State) : (schedule d k s).seq = s.seq + 1 := rfl
@[simp] theorem schedule_queue (d k : Nat) (s : State) : (schedule d k s).queue = s.queue ++ [⟨s.now + d, s.seq, k⟩] := rfl
@[simp] theorem schedule_pendingCycles (d k : Nat) (s : State) : (schedule d k s).pendingCycles = s.pendingCycles := rfl
@[simp] theorem schedule_ext (d k : Nat) (s : State) : (schedule d k s).ext = s.ext := rfl
@[simp] theorem schedule_draws (d k : Nat) (s : State) : (schedule d k s).draws = s.draws := rfl
@[simp] theorem schedule_params (d k : Nat) (s : State) : (schedule d k s).params = s.params := rfl

end Sys2Proof.Machine
end

