-- ==== Sys2Proof/Laws/Registers.lean ====
section
/-! SUPPORT. The banked registers: reading after writing, and which registers an operation keeps. -/

namespace Sys2Proof.Laws

open Sys2Proof.Machine

/-- R0 to R14 are read from the register file alone. -/
theorem getRegIn_regs {m : Mode} {n : RegNum} (h : n ≠ 15) (s : State) :
    getRegIn m n s = s.regs[physIndex m n]'(physIndex_lt m n) := by
  rw [getRegIn, if_neg h]

theorem getRegIn_congr {m : Mode} {n : RegNum} (h : n ≠ 15) {s t : State} (hr : t.regs = s.regs) :
    getRegIn m n t = getRegIn m n s := by
  rw [getRegIn_regs h, getRegIn_regs h]
  simp only [hr]

@[simp] theorem getRegIn_pc (m : Mode) (s : State) : getRegIn m 15 s = s.r15 := rfl

/-- Reading after writing the same register. -/
theorem getRegIn_putRegIn_same {m : Mode} {n : RegNum} (h : n ≠ 15) (v : Word) (s : State) :
    getRegIn m n (putRegIn m n v s) = v := by
  rw [getRegIn_regs h]
  simp

/-- Reading after writing another physical register. -/
theorem getRegIn_putRegIn_other {m m' : Mode} {n n' : RegNum} (h : physIndex m n ≠ physIndex m' n') (v : Word)
    (s : State) : getRegIn m n (putRegIn m' n' v s) = getRegIn m n s := by
  unfold getRegIn
  split
  · rfl
  · simp [h.symm]

/-- Within one mode, different numbers below 15 are different registers (R33). -/
theorem physIndex_inj {m : Mode} {n n' : RegNum} (h : n ≠ 15) (h' : n' ≠ 15) (he : physIndex m n = physIndex m n') :
    n = n' := by
  revert h h' he
  revert n n'
  cases m <;> decide

theorem getReg_setReg_same {n : RegNum} (h : n ≠ 15) (v : Word) (s : State) :
    getReg n (setReg n v s) = v := by
  rw [getReg, setReg, setRegIn, if_neg h]
  exact getRegIn_putRegIn_same h v s

theorem setReg_eq {n : RegNum} (h : n ≠ 15) (v : Word) (s : State) : setReg n v s = putRegIn s.cpsr.mode n v s := by
  rw [setReg, setRegIn, if_neg h]

theorem setReg_pc (v : Word) (s : State) : setReg 15 v s = branchTo v s := rfl

theorem getReg_setReg_other {n n' : RegNum} (h : n ≠ n') (hn : n ≠ 15) (hn' : n' ≠ 15) (v : Word) (s : State) :
    getReg n (setReg n' v s) = getReg n s := by
  rw [setReg_eq hn', getReg, getReg]
  exact getRegIn_putRegIn_other (fun he => h (physIndex_inj hn hn' he)) v s

/-- A branch changes no register below 15. -/
theorem getRegIn_branchTo {m : Mode} {n : RegNum} (h : n ≠ 15) (v : Word) (s : State) :
    getRegIn m n (branchTo v s) = getRegIn m n s :=
  getRegIn_congr h rfl

theorem low_ne (r : LowReg) : low r ≠ 15 := by
  revert r; decide

theorem low_inj {r r' : LowReg} (h : low r = low r') : r = r' := by
  revert r r'; decide

/-! Kept registers. -/

theorem keeps_of_regs {rs : List RegNum} {s t : State} (h : t.regs = s.regs) : KeepsRegsBut rs s t :=
  fun _ _ hn _ => getRegIn_congr hn h

theorem keeps_putRegIn {rs : List RegNum} {n : RegNum} (hn : n ∈ rs) (h15 : n ≠ 15) (v : Word) (s : State) :
    KeepsRegsBut rs s (putRegIn s.cpsr.mode n v s) :=
  fun _ _ _ hr => getRegIn_putRegIn_other (hr n hn h15) v s

theorem keeps_trans {rs : List RegNum} {s t u : State} (h : KeepsRegsBut rs s t) (hm : t.cpsr.mode = s.cpsr.mode)
    (h' : KeepsRegsBut rs t u) : KeepsRegsBut rs s u :=
  fun m n hn hr => (h' m n hn (by rw [hm]; exact hr)).trans (h m n hn hr)

/-- A register write keeps every register but the one written. -/
theorem keeps_setReg {rs : List RegNum} {n : RegNum} (hn : n ∈ rs) (v : Word) (s : State) :
    KeepsRegsBut rs s (setReg n v s) := by
  by_cases h : n = 15
  · subst h; exact keeps_of_regs rfl
  · rw [setReg_eq h]; exact keeps_putRegIn hn h v s

theorem setReg_mode (n : RegNum) (v : Word) (s : State) : (setReg n v s).cpsr = s.cpsr := by
  unfold setReg setRegIn
  split <;> rfl

/-- A register write touches the register file, R15 and the pipeline alone. -/
theorem setReg_core (n : RegNum) (v : Word) (s : State) :
    setReg n v s = { s with
      regs := (setReg n v s).regs, r15 := (setReg n v s).r15, pipe := (setReg n v s).pipe
      flushed := (setReg n v s).flushed } := by
  unfold setReg setRegIn
  split <;> rfl

end Sys2Proof.Laws
end

