-- ==== Sys2Proof/Laws/Results.lean ====
section
/-! SUPPORT. What the shared operations over registers and status leave, said in the terms of Safety.lean: a register
write, an exception entry, an exception return. -/

namespace Sys2Proof.Laws

open Sys2Proof.Machine

theorem getReg_with_cpsr (n : RegNum) (s : State) (p : Cpsr) (h : p.mode = s.cpsr.mode) :
    getReg n { s with cpsr := p } = getReg n s := by
  simp only [getReg, getRegIn, h]

/-- Everything a register write with new flags does. -/
theorem sets_setReg_cpsr {rd : RegNum} (h : rd ≠ 15) (v : Word) (p : Cpsr) (s : State) (hp : p.mode = s.cpsr.mode) :
    Sets rd v p s { setReg rd v s with cpsr := p } := by
  refine ⟨?_, rfl, ?_, ?_⟩
  · rw [getReg_with_cpsr _ _ _ (by rw [setReg_mode, hp])]
    exact getReg_setReg_same h v s
  · intro m n hn hr
    rw [← keeps_setReg (rs := [rd]) (n := rd) (by simp) v s m n hn hr]
    exact getRegIn_congr hn rfl
  · rw [setReg_eq h]; rfl

/-- Everything a register write does. -/
theorem sets_setReg {rd : RegNum} (h : rd ≠ 15) (v : Word) (s : State) : Sets rd v s.cpsr s (setReg rd v s) := by
  have := sets_setReg_cpsr h v s.cpsr s rfl
  have e : { setReg rd v s with cpsr := s.cpsr } = setReg rd v s := by rw [← setReg_mode rd v s]
  rwa [e] at this

/-- Everything a branch does. -/
theorem jumps_branchTo (v : Word) (s : State) : Jumps v s.cpsr s (branchTo v s) := rfl

/-! Exceptions. -/

/-- Everything an exception entry does (R411). -/
theorem entered_enterException {m : Mode} (hm : spsrIndex m ≠ none) {vector : Word} (lr : Word)
    (hv : alignPc false vector = vector) (s : State) : Entered m vector lr s (enterException m vector lr s) := by
  cases hk : spsrIndex m with
  | none => exact absurd hk hm
  | some k =>
    simp only [enterException, saveSpsr, hk]
    refine ⟨rfl, ⟨k, hk, ?_, ?_⟩, ?_, ?_, ⟨?_, rfl, rfl⟩, rfl⟩
    · simp [branchTo, putRegIn]; rfl
    · intro j hj
      have : (k : Nat) ≠ j := fun h => hj (Fin.ext h.symm)
      simp [branchTo, putRegIn, this]
    · simp [getReg, branchTo, getRegIn, putRegIn]
    · intro m' n hn hp
      have hn' : ¬ n = 15#4 := hn
      have hp' : ¬ physIndex m 14#4 = physIndex m' n := fun h => hp h.symm
      simp [branchTo, getRegIn, hn', putRegIn, hp']
    · simpa [branchTo, putRegIn] using hv

theorem modeOf_bits (m : Mode) : modeOf (modeBits m) = some m := by cases m <;> rfl

theorem modeBits_of {b : BitVec 5} {m : Mode} (h : modeOf b = some m) : modeBits m = b := by
  revert h; revert b; cases m <;> decide

theorem restored_word {m : Mode} {q : Spsr} (h : modeBits m = q.mode) (p : Cpsr) :
    cpsrWord (restoredCpsr q p) = spsrWord q := by
  obtain ⟨n, z, c, v, i, f, t, md⟩ := q
  simp only at h; subst h
  simp [restoredCpsr, cpsrWord, spsrWord, modeOf_bits]

/-- What CPSR becomes on an exception return (R417). -/
theorem restored_restoreCpsr (s : State) : Restored s (restoreCpsr s).cpsr := by
  unfold restoreCpsr
  refine ⟨?_, ?_, ?_⟩
  · intro k m hk hm
    simp only [hk]
    exact restored_word hm _
  · intro k hk hm
    simp only [hk, restoredCpsr]
    have : modeOf s.spsr[k].mode = none := by
      cases h : modeOf s.spsr[k].mode with
      | none => rfl
      | some m => exact absurd (modeBits_of h) (hm m)
    rw [this]; rfl
  · intro h
    simp only [h]

/-- An exception return restores CPSR alone. -/
theorem restoreCpsr_only (s : State) : restoreCpsr s = { s with cpsr := (restoreCpsr s).cpsr } := by
  unfold restoreCpsr; split <;> rfl

/-- The CPSR restored does not depend on the registers. -/
theorem restoreCpsr_congr {s t : State} (hc : t.cpsr = s.cpsr) (hs : t.spsr = s.spsr) :
    (restoreCpsr t).cpsr = (restoreCpsr s).cpsr := by
  unfold restoreCpsr
  rw [hc]
  split
  · simp only [hs]
  · exact hc

/-- Everything a return from an exception does (R206, R417). -/
theorem jumps_return (v : Word) (s : State) : Restored s (returnFromException v s).cpsr ∧
    Jumps v (returnFromException v s).cpsr s (returnFromException v s) := by
  refine ⟨restored_restoreCpsr s, ?_⟩
  unfold Jumps returnFromException
  rw [restoreCpsr_only]; rfl

/-- A saved CPSR restores to itself. -/
theorem restored_save (p q : Cpsr) : restoredCpsr (saveCpsr p) q = p := by
  simp [restoredCpsr, saveCpsr, modeOf_bits]

end Sys2Proof.Laws
end

