-- ==== Sys2Proof/Laws/Memory.lean ====
section
/-! SUPPORT. Storage: reading after writing, and the canonical form. -/

namespace Sys2Proof.Laws

open Sys2Proof.Machine

/-- A key below every listed one is unlisted. -/
theorem memGet_below {m : Memory} {lo key : Nat} (h : memWfFrom lo m = true) (hk : key < lo) :
    memGet m key = unlisted key := by
  induction m generalizing lo with
  | nil => rfl
  | cons c rest ih =>
    obtain ⟨k, b⟩ := c
    simp only [memWfFrom, Bool.and_eq_true, decide_eq_true_eq] at h
    rw [memGet, if_neg (by omega)]
    exact ih h.2 (by omega)

theorem memGet_cellFor_other (key : Nat) (b : Byte) (rest : Memory) (k : Nat) (h : k ≠ key) :
    memGet (cellFor key b rest) k = memGet rest k := by
  unfold cellFor
  split
  · rfl
  · rw [memGet, if_neg h]

/-- A write leaves every other key alone. -/
theorem memGet_memSet_other (m : Memory) (key : Nat) (b : Byte) (k : Nat) (h : k ≠ key) :
    memGet (memSet m key b) k = memGet m k := by
  induction m with
  | nil => exact memGet_cellFor_other key b [] k h
  | cons c rest ih =>
    obtain ⟨k', b'⟩ := c
    simp only [memSet]
    split
    · exact memGet_cellFor_other _ _ _ _ h
    · split
      · rename_i hk
        rw [memGet_cellFor_other _ _ _ _ h, memGet, if_neg (by omega)]
      · simp only [memGet, ih]

theorem memGet_cellFor_same {rest : Memory} {key : Nat} (b : Byte) (h : memWfFrom (key + 1) rest = true) :
    memGet (cellFor key b rest) key = b := by
  unfold cellFor
  split
  · rename_i hb
    rw [memGet_below h (Nat.lt_succ_self key), hb]
  · rw [memGet, if_pos rfl]

/-- Reading after a write to the same key gives the byte written. -/
theorem memGet_memSet_same {m : Memory} {lo : Nat} (key : Nat) (b : Byte) (h : memWfFrom lo m = true) :
    memGet (memSet m key b) key = b := by
  induction m generalizing lo with
  | nil => exact memGet_cellFor_same b rfl
  | cons c rest ih =>
    obtain ⟨k, c⟩ := c
    have h0 := h
    simp only [memWfFrom, Bool.and_eq_true, decide_eq_true_eq] at h
    simp only [memSet]
    split
    · rename_i hk
      apply memGet_cellFor_same
      simp only [memWfFrom, Bool.and_eq_true, decide_eq_true_eq]
      exact ⟨⟨hk, h.1.2⟩, h.2⟩
    · split
      · rename_i hk
        subst hk
        exact memGet_cellFor_same b h.2
      · rename_i hk
        rw [memGet, if_neg hk]
        exact ih h.2

/-- What a key reads as after a write. -/
theorem memGet_memSet {m : Memory} (key : Nat) (b : Byte) (k : Nat) (h : Memory.wf m = true) :
    memGet (memSet m key b) k = if k = key then b else memGet m k := by
  split
  · rename_i hk
    rw [hk]
    exact memGet_memSet_same key b h
  · rename_i hk
    exact memGet_memSet_other m key b k hk

theorem memWfFrom_mono {m : Memory} {lo lo' : Nat} (h : memWfFrom lo m = true) (hl : lo' ≤ lo) :
    memWfFrom lo' m = true := by
  cases m with
  | nil => rfl
  | cons c rest =>
    simp only [memWfFrom, Bool.and_eq_true, decide_eq_true_eq] at h ⊢
    exact ⟨⟨by omega, h.1.2⟩, h.2⟩

theorem memWfFrom_cellFor {rest : Memory} {lo key : Nat} (b : Byte) (h : memWfFrom (key + 1) rest = true)
    (hk : lo ≤ key) : memWfFrom lo (cellFor key b rest) = true := by
  unfold cellFor
  split
  · exact memWfFrom_mono h (by omega)
  · rename_i hb
    simp only [memWfFrom, Bool.and_eq_true, decide_eq_true_eq]
    exact ⟨⟨hk, by simpa using hb⟩, h⟩

theorem memWfFrom_memSet {m : Memory} {lo key : Nat} (b : Byte) (h : memWfFrom lo m = true) (hk : lo ≤ key) :
    memWfFrom lo (memSet m key b) = true := by
  induction m generalizing lo with
  | nil => exact memWfFrom_cellFor b rfl hk
  | cons c rest ih =>
    obtain ⟨k, c⟩ := c
    simp only [memWfFrom, Bool.and_eq_true, decide_eq_true_eq] at h
    simp only [memSet]
    split
    · rename_i hlt
      apply memWfFrom_cellFor b _ hk
      simp only [memWfFrom, Bool.and_eq_true, decide_eq_true_eq]
      exact ⟨⟨hlt, h.1.2⟩, h.2⟩
    · split
      · rename_i he
        subst he
        exact memWfFrom_cellFor b h.2 hk
      · rename_i hlt hne
        simp only [memWfFrom, Bool.and_eq_true, decide_eq_true_eq]
        exact ⟨⟨h.1.1, h.1.2⟩, ih h.2 (by omega)⟩

/-- A write keeps the canonical form. -/
theorem memSet_wf {m : Memory} (key : Nat) (b : Byte) (h : Memory.wf m = true) : Memory.wf (memSet m key b) = true :=
  memWfFrom_memSet b h (Nat.zero_le key)

/-- The memory at reset is in canonical form. -/
theorem reset_wf : Memory.wf State.reset.mem = true := rfl

theorem loadCell_wf {s : State} (r : Region) (o : Nat) (b : Byte) (h : Memory.wf s.mem = true) :
    Memory.wf (loadCell r o b s).mem = true :=
  memSet_wf _ b h

theorem putCell_wf {s : State} (r : Region) (o : Nat) (b : Byte) (h : Memory.wf s.mem = true) :
    Memory.wf (putCell r o b s).mem = true := by
  unfold putCell
  split
  · exact h
  · exact loadCell_wf r o b h

/-! Places. -/

/-- The offset of a place lies in its region. -/
def validOffset (p : Params) : Region → Nat → Prop
  | .bios, o => o < 0x4000
  | .ewram, o => o < 0x40000
  | .iwram, o => o < 0x8000
  | .palette, o => o < 0x400
  | .vram, o => o < 0x18000
  | .oam, o => o < 0x400
  | .rom, o => o < 0x02000000
  | .sram, o => o < 2 ^ p.sramBits

theorem vramOffset_lt (a : Nat) : vramOffset a < 0x18000 := by
  unfold vramOffset
  dsimp only
  split <;> omega

theorem romTarget_valid {p : Params} {a : Nat} {r : Region} {o : Nat} (h : romTarget p a = .cell r o) :
    r = .rom ∧ o < 0x02000000 := by
  unfold romTarget at h
  dsimp only at h
  split at h
  · cases h; exact ⟨rfl, by omega⟩
  · split at h
    · cases h
      exact ⟨rfl, lt_of_le_of_lt (Nat.mod_le _ _) (by omega)⟩
    · cases h

/-- The decoder only names places that exist (R82). -/
theorem locate_valid {p : Params} {a : Word} {r : Region} {o : Nat} (h : locate p a = .cell r o) :
    validOffset p r o := by
  unfold locate at h
  dsimp only at h
  split at h
  any_goals first
    | (cases h; done)
    | (cases h; exact Nat.mod_lt _ (by decide))
    | (cases h; exact vramOffset_lt _)
    | (cases h; exact Nat.mod_lt _ (Nat.two_pow_pos _))
    | (obtain ⟨rfl, ho⟩ := romTarget_valid h; exact ho)
  all_goals
    split at h
    · cases h
      simp only [validOffset]
      omega
    · cases h

/-- Different places have different keys. -/
theorem key_inj {p : Params} {r r' : Region} {o o' : Nat} (h : validOffset p r o) (h' : validOffset p r' o')
    (he : regionBase r + o = regionBase r' + o') : r = r' ∧ o = o' := by
  cases r <;> cases r' <;>
    first
    | exact ⟨rfl, Nat.add_left_cancel he⟩
    | (exfalso; simp only [validOffset, regionBase] at h h' he; omega)

end Sys2Proof.Laws
end

