-- ==== Sys2Proof/Laws/Bus.lean ====
section
/-! SUPPORT. The bus: sequencing, the I/O region, and what a read can do (`memRead_state`, `memRead_noIo`). -/

namespace Sys2Proof.Laws

open Sys2Proof.Machine

/-! Results. -/

@[simp] theorem andThen_next (s : State) (k : State → Result) : andThen (.next s) k = k s := rfl

@[simp] theorem andThen_fault (f : Fault) (k : State → Result) : andThen (.fault f) k = .fault f := rfl

@[simp] theorem andThen_refused (f : Refusal) (k : State → Result) : andThen (.refused f) k = .refused f := rfl

/-- A sequence ends in a next state iff both parts do. -/
theorem andThen_eq_next {r : Result} {k : State → Result} {t : State} :
    andThen r k = .next t ↔ ∃ u, r = .next u ∧ k u = .next t := by
  cases r <;> simp

/-! Regions. -/

theorem isIo_iff (a : Word) : isIo a = true ↔ a.toNat / 0x01000000 = 4 := by
  simp only [isIo, beq_iff_eq, ← BitVec.toNat_inj, BitVec.extractLsb'_toNat, Nat.shiftRight_eq_div_pow]
  have : a.toNat < 2 ^ 32 := a.isLt
  simp
  omega

theorem locate_not_io {p : Params} {a : Word} (h : isIo a = false) (o : BitVec 10) : locate p a ≠ .io o := by
  intro hl
  have h4 : ¬ a.toNat / 0x01000000 = 4 := by
    rw [← isIo_iff, h]; decide
  unfold locate at hl
  dsimp only at hl
  split at hl
  any_goals (cases hl; done)
  any_goals (split at hl <;> cases hl)
  · exact h4 (by assumption)
  all_goals
    unfold romTarget at hl
    dsimp only at hl
    split at hl
    · cases hl
    · split at hl <;> cases hl

/-- Aligning an address keeps its region, and so do the bytes of an aligned access. -/
theorem isIo_align (w : Width) (a : Word) : isIo (alignTo w a) = isIo a := by
  unfold isIo alignTo
  congr 1
  cases w
  · rfl
  · apply BitVec.eq_of_getLsbD_eq; intro i hi
    simp only [BitVec.getLsbD_extractLsb', BitVec.getLsbD_and]
    have : (0xFFFFFFFE#32).getLsbD (24 + i) = true := by
      interval_cases i <;> decide
    simp [this]
  · apply BitVec.eq_of_getLsbD_eq; intro i hi
    simp only [BitVec.getLsbD_extractLsb', BitVec.getLsbD_and]
    have : (0xFFFFFFFC#32).getLsbD (24 + i) = true := by
      interval_cases i <;> decide
    simp [this]

theorem align_word_toNat (a : Word) : (a &&& 0xFFFFFFFC#32).toNat = a.toNat / 4 * 4 := by
  have e : a &&& 0xFFFFFFFC#32 = (a >>> 2) <<< 2 := by
    apply BitVec.eq_of_getLsbD_eq; intro i hi
    simp only [BitVec.getLsbD_and, BitVec.getLsbD_shiftLeft, BitVec.getLsbD_ushiftRight]
    interval_cases i <;> simp
  rw [e, BitVec.toNat_shiftLeft, BitVec.toNat_ushiftRight, Nat.shiftRight_eq_div_pow, Nat.shiftLeft_eq]
  have : a.toNat < 2 ^ 32 := a.isLt
  omega

theorem align_half_toNat (a : Word) : (a &&& 0xFFFFFFFE#32).toNat = a.toNat / 2 * 2 := by
  have e : a &&& 0xFFFFFFFE#32 = (a >>> 1) <<< 1 := by
    apply BitVec.eq_of_getLsbD_eq; intro i hi
    simp only [BitVec.getLsbD_and, BitVec.getLsbD_shiftLeft, BitVec.getLsbD_ushiftRight]
    interval_cases i <;> simp
  rw [e, BitVec.toNat_shiftLeft, BitVec.toNat_ushiftRight, Nat.shiftRight_eq_div_pow, Nat.shiftLeft_eq]
  have : a.toNat < 2 ^ 32 := a.isLt
  omega

theorem isIo_word_byte (a : Word) (k : Nat) (hk : k < 4) :
    isIo ((a &&& 0xFFFFFFFC#32) + BitVec.ofNat 32 k) = isIo a := by
  rw [Bool.eq_iff_iff, isIo_iff, isIo_iff, BitVec.toNat_add, align_word_toNat, BitVec.toNat_ofNat]
  have : a.toNat < 2 ^ 32 := a.isLt
  omega

theorem isIo_half_byte (a : Word) (k : Nat) (hk : k < 2) :
    isIo ((a &&& 0xFFFFFFFE#32) + BitVec.ofNat 32 k) = isIo a := by
  rw [Bool.eq_iff_iff, isIo_iff, isIo_iff, BitVec.toNat_add, align_half_toNat, BitVec.toNat_ofNat]
  have : a.toNat < 2 ^ 32 := a.isLt
  omega

/-! Reading. -/

theorem ioReadByte_state (o : BitVec 10) (s : State) : ∃ e, (ioReadByte o s).2 = { s with ext := e } := by
  unfold ioReadByte externalRead
  split
  any_goals exact ⟨s.ext, rfl⟩
  split
  · exact ⟨_, rfl⟩
  · exact ⟨s.ext, rfl⟩

/-- A byte read changes nothing but the external components' own state. -/
theorem busRead_state (a : Word) (s : State) : ∃ e, (busRead a s).2 = { s with ext := e } := by
  unfold busRead
  split
  any_goals exact ⟨s.ext, rfl⟩
  exact ioReadByte_state _ _

/-- A byte read outside the I/O region changes nothing. -/
theorem busRead_noIo {a : Word} (h : isIo a = false) (s : State) : (busRead a s).2 = s := by
  unfold busRead
  split
  any_goals rfl
  rename_i o ho
  exact absurd ho (locate_not_io h o)

/-- A byte read outside the I/O region depends on memory, the parameters and the open-bus latch alone. -/
theorem readByte_congr {a : Word} (h : isIo a = false) {s t : State} (hm : t.mem = s.mem)
    (hp : t.params = s.params) (ho : t.openBus = s.openBus) : readByte a t = readByte a s := by
  unfold readByte busRead
  rw [hp]
  split
  · simp [cellGet, hm]
  · rfl
  · rename_i o hl
    exact absurd hl (locate_not_io h o)
  · simp [openBusLane, ho]

theorem with_ext_ext (s : State) (e e' : Nat) : { { s with ext := e } with ext := e' } = { s with ext := e' } := rfl

/-- A read changes nothing but the external components' own state. -/
theorem memRead_state (w : Width) (a : Word) (s : State) : ∃ e, (memRead w a s).2 = { s with ext := e } := by
  cases w <;> simp only [memRead]
  · exact busRead_state _ _
  · obtain ⟨e0, h0⟩ := busRead_state (alignTo .half a) s
    obtain ⟨e1, h1⟩ := busRead_state (alignTo .half a + 1) (busRead (alignTo .half a) s).2
    exact ⟨e1, by rw [h1, h0]⟩
  · obtain ⟨e0, h0⟩ := busRead_state (alignTo .word a) s
    obtain ⟨e1, h1⟩ := busRead_state (alignTo .word a + 1) (busRead (alignTo .word a) s).2
    obtain ⟨e2, h2⟩ := busRead_state (alignTo .word a + 2)
      (busRead (alignTo .word a + 1) (busRead (alignTo .word a) s).2).2
    obtain ⟨e3, h3⟩ := busRead_state (alignTo .word a + 3)
      (busRead (alignTo .word a + 2) (busRead (alignTo .word a + 1) (busRead (alignTo .word a) s).2).2).2
    exact ⟨e3, by rw [h3, h2, h1, h0]⟩

/-- A read outside the I/O region changes nothing, and composes the bytes little-endian. -/
theorem memRead_noIo (w : Width) {a : Word} (h : isIo a = false) (s : State) :
    memRead w a s =
      (match w with
       | .byte => (readByte a s).setWidth 32
       | .half =>
         (readByte ((a &&& 0xFFFFFFFE) + 1) s ++ readByte (a &&& 0xFFFFFFFE) s).setWidth 32
       | .word =>
         readByte ((a &&& 0xFFFFFFFC) + 3) s ++ readByte ((a &&& 0xFFFFFFFC) + 2) s
           ++ readByte ((a &&& 0xFFFFFFFC) + 1) s ++ readByte (a &&& 0xFFFFFFFC) s, s) := by
  cases w <;> simp only [memRead, alignTo, readByte]
  · rw [Prod.mk.injEq]; exact ⟨rfl, busRead_noIo h s⟩
  · have h0 : isIo (a &&& (0xFFFFFFFE : Word)) = false := by
      have := isIo_half_byte a 0 (by decide); simpa [h] using this
    have h1 : isIo ((a &&& (0xFFFFFFFE : Word)) + (1 : Word)) = false := by
      have := isIo_half_byte a 1 (by decide); simpa [h] using this
    rw [busRead_noIo h0, busRead_noIo h1]
  · have h0 : isIo (a &&& (0xFFFFFFFC : Word)) = false := by
      have := isIo_word_byte a 0 (by decide); simpa [h] using this
    have h1 : isIo ((a &&& (0xFFFFFFFC : Word)) + (1 : Word)) = false := by
      have := isIo_word_byte a 1 (by decide); simpa [h] using this
    have h2 : isIo ((a &&& (0xFFFFFFFC : Word)) + (2 : Word)) = false := by
      have := isIo_word_byte a 2 (by decide); simpa [h] using this
    have h3 : isIo ((a &&& (0xFFFFFFFC : Word)) + (3 : Word)) = false := by
      have := isIo_word_byte a 3 (by decide); simpa [h] using this
    rw [busRead_noIo h0, busRead_noIo h1, busRead_noIo h2, busRead_noIo h3]

end Sys2Proof.Laws
end

