-- ==== Sys2Proof/Laws/Unbounded.lean ====
section
/-! SUPPORT. Computations without a bound: `unbounded` gives the answer of every large enough bound
(`unbounded_limit`), so that `Run`, an event handler and the loop of `tick` obey the recursions of their rules
(`startDma_eq`, `runHandlerFrom_eq`, `fireEvents_eq`). -/

namespace Sys2Proof.Laws

open Sys2Proof.Machine Filter

theorem ranOut_iff {stop : Fault} {r : Result} : ranOut stop r = true ↔ r = .fault stop := by
  cases r <;> simp [ranOut]

variable {stop : Fault} {f : Nat → Result}

theorem firstAnswer_some {k : Nat} {r : Result} (h : firstAnswer stop f k = some r) :
    ∃ j, r = f j ∧ ranOut stop (f j) = false := by
  refine firstAnswer.partial_correctness stop f (fun _ r => ∃ j, r = f j ∧ ranOut stop (f j) = false) ?_ k r h
  intro go ih k r h
  split at h
  · exact ih _ _ h
  · rename_i hk
    cases h; exact ⟨k, rfl, by simpa using hk⟩

theorem firstAnswer_isSome {n : Nat} (hn : ranOut stop (f n) = false) {k : Nat} (hk : k ≤ n) :
    ∃ r, firstAnswer stop f k = some r := by
  induction hk using Nat.decreasingInduction with
  | self => rw [firstAnswer.eq_1, hn]; exact ⟨_, rfl⟩
  | of_succ k hk ih =>
    rw [firstAnswer.eq_1]
    split
    · exact ih
    · exact ⟨_, rfl⟩

/-- The answer without a bound is the answer of some bound, or the stop. -/
theorem unbounded_cases (stop : Fault) (f : Nat → Result) :
    (∃ k, unbounded stop f = f k ∧ ranOut stop (f k) = false) ∨
      unbounded stop f = .fault stop ∧ ranOut stop (f 64) = true ∧ firstAnswer stop f 65 = none := by
  unfold unbounded
  cases h : f 64 with
  | next s => exact .inl ⟨64, h.symm, by simp [h, ranOut]⟩
  | refused r => exact .inl ⟨64, h.symm, by simp [h, ranOut]⟩
  | fault g =>
    dsimp only
    split
    · rename_i hg
      cases ha : firstAnswer stop f 65 with
      | none => exact .inr ⟨rfl, by simp [ranOut, hg], rfl⟩
      | some r =>
        obtain ⟨j, rfl, hj⟩ := firstAnswer_some ha
        exact .inl ⟨j, rfl, hj⟩
    · rename_i hg
      exact .inl ⟨64, h.symm, by simp [h, ranOut, hg]⟩

/-- A next state without a bound is the next state some bound gives. -/
theorem unbounded_next {t : State} (h : unbounded stop f = .next t) : ∃ k, f k = .next t := by
  rcases unbounded_cases stop f with ⟨k, hk, _⟩ | ⟨hk, _⟩
  · exact ⟨k, hk ▸ h⟩
  · rw [hk] at h; cases h

/-- An answer, once given, stays under every larger bound. -/
def Settles (stop : Fault) (f : Nat → Result) : Prop :=
  ∀ k, f k = .fault stop ∨ f k = f (k + 1)

theorem Settles.stays (h : Settles stop f) {k : Nat} (hk : ranOut stop (f k) = false) {j : Nat} (hj : k ≤ j) :
    f j = f k := by
  induction hj with
  | refl => rfl
  | step _ ih =>
    rcases h _ with hf | hf
    · rw [← ih, hf, ranOut_iff.mpr rfl] at hk; cases hk
    · rw [← hf, ih]

/-- Every large enough bound gives the answer without a bound. -/
theorem unbounded_limit (h : Settles stop f) : ∀ᶠ k in atTop, f k = unbounded stop f := by
  rcases unbounded_cases stop f with ⟨k, hk, ha⟩ | ⟨hs, h64, hn⟩
  · exact eventually_atTop.mpr ⟨k, fun j hj => by rw [hk, h.stays ha hj]⟩
  · refine Eventually.of_forall fun k => ?_
    rw [hs, ← ranOut_iff]
    by_contra hk
    have hk : ranOut stop (f k) = false := by simpa using hk
    by_cases hle : k ≤ 64
    · rw [h.stays hk hle, hk] at h64; cases h64
    · obtain ⟨r, hr⟩ := firstAnswer_isSome hk (by omega : 65 ≤ k)
      rw [hn] at hr; cases hr

/-! What a transfer does depends on what an enable edge starts through finitely many starts only. -/

/-- A relation between a family of results and a result that sequencing keeps. -/
structure Sequenced {ι : Type} (Rel : (ι → Result) → Result → Prop) : Prop where
  refl : ∀ r, Rel (fun _ => r) r
  andThen : ∀ {q : ι → Result} {r : Result} {k : ι → State → Result} {k' : State → Result},
    Rel q r → (∀ u, Rel (fun i => k i u) (k' u)) → Rel (fun i => andThen (q i) (k i)) (andThen r k')

section

variable {ι : Type} {Rel : (ι → Result) → Result → Prop} (hR : Sequenced Rel)
  {q : ι → Fin 4 → State → Result} {run : Fin 4 → State → Result} (h : ∀ ch s, Rel (fun i => q i ch s) (run ch s))

include hR h

theorem writeCntHigh_sequenced (ch : Fin 4) (b : Byte) (s : State) :
    Rel (fun i => writeCntHigh (q i) ch b s) (writeCntHigh run ch b s) := by
  unfold writeCntHigh
  dsimp only
  split
  · split
    · exact h _ _
    · exact hR.refl _
  · exact hR.refl _

theorem ioWriteByte_sequenced (o : BitVec 10) (b : Byte) (s : State) :
    Rel (fun i => ioWriteByte (q i) o b s) (ioWriteByte run o b s) := by
  unfold ioWriteByte
  split
  any_goals exact hR.refl _
  split
  · exact hR.refl _
  · exact writeCntHigh_sequenced hR h _ _ _

theorem busWrite_sequenced (a : Word) (b : Byte) (s : State) :
    Rel (fun i => busWrite (q i) a b s) (busWrite run a b s) := by
  unfold busWrite
  split
  any_goals exact hR.refl _
  exact ioWriteByte_sequenced hR h _ _ _

theorem byteWrite_sequenced (a : Word) (b : Byte) (s : State) :
    Rel (fun i => byteWrite (q i) a b s) (byteWrite run a b s) := by
  have hb := busWrite_sequenced hR h
  unfold byteWrite
  split
  any_goals exact hR.andThen (hb _ _ _) fun _ => hb _ _ _
  any_goals exact hb _ _ _
  exact hR.refl _

theorem memWrite_sequenced (w : Width) (a v : Word) (s : State) :
    Rel (fun i => memWrite (q i) w a v s) (memWrite run w a v s) := by
  have hb := busWrite_sequenced hR h
  cases w
  · exact byteWrite_sequenced hR h _ _ _
  · exact hR.andThen (hb _ _ _) fun _ => hb _ _ _
  · exact hR.andThen (hb _ _ _) fun _ => hR.andThen (hb _ _ _) fun _ => hR.andThen (hb _ _ _) fun _ => hb _ _ _

theorem dmaUnits_sequenced (ch : Fin 4) (p : DmaPlan) (n : Nat) (s : State) :
    Rel (fun i => dmaUnits (q i) ch p n s) (dmaUnits run ch p n s) := by
  induction n generalizing s with
  | zero => exact hR.refl _
  | succ n ih =>
    exact hR.andThen (hR.andThen (memWrite_sequenced hR h _ _ _ _) fun _ => hR.refl _) ih

/-- What a transfer does, by what its nested starts do. -/
theorem runBody_sequenced (ch : Fin 4) (s : State) :
    Rel (fun i => runBody (q i) ch s) (runBody run ch s) :=
  hR.andThen (dmaUnits_sequenced hR h _ _ _ _) fun _ => hR.refl _

end

/-- One result is the stop, or both are equal. -/
theorem below_sequenced (stop : Fault) :
    Sequenced fun (q : Unit → Result) r => q () = .fault stop ∨ q () = r where
  refl _ := .inr rfl
  andThen {q r k k'} hq hk := by
    change andThen (q ()) (k ()) = _ ∨ andThen (q ()) (k ()) = _
    rcases hq with hq | hq <;> rw [hq]
    · exact .inl rfl
    · cases r with
      | next u => exact hk u
      | fault g => exact .inr rfl
      | refused g => exact .inr rfl

/-- Every large enough bound gives the result. -/
theorem eventually_sequenced : Sequenced fun (q : Nat → Result) r => ∀ᶠ k in atTop, q k = r where
  refl _ := Eventually.of_forall fun _ => rfl
  andThen {_ r _ _} hq hk := by
    cases r with
    | next u => filter_upwards [hq, hk u] with i hi hu; rw [hi]; exact hu
    | fault g => filter_upwards [hq] with i hi; rw [hi]; rfl
    | refused g => filter_upwards [hq] with i hi; rw [hi]; rfl

theorem handlerBody_sequenced {ι : Type} {Rel : (ι → Result) → Result → Prop} (hR : Sequenced Rel)
    {q : ι → Nat → State → Result} {rest : Nat → State → Result} (h : ∀ n s, Rel (fun i => q i n s) (rest n s))
    (e : Event) (done : Nat) (s : State) :
    Rel (fun i => handlerBody (q i) e done s) (handlerBody rest e done s) := by
  unfold handlerBody
  split
  · exact hR.refl _
  · exact hR.andThen (hR.refl _) (h _)

theorem fireBody_sequenced {ι : Type} {Rel : (ι → Result) → Result → Prop} (hR : Sequenced Rel)
    {q : ι → State → Result} {rest : State → Result} (h : ∀ s, Rel (fun i => q i s) (rest s)) (s : State) :
    Rel (fun i => fireBody (q i) s) (fireBody rest s) := by
  unfold fireBody
  split
  · exact hR.refl _
  · exact hR.andThen (hR.refl _) h

/-! The three recursions. -/

/-- A computation whose every large enough bound gives `r`, and one less than the bound `r'`, answers both. -/
theorem limit_unique {r r' : Result} (h : ∀ᶠ k in atTop, f k = r) (h' : ∀ᶠ k in atTop, f (k + 1) = r') : r = r' := by
  obtain ⟨k, hk, hk'⟩ := (((tendsto_add_atTop_nat 1).eventually h).and h').exists
  exact hk.symm.trans hk'

theorem dmaRun_settles (ch : Fin 4) (s : State) : Settles .dmaEndless fun k => dmaRun k ch s := by
  intro k
  induction k generalizing ch s with
  | zero => exact .inl rfl
  | succ k ih => exact runBody_sequenced (below_sequenced _) (q := fun _ => dmaRun k) ih ch s

theorem dmaRun_limit (ch : Fin 4) (s : State) : ∀ᶠ k in atTop, dmaRun k ch s = startDma ch s :=
  unbounded_limit (dmaRun_settles ch s)

/-- `Run(ch)` is the procedure of R453 in which an enable edge starts `Run` itself, to any depth (R452, R465). -/
theorem startDma_eq (ch : Fin 4) (s : State) : startDma ch s = runBody startDma ch s :=
  limit_unique (dmaRun_limit ch s) (runBody_sequenced eventually_sequenced dmaRun_limit ch s)

theorem handlerCalls_settles (e : Event) (done : Nat) (s : State) :
    Settles .tickEndless fun k => handlerCalls e k done s := by
  intro k
  induction k generalizing done s with
  | zero => exact .inl rfl
  | succ k ih => exact handlerBody_sequenced (below_sequenced _) (q := fun _ => handlerCalls e k) ih e done s

theorem handlerCalls_limit (e : Event) (done : Nat) (s : State) :
    ∀ᶠ k in atTop, handlerCalls e k done s = runHandlerFrom e done s :=
  unbounded_limit (handlerCalls_settles e done s)

/-- A handler makes its next call and goes on, until it makes no more (R440). -/
theorem runHandlerFrom_eq (e : Event) (done : Nat) (s : State) :
    runHandlerFrom e done s = handlerBody (runHandlerFrom e) e done s :=
  limit_unique (handlerCalls_limit e done s)
    (handlerBody_sequenced eventually_sequenced (handlerCalls_limit e) e done s)

theorem fireFewer_settles (s : State) : Settles .tickEndless fun k => fireFewer k s := by
  intro k
  induction k generalizing s with
  | zero => exact .inl rfl
  | succ k ih => exact fireBody_sequenced (below_sequenced _) (q := fun _ => fireFewer k) ih s

theorem fireFewer_limit (s : State) : ∀ᶠ k in atTop, fireFewer k s = fireEvents s :=
  unbounded_limit (fireFewer_settles s)

/-- The loop of `tick` (R441): the first due event leaves the queue, its handler runs, and the loop goes on. -/
theorem fireEvents_eq (s : State) : fireEvents s = fireBody fireEvents s :=
  limit_unique (fireFewer_limit s) (fireBody_sequenced eventually_sequenced fireFewer_limit s)

/-- With no event due, the loop of `tick` ends at once. -/
theorem fireEvents_none {s : State} (h : nextDue s.now s.queue = none) : fireEvents s = .next s := by
  rw [fireEvents_eq, fireBody, h]

end Sys2Proof.Laws
end

