-- ==== Sys2Proof/Laws/Write.lean ====
section
/-! SUPPORT. What a bus write, a DMA transfer, an event handler and a tick can do (`BusFrame`). -/

namespace Sys2Proof.Laws

open Sys2Proof.Machine

/-- A key of the BIOS or ROM image. -/
def romKey (k : Nat) : Prop :=
  k < 0x4000 ∨ (0x08000000 ≤ k ∧ k < 0x0A000000)

/-- What the bus, the DMA engine and the event handlers leave alone: registers, R15 and the pipeline, the status
registers, the open-bus latch, the free-value count, the parameters, the BIOS and ROM images; and they keep
`DataInv`. -/
structure BusFrame (s t : State) : Prop where
  core : t = { s with
    mem := t.mem, ie := t.ie, iff := t.iff, ime := t.ime, halted := t.halted, dma := t.dma, queue := t.queue
    seq := t.seq, pendingCycles := t.pendingCycles, ext := t.ext }
  rom : ∀ k, romKey k → memGet t.mem k = memGet s.mem k
  data : DataInv s → DataInv t

theorem BusFrame.refl (s : State) : BusFrame s s :=
  ⟨rfl, fun _ _ => rfl, id⟩

theorem BusFrame.trans {s t u : State} (h : BusFrame s t) (h' : BusFrame t u) : BusFrame s u := by
  refine ⟨?_, fun k hk => (h'.rom k hk).trans (h.rom k hk), fun d => h'.data (h.data d)⟩
  rw [h'.core, h.core]

/-- An operation with that frame. -/
def Framed (f : State → Result) : Prop :=
  ∀ s t, f s = .next t → BusFrame s t

theorem Framed.andThen {s t : State} {r : Result} {k : State → Result} (h : andThen r k = .next t)
    (hr : ∀ u, r = .next u → BusFrame s u) (hk : Framed k) : BusFrame s t := by
  obtain ⟨u, hu, hk'⟩ := andThen_eq_next.mp h
  exact (hr u hu).trans (hk u t hk')

theorem frame_ext (s : State) (e : Nat) : BusFrame s { s with ext := e } :=
  ⟨rfl, fun _ _ => rfl, fun d => ⟨d.mem, d.sad, d.dad, d.cntL, d.cntH, d.below, d.distinct⟩⟩

theorem memRead_frame (w : Width) (a : Word) (s : State) : BusFrame s (memRead w a s).2 := by
  obtain ⟨e, he⟩ := memRead_state w a s
  rw [he]
  exact frame_ext s e

/-! Memory. -/

theorem regionKey_not_rom {p : Params} {r : Region} {o : Nat} (hr : readOnly r = false)
    (hv : validOffset p r o) : ¬ romKey (regionBase r + o) := by
  cases r <;> simp only [readOnly, validOffset, regionBase, romKey] at * <;> first | omega | cases hr

theorem putCell_frame {p : Params} {r : Region} {o : Nat} (b : Byte) (s : State) (hv : validOffset p r o) :
    BusFrame s (putCell r o b s) := by
  refine ⟨?_, ?_, ?_⟩
  · unfold putCell; split <;> rfl
  · intro k hk
    unfold putCell
    split
    · rfl
    · rename_i hr
      rw [loadCell_mem]
      apply memGet_memSet_other
      rintro rfl
      exact regionKey_not_rom (by simpa using hr) hv hk
  · intro d
    have hw := putCell_wf r o b d.mem
    unfold putCell at hw ⊢
    split
    · exact d
    · rename_i hr
      rw [if_neg hr] at hw
      exact ⟨hw, d.sad, d.dad, d.cntL, d.cntH, d.below, d.distinct⟩

/-! Interrupt and DMA registers. -/

theorem frame_of_eq {s t : State} (h : t = { s with
    ie := t.ie, iff := t.iff, ime := t.ime, halted := t.halted, ext := t.ext, pendingCycles := t.pendingCycles }) :
    BusFrame s t := by
  refine ⟨by rw [h], fun k _ => by rw [h], fun d => ?_⟩
  rw [h]
  exact ⟨d.mem, d.sad, d.dad, d.cntL, d.cntH, d.below, d.distinct⟩

theorem raiseInterrupt_frame (k : Fin 14) (s : State) : BusFrame s (raiseInterrupt k s) :=
  frame_of_eq rfl

/-- The implemented bits of a channel. -/
def channelWf (ch : Fin 4) (d : DmaChannel) : Prop :=
  d.sad &&& sadMask ch = d.sad ∧ d.dad &&& dadMask ch = d.dad ∧ d.cntL &&& cntLMask ch = d.cntL ∧
    d.cntH &&& cntHMask ch = d.cntH

theorem channelWf_of_data {s : State} (d : DataInv s) (ch : Fin 4) : channelWf ch s.dma[ch] :=
  ⟨d.sad ch, d.dad ch, d.cntL ch, d.cntH ch⟩

theorem setDma_get (ch ch' : Fin 4) (d : DmaChannel) (s : State) :
    (setDma ch d s).dma[ch'] = if ch' = ch then d else s.dma[ch'] := by
  simp only [setDma_dma, Fin.getElem_fin, Vector.getElem_set, Fin.ext_iff, eq_comm]

theorem setDma_frame (ch : Fin 4) (d : DmaChannel) (s : State) (h : DataInv s → channelWf ch d) :
    BusFrame s (setDma ch d s) := by
  refine ⟨rfl, fun _ _ => rfl, fun i => ?_⟩
  have hd := h i
  refine ⟨i.mem, fun c => ?_, fun c => ?_, fun c => ?_, fun c => ?_, i.below, i.distinct⟩ <;>
    rw [setDma_get] <;> split
  · rename_i hc; subst hc; exact hd.1
  · exact i.sad c
  · rename_i hc; subst hc; exact hd.2.1
  · exact i.dad c
  · rename_i hc; subst hc; exact hd.2.2.1
  · exact i.cntL c
  · rename_i hc; subst hc; exact hd.2.2.2
  · exact i.cntH c

theorem latchDma_frame (ch : Fin 4) (s : State) : BusFrame s (latchDma ch s) :=
  setDma_frame ch _ s fun d => (channelWf_of_data d ch : channelWf ch s.dma[ch])

theorem schedule_frame (delay kind : Nat) (s : State) : BusFrame s (schedule delay kind s) := by
  refine ⟨rfl, fun _ _ => rfl, fun d => ⟨d.mem, d.sad, d.dad, d.cntL, d.cntH, ?_, ?_⟩⟩
  · intro e he
    simp only [schedule_queue, List.mem_append, List.mem_singleton] at he
    simp only [schedule_seq]
    rcases he with he | rfl
    · exact Nat.lt_succ_of_lt (d.below e he)
    · exact Nat.lt_succ_self _
  · simp only [schedule_queue, List.map_append, List.map_cons, List.map_nil]
    rw [List.nodup_append]
    refine ⟨d.distinct, by simp, ?_⟩
    intro a ha b hb
    simp only [List.mem_map] at ha
    obtain ⟨e, he, rfl⟩ := ha
    simp only [List.mem_singleton] at hb
    subst hb
    exact Nat.ne_of_lt (d.below e he)

theorem foldl_frame {α : Type} (f : State → α → State) (hf : ∀ s x, BusFrame s (f s x)) (l : List α) (s : State) :
    BusFrame s (l.foldl f s) := by
  induction l generalizing s with
  | nil => exact .refl s
  | cons x rest ih => exact (hf s x).trans (ih _)

theorem externalWrite_frame (o : BitVec 10) (b : Byte) (s : State) : BusFrame s (externalWrite o b s) := by
  unfold externalWrite
  split
  · exact ((frame_ext s _).trans (foldl_frame _ (fun s k => raiseInterrupt_frame k s) _ _)).trans
      (foldl_frame _ (fun s (d : Nat × Nat) => schedule_frame d.1 d.2 s) _ _)
  · exact .refl s

/-! Writing. -/

variable {run : Fin 4 → State → Result}

theorem writeCntHigh_frame (hrun : ∀ ch, Framed (run ch)) (ch : Fin 4) (b : Byte) :
    Framed (writeCntHigh run ch b) := by
  intro s t h
  unfold writeCntHigh at h
  dsimp only at h
  have h1 : BusFrame s (setDma ch { s.dma[ch] with cntH := withByte s.dma[ch].cntH 1 b &&& cntHMask ch } s) := by
    apply setDma_frame
    intro d
    have hw := channelWf_of_data d ch
    exact ⟨hw.1, hw.2.1, hw.2.2.1, by simp [BitVec.and_assoc]⟩
  split at h
  · split at h
    · exact (h1.trans (latchDma_frame ch _)).trans (hrun ch _ _ h)
    · cases h; exact h1.trans (latchDma_frame ch _)
  · cases h; exact h1

theorem ioWriteByte_frame (hrun : ∀ ch, Framed (run ch)) (o : BitVec 10) (b : Byte) :
    Framed (ioWriteByte run o b) := by
  intro s t h
  unfold ioWriteByte at h
  split at h
  · cases h
    exact setDma_frame _ _ _ fun d =>
      have hw := channelWf_of_data d _
      ⟨by simp [BitVec.and_assoc], hw.2.1, hw.2.2.1, hw.2.2.2⟩
  · cases h
    exact setDma_frame _ _ _ fun d =>
      have hw := channelWf_of_data d _
      ⟨hw.1, by simp [BitVec.and_assoc], hw.2.2.1, hw.2.2.2⟩
  · cases h
    exact setDma_frame _ _ _ fun d =>
      have hw := channelWf_of_data d _
      ⟨hw.1, hw.2.1, by simp [BitVec.and_assoc], hw.2.2.2⟩
  · split at h
    · cases h
      exact setDma_frame _ _ _ fun d =>
        have hw := channelWf_of_data d _
        ⟨hw.1, hw.2.1, hw.2.2.1, by simp [BitVec.and_assoc]⟩
    · exact writeCntHigh_frame hrun _ _ _ _ h
  · cases h; exact frame_of_eq rfl
  · cases h; exact frame_of_eq rfl
  · split at h <;> cases h <;> exact frame_of_eq rfl
  · cases h; exact frame_of_eq rfl
  · cases h; exact externalWrite_frame _ _ _

theorem busWrite_frame (hrun : ∀ ch, Framed (run ch)) (a : Word) (b : Byte) : Framed (busWrite run a b) := by
  intro s t h
  unfold busWrite at h
  split at h
  · rename_i r o hl
    cases h; exact putCell_frame b s (locate_valid hl)
  · cases h; exact .refl s
  · exact ioWriteByte_frame hrun _ _ _ _ h
  · cases h; exact .refl s

theorem byteWrite_frame (hrun : ∀ ch, Framed (run ch)) (a : Word) (b : Byte) : Framed (byteWrite run a b) := by
  intro s t h
  unfold byteWrite at h
  split at h
  any_goals exact busWrite_frame hrun _ _ _ _ h
  any_goals exact Framed.andThen h (fun u hu => busWrite_frame hrun _ _ _ _ hu) (busWrite_frame hrun _ _)
  cases h; exact .refl s

/-- Everything a bus write can do. -/
theorem memWrite_frame (hrun : ∀ ch, Framed (run ch)) (w : Width) (a v : Word) : Framed (memWrite run w a v) := by
  intro s t h
  unfold memWrite at h
  cases w
  · exact byteWrite_frame hrun _ _ _ _ h
  · exact Framed.andThen h (fun u hu => busWrite_frame hrun _ _ _ _ hu) (busWrite_frame hrun _ _)
  · refine Framed.andThen h (fun u hu => busWrite_frame hrun _ _ _ _ hu) fun s1 t1 h1 => ?_
    refine Framed.andThen h1 (fun u hu => busWrite_frame hrun _ _ _ _ hu) fun s2 t2 h2 => ?_
    exact Framed.andThen h2 (fun u hu => busWrite_frame hrun _ _ _ _ hu) (busWrite_frame hrun _ _)

/-! The DMA engine. -/

theorem dmaUnit_frame (hrun : ∀ ch, Framed (run ch)) (ch : Fin 4) (p : DmaPlan) : Framed (dmaUnit run ch p) := by
  intro s t h
  unfold dmaUnit at h
  refine Framed.andThen h
    (fun u hu => (memRead_frame _ _ s).trans (memWrite_frame hrun _ _ _ _ _ hu)) fun s1 t1 h1 => ?_
  cases h1
  exact setDma_frame _ _ _ fun d => channelWf_of_data d ch

theorem dmaUnits_frame (hrun : ∀ ch, Framed (run ch)) (ch : Fin 4) (p : DmaPlan) (n : Nat) :
    Framed (dmaUnits run ch p n) := by
  induction n with
  | zero => intro s t h; cases h; exact .refl s
  | succ n ih => intro s t h; exact Framed.andThen h (fun u hu => dmaUnit_frame hrun ch p _ _ hu) ih

theorem finishedChannel_wf {ch : Fin 4} (c : BitVec 16) (p : DmaPlan) {d : DmaChannel} (h : channelWf ch d) :
    channelWf ch (finishedChannel c p d) := by
  refine ⟨h.1, h.2.1, h.2.2.1, ?_⟩
  simp only [finishedChannel]
  split
  · exact h.2.2.2
  · rw [BitVec.and_assoc, BitVec.and_comm (0x7FFF : BitVec 16), ← BitVec.and_assoc, h.2.2.2]

theorem raiseDmaIrq_frame (ch : Fin 4) (c : BitVec 16) (s : State) : BusFrame s (raiseDmaIrq ch c s) := by
  unfold raiseDmaIrq
  split
  · exact raiseInterrupt_frame _ _
  · exact .refl _

theorem dmaFinish_frame (ch : Fin 4) (c : BitVec 16) (p : DmaPlan) (s : State) : BusFrame s (dmaFinish ch c p s) :=
  ((setDma_frame ch _ s fun d => finishedChannel_wf c p (channelWf_of_data d ch)).trans
    (raiseDmaIrq_frame ch c _)).trans (frame_of_eq rfl)

theorem runBody_frame (hrun : ∀ ch, Framed (run ch)) (ch : Fin 4) : Framed (runBody run ch) := by
  intro s t h
  unfold runBody at h
  refine Framed.andThen h (fun u hu => dmaUnits_frame hrun ch _ _ _ _ hu) fun s1 t1 h1 => ?_
  cases h1
  exact dmaFinish_frame _ _ _ _

/-- Everything a DMA transfer can do. -/
theorem dmaRun_frame (k : Nat) (ch : Fin 4) : Framed (dmaRun k ch) := by
  induction k generalizing ch with
  | zero => intro s t h; cases h
  | succ k ih => exact runBody_frame ih ch

theorem startDma_frame (ch : Fin 4) : Framed (startDma ch) := by
  intro s t h
  obtain ⟨k, hk⟩ := unbounded_next h
  exact dmaRun_frame k ch _ _ hk

/-- Everything a store can do. -/
theorem store_frame (w : Width) (a v : Word) : Framed (store w a v) :=
  fun _ _ h => memWrite_frame startDma_frame w a v _ _ h

theorem triggerChannel_frame (e : DmaEvent) (ch : Fin 4) : Framed (triggerChannel e ch) := by
  intro s t h
  unfold triggerChannel at h
  split at h
  · exact startDma_frame ch _ _ h
  · cases h; exact .refl s

theorem triggerDma_frame (e : DmaEvent) : Framed (triggerDma e) := by
  intro s t h
  refine Framed.andThen h (fun u hu => triggerChannel_frame e _ _ _ hu) fun s1 t1 h1 => ?_
  refine Framed.andThen h1 (fun u hu => triggerChannel_frame e _ _ _ hu) fun s2 t2 h2 => ?_
  exact Framed.andThen h2 (fun u hu => triggerChannel_frame e _ _ _ hu) (triggerChannel_frame e _)

/-! The scheduler. -/

theorem hostCall_frame (c : HostCall) : Framed (hostCall c) := by
  intro s t h
  cases c with
  | schedule d k => cases h; exact schedule_frame d k s
  | raiseInterrupt k => cases h; exact raiseInterrupt_frame k s
  | triggerDma e => exact triggerDma_frame e s t h
  | writeIo o b => exact ioWriteByte_frame startDma_frame o b s t h

theorem handlerCalls_frame (e : Event) (k done : Nat) : Framed (handlerCalls e k done) := by
  induction k generalizing done with
  | zero => intro s t h; cases h
  | succ k ih =>
    intro s t h
    change handlerBody (handlerCalls e k) e done s = .next t at h
    unfold handlerBody at h
    split at h
    · cases h; exact frame_ext s _
    · exact Framed.andThen h (fun u hu => (frame_ext s _).trans (hostCall_frame _ _ _ hu)) (ih _)

/-- Everything an event handler can do. -/
theorem runHandler_frame (e : Event) : Framed (runHandler e) := by
  intro s t h
  obtain ⟨k, hk⟩ := unbounded_next (show unbounded _ (fun k => handlerCalls e k 0 s) = .next t from h)
  exact handlerCalls_frame e k 0 _ _ hk

theorem erase_frame (e : Event) (s : State) : BusFrame s { s with queue := s.queue.erase e } :=
  ⟨rfl, fun _ _ => rfl, fun d => ⟨d.mem, d.sad, d.dad, d.cntL, d.cntH,
    fun x hx => d.below x (List.mem_of_mem_erase hx),
    d.distinct.sublist (List.Sublist.map _ (List.erase_sublist))⟩⟩

theorem fireFewer_frame (k : Nat) : Framed (fireFewer k) := by
  induction k with
  | zero => intro s t h; cases h
  | succ k ih =>
    intro s t h
    change fireBody (fireFewer k) s = .next t at h
    unfold fireBody at h
    split at h
    · cases h; exact .refl s
    · exact Framed.andThen h (fun u hu => (erase_frame _ s).trans (runHandler_frame _ _ _ hu)) ih

/-- Everything the firing of events can do. -/
theorem fireEvents_frame : Framed fireEvents := by
  intro s t h
  obtain ⟨k, hk⟩ := unbounded_next h
  exact fireFewer_frame k _ _ hk

/-- Everything a tick can do: time advances, and events fire. -/
theorem tick_frame {n : Nat} {s t : State} (h : tick n s = .next t) : BusFrame { s with now := s.now + n } t :=
  fireEvents_frame _ _ h

/-- Everything the end of a step can do. -/
theorem endStep_frame {s t : State} (h : endStep s = .next t) :
    BusFrame { s with pendingCycles := 0, now := s.now + (1 + s.pendingCycles) } t :=
  tick_frame h

end Sys2Proof.Laws
end

