-- ==== Sys2Proof/Laws/Store.lean ====
section
/-! SUPPORT. Exactly what a store outside the I/O region does: it completes, changes memory alone, and memory is as
`Wrote` says (`store_spec`). -/

namespace Sys2Proof.Laws

open Sys2Proof.Machine

/-- A bus write of one byte outside the I/O region. -/
def poke (x : Word × Byte) (s : State) : State :=
  match locate s.params x.1 with
  | .cell r o => putCell r o x.2 s
  | .zero | .io _ | .unmapped => s

theorem busWrite_noIo (run : Fin 4 → State → Result) {a : Word} (h : isIo a = false) (b : Byte) (s : State) :
    busWrite run a b s = .next (poke (a, b) s) := by
  unfold busWrite poke
  cases hl : locate s.params a with
  | cell r o => rfl
  | zero => rfl
  | io o => exact absurd hl (locate_not_io h o)
  | unmapped => rfl

theorem poke_mem (x : Word × Byte) (s : State) : poke x s = { s with mem := (poke x s).mem } := by
  unfold poke
  split
  any_goals rfl
  unfold putCell
  split <;> rfl

theorem poke_wf {x : Word × Byte} {s : State} (h : Memory.wf s.mem = true) : Memory.wf (poke x s).mem = true := by
  unfold poke
  split
  any_goals exact h
  exact putCell_wf _ _ _ h

theorem poke_params (x : Word × Byte) (s : State) : (poke x s).params = s.params := by rw [poke_mem]

/-- What an address reads as after a byte is written. -/
theorem readByte_poke {a : Word} (ha : isIo a = false) (x : Word × Byte) {s : State} (hw : Memory.wf s.mem = true) :
    readByte a (poke x s) =
      match locate s.params a with
      | .cell r o => if readOnly r = false ∧ locate s.params x.1 = .cell r o then x.2 else readByte a s
      | .zero | .io _ | .unmapped => readByte a s := by
  have hp := poke_params x s
  have ho : (poke x s).openBus = s.openBus := by rw [poke_mem]
  cases hl : locate s.params a with
  | cell r o =>
    have hva := locate_valid hl
    have e : ∀ t : State, t.params = s.params → readByte a t = memGet t.mem (regionBase r + o) := by
      intro t ht
      simp only [readByte, busRead, ht, hl, cellGet]
    rw [e _ hp, e s rfl]
    unfold poke
    cases hx : locate s.params x.1 with
    | cell r' o' =>
      have hvx := locate_valid hx
      simp only [Target.cell.injEq]
      unfold putCell
      split
      · rename_i hro
        rw [if_neg]
        rintro ⟨hr, rfl, rfl⟩
        rw [hr] at hro; cases hro
      · rename_i hro
        rw [loadCell_mem, memGet_memSet _ _ _ hw]
        split
        · rename_i hk
          obtain ⟨rfl, rfl⟩ := key_inj hva hvx hk
          rw [if_pos ⟨by simpa using hro, rfl, rfl⟩]
        · rename_i hk
          rw [if_neg]
          rintro ⟨_, rfl, rfl⟩
          exact hk rfl
    | zero => simp
    | io i => simp
    | unmapped => simp
  | zero => simp only [readByte, busRead, hp, hl]
  | io i => exact absurd hl (locate_not_io ha i)
  | unmapped => simp only [readByte, busRead, hp, hl, openBusLane, ho]

/-- Bytes written one after another. -/
def pokes (l : List (Word × Byte)) (s : State) : State :=
  l.foldl (fun t x => poke x t) s

theorem pokes_snoc (l : List (Word × Byte)) (x : Word × Byte) (s : State) :
    pokes (l ++ [x]) s = poke x (pokes l s) := by
  simp [pokes]

theorem only_mem_trans {s t u : State} (h : t = { s with mem := t.mem }) (h' : u = { t with mem := u.mem }) :
    u = { s with mem := u.mem } := by
  rw [h', h]

theorem pokes_mem (l : List (Word × Byte)) (s : State) : pokes l s = { s with mem := (pokes l s).mem } := by
  induction l using List.reverseRecOn with
  | nil => rfl
  | append_singleton l x ih =>
    rw [pokes_snoc]
    exact only_mem_trans ih (poke_mem _ _)

theorem pokes_wf {l : List (Word × Byte)} {s : State} (h : Memory.wf s.mem = true) :
    Memory.wf (pokes l s).mem = true := by
  induction l using List.reverseRecOn with
  | nil => exact h
  | append_singleton l x ih => rw [pokes_snoc]; exact poke_wf ih

theorem lastWritten_snoc (p : Params) (l : List (Word × Byte)) (x : Word × Byte) (a : Word) :
    lastWritten p (l ++ [x]) a =
      match locate p a with
      | .cell r o => if readOnly r = false ∧ locate p x.1 = .cell r o then some x.2 else lastWritten p l a
      | .zero | .io _ | .unmapped => none := by
  unfold lastWritten
  cases locate p a with
  | cell r o =>
    simp only [List.reverse_append, List.reverse_cons, List.reverse_nil, List.nil_append, List.singleton_append,
      List.find?_cons]
    cases hr : readOnly r <;> by_cases hx : locate p x.1 = .cell r o <;>
      simp [hx, beq_eq_false_iff_ne.mpr]
  | zero => rfl
  | io i => rfl
  | unmapped => rfl

theorem lastWritten_none {p : Params} {l : List (Word × Byte)} {a : Word} (h : ∀ r o, locate p a ≠ .cell r o) :
    lastWritten p l a = none := by
  unfold lastWritten
  split
  · rename_i r o hl
    exact absurd hl (h r o)
  any_goals rfl

/-- Bytes written one after another leave memory as `Wrote` says. -/
theorem pokes_wrote (l : List (Word × Byte)) {s : State} (hw : Memory.wf s.mem = true) : Wrote l s (pokes l s) := by
  intro a ha
  induction l using List.reverseRecOn with
  | nil =>
    unfold lastWritten
    simp only [List.reverse_nil, List.find?_nil, Option.map_none]
    split <;> (try split) <;> rfl
  | append_singleton l x ih =>
    have hp : (pokes l s).params = s.params := by rw [pokes_mem]
    rw [pokes_snoc, readByte_poke ha x (pokes_wf hw), lastWritten_snoc, hp]
    cases hl : locate s.params a with
    | cell r o =>
      dsimp only
      split
      · rfl
      · exact ih
    | zero => dsimp only; rw [ih, lastWritten_none (by simp [hl])]
    | io i => dsimp only; rw [ih, lastWritten_none (by simp [hl])]
    | unmapped => dsimp only; rw [ih, lastWritten_none (by simp [hl])]

theorem isIo_or_one (a : Word) : isIo (a ||| 1) = isIo a := by
  unfold isIo
  congr 1
  apply BitVec.eq_of_getLsbD_eq; intro i hi
  simp only [BitVec.getLsbD_extractLsb', BitVec.getLsbD_or]
  have : (1#32).getLsbD (24 + i) = false := by
    interval_cases i <;> decide
  simp [this]

/-- A store outside the I/O region writes its bytes. -/
theorem store_pokes (w : Width) {a : Word} (v : Word) {s : State} (h : isIo a = false) :
    store w a v s = .next (pokes (bytesOfStore s.params w a v) s) := by
  unfold store memWrite bytesOfStore
  have ha := isIo_align w a
  rw [h] at ha
  cases w
  · have h0 : isIo (a &&& 0xFFFFFFFE) = false := by have := isIo_align .half a; simpa [alignTo, h] using this
    have h1 : isIo (a ||| 1) = false := by rw [isIo_or_one, h]
    simp only [alignTo, byteWrite, busWrite_noIo _ h, busWrite_noIo _ h0, busWrite_noIo _ h1, andThen_next]
    cases locate s.params a with
    | cell r o => cases r <;> rfl
    | zero => rfl
    | io o => rfl
    | unmapped => rfl
  · simp only [alignTo] at ha ⊢
    have h1 : isIo ((a &&& (0xFFFFFFFE : Word)) + (1 : Word)) = false := by
      have := isIo_half_byte a 1 (by decide); simpa [h] using this
    rw [busWrite_noIo _ ha, andThen_next, busWrite_noIo _ h1]
    rfl
  · simp only [alignTo] at ha ⊢
    have h1 : isIo ((a &&& (0xFFFFFFFC : Word)) + (1 : Word)) = false := by
      have := isIo_word_byte a 1 (by decide); simpa [h] using this
    have h2 : isIo ((a &&& (0xFFFFFFFC : Word)) + (2 : Word)) = false := by
      have := isIo_word_byte a 2 (by decide); simpa [h] using this
    have h3 : isIo ((a &&& (0xFFFFFFFC : Word)) + (3 : Word)) = false := by
      have := isIo_word_byte a 3 (by decide); simpa [h] using this
    rw [busWrite_noIo _ ha, andThen_next, busWrite_noIo _ h1, andThen_next, busWrite_noIo _ h2, andThen_next,
      busWrite_noIo _ h3]
    rfl

/-- A store at any address keeps the registers, CPSR and R15. -/
theorem store_keeps {w : Width} {a v : Word} {s u : State} (h : store w a v s = .next u) :
    u.regs = s.regs ∧ u.cpsr = s.cpsr ∧ u.r15 = s.r15 := by
  have hc := (store_frame w a v s u h).core
  exact ⟨by rw [hc], by rw [hc], by rw [hc]⟩

/-- Everything a store outside the I/O region does. -/
theorem store_spec (w : Width) {a : Word} (v : Word) {s : State} (h : isIo a = false) :
    ∃ t, store w a v s = .next t ∧ t = { s with mem := t.mem } ∧
      (Memory.wf s.mem = true → Memory.wf t.mem = true ∧ Wrote (bytesOfStore s.params w a v) s t) :=
  ⟨_, store_pokes w v h, pokes_mem _ _, fun hw => ⟨pokes_wf hw, pokes_wrote _ hw⟩⟩

end Sys2Proof.Laws
end

