-- ==== Sys2Proof/Laws/Transfer.lean ====
section
/-! SUPPORT. Everything a single transfer can do: reads, loads and stores with their writeback. -/

namespace Sys2Proof.Laws

open Sys2Proof.Machine

/-- A read changes nothing but the external components' state. -/
def Reads (read : Word → State → Word × State) : Prop :=
  ∀ a s, ∃ e, (read a s).2 = { s with ext := e }

theorem reads_memRead (w : Width) : Reads (memRead w) := fun a s => memRead_state w a s

theorem reads_memReadRot : Reads memReadRot := fun a s => memRead_state .word a s

theorem reads_memReadHalfRot : Reads memReadHalfRot := fun a s => memRead_state .half a s

theorem reads_memReadByteSigned : Reads memReadByteSigned := fun a s => memRead_state .byte a s

theorem reads_memReadHalfSigned : Reads memReadHalfSigned := fun a s => by
  unfold memReadHalfSigned
  split
  · exact reads_memReadByteSigned a s
  · exact memRead_state .half a s

/-- A read outside the I/O region depends on memory, the parameters and the open-bus latch alone. -/
theorem memRead_congr (w : Width) {a : Word} (h : isIo a = false) {s t : State} (hm : t.mem = s.mem)
    (hp : t.params = s.params) (ho : t.openBus = s.openBus) : (memRead w a t).1 = (memRead w a s).1 := by
  have e : ∀ b, isIo b = false → readByte b t = readByte b s := fun b hb => readByte_congr hb hm hp ho
  rw [memRead_noIo w h t, memRead_noIo w h s]
  cases w
  · simp only [e a h]
  · have h0 := (isIo_half_byte a 0 (by decide)).trans h
    have h1 := (isIo_half_byte a 1 (by decide)).trans h
    rw [BitVec.add_zero] at h0
    have E0 : readByte (a &&& 0xFFFFFFFE) t = readByte (a &&& 0xFFFFFFFE) s := e _ h0
    have E1 : readByte ((a &&& 0xFFFFFFFE) + 1) t = readByte ((a &&& 0xFFFFFFFE) + 1) s := e _ h1
    simp only [E0, E1]
  · have h0 := (isIo_word_byte a 0 (by decide)).trans h
    have h1 := (isIo_word_byte a 1 (by decide)).trans h
    have h2 := (isIo_word_byte a 2 (by decide)).trans h
    have h3 := (isIo_word_byte a 3 (by decide)).trans h
    rw [BitVec.add_zero] at h0
    have E0 : readByte (a &&& 0xFFFFFFFC) t = readByte (a &&& 0xFFFFFFFC) s := e _ h0
    have E1 : readByte ((a &&& 0xFFFFFFFC) + 1) t = readByte ((a &&& 0xFFFFFFFC) + 1) s := e _ h1
    have E2 : readByte ((a &&& 0xFFFFFFFC) + 2) t = readByte ((a &&& 0xFFFFFFFC) + 2) s := e _ h2
    have E3 : readByte ((a &&& 0xFFFFFFFC) + 3) t = readByte ((a &&& 0xFFFFFFFC) + 3) s := e _ h3
    simp only [E0, E1, E2, E3]

/-! Writeback. -/

theorem writeBack_keeps (tr : Transfer) (rn : RegNum) (s : State) (rs : List RegNum) (h : tr.wb = true → rn ∈ rs) :
    KeepsRegsBut rs s (writeBack tr rn s) := by
  unfold writeBack
  split
  · rename_i hw; exact keeps_setReg (h hw) _ _
  · exact fun _ _ _ _ => rfl

theorem writeBack_cpsr (tr : Transfer) (rn : RegNum) (s : State) : (writeBack tr rn s).cpsr = s.cpsr := by
  unfold writeBack
  split
  · exact setReg_mode _ _ _
  · rfl

theorem writeBack_only {tr : Transfer} {rn : RegNum} (h : tr.wb = true → rn ≠ 15) (s : State) :
    writeBack tr rn s = { s with regs := (writeBack tr rn s).regs } := by
  unfold writeBack
  split
  · rename_i hw; rw [setReg_eq (h hw)]; rfl
  · rfl

theorem no_refusal {wb : Bool} {rn : RegNum} (h : wb = true → rn ≠ 15) : (wb && rn == 15) = false := by
  cases wb
  · rfl
  · simpa using h rfl

/-! Loads and stores. -/

/-- Everything a load into a register below 15 does (R250, R251). -/
theorem loadTo_spec {read : Word → State → Word × State} (hr : Reads read) (ix : Index) (rn rd : RegNum) (off : Word)
    (s : State) (hd : rd ≠ 15) (hw : (transferAt ix rn off s).wb = true → rn ≠ 15) :
    ∃ t, loadTo read ix rn rd off s = .next t ∧ Loaded read (transferAt ix rn off s) rn rd s t := by
  simp only [loadTo, no_refusal hw, Bool.false_eq_true, if_false]
  refine ⟨_, rfl, ?_⟩
  obtain ⟨e, he⟩ := hr (transferAt ix rn off s).addr s
  rw [he]
  generalize htr : transferAt ix rn off s = tr at hw ⊢
  generalize hv : (read tr.addr s).1 = v
  refine ⟨?_, ?_, ?_, ?_⟩
  · rw [hv]; exact getReg_setReg_same hd v _
  · intro h1 h2
    rw [getReg_setReg_other h2 (hw h1) hd, writeBack, if_pos h1, getReg_setReg_same (hw h1)]
  · have k1 : KeepsRegsBut (if tr.wb then [rd, rn] else [rd]) { s with ext := e } (writeBack tr rn { s with ext := e }) :=
      writeBack_keeps _ _ _ _ (fun h => by simp [h])
    exact keeps_trans k1 (by rw [writeBack_cpsr]) (keeps_setReg (n := rd) (by split <;> simp) v _)
  · rw [setReg_eq hd, writeBack_only hw]; rfl

/-- Everything a word load into R15 does (R251). -/
theorem loadTo_pc (ix : Index) (rn : RegNum) (off : Word) (s : State)
    (hw : (transferAt ix rn off s).wb = true → rn ≠ 15) :
    let tr := transferAt ix rn off s
    ∃ t, loadTo memReadRot ix rn 15 off s = .next t ∧ t.r15 = alignPc s.cpsr.t (memReadRot tr.addr s).1 ∧ t.pipe = [] ∧
      t.flushed = true ∧ (tr.wb = true → getReg rn t = tr.back) ∧ KeepsRegsBut (if tr.wb then [rn] else []) s t ∧
      t = { s with regs := t.regs, r15 := t.r15, pipe := t.pipe, flushed := t.flushed, ext := t.ext } := by
  simp only [loadTo, no_refusal hw, Bool.false_eq_true, if_false]
  refine ⟨_, rfl, ?_⟩
  obtain ⟨e, he⟩ := reads_memReadRot (transferAt ix rn off s).addr s
  rw [he]
  generalize (memReadRot (transferAt ix rn off s).addr s).1 = v
  generalize htr : transferAt ix rn off s = tr at hw ⊢
  have hbc := writeBack_cpsr tr rn { s with ext := e }
  refine ⟨?_, rfl, rfl, ?_, ?_, ?_⟩
  · rw [setReg_pc]; simp only [branchTo]; rw [hbc]
  · intro h
    rw [setReg_pc, writeBack, if_pos h]
    exact (getRegIn_branchTo (hw h) v _).trans (getReg_setReg_same (hw h) tr.back { s with ext := e })
  · have k1 : KeepsRegsBut (if tr.wb then [rn] else []) { s with ext := e } (writeBack tr rn { s with ext := e }) :=
      writeBack_keeps _ _ _ _ (fun h => by simp [h])
    intro m n hn hr
    rw [setReg_pc]
    exact (getRegIn_branchTo hn v _).trans (k1 m n hn hr)
  · rw [setReg_pc, writeBack_only hw]; rfl

/-- What a store at any address does after the store itself (R250, R253). -/
theorem storeFrom_back (w : Width) (ix : Index) (rn rd : RegNum) (off : Word) (s u : State)
    (hw : (transferAt ix rn off s).wb = true → rn ≠ 15)
    (hu : store w (transferAt ix rn off s).addr (storedReg rd s) s = .next u) :
    ∃ t, storeFrom w ix rn rd off s = .next t ∧ WrittenBack (transferAt ix rn off s) rn u t := by
  simp only [storeFrom, no_refusal hw, Bool.false_eq_true, if_false, hu]
  refine ⟨_, rfl, fun h => ?_, writeBack_keeps _ _ _ _ (fun h => by simp [h]), writeBack_only hw u⟩
  rw [writeBack, if_pos h, getReg_setReg_same (hw h)]

/-- Everything a store outside the I/O region does (R250, R253). -/
theorem storeFrom_spec (w : Width) (ix : Index) (rn rd : RegNum) (off : Word) (s : State)
    (hw : (transferAt ix rn off s).wb = true → rn ≠ 15) (hio : isIo (transferAt ix rn off s).addr = false)
    (hm : Memory.wf s.mem = true) :
    ∃ t, storeFrom w ix rn rd off s = .next t ∧ Stored w (storedReg rd s) (transferAt ix rn off s) rn s t := by
  simp only [storeFrom, no_refusal hw, Bool.false_eq_true, if_false]
  obtain ⟨u, hu, huo, hwf⟩ := store_spec w (storedReg rd s) (s := s) hio
  obtain ⟨hwf2, hwr⟩ := hwf hm
  rw [hu]
  refine ⟨_, rfl, ?_⟩
  generalize htr : transferAt ix rn off s = tr at *
  have ho := writeBack_only hw u
  refine ⟨?_, ?_, ?_, ?_, ?_⟩
  · intro a ha
    rw [readByte_congr ha (s := u) (by rw [ho]) (by rw [ho]) (by rw [ho])]
    exact hwr a ha
  · rw [ho]; exact hwf2
  · intro h; rw [writeBack, if_pos h, getReg_setReg_same (hw h)]
  · have k1 : KeepsRegsBut (if tr.wb then [rn] else []) u (writeBack tr rn u) :=
      writeBack_keeps _ _ _ _ (fun h => by simp [h])
    have k0 : KeepsRegsBut (if tr.wb then [rn] else []) s u := keeps_of_regs (by rw [huo])
    exact keeps_trans k0 (by rw [huo]) k1
  · rw [ho, huo]

/-- Where R260 refuses a halfword form neither by P and W nor by Rd. -/
theorem halfTransfer_ok {ix : Index} {rd : RegNum} (h : ix.w = true → ix.p = true) (hd : rd ≠ 15)
    (k : State → Result) (s : State) : halfTransfer ix rd k s = k s := by
  have : halfRefusal ix rd = none := by
    unfold halfRefusal
    rw [if_neg, if_neg hd]
    cases hp : ix.p <;> cases hw : ix.w <;> simp_all
  simp only [halfTransfer, this]

end Sys2Proof.Laws
end

