-- ==== Sys2Proof/Laws/Block.lean ====
section
/-! SUPPORT. Everything a block transfer can do: the registers it moves, its loads and stores outside the I/O region, and its
stores at any address, one after another. -/

namespace Sys2Proof.Laws

open Sys2Proof.Machine

/-- The registers below 15 of a list. -/
def lowListed {n : Nat} (list : BitVec n) : List RegNum :=
  ([0, 1, 2, 3, 4, 5, 6, 7, 8, 9, 10, 11, 12, 13, 14] : List RegNum).filter fun r => list.getLsbD r.toNat

theorem listed_eq {n : Nat} (list : BitVec n) : listed list = lowListed list ++ (if list.getLsbD 15 then [15] else []) := by
  have : ([0, 1, 2, 3, 4, 5, 6, 7, 8, 9, 10, 11, 12, 13, 14, 15] : List RegNum) = [0, 1, 2, 3, 4, 5, 6, 7, 8, 9, 10, 11, 12, 13, 14] ++ [15] := rfl
  rw [listed, this, List.filter_append, lowListed]
  congr 1
  simp only [List.filter_cons, List.filter_nil]
  rfl

theorem lowListed_ne {n : Nat} {list : BitVec n} {r : RegNum} (h : r ∈ lowListed list) : r ≠ 15 := by
  have h2 := (List.mem_filter.mp h).1
  clear h; revert r; decide

theorem lowListed_nodup {n : Nat} (list : BitVec n) : (lowListed list).Nodup := List.Nodup.filter _ (by decide)

/-- A block transfer moves distinct registers below 15, and then R15 or not (R271, R274). -/
theorem moved_shape {n : Nat} (list : BitVec n) : ∃ lows : List RegNum, (∀ r ∈ lows, r ≠ 15) ∧ lows.Nodup ∧
    (movedRegs (listed list) = lows ∨ movedRegs (listed list) = lows ++ [15]) := by
  rw [listed_eq]
  by_cases h : list.getLsbD 15
  · refine ⟨lowListed list, fun r hr => lowListed_ne hr, lowListed_nodup list, .inr ?_⟩
    simp [movedRegs, h]
  · by_cases h0 : lowListed list = []
    · refine ⟨[], by simp, by simp, .inr ?_⟩
      simp [movedRegs, h, h0]
    · refine ⟨lowListed list, fun r hr => lowListed_ne hr, lowListed_nodup list, .inl ?_⟩
      simp [movedRegs, h, h0]

theorem next_word (a : Word) (k : Nat) : a + 4 + BitVec.ofNat 32 (4 * k) = a + BitVec.ofNat 32 (4 * (k + 1)) := by
  rw [Nat.mul_add, BitVec.ofNat_add, BitVec.add_assoc, BitVec.add_comm 4]; rfl

/-- Loads into registers other than R15: only the register file changes; each listed register has its word. -/
theorem loadWords_low (put : RegNum → Word → State → State) (m : Mode) (s0 : State)
    (hput : ∀ r v s, r ≠ 15 → s.cpsr = s0.cpsr → put r v s = putRegIn m r v s) :
    ∀ (regs : List RegNum) (addr : Word) (s : State), (∀ r ∈ regs, r ≠ 15) → regs.Nodup → s.cpsr = s0.cpsr →
      BlockOutsideIo regs.length addr →
      let t := loadWords put regs addr s
      t = { s with regs := t.regs } ∧
      (∀ k r, regs[k]? = some r → getRegIn m r t = (memRead .word (addr + BitVec.ofNat 32 (4 * k)) s).1) ∧
      (∀ m' n, n ≠ 15 → (∀ r ∈ regs, physIndex m' n ≠ physIndex m r) → getRegIn m' n t = getRegIn m' n s) := by
  intro regs
  induction regs with
  | nil => intro addr s _ _ _ _; exact ⟨rfl, by simp, fun _ _ _ _ => rfl⟩
  | cons r rest ih =>
    intro addr s h15 hnd hcp hio
    have hr := h15 r (by simp)
    have ha : isIo addr = false := by have := hio 0 (by simp); simpa using this
    have hre : (memRead .word addr s).2 = s := by rw [memRead_noIo _ ha]
    simp only [loadWords]
    rw [hre, hput r _ s hr hcp]
    generalize hv : (memRead .word addr s).1 = v
    obtain ⟨i1, i2, i3⟩ := ih (addr + 4) (putRegIn m r v s) (fun q hq => h15 q (by simp [hq])) (List.nodup_cons.mp hnd).2 hcp
      (fun k hk => by rw [next_word]; exact hio (k + 1) (by simpa using hk))
    generalize ht : loadWords put rest (addr + 4) (putRegIn m r v s) = t at *
    refine ⟨by rw [i1]; rfl, ?_, ?_⟩
    · intro k q hq
      cases k with
      | zero =>
        simp only [List.getElem?_cons_zero, Option.some.injEq] at hq
        subst hq
        rw [i3 m r hr (fun q hq he => ?_), getRegIn_putRegIn_same hr]
        · rw [← hv]; simp
        · exact (List.nodup_cons.mp hnd).1 (by rw [physIndex_inj hr (h15 q (by simp [hq])) he]; exact hq)
      | succ k =>
        simp only [List.getElem?_cons_succ] at hq
        rw [i2 k q hq, next_word]
        apply memRead_congr
        · apply hio; have := List.getElem?_eq_some_iff.mp hq; obtain ⟨hk, _⟩ := this; simpa using hk
        all_goals rfl
    · intro m' n hn hq
      rw [i3 m' n hn (fun q hq' => hq q (by simp [hq']))]
      exact getRegIn_putRegIn_other (hq r (by simp)) v s

theorem loadWords_append (put : RegNum → Word → State → State) (xs ys : List RegNum) : ∀ (addr : Word) (s : State),
    loadWords put (xs ++ ys) addr s = loadWords put ys (addr + BitVec.ofNat 32 (4 * xs.length)) (loadWords put xs addr s) := by
  induction xs with
  | nil => intro addr s; simp [loadWords]
  | cons x xs ih => intro addr s; simp only [List.cons_append, loadWords, ih, next_word, List.length_cons]

/-- A block load: `fin` is what loading R15 does. -/
theorem loadWords_spec (put : RegNum → Word → State → State) (m : Mode) (fin : Word → State → State) (s : State)
    (hput : ∀ r v t, r ≠ 15 → t.cpsr = s.cpsr → put r v t = putRegIn m r v t)
    (hfin : ∀ v t, put 15 v t = fin v t)
    (regs : List RegNum) (lows : List RegNum) (h15 : ∀ r ∈ lows, r ≠ 15) (hnd : lows.Nodup) (hregs : regs = lows ∨ regs = lows ++ [15])
    (addr : Word) (hio : BlockOutsideIo regs.length addr) :
    ∃ u, u = { s with regs := u.regs } ∧
      (∀ k r, regs[k]? = some r → r ≠ 15 → getRegIn m r u = (memRead .word (addr + BitVec.ofNat 32 (4 * k)) s).1) ∧
      (∀ m' n, n ≠ 15 → (∀ r ∈ regs, r ≠ 15 → physIndex m' n ≠ physIndex m r) → getRegIn m' n u = getRegIn m' n s) ∧
      loadWords put regs addr s = if 15 ∈ regs then fin (memRead .word (addr + BitVec.ofNat 32 (4 * (regs.length - 1))) s).1 u else u := by
  have hl : BlockOutsideIo lows.length addr := by
    intro k hk; apply hio; rcases hregs with h | h <;> rw [h]; exact hk; simp; omega
  obtain ⟨i1, i2, i3⟩ := loadWords_low put m s hput lows addr s h15 hnd rfl hl
  have hnot : (15 : RegNum) ∉ lows := fun h => h15 15 h rfl
  refine ⟨loadWords put lows addr s, i1, ?_, ?_, ?_⟩
  · intro k r hk hr
    rcases hregs with h | h
    · rw [h] at hk; exact i2 k r hk
    · rw [h, List.getElem?_append] at hk
      split at hk
      · exact i2 k r hk
      · have := List.mem_of_getElem? hk; simp at this; exact absurd this hr
  · intro m' n hn hh
    apply i3 m' n hn
    intro r hr; apply hh r _ (h15 r hr)
    rcases hregs with h | h <;> rw [h]; exact hr; simp [hr]
  · rcases hregs with h | h
    · rw [h, if_neg hnot]
    · rw [h, if_pos (by simp), loadWords_append]
      have hlast : isIo (addr + BitVec.ofNat 32 (4 * lows.length)) = false := by apply hio; rw [h]; simp
      simp only [loadWords, List.length_append, List.length_singleton, Nat.add_sub_cancel]
      rw [hfin]
      have e2 : (memRead .word (addr + BitVec.ofNat 32 (4 * lows.length)) (loadWords put lows addr s)).2 = loadWords put lows addr s := by
        rw [memRead_noIo _ hlast]
      rw [e2, memRead_congr .word hlast (s := s)] <;> rw [i1]

theorem blockBack_spec (ix : Index) (rn : RegNum) (hrn : rn ≠ 15) (base size : Word) (s : State) :
   let back := if ix.w then some (rn, if ix.u then base + size else base - size) else none
   blockBack ix rn base size s = back.elim s fun x => putRegIn s.cpsr.mode x.1 x.2 s := by
  cases hw : ix.w <;> simp [blockBack, hw, setReg_eq hrn, blockBase]
 
/-- Everything a block load does, `s1` being the state after the writeback and CPSR `p` what loading R15 leaves. -/
theorem loadWords_loaded (put : RegNum → Word → State → State) (m : Mode) (fin : Word → State → State) (s : State) (base : Option (RegNum × Word))
    (hb15 : ∀ x ∈ base, x.1 ≠ 15) (hm : ∀ x ∈ base, m = s.cpsr.mode)
    (s1 : State) (hs1 : s1 = base.elim s fun x => putRegIn s.cpsr.mode x.1 x.2 s)
    (hput : ∀ r v t, r ≠ 15 → t.cpsr = s.cpsr → put r v t = putRegIn m r v t)
    (hfin : ∀ v t, put 15 v t = fin v t)
    (p : Cpsr) (hfin2 : ∀ v t, t = { s with regs := t.regs } → fin v t = { t with r15 := alignPc p.t v, pipe := [], flushed := true, cpsr := p })
    (regs : List RegNum) (lows : List RegNum) (h15 : ∀ r ∈ lows, r ≠ 15) (hnd : lows.Nodup) (hregs : regs = lows ∨ regs = lows ++ [15])
    (hp : 15 ∉ regs → p = s.cpsr)
    (addr : Word) (hio : BlockOutsideIo regs.length addr) :
    LoadedWords m regs addr base s (loadWords put regs addr s1) ∧ AfterLoads regs addr p s (loadWords put regs addr s1) := by
  have hs1r : s1 = { s with regs := s1.regs } := by rw [hs1]; cases base <;> rfl
  have hcp : s1.cpsr = s.cpsr := by rw [hs1r]
  obtain ⟨u, hu, i2, i3, i4⟩ := loadWords_spec put m fin s1 (fun r v t hr ht => hput r v t hr (ht.trans hcp)) hfin regs lows h15 hnd hregs addr hio
  have hus : u = { s with regs := u.regs } := by rw [hu, hs1r]
  have hval : ∀ k, k < regs.length → (memRead .word (addr + BitVec.ofNat 32 (4 * k)) s1).1 = (memRead .word (addr + BitVec.ofNat 32 (4 * k)) s).1 := by
    intro k hk
    exact memRead_congr .word (hio k hk) (by rw [hs1r]) (by rw [hs1r]) (by rw [hs1r])
  have hr : ∀ t, t = (if 15 ∈ regs then fin (memRead .word (addr + BitVec.ofNat 32 (4 * (regs.length - 1))) s1).1 u else u) → t.regs = u.regs := by
    rintro t rfl; split
    · rw [hfin2 _ _ hus]
    · rfl
  have hreg := hr _ i4
  have hmode : (loadWords put regs addr s1).cpsr = p := by
    rw [i4]; split
    · rw [hfin2 _ _ hus]
    · rename_i h; rw [hp h, hus]
  refine ⟨⟨?_, ?_, ?_⟩, ⟨?_, ?_, hmode, ?_⟩⟩
  · intro k r hk h
    rw [getRegIn_congr h hreg, i2 k r hk h, hval k]
    exact (List.getElem?_eq_some_iff.mp hk).1
  · intro x hx hnin
    have hx15 := hb15 x hx
    rw [getRegIn_congr hx15 hreg, i3 _ _ hx15 ?_]
    · cases hbase : base with
      | none => simp [hbase] at hx
      | some y =>
        rw [hbase] at hx; simp at hx; subst hx
        rw [hs1, hbase]; exact getRegIn_putRegIn_same hx15 _ _
    · intro r hr' h15' he
      rw [hm x hx] at he
      exact hnin (physIndex_inj hx15 h15' he ▸ hr')
  · intro m' n hn h1 h2
    rw [getRegIn_congr hn hreg, i3 m' n hn h1]
    cases hbase : base with
    | none => rw [hs1, hbase]; rfl
    | some y =>
      rw [hs1, hbase]; exact getRegIn_putRegIn_other (h2 y (by simp [hbase])) _ _
  · intro h
    rw [i4, if_pos h, hfin2 _ _ hus]
    have hpos : 0 < regs.length := List.length_pos_of_mem h
    refine ⟨?_, rfl, rfl⟩
    rw [hval _ (by omega)]
  · intro h
    rw [i4, if_neg h, hus]; exact ⟨rfl, rfl, rfl⟩
  · rw [i4]; split
    · rw [hfin2 _ _ hus, hus]
    · rw [hus]

theorem put_setReg (s : State) : ∀ r v (t : State), r ≠ 15 → t.cpsr = s.cpsr → setReg r v t = putRegIn s.cpsr.mode r v t := by
  intro r v t hr ht; rw [setReg_eq hr, ht]

theorem blockBytes_eq {n : Nat} (list : BitVec n) : blockBytes list = movedBytes (listed list) := by
  unfold blockBytes movedBytes; split <;> simp_all
theorem blockRegs_eq {n : Nat} (list : BitVec n) : blockRegs list = movedRegs (listed list) := by
  unfold blockRegs movedRegs; split <;> simp_all


/-! Stores. -/

theorem pokes_append (l l' : List (Word × Byte)) (s : State) : pokes (l ++ l') s = pokes l' (pokes l s) := by
  simp [pokes]

theorem poke_regs (x : Word × Byte) (s : State) (r : Vector Word 30) :
    poke x { s with regs := r } = { poke x s with regs := r } := by
  unfold poke
  dsimp only
  cases locate s.params x.1 with
  | cell r' o => dsimp only; unfold putCell; split <;> rfl
  | zero => rfl
  | io o => rfl
  | unmapped => rfl

theorem pokes_regs (l : List (Word × Byte)) (s : State) (r : Vector Word 30) :
    pokes l { s with regs := r } = { pokes l s with regs := r } := by
  induction l generalizing s with
  | nil => rfl
  | cons x rest ih => exact (congrArg (pokes rest) (poke_regs x s r)).trans (ih (poke x s))

/-- Everything consecutive stores do, the stored values not depending on memory. -/
theorem storeWords_pokes (get : RegNum → State → Word) (val : RegNum → Word) (regs : List RegNum) : ∀ (addr : Word) (s : State),
    (∀ r ∈ regs, ∀ t, t = { s with mem := t.mem } → get r t = val r) → BlockOutsideIo regs.length addr →
    storeWords get regs addr s = .next (pokes (bytesOfWords s.params addr (regs.map val)) s) := by
  induction regs with
  | nil => intro addr s _ _; rfl
  | cons r rest ih =>
    intro addr s hget hio
    have ha : isIo addr = false := by have := hio 0 (by simp); simpa using this
    have hm := pokes_mem (bytesOfStore s.params .word addr (val r)) s
    simp only [storeWords, store_pokes .word _ ha, andThen_next, hget r (by simp) s rfl]
    rw [ih (addr + 4) _ (fun q hq t ht => hget q (by simp [hq]) t (only_mem_trans hm ht))
      (fun k hk => by rw [next_word]; exact hio (k + 1) (by simpa using hk)), ← pokes_append]
    rw [show (pokes (bytesOfStore s.params .word addr (val r)) s).params = s.params by rw [hm]]
    rfl

/-- Everything a block store does: the base is written (registers `R`) after the first store. -/
theorem storeBlock_pokes (get : RegNum → State → Word) (back : State → State) (val : RegNum → Word) (R : Vector Word 30)
    (regs : List RegNum) (addr : Word) (s : State)
    (hback : ∀ t : State, t = { s with mem := t.mem } → back t = { t with regs := R })
    (hfirst : ∀ r ∈ regs.head?, get r s = val r)
    (hrest : ∀ r ∈ regs.tail, ∀ t : State, t = { s with mem := t.mem, regs := R } → get r t = val r)
    (hio : BlockOutsideIo regs.length addr) :
    storeBlock get back regs addr s = .next { pokes (bytesOfWords s.params addr (regs.map val)) s with regs := R } := by
  cases regs with
  | nil => exact congrArg _ (hback s rfl)
  | cons r rest =>
    have ha : isIo addr = false := by have := hio 0 (by simp); simpa using this
    have hm := pokes_mem (bytesOfStore s.params .word addr (val r)) s
    simp only [storeBlock, store_pokes .word _ ha, andThen_next, hfirst r (by simp), hback _ hm]
    rw [storeWords_pokes get val rest (addr + 4) _ (fun q hq t ht => hrest q (by simpa using hq) t (by rw [ht, hm]))
      (fun k hk => by rw [next_word]; exact hio (k + 1) (by simpa using hk)), pokes_regs, ← pokes_append]
    rw [show State.params { pokes (bytesOfStore s.params .word addr (val r)) s with regs := R } = s.params by rw [hm]]
    rfl

/-- A block store as `StoredWords` says it. -/
theorem storedWords_of {base : Option (RegNum × Word)} (hb : ∀ x ∈ base, x.1 ≠ 15) {addr : Word} {vs : List Word} {s : State}
    (hw : Memory.wf s.mem = true) :
    StoredWords addr vs base s { pokes (bytesOfWords s.params addr vs) s with
      regs := (base.elim s fun x => putRegIn s.cpsr.mode x.1 x.2 s).regs } := by
  have hm := pokes_mem (bytesOfWords s.params addr vs) s
  refine ⟨?_, pokes_wf hw, ?_, ?_, by rw [hm]⟩
  · intro a ha
    refine Eq.trans ?_ (pokes_wrote (bytesOfWords s.params addr vs) hw a ha)
    exact readByte_congr ha rfl rfl rfl
  · intro x hx
    obtain rfl : base = some x := hx
    have : getRegIn s.cpsr.mode x.1 (putRegIn s.cpsr.mode x.1 x.2 s) = x.2 :=
      getRegIn_putRegIn_same (hb x rfl) _ _
    rw [← this, getReg, show (pokes (bytesOfWords s.params addr vs) s).cpsr = s.cpsr by rw [hm]]
    exact getRegIn_congr (hb x rfl) rfl
  · intro m n hn hr
    cases base with
    | none => exact getRegIn_congr hn rfl
    | some x =>
      refine Eq.trans (getRegIn_congr (s := putRegIn s.cpsr.mode x.1 x.2 s) hn rfl) ?_
      exact getRegIn_putRegIn_other (hr x.1 (by simp) (hb x rfl)) _ _

/-- A block transfer moves no register twice. -/
theorem moved_nodup {n : Nat} (list : BitVec n) : (movedRegs (listed list)).Nodup := by
  obtain ⟨lows, h15, hnd, h | h⟩ := moved_shape list
  · rw [h]; exact hnd
  · rw [h]; exact List.nodup_append.mpr ⟨hnd, by simp, by rintro a ha b hb rfl; simp at hb; exact h15 _ ha hb⟩

/-- Everything an STM does (R272 to R275), `val` being the words stored. -/
theorem storeMultiple_spec (get : RegNum → State → Word) (val : RegNum → Word) (ix : Index) (rn : RegNum) (hrn : rn ≠ 15) (list : BitVec 16) (s : State) :
    let regs := movedRegs (listed list)
    let size := movedBytes (listed list)
    let start := blockStart ix (getReg rn s) size
    let back := if ix.w then some (rn, if ix.u then getReg rn s + size else getReg rn s - size) else none
    BlockOutsideIo regs.length start → Memory.wf s.mem = true →
    (∀ r ∈ regs.head?, get r s = val r) → 
    (∀ r ∈ regs.tail, ∀ t : State, t = { s with mem := t.mem, regs := (back.elim s fun x => putRegIn s.cpsr.mode x.1 x.2 s).regs } → get r t = val r) →
      ∃ t, storeMultiple get ix rn list s = .next t ∧
        StoredWords start (regs.map val) back s t := by
  intro regs size start back hio hw h1 h2
  have := storedWords_of (base := back) (by intro x hx; cases h : ix.w <;> simp [back, h] at hx; rw [← hx]; exact hrn) (addr := start) (vs := regs.map val) hw
  refine ⟨_, ?_, this⟩
  rw [storeMultiple, if_neg hrn]
  dsimp only
  rw [blockBytes_eq, blockRegs_eq]
  apply storeBlock_pokes get _ val _ regs start s ?_ h1 h2 hio
  intro t ht
  rw [blockBack_spec ix rn hrn]
  rw [ht]
  cases h : ix.w
  · simp [back, h]
  · simp [back, h]; rfl

/-! Stores at any address. -/

theorem andThen_congr {r : Result} {k k' : State → Result} (h : ∀ u, r = .next u → k u = k' u) :
    andThen r k = andThen r k' := by
  cases r with
  | next u => exact h u rfl
  | fault _ => rfl
  | refused _ => rfl

/-- The state has these registers, CPSR and R15: what a register store reads. -/
def SameRegs (s t : State) : Prop :=
  t.regs = s.regs ∧ t.cpsr = s.cpsr ∧ t.r15 = s.r15

/-- Consecutive stores at any address, the stored values not changing meanwhile. -/
theorem storeWords_all (get : RegNum → State → Word) (val : RegNum → Word) (s0 : State) (regs : List RegNum) :
    ∀ (addr : Word) (s : State), SameRegs s0 s → (∀ r ∈ regs, ∀ t, SameRegs s0 t → get r t = val r) →
      storeWords get regs addr s = storeAll addr (regs.map val) s := by
  induction regs with
  | nil => intro addr s _ _; rfl
  | cons r rest ih =>
    intro addr s hs hget
    simp only [storeWords, List.map_cons, storeAll, hget r (by simp) s hs]
    refine andThen_congr fun u hu => ih _ u ?_ fun q hq => hget q (by simp [hq])
    obtain ⟨h1, h2, h3⟩ := store_keeps hu
    exact ⟨h1.trans hs.1, h2.trans hs.2.1, h3.trans hs.2.2⟩

theorem movedRegs_ne (regs : List RegNum) : movedRegs regs ≠ [] := by
  unfold movedRegs
  split
  · simp
  · assumption

theorem sameRegs_put {s t : State} (h : SameRegs s t) (m : Mode) (n : RegNum) (v : Word) :
    SameRegs (putRegIn m n v s) (putRegIn m n v t) :=
  ⟨by simp only [putRegIn, h.1], h.2.1, h.2.2⟩

theorem getReg_sameRegs {s t : State} (h : SameRegs s t) (r : RegNum) : getReg r t = getReg r s := by
  simp only [getReg, getRegIn, h.1, h.2.1, h.2.2]

theorem instrAddr_sameRegs {s t : State} (h : SameRegs s t) : instrAddr t = instrAddr s := by
  simp only [instrAddr, instrBytes, h.2.1, h.2.2]

/-- What a block store stores of the registers after the first, the base being written. -/
theorem blockValue_rest {pc : Word} {regs : List RegNum} (hnd : regs.Nodup) {x : RegNum × Word} (hx : x.1 ≠ 15) (s : State)
    {r : RegNum} (hr : r ∈ regs.tail) :
    blockValue pc regs (some x) s r = if r = 15 then pc else getReg r (setReg x.1 x.2 s) := by
  simp only [blockValue]
  split
  · rfl
  · by_cases hb : r = x.1
    · have hh : regs.head? ≠ some r := by
        cases regs with
        | nil => simp
        | cons a rest =>
          rintro h
          cases h
          exact (List.nodup_cons.mp hnd).1 hr
      subst hb
      simp [hh, getReg_setReg_same hx]
    · rename_i h15
      rw [getReg_setReg_other hb h15 hx]
      simp [hb]

/-- A block store at any address (R272): word after word, the base written after the first; `k` is what R15 adds to
InstrAddr. -/
theorem storeBlock_all (k : Word) (get : RegNum → State → Word)
    (hget : ∀ r s, get r s = if r = 15 then instrAddr s + k else getReg r s) (base : Option (RegNum × Word))
    (hb : ∀ x ∈ base, x.1 ≠ 15) (back : State → State) (hback : ∀ t, back t = base.elim t fun x => setReg x.1 x.2 t)
    (regs : List RegNum) (hne : regs ≠ []) (hnd : regs.Nodup) (addr : Word) (s : State) :
    storeBlock get back regs addr s =
      storeAllBack addr (regs.map (blockValue (instrAddr s + k) regs base s)) base s := by
  cases regs with
  | nil => exact absurd rfl hne
  | cons r rest =>
    have hfirst : get r s = blockValue (instrAddr s + k) (r :: rest) base s r := by
      rw [hget]
      simp only [blockValue]
      split
      · rfl
      · cases base <;> simp
    simp only [storeBlock, List.map_cons, storeAllBack, ← hfirst]
    refine andThen_congr fun u hu => ?_
    have hu := store_keeps hu
    rw [← hback]
    cases base with
    | none =>
      rw [hback]
      refine storeWords_all get _ s rest _ _ hu fun q hq t ht => ?_
      rw [hget, instrAddr_sameRegs ht, getReg_sameRegs ht]
      rfl
    | some x =>
      have hx := hb x rfl
      have hbs : SameRegs (setReg x.1 x.2 s) (back u) := by
        rw [hback, Option.elim, setReg_eq hx, setReg_eq hx, hu.2.1]
        exact sameRegs_put hu _ _ _
      refine storeWords_all get _ (setReg x.1 x.2 s) rest _ _ hbs fun q hq t ht => ?_
      rw [hget, instrAddr_sameRegs ht, getReg_sameRegs ht, blockValue_rest hnd hx s hq,
        show instrAddr (setReg x.1 x.2 s) = instrAddr s by rw [setReg_eq hx]; rfl]

/-- What a register reads as once the base `x.1` is written. -/
theorem getReg_written (x : RegNum × Word) (hx : x.1 ≠ 15) (r : RegNum) (hr : r ≠ 15) (s t : State) (ht : t = { s with mem := t.mem, regs := (putRegIn s.cpsr.mode x.1 x.2 s).regs }) :
   getReg r t = if r = x.1 then x.2 else getReg r s := by
  have e : getReg r t = getRegIn s.cpsr.mode r (putRegIn s.cpsr.mode x.1 x.2 s) := by
    rw [getReg, show t.cpsr = s.cpsr by rw [ht]]; exact getRegIn_congr hr (by rw [ht])
  rw [e]
  split
  · rename_i h; subst h; exact getRegIn_putRegIn_same hx _ _
  · rename_i h; exact getRegIn_putRegIn_other (fun he => h (physIndex_inj hr hx he)) _ _

end Sys2Proof.Laws
end

