-- ==== Sys2Proof/Laws/Encoding.lean ====
section
/-! SUPPORT. The line of R145 and the fields of each word format that several instructions share. -/

set_option linter.unusedSimpArgs false

namespace Sys2Proof.Laws

theorem armLine_dataProc (c : Cond) (op : BitVec 4) (sf : Bool) (rn rd : RegNum) (op2 : Operand2)
    (h : (hits op 0xC 0x8 && !sf) = false) : armLine (encodeDataProc c op sf rn rd op2) = .dataProc := by
  have h8 : hits op 0xC 0x8 = false ∨ sf = true := by cases sf <;> simp_all
  cases op2 <;> rcases h8 with h8 | rfl <;>
    simp only [armLine, encodeDataProc, Operand2.iBit, Operand2.bits, hits_append, Nat.reducePow, Nat.reduceMod,
      Nat.reduceDiv, hits_none]
  all_goals simp [hits, one] at *
  all_goals simp [*, not_tests op]

theorem fields_dataProc (c : Cond) (op : BitVec 4) (sf : Bool) (rn rd : RegNum) (op2 : Operand2) :
    fld (encodeDataProc c op sf rn rd op2) 28 4 = c.bits ∧ fld (encodeDataProc c op sf rn rd op2) 21 4 = op ∧
    bit (encodeDataProc c op sf rn rd op2) 20 = sf ∧ fld (encodeDataProc c op sf rn rd op2) 16 4 = rn ∧
    fld (encodeDataProc c op sf rn rd op2) 12 4 = rd ∧
    decodeOperand2 (encodeDataProc c op sf rn rd op2) = op2 := by
  cases op2 <;> simp only [encodeDataProc, Operand2.iBit, Operand2.bits, decodeOperand2, bit] <;>
    simp (disch := decide) only [fld_append_high, fld_append_low, Nat.reduceSub, fld_self, shiftOf_bits] <;>
    simp [fld] <;> exact one_eq sf

theorem armLine_mull (c : Cond) (u a : BitVec 1) (sf : Bool) (hi lo rs rm : RegNum) :
    armLine (encodeMull c u a sf hi lo rs rm) = .mull := by
  simp only [armLine, encodeMull, hits_append, Nat.reducePow, Nat.reduceMod, Nat.reduceDiv, hits_none]
  simp [hits]

theorem fields_mull (c : Cond) (u a : BitVec 1) (sf : Bool) (hi lo rs rm : RegNum) :
    fld (encodeMull c u a sf hi lo rs rm) 28 4 = c.bits ∧ fld (encodeMull c u a sf hi lo rs rm) 22 1 = u ∧
    fld (encodeMull c u a sf hi lo rs rm) 21 1 = a ∧ bit (encodeMull c u a sf hi lo rs rm) 20 = sf ∧
    fld (encodeMull c u a sf hi lo rs rm) 16 4 = hi ∧ fld (encodeMull c u a sf hi lo rs rm) 12 4 = lo ∧
    fld (encodeMull c u a sf hi lo rs rm) 8 4 = rs ∧ fld (encodeMull c u a sf hi lo rs rm) 0 4 = rm := by
  simp only [encodeMull, bit]
  simp (disch := decide) only [fld_append_high, fld_append_low, Nat.reduceSub, fld_self]
  simp [one_eq]

theorem armLine_half (c : Cond) (ix : Index) (l : BitVec 1) (sh : BitVec 2) (rn rd : RegNum) (off : HalfOffset)
    (h : sh ≠ 0) : armLine (encodeHalf c ix l sh rn rd off) = .half := by
  have h' : sh = 1 ∨ sh = 2 ∨ sh = 3 := by revert h; revert sh; decide
  cases off <;> rcases h' with rfl | rfl | rfl <;>
    simp only [armLine, encodeHalf, HalfOffset.immBit, HalfOffset.high, HalfOffset.low, hits_append, Nat.reducePow,
      Nat.reduceMod, Nat.reduceDiv, hits_none] <;>
    simp [hits]

theorem fields_half (c : Cond) (ix : Index) (l : BitVec 1) (sh : BitVec 2) (rn rd : RegNum) (off : HalfOffset) :
    fld (encodeHalf c ix l sh rn rd off) 28 4 = c.bits ∧ decodeIndex (encodeHalf c ix l sh rn rd off) = ix ∧
    fld (encodeHalf c ix l sh rn rd off) 20 1 = l ∧ fld (encodeHalf c ix l sh rn rd off) 5 2 = sh ∧
    fld (encodeHalf c ix l sh rn rd off) 16 4 = rn ∧ fld (encodeHalf c ix l sh rn rd off) 12 4 = rd ∧
    decodeHalfOffset (encodeHalf c ix l sh rn rd off) = off := by
  obtain ⟨p, u, w⟩ := ix
  cases off with
  | imm imm8 =>
    simp only [encodeHalf, HalfOffset.immBit, HalfOffset.high, HalfOffset.low, decodeHalfOffset, decodeIndex, bit]
    simp (disch := decide) only [fld_append_high, fld_append_low, Nat.reduceSub, fld_self]
    simp [one_eq]
    exact fld_split (n := 4) (m := 4) imm8
  | reg ignored rm =>
    simp only [encodeHalf, HalfOffset.immBit, HalfOffset.high, HalfOffset.low, decodeHalfOffset, decodeIndex, bit]
    simp (disch := decide) only [fld_append_high, fld_append_low, Nat.reduceSub, fld_self]
    simp [one_eq]

theorem armLine_single (c : Cond) (ix : Index) (byte l : BitVec 1) (rn rd : RegNum) (off : Offset) :
    armLine (encodeSingle c ix byte l rn rd off) = .single := by
  cases off <;>
    simp only [armLine, encodeSingle, Offset.iBit, Offset.bits, hits_append, Nat.reducePow, Nat.reduceMod,
      Nat.reduceDiv, hits_none] <;>
    simp [hits]

theorem fields_single (c : Cond) (ix : Index) (byte l : BitVec 1) (rn rd : RegNum) (off : Offset) :
    fld (encodeSingle c ix byte l rn rd off) 28 4 = c.bits ∧ decodeIndex (encodeSingle c ix byte l rn rd off) = ix ∧
    fld (encodeSingle c ix byte l rn rd off) 20 1 = l ∧ fld (encodeSingle c ix byte l rn rd off) 22 1 = byte ∧
    fld (encodeSingle c ix byte l rn rd off) 16 4 = rn ∧ fld (encodeSingle c ix byte l rn rd off) 12 4 = rd ∧
    decodeOffset (encodeSingle c ix byte l rn rd off) = off := by
  obtain ⟨p, u, w⟩ := ix
  cases off <;> simp only [encodeSingle, Offset.iBit, Offset.bits, decodeOffset, decodeIndex, bit] <;>
    simp (disch := decide) only [fld_append_high, fld_append_low, Nat.reduceSub, fld_self, shiftOf_bits] <;>
    simp [one_eq, fld_self]

theorem armLine_block (c : Cond) (ix : Index) (s l : BitVec 1) (rn : RegNum) (list : BitVec 16) :
    armLine (encodeBlock c ix s l rn list) = .block := by
  simp only [armLine, encodeBlock, hits_append, Nat.reducePow, Nat.reduceMod, Nat.reduceDiv, hits_none]
  simp [hits]

theorem fields_block (c : Cond) (ix : Index) (s l : BitVec 1) (rn : RegNum) (list : BitVec 16) :
    fld (encodeBlock c ix s l rn list) 28 4 = c.bits ∧ decodeIndex (encodeBlock c ix s l rn list) = ix ∧
    fld (encodeBlock c ix s l rn list) 20 1 = l ∧ fld (encodeBlock c ix s l rn list) 22 1 = s ∧
    fld (encodeBlock c ix s l rn list) 16 4 = rn ∧ fld (encodeBlock c ix s l rn list) 0 16 = list ∧
    bit (encodeBlock c ix s l rn list) 15 = list.getLsbD 15 := by
  obtain ⟨p, u, w⟩ := ix
  simp only [encodeBlock, decodeIndex, bit]
  simp (disch := decide) only [fld_append_high, fld_append_low, Nat.reduceSub, fld_self]
  simp only [one_eq, fld_self, ← bit_eq list 15, bit, true_and]

theorem thumbLine_f4 (op : BitVec 4) (rs rd : LowReg) : thumbLine (encodeF4 op rs rd) = .f4 := by
  simp only [thumbLine, encodeF4, hits_append, Nat.reducePow, Nat.reduceMod, Nat.reduceDiv, hits_none]
  simp [hits]

theorem fields_f4 (op : BitVec 4) (rs rd : LowReg) :
    fld (encodeF4 op rs rd) 6 4 = op ∧ fld (encodeF4 op rs rd) 3 3 = rs ∧ fld (encodeF4 op rs rd) 0 3 = rd := by
  simp (disch := decide) only [encodeF4, fld_append_high, fld_append_low, Nat.reduceSub, fld_self]
  simp

theorem thumbLine_f5 (op : BitVec 2) (rd rs : RegNum) : thumbLine (encodeF5 op rd rs) = .f5 := by
  simp only [thumbLine, encodeF5, hits_append, Nat.reducePow, Nat.reduceMod, Nat.reduceDiv, hits_none]
  simp [hits]

theorem fields_f5 (op : BitVec 2) (rd rs : RegNum) :
    bit (encodeF5 op rd rs) 9 = op.getLsbD 1 ∧ bit (encodeF5 op rd rs) 8 = op.getLsbD 0 ∧
    fld (encodeF5 op rd rs) 7 1 ++ fld (encodeF5 op rd rs) 0 3 = rd ∧
    fld (encodeF5 op rd rs) 6 1 ++ fld (encodeF5 op rd rs) 3 3 = rs := by
  refine ⟨?_, ?_, ?_, ?_⟩
  · rw [← bit_eq, bit, bit, encodeF5]
    simp (disch := decide) only [fld_append_high, fld_append_low, Nat.reduceSub]
  · rw [← bit_eq, bit, bit, encodeF5]
    simp (disch := decide) only [fld_append_high, fld_append_low, Nat.reduceSub]
  · rw [encodeF5]
    simp (disch := decide) only [fld_append_high, fld_append_low, Nat.reduceSub, fld_self]
    exact fld_split (n := 1) (m := 3) rd
  · rw [encodeF5]
    simp (disch := decide) only [fld_append_high, fld_append_low, Nat.reduceSub, fld_self]
    exact fld_split (n := 1) (m := 3) rs

end Sys2Proof.Laws
end

