-- ==== Sys2Proof/Laws/PerInstr.lean ====
section
/-! SUPPORT. The family RoundTrip: for each instruction, decoding the word that encodes it gives it back. -/

set_option linter.unusedSimpArgs false

namespace Sys2Proof.Laws

/-- An encoded well-formed instruction decodes to itself: no field of an encoding is dropped or misplaced. -/
def RoundTrip.Statement (i : Instr) : Prop :=
  i.wf = true → decodeCode (encode i) = i

theorem bit_of_fld {n : Nat} {x : BitVec n} {i : Nat} {v : BitVec 1} (h : fld x i 1 = v) : bit x i = (v == 1#1) := by
  rw [bit, h]

theorem high_of_fld {x : Word} {v : BitVec 2} (h : fld x 5 2 = v) : bit x 6 = v.getLsbD 1 := by
  rw [bit_eq, ← h]; simp [fld]

theorem low_of_fld {x : Word} {v : BitVec 2} (h : fld x 5 2 = v) : bit x 5 = v.getLsbD 0 := by
  rw [bit_eq, ← h]; simp [fld]

theorem RoundTrip.bx (c : Cond) (rm : RegNum) :
    RoundTrip.Statement (.bx c rm) := by
  intro _
  have hl : armLine (c.bits ++ 0x12FFF1#24 ++ rm) = .bx := by
    simp only [armLine, hits_append, Nat.reducePow, Nat.reduceMod,
      Nat.reduceDiv, hits_none]
    simp [hits]
  simp only [encode, decodeCode, decodeArm, hl, bit]
  simp (disch := decide) only [fld_append_high, fld_append_low, Nat.reduceSub, fld_self]
  simp [fld, one_eq, condOf_bits]

theorem RoundTrip.mul (c : Cond) (sf : Bool) (rd ign rs rm : RegNum) :
    RoundTrip.Statement (.mul c sf rd ign rs rm) := by
  intro _
  have hl : armLine (c.bits ++ 0#7 ++ one sf ++ rd ++ ign ++ rs ++ 9#4 ++ rm) = .mul := by
    simp only [armLine, hits_append, Nat.reducePow, Nat.reduceMod,
      Nat.reduceDiv, hits_none]
    simp [hits]
  simp only [encode, decodeCode, decodeArm, hl, bit, decodeMul]
  simp (disch := decide) only [fld_append_high, fld_append_low, Nat.reduceSub, fld_self]
  simp [fld, one_eq, condOf_bits]

theorem RoundTrip.mla (c : Cond) (sf : Bool) (rd rn rs rm : RegNum) :
    RoundTrip.Statement (.mla c sf rd rn rs rm) := by
  intro _
  have hl : armLine (c.bits ++ 1#7 ++ one sf ++ rd ++ rn ++ rs ++ 9#4 ++ rm) = .mul := by
    simp only [armLine, hits_append, Nat.reducePow, Nat.reduceMod,
      Nat.reduceDiv, hits_none]
    simp [hits]
  simp only [encode, decodeCode, decodeArm, hl, bit, decodeMul]
  simp (disch := decide) only [fld_append_high, fld_append_low, Nat.reduceSub, fld_self]
  simp [fld, one_eq, condOf_bits]

theorem RoundTrip.umull (c : Cond) (sf : Bool) (hi lo rs rm : RegNum) :
    RoundTrip.Statement (.umull c sf hi lo rs rm) := by
  intro _
  have hl := armLine_mull c 0 0 sf hi lo rs rm
  obtain ⟨h1, h2, h3, h4, h5, h6, h7, h8⟩ := fields_mull c 0 0 sf hi lo rs rm
  simp only [encode, decodeCode, decodeArm, hl, decodeMull, bit_of_fld h2, bit_of_fld h3, h1, h4, h5, h6, h7, h8, condOf_bits]
  rfl

theorem RoundTrip.umlal (c : Cond) (sf : Bool) (hi lo rs rm : RegNum) :
    RoundTrip.Statement (.umlal c sf hi lo rs rm) := by
  intro _
  have hl := armLine_mull c 0 1 sf hi lo rs rm
  obtain ⟨h1, h2, h3, h4, h5, h6, h7, h8⟩ := fields_mull c 0 1 sf hi lo rs rm
  simp only [encode, decodeCode, decodeArm, hl, decodeMull, bit_of_fld h2, bit_of_fld h3, h1, h4, h5, h6, h7, h8, condOf_bits]
  rfl

theorem RoundTrip.smull (c : Cond) (sf : Bool) (hi lo rs rm : RegNum) :
    RoundTrip.Statement (.smull c sf hi lo rs rm) := by
  intro _
  have hl := armLine_mull c 1 0 sf hi lo rs rm
  obtain ⟨h1, h2, h3, h4, h5, h6, h7, h8⟩ := fields_mull c 1 0 sf hi lo rs rm
  simp only [encode, decodeCode, decodeArm, hl, decodeMull, bit_of_fld h2, bit_of_fld h3, h1, h4, h5, h6, h7, h8, condOf_bits]
  rfl

theorem RoundTrip.smlal (c : Cond) (sf : Bool) (hi lo rs rm : RegNum) :
    RoundTrip.Statement (.smlal c sf hi lo rs rm) := by
  intro _
  have hl := armLine_mull c 1 1 sf hi lo rs rm
  obtain ⟨h1, h2, h3, h4, h5, h6, h7, h8⟩ := fields_mull c 1 1 sf hi lo rs rm
  simp only [encode, decodeCode, decodeArm, hl, decodeMull, bit_of_fld h2, bit_of_fld h3, h1, h4, h5, h6, h7, h8, condOf_bits]
  rfl

theorem RoundTrip.swp (c : Cond) (rn rd rm : RegNum) :
    RoundTrip.Statement (.swp c rn rd rm) := by
  intro _
  have hl : armLine (c.bits ++ 0b00010000#8 ++ rn ++ rd ++ 0x09#8 ++ rm) = .swp := by
    simp only [armLine, hits_append, Nat.reducePow, Nat.reduceMod,
      Nat.reduceDiv, hits_none]
    simp [hits]
  simp only [encode, decodeCode, decodeArm, hl, bit, decodeSwp]
  simp (disch := decide) only [fld_append_high, fld_append_low, Nat.reduceSub, fld_self]
  simp [fld, one_eq, condOf_bits]

theorem RoundTrip.swpb (c : Cond) (rn rd rm : RegNum) :
    RoundTrip.Statement (.swpb c rn rd rm) := by
  intro _
  have hl : armLine (c.bits ++ 0b00010100#8 ++ rn ++ rd ++ 0x09#8 ++ rm) = .swp := by
    simp only [armLine, hits_append, Nat.reducePow, Nat.reduceMod,
      Nat.reduceDiv, hits_none]
    simp [hits]
  simp only [encode, decodeCode, decodeArm, hl, bit, decodeSwp]
  simp (disch := decide) only [fld_append_high, fld_append_low, Nat.reduceSub, fld_self]
  simp [fld, one_eq, condOf_bits]

theorem RoundTrip.strh (c : Cond) (ix : Index) (rn rd : RegNum) (off : HalfOffset) :
    RoundTrip.Statement (.strh c ix rn rd off) := by
  intro _
  have hl := armLine_half c ix 0 0b01 rn rd off (by decide)
  obtain ⟨h1, h2, h3, h4, h5, h6, h7⟩ := fields_half c ix 0 0b01 rn rd off
  simp only [encode, decodeCode, decodeArm, hl, decodeHalf, bit_of_fld h3, high_of_fld h4, low_of_fld h4, h1, h2, h5, h6, h7, condOf_bits]
  rfl

theorem RoundTrip.ldrh (c : Cond) (ix : Index) (rn rd : RegNum) (off : HalfOffset) :
    RoundTrip.Statement (.ldrh c ix rn rd off) := by
  intro _
  have hl := armLine_half c ix 1 0b01 rn rd off (by decide)
  obtain ⟨h1, h2, h3, h4, h5, h6, h7⟩ := fields_half c ix 1 0b01 rn rd off
  simp only [encode, decodeCode, decodeArm, hl, decodeHalf, bit_of_fld h3, high_of_fld h4, low_of_fld h4, h1, h2, h5, h6, h7, condOf_bits]
  rfl

theorem RoundTrip.ldrsb (c : Cond) (ix : Index) (rn rd : RegNum) (off : HalfOffset) :
    RoundTrip.Statement (.ldrsb c ix rn rd off) := by
  intro _
  have hl := armLine_half c ix 1 0b10 rn rd off (by decide)
  obtain ⟨h1, h2, h3, h4, h5, h6, h7⟩ := fields_half c ix 1 0b10 rn rd off
  simp only [encode, decodeCode, decodeArm, hl, decodeHalf, bit_of_fld h3, high_of_fld h4, low_of_fld h4, h1, h2, h5, h6, h7, condOf_bits]
  rfl

theorem RoundTrip.ldrsh (c : Cond) (ix : Index) (rn rd : RegNum) (off : HalfOffset) :
    RoundTrip.Statement (.ldrsh c ix rn rd off) := by
  intro _
  have hl := armLine_half c ix 1 0b11 rn rd off (by decide)
  obtain ⟨h1, h2, h3, h4, h5, h6, h7⟩ := fields_half c ix 1 0b11 rn rd off
  simp only [encode, decodeCode, decodeArm, hl, decodeHalf, bit_of_fld h3, high_of_fld h4, low_of_fld h4, h1, h2, h5, h6, h7, condOf_bits]
  rfl

theorem RoundTrip.undStoreSh10 (c : Cond) (rest : BitVec 28) :
    RoundTrip.Statement (.undStoreSh10 c rest) := by
  intro hw
  have hc : fld (c.bits ++ rest : Word) 28 4 = c.bits := by
    rw [fld_append_high _ _ _ _ (by decide)]; exact fld_self _
  have hr : fld (c.bits ++ rest : Word) 0 28 = rest := by
    rw [fld_append_low _ _ _ _ (by decide)]; exact fld_self _
  have h : hits (c.bits ++ rest : Word) 0x0E1000F0 0x000000D0 = true := hw
  have d0 := hits_disagree _ _ _ 0x0FFFFFF0 0x012FFF10 h (by decide)
  have d1 := hits_disagree _ _ _ 0x0FC000F0 0x00000090 h (by decide)
  have d2 := hits_disagree _ _ _ 0x0F8000F0 0x00800090 h (by decide)
  have d3 := hits_disagree _ _ _ 0x0FB00FF0 0x01000090 h (by decide)
  have d4 := hits_weaken _ _ _ 0x0E000090 0x00000090 h (by decide) (by decide)
  have d5 := hits_disagree _ _ _ 0x00000060 0 h (by decide)
  have d6 := hits_disagree _ _ _ 0x0E0000F0 0x00000090 h (by decide)
  have d7 := hits_disagree _ _ _ 0x0FBF0FFF 0x010F0000 h (by decide)
  have d8 := hits_disagree _ _ _ 0x0FB0FFF0 0x0120F000 h (by decide)
  have d9 := hits_disagree _ _ _ 0x0FB0F000 0x0320F000 h (by decide)
  have d11 := hits_weaken _ _ _ 0x0C000000 0x00000000 h (by decide) (by decide)
  have d12 := hits_disagree _ _ _ 0x0E000010 0x06000010 h (by decide)
  have hl : armLine (c.bits ++ rest) = .half := by
    simp [armLine, d0, d1, d2, d3, d4, d5, d6, d7, d8, d9, d11, d12]
  have b20 : fld (c.bits ++ rest : Word) 20 1 = 0#1 := fld_of_hits _ _ _ _ _ h (by decide)
  have b6 : fld (c.bits ++ rest : Word) 6 1 = 1#1 := fld_of_hits _ _ _ _ _ h (by decide)
  have b5 : fld (c.bits ++ rest : Word) 5 1 = 0#1 := fld_of_hits _ _ _ _ _ h (by decide)
  simp [encode, decodeCode, decodeArm, hl, decodeHalf, bit, b20, b6, b5, hc, hr, condOf_bits]

theorem RoundTrip.undStoreSh11 (c : Cond) (rest : BitVec 28) :
    RoundTrip.Statement (.undStoreSh11 c rest) := by
  intro hw
  have hc : fld (c.bits ++ rest : Word) 28 4 = c.bits := by
    rw [fld_append_high _ _ _ _ (by decide)]; exact fld_self _
  have hr : fld (c.bits ++ rest : Word) 0 28 = rest := by
    rw [fld_append_low _ _ _ _ (by decide)]; exact fld_self _
  have h : hits (c.bits ++ rest : Word) 0x0E1000F0 0x000000F0 = true := hw
  have d0 := hits_disagree _ _ _ 0x0FFFFFF0 0x012FFF10 h (by decide)
  have d1 := hits_disagree _ _ _ 0x0FC000F0 0x00000090 h (by decide)
  have d2 := hits_disagree _ _ _ 0x0F8000F0 0x00800090 h (by decide)
  have d3 := hits_disagree _ _ _ 0x0FB00FF0 0x01000090 h (by decide)
  have d4 := hits_weaken _ _ _ 0x0E000090 0x00000090 h (by decide) (by decide)
  have d5 := hits_disagree _ _ _ 0x00000060 0 h (by decide)
  have d6 := hits_disagree _ _ _ 0x0E0000F0 0x00000090 h (by decide)
  have d7 := hits_disagree _ _ _ 0x0FBF0FFF 0x010F0000 h (by decide)
  have d8 := hits_disagree _ _ _ 0x0FB0FFF0 0x0120F000 h (by decide)
  have d9 := hits_disagree _ _ _ 0x0FB0F000 0x0320F000 h (by decide)
  have d11 := hits_weaken _ _ _ 0x0C000000 0x00000000 h (by decide) (by decide)
  have d12 := hits_disagree _ _ _ 0x0E000010 0x06000010 h (by decide)
  have hl : armLine (c.bits ++ rest) = .half := by
    simp [armLine, d0, d1, d2, d3, d4, d5, d6, d7, d8, d9, d11, d12]
  have b20 : fld (c.bits ++ rest : Word) 20 1 = 0#1 := fld_of_hits _ _ _ _ _ h (by decide)
  have b6 : fld (c.bits ++ rest : Word) 6 1 = 1#1 := fld_of_hits _ _ _ _ _ h (by decide)
  have b5 : fld (c.bits ++ rest : Word) 5 1 = 1#1 := fld_of_hits _ _ _ _ _ h (by decide)
  simp [encode, decodeCode, decodeArm, hl, decodeHalf, bit, b20, b6, b5, hc, hr, condOf_bits]

theorem RoundTrip.undMulSwap (c : Cond) (rest : BitVec 28) :
    RoundTrip.Statement (.undMulSwap c rest) := by
  intro hw
  have hc : fld (c.bits ++ rest : Word) 28 4 = c.bits := by
    rw [fld_append_high _ _ _ _ (by decide)]; exact fld_self _
  have hr : fld (c.bits ++ rest : Word) 0 28 = rest := by
    rw [fld_append_low _ _ _ _ (by decide)]; exact fld_self _
  simp only [Instr.wf, inMulSwapSpace, Bool.and_eq_true, Bool.not_eq_true'] at hw
  obtain ⟨⟨⟨h, w1⟩, w2⟩, w3⟩ := hw
  have d0 := hits_disagree _ _ _ 0x0FFFFFF0 0x012FFF10 h (by decide)
  have d4 := hits_weaken _ _ _ 0x0E000090 0x00000090 h (by decide) (by decide)
  have d5 := hits_weaken _ _ _ 0x00000060 0 h (by decide) (by decide)
  have d6 := hits_weaken _ _ _ 0x0E0000F0 0x00000090 h (by decide) (by decide)
  have d7 := hits_disagree _ _ _ 0x0FBF0FFF 0x010F0000 h (by decide)
  have d8 := hits_disagree _ _ _ 0x0FB0FFF0 0x0120F000 h (by decide)
  have d9 := hits_disagree _ _ _ 0x0FB0F000 0x0320F000 h (by decide)
  have d11 := hits_weaken _ _ _ 0x0C000000 0x00000000 h (by decide) (by decide)
  have d12 := hits_disagree _ _ _ 0x0E000010 0x06000010 h (by decide)
  have hl : armLine (c.bits ++ rest) = .mulSwapSpace := by
    simp [armLine, d0, d4, d5, d6, d7, d8, d9, d11, d12, w1, w2, w3]
  simp [encode, decodeCode, decodeArm, hl, hc, hr, condOf_bits]

theorem RoundTrip.mrs (c : Cond) (spsr : Bool) (rd : RegNum) :
    RoundTrip.Statement (.mrs c spsr rd) := by
  intro _
  have hl : armLine (c.bits ++ 0b00010#5 ++ one spsr ++ 0b001111#6 ++ rd ++ 0#12) = .mrs := by
    simp only [armLine, hits_append, Nat.reducePow, Nat.reduceMod,
      Nat.reduceDiv, hits_none]
    simp [hits]
  simp only [encode, decodeCode, decodeArm, hl, bit]
  simp (disch := decide) only [fld_append_high, fld_append_low, Nat.reduceSub, fld_self]
  simp [fld, one_eq, condOf_bits]

theorem RoundTrip.msrReg (c : Cond) (spsr : Bool) (mask : BitVec 4) (rm : RegNum) :
    RoundTrip.Statement (.msrReg c spsr mask rm) := by
  intro _
  have hl : armLine (c.bits ++ 0b00010#5 ++ one spsr ++ 0b10#2 ++ mask ++ 0xF00#12 ++ rm) = .msrReg := by
    simp only [armLine, hits_append, Nat.reducePow, Nat.reduceMod,
      Nat.reduceDiv, hits_none]
    simp [hits]
  simp only [encode, decodeCode, decodeArm, hl, bit]
  simp (disch := decide) only [fld_append_high, fld_append_low, Nat.reduceSub, fld_self]
  simp [fld, one_eq, condOf_bits]

theorem RoundTrip.msrImm (c : Cond) (spsr : Bool) (mask : BitVec 4) (rot : BitVec 4) (imm8 : Byte) :
    RoundTrip.Statement (.msrImm c spsr mask rot imm8) := by
  intro _
  have hl : armLine (c.bits ++ 0b00110#5 ++ one spsr ++ 0b10#2 ++ mask ++ 0xF#4 ++ rot ++ imm8) = .msrImm := by
    simp only [armLine, hits_append, Nat.reducePow, Nat.reduceMod,
      Nat.reduceDiv, hits_none]
    simp [hits]
  simp only [encode, decodeCode, decodeArm, hl, bit]
  simp (disch := decide) only [fld_append_high, fld_append_low, Nat.reduceSub, fld_self]
  simp [fld, one_eq, condOf_bits]

theorem RoundTrip.undPsr (c : Cond) (rest : BitVec 28) :
    RoundTrip.Statement (.undPsr c rest) := by
  intro hw
  have hc : fld (c.bits ++ rest : Word) 28 4 = c.bits := by
    rw [fld_append_high _ _ _ _ (by decide)]; exact fld_self _
  have hr : fld (c.bits ++ rest : Word) 0 28 = rest := by
    rw [fld_append_low _ _ _ _ (by decide)]; exact fld_self _
  simp only [Instr.wf, inPsrSpace, Bool.and_eq_true, Bool.not_eq_true'] at hw
  obtain ⟨⟨⟨⟨⟨h, w1⟩, w2⟩, w3⟩, w4⟩, w5⟩ := hw
  have d1 := hits_disagree _ _ _ 0x0FC000F0 0x00000090 h (by decide)
  have d2 := hits_disagree _ _ _ 0x0F8000F0 0x00800090 h (by decide)
  have d10 := hits_weaken _ _ _ 0x0D900000 0x01000000 h (by decide) (by decide)
  have d11 := hits_weaken _ _ _ 0x0C000000 0x00000000 h (by decide) (by decide)
  have d12 := hits_disagree _ _ _ 0x0E000010 0x06000010 h (by decide)
  have e1 := hits_false_of_weaken _ 0x0FB00FF0 0x01000090 _ _ w2 (by decide) (by decide)
  have e2 := hits_false_of_weaken _ 0x0E0000F0 0x00000090 _ _ w2 (by decide) (by decide)
  have hl : armLine (c.bits ++ rest) = .psrSpace := by
    simp [armLine, d1, d2, d10, d11, d12, e1, e2, w1, w2, w3, w4, w5]
  simp [encode, decodeCode, decodeArm, hl, hc, hr, condOf_bits]

theorem RoundTrip.and (c : Cond) (sf : Bool) (rn rd : RegNum) (op2 : Operand2) :
    RoundTrip.Statement (.and c sf rn rd op2) := by
  intro _
  have hl := armLine_dataProc c 0 sf rn rd op2 (by simp [hits])
  obtain ⟨h1, h2, h3, h4, h5, h6⟩ := fields_dataProc c 0 sf rn rd op2
  simp only [encode, decodeCode, decodeArm, hl, decodeDataProc, h1, h2, h3, h4, h5, h6, condOf_bits]
  rfl

theorem RoundTrip.eor (c : Cond) (sf : Bool) (rn rd : RegNum) (op2 : Operand2) :
    RoundTrip.Statement (.eor c sf rn rd op2) := by
  intro _
  have hl := armLine_dataProc c 1 sf rn rd op2 (by simp [hits])
  obtain ⟨h1, h2, h3, h4, h5, h6⟩ := fields_dataProc c 1 sf rn rd op2
  simp only [encode, decodeCode, decodeArm, hl, decodeDataProc, h1, h2, h3, h4, h5, h6, condOf_bits]
  rfl

theorem RoundTrip.sub (c : Cond) (sf : Bool) (rn rd : RegNum) (op2 : Operand2) :
    RoundTrip.Statement (.sub c sf rn rd op2) := by
  intro _
  have hl := armLine_dataProc c 2 sf rn rd op2 (by simp [hits])
  obtain ⟨h1, h2, h3, h4, h5, h6⟩ := fields_dataProc c 2 sf rn rd op2
  simp only [encode, decodeCode, decodeArm, hl, decodeDataProc, h1, h2, h3, h4, h5, h6, condOf_bits]
  rfl

theorem RoundTrip.rsb (c : Cond) (sf : Bool) (rn rd : RegNum) (op2 : Operand2) :
    RoundTrip.Statement (.rsb c sf rn rd op2) := by
  intro _
  have hl := armLine_dataProc c 3 sf rn rd op2 (by simp [hits])
  obtain ⟨h1, h2, h3, h4, h5, h6⟩ := fields_dataProc c 3 sf rn rd op2
  simp only [encode, decodeCode, decodeArm, hl, decodeDataProc, h1, h2, h3, h4, h5, h6, condOf_bits]
  rfl

theorem RoundTrip.add (c : Cond) (sf : Bool) (rn rd : RegNum) (op2 : Operand2) :
    RoundTrip.Statement (.add c sf rn rd op2) := by
  intro _
  have hl := armLine_dataProc c 4 sf rn rd op2 (by simp [hits])
  obtain ⟨h1, h2, h3, h4, h5, h6⟩ := fields_dataProc c 4 sf rn rd op2
  simp only [encode, decodeCode, decodeArm, hl, decodeDataProc, h1, h2, h3, h4, h5, h6, condOf_bits]
  rfl

theorem RoundTrip.adc (c : Cond) (sf : Bool) (rn rd : RegNum) (op2 : Operand2) :
    RoundTrip.Statement (.adc c sf rn rd op2) := by
  intro _
  have hl := armLine_dataProc c 5 sf rn rd op2 (by simp [hits])
  obtain ⟨h1, h2, h3, h4, h5, h6⟩ := fields_dataProc c 5 sf rn rd op2
  simp only [encode, decodeCode, decodeArm, hl, decodeDataProc, h1, h2, h3, h4, h5, h6, condOf_bits]
  rfl

theorem RoundTrip.sbc (c : Cond) (sf : Bool) (rn rd : RegNum) (op2 : Operand2) :
    RoundTrip.Statement (.sbc c sf rn rd op2) := by
  intro _
  have hl := armLine_dataProc c 6 sf rn rd op2 (by simp [hits])
  obtain ⟨h1, h2, h3, h4, h5, h6⟩ := fields_dataProc c 6 sf rn rd op2
  simp only [encode, decodeCode, decodeArm, hl, decodeDataProc, h1, h2, h3, h4, h5, h6, condOf_bits]
  rfl

theorem RoundTrip.rsc (c : Cond) (sf : Bool) (rn rd : RegNum) (op2 : Operand2) :
    RoundTrip.Statement (.rsc c sf rn rd op2) := by
  intro _
  have hl := armLine_dataProc c 7 sf rn rd op2 (by simp [hits])
  obtain ⟨h1, h2, h3, h4, h5, h6⟩ := fields_dataProc c 7 sf rn rd op2
  simp only [encode, decodeCode, decodeArm, hl, decodeDataProc, h1, h2, h3, h4, h5, h6, condOf_bits]
  rfl

theorem RoundTrip.tst (c : Cond) (rn ign : RegNum) (op2 : Operand2) :
    RoundTrip.Statement (.tst c rn ign op2) := by
  intro _
  have hl := armLine_dataProc c 8 true rn ign op2 (by simp [hits])
  obtain ⟨h1, h2, h3, h4, h5, h6⟩ := fields_dataProc c 8 true rn ign op2
  simp only [encode, decodeCode, decodeArm, hl, decodeDataProc, h1, h2, h3, h4, h5, h6, condOf_bits]
  rfl

theorem RoundTrip.teq (c : Cond) (rn ign : RegNum) (op2 : Operand2) :
    RoundTrip.Statement (.teq c rn ign op2) := by
  intro _
  have hl := armLine_dataProc c 9 true rn ign op2 (by simp [hits])
  obtain ⟨h1, h2, h3, h4, h5, h6⟩ := fields_dataProc c 9 true rn ign op2
  simp only [encode, decodeCode, decodeArm, hl, decodeDataProc, h1, h2, h3, h4, h5, h6, condOf_bits]
  rfl

theorem RoundTrip.cmp (c : Cond) (rn ign : RegNum) (op2 : Operand2) :
    RoundTrip.Statement (.cmp c rn ign op2) := by
  intro _
  have hl := armLine_dataProc c 10 true rn ign op2 (by simp [hits])
  obtain ⟨h1, h2, h3, h4, h5, h6⟩ := fields_dataProc c 10 true rn ign op2
  simp only [encode, decodeCode, decodeArm, hl, decodeDataProc, h1, h2, h3, h4, h5, h6, condOf_bits]
  rfl

theorem RoundTrip.cmn (c : Cond) (rn ign : RegNum) (op2 : Operand2) :
    RoundTrip.Statement (.cmn c rn ign op2) := by
  intro _
  have hl := armLine_dataProc c 11 true rn ign op2 (by simp [hits])
  obtain ⟨h1, h2, h3, h4, h5, h6⟩ := fields_dataProc c 11 true rn ign op2
  simp only [encode, decodeCode, decodeArm, hl, decodeDataProc, h1, h2, h3, h4, h5, h6, condOf_bits]
  rfl

theorem RoundTrip.orr (c : Cond) (sf : Bool) (rn rd : RegNum) (op2 : Operand2) :
    RoundTrip.Statement (.orr c sf rn rd op2) := by
  intro _
  have hl := armLine_dataProc c 12 sf rn rd op2 (by simp [hits])
  obtain ⟨h1, h2, h3, h4, h5, h6⟩ := fields_dataProc c 12 sf rn rd op2
  simp only [encode, decodeCode, decodeArm, hl, decodeDataProc, h1, h2, h3, h4, h5, h6, condOf_bits]
  rfl

theorem RoundTrip.mov (c : Cond) (sf : Bool) (ign rd : RegNum) (op2 : Operand2) :
    RoundTrip.Statement (.mov c sf ign rd op2) := by
  intro _
  have hl := armLine_dataProc c 13 sf ign rd op2 (by simp [hits])
  obtain ⟨h1, h2, h3, h4, h5, h6⟩ := fields_dataProc c 13 sf ign rd op2
  simp only [encode, decodeCode, decodeArm, hl, decodeDataProc, h1, h2, h3, h4, h5, h6, condOf_bits]
  rfl

theorem RoundTrip.bic (c : Cond) (sf : Bool) (rn rd : RegNum) (op2 : Operand2) :
    RoundTrip.Statement (.bic c sf rn rd op2) := by
  intro _
  have hl := armLine_dataProc c 14 sf rn rd op2 (by simp [hits])
  obtain ⟨h1, h2, h3, h4, h5, h6⟩ := fields_dataProc c 14 sf rn rd op2
  simp only [encode, decodeCode, decodeArm, hl, decodeDataProc, h1, h2, h3, h4, h5, h6, condOf_bits]
  rfl

theorem RoundTrip.mvn (c : Cond) (sf : Bool) (ign rd : RegNum) (op2 : Operand2) :
    RoundTrip.Statement (.mvn c sf ign rd op2) := by
  intro _
  have hl := armLine_dataProc c 15 sf ign rd op2 (by simp [hits])
  obtain ⟨h1, h2, h3, h4, h5, h6⟩ := fields_dataProc c 15 sf ign rd op2
  simp only [encode, decodeCode, decodeArm, hl, decodeDataProc, h1, h2, h3, h4, h5, h6, condOf_bits]
  rfl

theorem RoundTrip.und011 (c : Cond) (rest : BitVec 28) :
    RoundTrip.Statement (.und011 c rest) := by
  intro hw
  have hc : fld (c.bits ++ rest : Word) 28 4 = c.bits := by
    rw [fld_append_high _ _ _ _ (by decide)]; exact fld_self _
  have hr : fld (c.bits ++ rest : Word) 0 28 = rest := by
    rw [fld_append_low _ _ _ _ (by decide)]; exact fld_self _
  have h : hits (c.bits ++ rest : Word) 0x0E000010 0x06000010 = true := hw
  have d0 := hits_disagree _ _ _ 0x0FFFFFF0 0x012FFF10 h (by decide)
  have d1 := hits_disagree _ _ _ 0x0FC000F0 0x00000090 h (by decide)
  have d2 := hits_disagree _ _ _ 0x0F8000F0 0x00800090 h (by decide)
  have d3 := hits_disagree _ _ _ 0x0FB00FF0 0x01000090 h (by decide)
  have d4 := hits_disagree _ _ _ 0x0E000090 0x00000090 h (by decide)
  have d6 := hits_disagree _ _ _ 0x0E0000F0 0x00000090 h (by decide)
  have d7 := hits_disagree _ _ _ 0x0FBF0FFF 0x010F0000 h (by decide)
  have d8 := hits_disagree _ _ _ 0x0FB0FFF0 0x0120F000 h (by decide)
  have d9 := hits_disagree _ _ _ 0x0FB0F000 0x0320F000 h (by decide)
  have d10 := hits_disagree _ _ _ 0x0D900000 0x01000000 h (by decide)
  have d11 := hits_disagree _ _ _ 0x0C000000 0x00000000 h (by decide)
  have d12 := hits_weaken _ _ _ 0x0E000010 0x06000010 h (by decide) (by decide)
  have hl : armLine (c.bits ++ rest) = .undef := by
    simp [armLine, d0, d1, d2, d3, d4, d6, d7, d8, d9, d10, d11, d12]
  simp [encode, decodeCode, decodeArm, hl, hc, hr, condOf_bits]

theorem RoundTrip.strt (c : Cond) (u : Bool) (rn rd : RegNum) (off : Offset) :
    RoundTrip.Statement (.strt c u rn rd off) := by
  intro hw
  have hl := armLine_single c ⟨false, u, true⟩ 0 0 rn rd off
  obtain ⟨h1, h2, h3, h4, h5, h6, h7⟩ := fields_single c ⟨false, u, true⟩ 0 0 rn rd off
  simp only [encode, decodeCode, decodeArm, hl, decodeSingle, bit_of_fld h3, bit_of_fld h4, h1, h2, h5, h6, h7, condOf_bits]
  rfl

theorem RoundTrip.ldrt (c : Cond) (u : Bool) (rn rd : RegNum) (off : Offset) :
    RoundTrip.Statement (.ldrt c u rn rd off) := by
  intro hw
  have hl := armLine_single c ⟨false, u, true⟩ 0 1 rn rd off
  obtain ⟨h1, h2, h3, h4, h5, h6, h7⟩ := fields_single c ⟨false, u, true⟩ 0 1 rn rd off
  simp only [encode, decodeCode, decodeArm, hl, decodeSingle, bit_of_fld h3, bit_of_fld h4, h1, h2, h5, h6, h7, condOf_bits]
  rfl

theorem RoundTrip.strbt (c : Cond) (u : Bool) (rn rd : RegNum) (off : Offset) :
    RoundTrip.Statement (.strbt c u rn rd off) := by
  intro hw
  have hl := armLine_single c ⟨false, u, true⟩ 1 0 rn rd off
  obtain ⟨h1, h2, h3, h4, h5, h6, h7⟩ := fields_single c ⟨false, u, true⟩ 1 0 rn rd off
  simp only [encode, decodeCode, decodeArm, hl, decodeSingle, bit_of_fld h3, bit_of_fld h4, h1, h2, h5, h6, h7, condOf_bits]
  rfl

theorem RoundTrip.ldrbt (c : Cond) (u : Bool) (rn rd : RegNum) (off : Offset) :
    RoundTrip.Statement (.ldrbt c u rn rd off) := by
  intro hw
  have hl := armLine_single c ⟨false, u, true⟩ 1 1 rn rd off
  obtain ⟨h1, h2, h3, h4, h5, h6, h7⟩ := fields_single c ⟨false, u, true⟩ 1 1 rn rd off
  simp only [encode, decodeCode, decodeArm, hl, decodeSingle, bit_of_fld h3, bit_of_fld h4, h1, h2, h5, h6, h7, condOf_bits]
  rfl

theorem RoundTrip.str (c : Cond) (ix : Index) (rn rd : RegNum) (off : Offset) :
    RoundTrip.Statement (.str c ix rn rd off) := by
  intro hw
  have hl := armLine_single c ix 0 0 rn rd off
  obtain ⟨h1, h2, h3, h4, h5, h6, h7⟩ := fields_single c ix 0 0 rn rd off
  simp only [encode, decodeCode, decodeArm, hl, decodeSingle, bit_of_fld h3, bit_of_fld h4, h1, h2, h5, h6, h7, condOf_bits, show ix.notT = true from hw, if_true]
  rfl

theorem RoundTrip.ldr (c : Cond) (ix : Index) (rn rd : RegNum) (off : Offset) :
    RoundTrip.Statement (.ldr c ix rn rd off) := by
  intro hw
  have hl := armLine_single c ix 0 1 rn rd off
  obtain ⟨h1, h2, h3, h4, h5, h6, h7⟩ := fields_single c ix 0 1 rn rd off
  simp only [encode, decodeCode, decodeArm, hl, decodeSingle, bit_of_fld h3, bit_of_fld h4, h1, h2, h5, h6, h7, condOf_bits, show ix.notT = true from hw, if_true]
  rfl

theorem RoundTrip.strb (c : Cond) (ix : Index) (rn rd : RegNum) (off : Offset) :
    RoundTrip.Statement (.strb c ix rn rd off) := by
  intro hw
  have hl := armLine_single c ix 1 0 rn rd off
  obtain ⟨h1, h2, h3, h4, h5, h6, h7⟩ := fields_single c ix 1 0 rn rd off
  simp only [encode, decodeCode, decodeArm, hl, decodeSingle, bit_of_fld h3, bit_of_fld h4, h1, h2, h5, h6, h7, condOf_bits, show ix.notT = true from hw, if_true]
  rfl

theorem RoundTrip.ldrb (c : Cond) (ix : Index) (rn rd : RegNum) (off : Offset) :
    RoundTrip.Statement (.ldrb c ix rn rd off) := by
  intro hw
  have hl := armLine_single c ix 1 1 rn rd off
  obtain ⟨h1, h2, h3, h4, h5, h6, h7⟩ := fields_single c ix 1 1 rn rd off
  simp only [encode, decodeCode, decodeArm, hl, decodeSingle, bit_of_fld h3, bit_of_fld h4, h1, h2, h5, h6, h7, condOf_bits, show ix.notT = true from hw, if_true]
  rfl

theorem RoundTrip.stm (c : Cond) (ix : Index) (rn : RegNum) (list : BitVec 16) :
    RoundTrip.Statement (.stm c ix rn list) := by
  intro hw
  have hl := armLine_block c ix 0 0 rn list
  obtain ⟨h1, h2, h3, h4, h5, h6, h7⟩ := fields_block c ix 0 0 rn list
  simp only [encode, decodeCode, decodeArm, hl, decodeBlock, bit_of_fld h3, bit_of_fld h4, h1, h2, h5, h6, condOf_bits]
  rfl

theorem RoundTrip.stmUser (c : Cond) (ix : Index) (rn : RegNum) (list : BitVec 16) :
    RoundTrip.Statement (.stmUser c ix rn list) := by
  intro hw
  have hl := armLine_block c ix 1 0 rn list
  obtain ⟨h1, h2, h3, h4, h5, h6, h7⟩ := fields_block c ix 1 0 rn list
  simp only [encode, decodeCode, decodeArm, hl, decodeBlock, bit_of_fld h3, bit_of_fld h4, h1, h2, h5, h6, condOf_bits]
  rfl

theorem RoundTrip.ldm (c : Cond) (ix : Index) (rn : RegNum) (list : BitVec 16) :
    RoundTrip.Statement (.ldm c ix rn list) := by
  intro hw
  have hl := armLine_block c ix 0 1 rn list
  obtain ⟨h1, h2, h3, h4, h5, h6, h7⟩ := fields_block c ix 0 1 rn list
  simp only [encode, decodeCode, decodeArm, hl, decodeBlock, bit_of_fld h3, bit_of_fld h4, h1, h2, h5, h6, condOf_bits]
  rfl

theorem RoundTrip.ldmReturn (c : Cond) (ix : Index) (rn : RegNum) (list : BitVec 16) :
    RoundTrip.Statement (.ldmReturn c ix rn list) := by
  intro hw
  have hl := armLine_block c ix 1 1 rn list
  obtain ⟨h1, h2, h3, h4, h5, h6, h7⟩ := fields_block c ix 1 1 rn list
  simp only [encode, decodeCode, decodeArm, hl, decodeBlock, bit_of_fld h3, bit_of_fld h4, h1, h2, h5, h6, h7, show list.getLsbD 15 = true from hw, condOf_bits]
  rfl

theorem RoundTrip.ldmUser (c : Cond) (ix : Index) (rn : RegNum) (list : BitVec 16) :
    RoundTrip.Statement (.ldmUser c ix rn list) := by
  intro hw
  have hl := armLine_block c ix 1 1 rn list
  obtain ⟨h1, h2, h3, h4, h5, h6, h7⟩ := fields_block c ix 1 1 rn list
  simp only [encode, decodeCode, decodeArm, hl, decodeBlock, bit_of_fld h3, bit_of_fld h4, h1, h2, h5, h6, h7, show list.getLsbD 15 = false by simpa [Instr.wf] using hw, condOf_bits]
  rfl

theorem RoundTrip.b (c : Cond) (offset : BitVec 24) :
    RoundTrip.Statement (.b c offset) := by
  intro _
  have hl : armLine (c.bits ++ 0xA#4 ++ offset) = .branch := by
    simp only [armLine, hits_append, Nat.reducePow, Nat.reduceMod,
      Nat.reduceDiv, hits_none]
    simp [hits]
  simp only [encode, decodeCode, decodeArm, hl, bit]
  simp (disch := decide) only [fld_append_high, fld_append_low, Nat.reduceSub, fld_self]
  simp [fld, one_eq, condOf_bits]

theorem RoundTrip.bl (c : Cond) (offset : BitVec 24) :
    RoundTrip.Statement (.bl c offset) := by
  intro _
  have hl : armLine (c.bits ++ 0xB#4 ++ offset) = .branch := by
    simp only [armLine, hits_append, Nat.reducePow, Nat.reduceMod,
      Nat.reduceDiv, hits_none]
    simp [hits]
  simp only [encode, decodeCode, decodeArm, hl, bit]
  simp (disch := decide) only [fld_append_high, fld_append_low, Nat.reduceSub, fld_self]
  simp [fld, one_eq, condOf_bits]

theorem RoundTrip.ldc (c : Cond) (ix : CopIndex) (rn crd cp : RegNum) (offset : Byte) :
    RoundTrip.Statement (.ldc c ix rn crd cp offset) := by
  intro _
  have hl : armLine (c.bits ++ 0b110#3 ++ one ix.p ++ one ix.u ++ one ix.n ++ one ix.w ++ 1#1 ++ rn ++ crd ++ cp ++ offset) = .coproc := by
    simp only [armLine, hits_append, Nat.reducePow, Nat.reduceMod,
      Nat.reduceDiv, hits_none]
    simp [hits]
  simp only [encode, decodeCode, decodeArm, hl, bit, decodeCoproc]
  simp (disch := decide) only [fld_append_high, fld_append_low, Nat.reduceSub, fld_self]
  simp [fld, one_eq, condOf_bits]

theorem RoundTrip.stc (c : Cond) (ix : CopIndex) (rn crd cp : RegNum) (offset : Byte) :
    RoundTrip.Statement (.stc c ix rn crd cp offset) := by
  intro _
  have hl : armLine (c.bits ++ 0b110#3 ++ one ix.p ++ one ix.u ++ one ix.n ++ one ix.w ++ 0#1 ++ rn ++ crd ++ cp ++ offset) = .coproc := by
    simp only [armLine, hits_append, Nat.reducePow, Nat.reduceMod,
      Nat.reduceDiv, hits_none]
    simp [hits]
  simp only [encode, decodeCode, decodeArm, hl, bit, decodeCoproc]
  simp (disch := decide) only [fld_append_high, fld_append_low, Nat.reduceSub, fld_self]
  simp [fld, one_eq, condOf_bits]

theorem RoundTrip.cdp (c : Cond) (op1 crn crd cp : RegNum) (op2 : BitVec 3) (crm : RegNum) :
    RoundTrip.Statement (.cdp c op1 crn crd cp op2 crm) := by
  intro _
  have hl : armLine (c.bits ++ 0b1110#4 ++ op1 ++ crn ++ crd ++ cp ++ op2 ++ 0#1 ++ crm) = .coproc := by
    simp only [armLine, hits_append, Nat.reducePow, Nat.reduceMod,
      Nat.reduceDiv, hits_none]
    simp [hits]
  simp only [encode, decodeCode, decodeArm, hl, bit, decodeCoproc]
  simp (disch := decide) only [fld_append_high, fld_append_low, Nat.reduceSub, fld_self]
  simp [fld, one_eq, condOf_bits]

theorem RoundTrip.mrc (c : Cond) (op1 : BitVec 3) (crn rd cp : RegNum) (op2 : BitVec 3) (crm : RegNum) :
    RoundTrip.Statement (.mrc c op1 crn rd cp op2 crm) := by
  intro _
  have hl : armLine (c.bits ++ 0b1110#4 ++ op1 ++ 1#1 ++ crn ++ rd ++ cp ++ op2 ++ 1#1 ++ crm) = .coproc := by
    simp only [armLine, hits_append, Nat.reducePow, Nat.reduceMod,
      Nat.reduceDiv, hits_none]
    simp [hits]
  simp only [encode, decodeCode, decodeArm, hl, bit, decodeCoproc]
  simp (disch := decide) only [fld_append_high, fld_append_low, Nat.reduceSub, fld_self]
  simp [fld, one_eq, condOf_bits]

theorem RoundTrip.mcr (c : Cond) (op1 : BitVec 3) (crn rd cp : RegNum) (op2 : BitVec 3) (crm : RegNum) :
    RoundTrip.Statement (.mcr c op1 crn rd cp op2 crm) := by
  intro _
  have hl : armLine (c.bits ++ 0b1110#4 ++ op1 ++ 0#1 ++ crn ++ rd ++ cp ++ op2 ++ 1#1 ++ crm) = .coproc := by
    simp only [armLine, hits_append, Nat.reducePow, Nat.reduceMod,
      Nat.reduceDiv, hits_none]
    simp [hits]
  simp only [encode, decodeCode, decodeArm, hl, bit, decodeCoproc]
  simp (disch := decide) only [fld_append_high, fld_append_low, Nat.reduceSub, fld_self]
  simp [fld, one_eq, condOf_bits]

theorem RoundTrip.swi (c : Cond) (comment : BitVec 24) :
    RoundTrip.Statement (.swi c comment) := by
  intro _
  have hl : armLine (c.bits ++ 0xF#4 ++ comment) = .swi := by
    simp only [armLine, hits_append, Nat.reducePow, Nat.reduceMod,
      Nat.reduceDiv, hits_none]
    simp [hits]
  simp only [encode, decodeCode, decodeArm, hl, bit]
  simp (disch := decide) only [fld_append_high, fld_append_low, Nat.reduceSub, fld_self]
  simp [fld, one_eq, condOf_bits]

theorem RoundTrip.tAddReg (rn rs rd : LowReg) :
    RoundTrip.Statement (.tAddReg rn rs rd) := by
  intro _
  have hl : thumbLine (0b0001100#7 ++ rn ++ rs ++ rd) = .f2 := by
    simp only [thumbLine, hits_append, Nat.reducePow, Nat.reduceMod,
      Nat.reduceDiv, hits_none]
    simp [hits]
  simp only [encode, decodeCode, decodeThumb, hl, bit]
  simp (disch := decide) only [fld_append_high, fld_append_low, Nat.reduceSub, fld_self]
  simp [fld, one_eq, condOf_bits]

theorem RoundTrip.tSubReg (rn rs rd : LowReg) :
    RoundTrip.Statement (.tSubReg rn rs rd) := by
  intro _
  have hl : thumbLine (0b0001101#7 ++ rn ++ rs ++ rd) = .f2 := by
    simp only [thumbLine, hits_append, Nat.reducePow, Nat.reduceMod,
      Nat.reduceDiv, hits_none]
    simp [hits]
  simp only [encode, decodeCode, decodeThumb, hl, bit]
  simp (disch := decide) only [fld_append_high, fld_append_low, Nat.reduceSub, fld_self]
  simp [fld, one_eq, condOf_bits]

theorem RoundTrip.tAddImm3 (imm3 : BitVec 3) (rs rd : LowReg) :
    RoundTrip.Statement (.tAddImm3 imm3 rs rd) := by
  intro _
  have hl : thumbLine (0b0001110#7 ++ imm3 ++ rs ++ rd) = .f2 := by
    simp only [thumbLine, hits_append, Nat.reducePow, Nat.reduceMod,
      Nat.reduceDiv, hits_none]
    simp [hits]
  simp only [encode, decodeCode, decodeThumb, hl, bit]
  simp (disch := decide) only [fld_append_high, fld_append_low, Nat.reduceSub, fld_self]
  simp [fld, one_eq, condOf_bits]

theorem RoundTrip.tSubImm3 (imm3 : BitVec 3) (rs rd : LowReg) :
    RoundTrip.Statement (.tSubImm3 imm3 rs rd) := by
  intro _
  have hl : thumbLine (0b0001111#7 ++ imm3 ++ rs ++ rd) = .f2 := by
    simp only [thumbLine, hits_append, Nat.reducePow, Nat.reduceMod,
      Nat.reduceDiv, hits_none]
    simp [hits]
  simp only [encode, decodeCode, decodeThumb, hl, bit]
  simp (disch := decide) only [fld_append_high, fld_append_low, Nat.reduceSub, fld_self]
  simp [fld, one_eq, condOf_bits]

theorem RoundTrip.tLslImm (amount : BitVec 5) (rs rd : LowReg) :
    RoundTrip.Statement (.tLslImm amount rs rd) := by
  intro _
  have hl : thumbLine (0b00000#5 ++ amount ++ rs ++ rd) = .f1 := by
    simp only [thumbLine, hits_append, Nat.reducePow, Nat.reduceMod,
      Nat.reduceDiv, hits_none]
    simp [hits]
  simp only [encode, decodeCode, decodeThumb, hl, bit]
  simp (disch := decide) only [fld_append_high, fld_append_low, Nat.reduceSub, fld_self]
  simp [fld, one_eq, condOf_bits]

theorem RoundTrip.tLsrImm (amount : BitVec 5) (rs rd : LowReg) :
    RoundTrip.Statement (.tLsrImm amount rs rd) := by
  intro _
  have hl : thumbLine (0b00001#5 ++ amount ++ rs ++ rd) = .f1 := by
    simp only [thumbLine, hits_append, Nat.reducePow, Nat.reduceMod,
      Nat.reduceDiv, hits_none]
    simp [hits]
  simp only [encode, decodeCode, decodeThumb, hl, bit]
  simp (disch := decide) only [fld_append_high, fld_append_low, Nat.reduceSub, fld_self]
  simp [fld, one_eq, condOf_bits]

theorem RoundTrip.tAsrImm (amount : BitVec 5) (rs rd : LowReg) :
    RoundTrip.Statement (.tAsrImm amount rs rd) := by
  intro _
  have hl : thumbLine (0b00010#5 ++ amount ++ rs ++ rd) = .f1 := by
    simp only [thumbLine, hits_append, Nat.reducePow, Nat.reduceMod,
      Nat.reduceDiv, hits_none]
    simp [hits]
  simp only [encode, decodeCode, decodeThumb, hl, bit]
  simp (disch := decide) only [fld_append_high, fld_append_low, Nat.reduceSub, fld_self]
  simp [fld, one_eq, condOf_bits]

theorem RoundTrip.tMovImm8 (rd : LowReg) (imm8 : Byte) :
    RoundTrip.Statement (.tMovImm8 rd imm8) := by
  intro _
  have hl : thumbLine (0b00100#5 ++ rd ++ imm8) = .f3 := by
    simp only [thumbLine, hits_append, Nat.reducePow, Nat.reduceMod,
      Nat.reduceDiv, hits_none]
    simp [hits]
  simp only [encode, decodeCode, decodeThumb, hl, bit]
  simp (disch := decide) only [fld_append_high, fld_append_low, Nat.reduceSub, fld_self]
  simp [fld, one_eq, condOf_bits]

theorem RoundTrip.tCmpImm8 (rd : LowReg) (imm8 : Byte) :
    RoundTrip.Statement (.tCmpImm8 rd imm8) := by
  intro _
  have hl : thumbLine (0b00101#5 ++ rd ++ imm8) = .f3 := by
    simp only [thumbLine, hits_append, Nat.reducePow, Nat.reduceMod,
      Nat.reduceDiv, hits_none]
    simp [hits]
  simp only [encode, decodeCode, decodeThumb, hl, bit]
  simp (disch := decide) only [fld_append_high, fld_append_low, Nat.reduceSub, fld_self]
  simp [fld, one_eq, condOf_bits]

theorem RoundTrip.tAddImm8 (rd : LowReg) (imm8 : Byte) :
    RoundTrip.Statement (.tAddImm8 rd imm8) := by
  intro _
  have hl : thumbLine (0b00110#5 ++ rd ++ imm8) = .f3 := by
    simp only [thumbLine, hits_append, Nat.reducePow, Nat.reduceMod,
      Nat.reduceDiv, hits_none]
    simp [hits]
  simp only [encode, decodeCode, decodeThumb, hl, bit]
  simp (disch := decide) only [fld_append_high, fld_append_low, Nat.reduceSub, fld_self]
  simp [fld, one_eq, condOf_bits]

theorem RoundTrip.tSubImm8 (rd : LowReg) (imm8 : Byte) :
    RoundTrip.Statement (.tSubImm8 rd imm8) := by
  intro _
  have hl : thumbLine (0b00111#5 ++ rd ++ imm8) = .f3 := by
    simp only [thumbLine, hits_append, Nat.reducePow, Nat.reduceMod,
      Nat.reduceDiv, hits_none]
    simp [hits]
  simp only [encode, decodeCode, decodeThumb, hl, bit]
  simp (disch := decide) only [fld_append_high, fld_append_low, Nat.reduceSub, fld_self]
  simp [fld, one_eq, condOf_bits]

theorem RoundTrip.tAnd (rs rd : LowReg) :
    RoundTrip.Statement (.tAnd rs rd) := by
  intro _
  obtain ⟨h1, h2, h3⟩ := fields_f4 0 rs rd
  simp only [encode, decodeCode, decodeThumb, thumbLine_f4, decodeF4, h1, h2, h3]
  rfl

theorem RoundTrip.tEor (rs rd : LowReg) :
    RoundTrip.Statement (.tEor rs rd) := by
  intro _
  obtain ⟨h1, h2, h3⟩ := fields_f4 1 rs rd
  simp only [encode, decodeCode, decodeThumb, thumbLine_f4, decodeF4, h1, h2, h3]
  rfl

theorem RoundTrip.tLslReg (rs rd : LowReg) :
    RoundTrip.Statement (.tLslReg rs rd) := by
  intro _
  obtain ⟨h1, h2, h3⟩ := fields_f4 2 rs rd
  simp only [encode, decodeCode, decodeThumb, thumbLine_f4, decodeF4, h1, h2, h3]
  rfl

theorem RoundTrip.tLsrReg (rs rd : LowReg) :
    RoundTrip.Statement (.tLsrReg rs rd) := by
  intro _
  obtain ⟨h1, h2, h3⟩ := fields_f4 3 rs rd
  simp only [encode, decodeCode, decodeThumb, thumbLine_f4, decodeF4, h1, h2, h3]
  rfl

theorem RoundTrip.tAsrReg (rs rd : LowReg) :
    RoundTrip.Statement (.tAsrReg rs rd) := by
  intro _
  obtain ⟨h1, h2, h3⟩ := fields_f4 4 rs rd
  simp only [encode, decodeCode, decodeThumb, thumbLine_f4, decodeF4, h1, h2, h3]
  rfl

theorem RoundTrip.tAdc (rs rd : LowReg) :
    RoundTrip.Statement (.tAdc rs rd) := by
  intro _
  obtain ⟨h1, h2, h3⟩ := fields_f4 5 rs rd
  simp only [encode, decodeCode, decodeThumb, thumbLine_f4, decodeF4, h1, h2, h3]
  rfl

theorem RoundTrip.tSbc (rs rd : LowReg) :
    RoundTrip.Statement (.tSbc rs rd) := by
  intro _
  obtain ⟨h1, h2, h3⟩ := fields_f4 6 rs rd
  simp only [encode, decodeCode, decodeThumb, thumbLine_f4, decodeF4, h1, h2, h3]
  rfl

theorem RoundTrip.tRorReg (rs rd : LowReg) :
    RoundTrip.Statement (.tRorReg rs rd) := by
  intro _
  obtain ⟨h1, h2, h3⟩ := fields_f4 7 rs rd
  simp only [encode, decodeCode, decodeThumb, thumbLine_f4, decodeF4, h1, h2, h3]
  rfl

theorem RoundTrip.tTst (rs rd : LowReg) :
    RoundTrip.Statement (.tTst rs rd) := by
  intro _
  obtain ⟨h1, h2, h3⟩ := fields_f4 8 rs rd
  simp only [encode, decodeCode, decodeThumb, thumbLine_f4, decodeF4, h1, h2, h3]
  rfl

theorem RoundTrip.tNeg (rs rd : LowReg) :
    RoundTrip.Statement (.tNeg rs rd) := by
  intro _
  obtain ⟨h1, h2, h3⟩ := fields_f4 9 rs rd
  simp only [encode, decodeCode, decodeThumb, thumbLine_f4, decodeF4, h1, h2, h3]
  rfl

theorem RoundTrip.tCmpReg (rs rd : LowReg) :
    RoundTrip.Statement (.tCmpReg rs rd) := by
  intro _
  obtain ⟨h1, h2, h3⟩ := fields_f4 10 rs rd
  simp only [encode, decodeCode, decodeThumb, thumbLine_f4, decodeF4, h1, h2, h3]
  rfl

theorem RoundTrip.tCmn (rs rd : LowReg) :
    RoundTrip.Statement (.tCmn rs rd) := by
  intro _
  obtain ⟨h1, h2, h3⟩ := fields_f4 11 rs rd
  simp only [encode, decodeCode, decodeThumb, thumbLine_f4, decodeF4, h1, h2, h3]
  rfl

theorem RoundTrip.tOrr (rs rd : LowReg) :
    RoundTrip.Statement (.tOrr rs rd) := by
  intro _
  obtain ⟨h1, h2, h3⟩ := fields_f4 12 rs rd
  simp only [encode, decodeCode, decodeThumb, thumbLine_f4, decodeF4, h1, h2, h3]
  rfl

theorem RoundTrip.tMul (rs rd : LowReg) :
    RoundTrip.Statement (.tMul rs rd) := by
  intro _
  obtain ⟨h1, h2, h3⟩ := fields_f4 13 rs rd
  simp only [encode, decodeCode, decodeThumb, thumbLine_f4, decodeF4, h1, h2, h3]
  rfl

theorem RoundTrip.tBic (rs rd : LowReg) :
    RoundTrip.Statement (.tBic rs rd) := by
  intro _
  obtain ⟨h1, h2, h3⟩ := fields_f4 14 rs rd
  simp only [encode, decodeCode, decodeThumb, thumbLine_f4, decodeF4, h1, h2, h3]
  rfl

theorem RoundTrip.tMvn (rs rd : LowReg) :
    RoundTrip.Statement (.tMvn rs rd) := by
  intro _
  obtain ⟨h1, h2, h3⟩ := fields_f4 15 rs rd
  simp only [encode, decodeCode, decodeThumb, thumbLine_f4, decodeF4, h1, h2, h3]
  rfl

theorem RoundTrip.tAddHi (rd rs : RegNum) :
    RoundTrip.Statement (.tAddHi rd rs) := by
  intro _
  obtain ⟨h1, h2, h3, h4⟩ := fields_f5 0 rd rs
  simp only [encode, decodeCode, decodeThumb, thumbLine_f5, decodeF5, h1, h2, h3, h4]
  rfl

theorem RoundTrip.tCmpHi (rd rs : RegNum) :
    RoundTrip.Statement (.tCmpHi rd rs) := by
  intro _
  obtain ⟨h1, h2, h3, h4⟩ := fields_f5 1 rd rs
  simp only [encode, decodeCode, decodeThumb, thumbLine_f5, decodeF5, h1, h2, h3, h4]
  rfl

theorem RoundTrip.tMovHi (rd rs : RegNum) :
    RoundTrip.Statement (.tMovHi rd rs) := by
  intro _
  obtain ⟨h1, h2, h3, h4⟩ := fields_f5 2 rd rs
  simp only [encode, decodeCode, decodeThumb, thumbLine_f5, decodeF5, h1, h2, h3, h4]
  rfl

theorem RoundTrip.tBx (ign rs : RegNum) :
    RoundTrip.Statement (.tBx ign rs) := by
  intro _
  obtain ⟨h1, h2, h3, h4⟩ := fields_f5 3 ign rs
  simp only [encode, decodeCode, decodeThumb, thumbLine_f5, decodeF5, h1, h2, h3, h4]
  rfl

theorem RoundTrip.tLdrPc (rd : LowReg) (word8 : Byte) :
    RoundTrip.Statement (.tLdrPc rd word8) := by
  intro _
  have hl : thumbLine (0b01001#5 ++ rd ++ word8) = .f6 := by
    simp only [thumbLine, hits_append, Nat.reducePow, Nat.reduceMod,
      Nat.reduceDiv, hits_none]
    simp [hits]
  simp only [encode, decodeCode, decodeThumb, hl, bit]
  simp (disch := decide) only [fld_append_high, fld_append_low, Nat.reduceSub, fld_self]

theorem RoundTrip.tStrReg (ro rb rd : LowReg) :
    RoundTrip.Statement (.tStrReg ro rb rd) := by
  intro _
  have hl : thumbLine (0b0101000#7 ++ ro ++ rb ++ rd) = .f7 := by
    simp only [thumbLine, hits_append, Nat.reducePow, Nat.reduceMod,
      Nat.reduceDiv, hits_none]
    simp [hits]
  simp only [encode, decodeCode, decodeThumb, hl, bit]
  simp (disch := decide) only [fld_append_high, fld_append_low, Nat.reduceSub, fld_self]
  simp [fld, one_eq, condOf_bits]

theorem RoundTrip.tStrbReg (ro rb rd : LowReg) :
    RoundTrip.Statement (.tStrbReg ro rb rd) := by
  intro _
  have hl : thumbLine (0b0101010#7 ++ ro ++ rb ++ rd) = .f7 := by
    simp only [thumbLine, hits_append, Nat.reducePow, Nat.reduceMod,
      Nat.reduceDiv, hits_none]
    simp [hits]
  simp only [encode, decodeCode, decodeThumb, hl, bit]
  simp (disch := decide) only [fld_append_high, fld_append_low, Nat.reduceSub, fld_self]
  simp [fld, one_eq, condOf_bits]

theorem RoundTrip.tLdrReg (ro rb rd : LowReg) :
    RoundTrip.Statement (.tLdrReg ro rb rd) := by
  intro _
  have hl : thumbLine (0b0101100#7 ++ ro ++ rb ++ rd) = .f7 := by
    simp only [thumbLine, hits_append, Nat.reducePow, Nat.reduceMod,
      Nat.reduceDiv, hits_none]
    simp [hits]
  simp only [encode, decodeCode, decodeThumb, hl, bit]
  simp (disch := decide) only [fld_append_high, fld_append_low, Nat.reduceSub, fld_self]
  simp [fld, one_eq, condOf_bits]

theorem RoundTrip.tLdrbReg (ro rb rd : LowReg) :
    RoundTrip.Statement (.tLdrbReg ro rb rd) := by
  intro _
  have hl : thumbLine (0b0101110#7 ++ ro ++ rb ++ rd) = .f7 := by
    simp only [thumbLine, hits_append, Nat.reducePow, Nat.reduceMod,
      Nat.reduceDiv, hits_none]
    simp [hits]
  simp only [encode, decodeCode, decodeThumb, hl, bit]
  simp (disch := decide) only [fld_append_high, fld_append_low, Nat.reduceSub, fld_self]
  simp [fld, one_eq, condOf_bits]

theorem RoundTrip.tStrhReg (ro rb rd : LowReg) :
    RoundTrip.Statement (.tStrhReg ro rb rd) := by
  intro _
  have hl : thumbLine (0b0101001#7 ++ ro ++ rb ++ rd) = .f8 := by
    simp only [thumbLine, hits_append, Nat.reducePow, Nat.reduceMod,
      Nat.reduceDiv, hits_none]
    simp [hits]
  simp only [encode, decodeCode, decodeThumb, hl, bit]
  simp (disch := decide) only [fld_append_high, fld_append_low, Nat.reduceSub, fld_self]
  simp [fld, one_eq, condOf_bits]

theorem RoundTrip.tLdsb (ro rb rd : LowReg) :
    RoundTrip.Statement (.tLdsb ro rb rd) := by
  intro _
  have hl : thumbLine (0b0101011#7 ++ ro ++ rb ++ rd) = .f8 := by
    simp only [thumbLine, hits_append, Nat.reducePow, Nat.reduceMod,
      Nat.reduceDiv, hits_none]
    simp [hits]
  simp only [encode, decodeCode, decodeThumb, hl, bit]
  simp (disch := decide) only [fld_append_high, fld_append_low, Nat.reduceSub, fld_self]
  simp [fld, one_eq, condOf_bits]

theorem RoundTrip.tLdrhReg (ro rb rd : LowReg) :
    RoundTrip.Statement (.tLdrhReg ro rb rd) := by
  intro _
  have hl : thumbLine (0b0101101#7 ++ ro ++ rb ++ rd) = .f8 := by
    simp only [thumbLine, hits_append, Nat.reducePow, Nat.reduceMod,
      Nat.reduceDiv, hits_none]
    simp [hits]
  simp only [encode, decodeCode, decodeThumb, hl, bit]
  simp (disch := decide) only [fld_append_high, fld_append_low, Nat.reduceSub, fld_self]
  simp [fld, one_eq, condOf_bits]

theorem RoundTrip.tLdsh (ro rb rd : LowReg) :
    RoundTrip.Statement (.tLdsh ro rb rd) := by
  intro _
  have hl : thumbLine (0b0101111#7 ++ ro ++ rb ++ rd) = .f8 := by
    simp only [thumbLine, hits_append, Nat.reducePow, Nat.reduceMod,
      Nat.reduceDiv, hits_none]
    simp [hits]
  simp only [encode, decodeCode, decodeThumb, hl, bit]
  simp (disch := decide) only [fld_append_high, fld_append_low, Nat.reduceSub, fld_self]
  simp [fld, one_eq, condOf_bits]

theorem RoundTrip.tStrImm (offset : BitVec 5) (rb rd : LowReg) :
    RoundTrip.Statement (.tStrImm offset rb rd) := by
  intro _
  have hl : thumbLine (0b01100#5 ++ offset ++ rb ++ rd) = .f9 := by
    simp only [thumbLine, hits_append, Nat.reducePow, Nat.reduceMod,
      Nat.reduceDiv, hits_none]
    simp [hits]
  simp only [encode, decodeCode, decodeThumb, hl, bit]
  simp (disch := decide) only [fld_append_high, fld_append_low, Nat.reduceSub, fld_self]
  simp [fld, one_eq, condOf_bits]

theorem RoundTrip.tLdrImm (offset : BitVec 5) (rb rd : LowReg) :
    RoundTrip.Statement (.tLdrImm offset rb rd) := by
  intro _
  have hl : thumbLine (0b01101#5 ++ offset ++ rb ++ rd) = .f9 := by
    simp only [thumbLine, hits_append, Nat.reducePow, Nat.reduceMod,
      Nat.reduceDiv, hits_none]
    simp [hits]
  simp only [encode, decodeCode, decodeThumb, hl, bit]
  simp (disch := decide) only [fld_append_high, fld_append_low, Nat.reduceSub, fld_self]
  simp [fld, one_eq, condOf_bits]

theorem RoundTrip.tStrbImm (offset : BitVec 5) (rb rd : LowReg) :
    RoundTrip.Statement (.tStrbImm offset rb rd) := by
  intro _
  have hl : thumbLine (0b01110#5 ++ offset ++ rb ++ rd) = .f9 := by
    simp only [thumbLine, hits_append, Nat.reducePow, Nat.reduceMod,
      Nat.reduceDiv, hits_none]
    simp [hits]
  simp only [encode, decodeCode, decodeThumb, hl, bit]
  simp (disch := decide) only [fld_append_high, fld_append_low, Nat.reduceSub, fld_self]
  simp [fld, one_eq, condOf_bits]

theorem RoundTrip.tLdrbImm (offset : BitVec 5) (rb rd : LowReg) :
    RoundTrip.Statement (.tLdrbImm offset rb rd) := by
  intro _
  have hl : thumbLine (0b01111#5 ++ offset ++ rb ++ rd) = .f9 := by
    simp only [thumbLine, hits_append, Nat.reducePow, Nat.reduceMod,
      Nat.reduceDiv, hits_none]
    simp [hits]
  simp only [encode, decodeCode, decodeThumb, hl, bit]
  simp (disch := decide) only [fld_append_high, fld_append_low, Nat.reduceSub, fld_self]
  simp [fld, one_eq, condOf_bits]

theorem RoundTrip.tStrhImm (offset : BitVec 5) (rb rd : LowReg) :
    RoundTrip.Statement (.tStrhImm offset rb rd) := by
  intro _
  have hl : thumbLine (0b10000#5 ++ offset ++ rb ++ rd) = .f10 := by
    simp only [thumbLine, hits_append, Nat.reducePow, Nat.reduceMod,
      Nat.reduceDiv, hits_none]
    simp [hits]
  simp only [encode, decodeCode, decodeThumb, hl, bit]
  simp (disch := decide) only [fld_append_high, fld_append_low, Nat.reduceSub, fld_self]
  simp [fld, one_eq, condOf_bits]

theorem RoundTrip.tLdrhImm (offset : BitVec 5) (rb rd : LowReg) :
    RoundTrip.Statement (.tLdrhImm offset rb rd) := by
  intro _
  have hl : thumbLine (0b10001#5 ++ offset ++ rb ++ rd) = .f10 := by
    simp only [thumbLine, hits_append, Nat.reducePow, Nat.reduceMod,
      Nat.reduceDiv, hits_none]
    simp [hits]
  simp only [encode, decodeCode, decodeThumb, hl, bit]
  simp (disch := decide) only [fld_append_high, fld_append_low, Nat.reduceSub, fld_self]
  simp [fld, one_eq, condOf_bits]

theorem RoundTrip.tStrSp (rd : LowReg) (word8 : Byte) :
    RoundTrip.Statement (.tStrSp rd word8) := by
  intro _
  have hl : thumbLine (0b10010#5 ++ rd ++ word8) = .f11 := by
    simp only [thumbLine, hits_append, Nat.reducePow, Nat.reduceMod,
      Nat.reduceDiv, hits_none]
    simp [hits]
  simp only [encode, decodeCode, decodeThumb, hl, bit]
  simp (disch := decide) only [fld_append_high, fld_append_low, Nat.reduceSub, fld_self]
  simp [fld, one_eq, condOf_bits]

theorem RoundTrip.tLdrSp (rd : LowReg) (word8 : Byte) :
    RoundTrip.Statement (.tLdrSp rd word8) := by
  intro _
  have hl : thumbLine (0b10011#5 ++ rd ++ word8) = .f11 := by
    simp only [thumbLine, hits_append, Nat.reducePow, Nat.reduceMod,
      Nat.reduceDiv, hits_none]
    simp [hits]
  simp only [encode, decodeCode, decodeThumb, hl, bit]
  simp (disch := decide) only [fld_append_high, fld_append_low, Nat.reduceSub, fld_self]
  simp [fld, one_eq, condOf_bits]

theorem RoundTrip.tAddPc (rd : LowReg) (word8 : Byte) :
    RoundTrip.Statement (.tAddPc rd word8) := by
  intro _
  have hl : thumbLine (0b10100#5 ++ rd ++ word8) = .f12 := by
    simp only [thumbLine, hits_append, Nat.reducePow, Nat.reduceMod,
      Nat.reduceDiv, hits_none]
    simp [hits]
  simp only [encode, decodeCode, decodeThumb, hl, bit]
  simp (disch := decide) only [fld_append_high, fld_append_low, Nat.reduceSub, fld_self]
  simp [fld, one_eq, condOf_bits]

theorem RoundTrip.tAddSp (rd : LowReg) (word8 : Byte) :
    RoundTrip.Statement (.tAddSp rd word8) := by
  intro _
  have hl : thumbLine (0b10101#5 ++ rd ++ word8) = .f12 := by
    simp only [thumbLine, hits_append, Nat.reducePow, Nat.reduceMod,
      Nat.reduceDiv, hits_none]
    simp [hits]
  simp only [encode, decodeCode, decodeThumb, hl, bit]
  simp (disch := decide) only [fld_append_high, fld_append_low, Nat.reduceSub, fld_self]
  simp [fld, one_eq, condOf_bits]

theorem RoundTrip.tAddSpImm (neg : Bool) (word7 : BitVec 7) :
    RoundTrip.Statement (.tAddSpImm neg word7) := by
  intro _
  have hl : thumbLine (0xB0#8 ++ one neg ++ word7) = .f13 := by
    simp only [thumbLine, hits_append, Nat.reducePow, Nat.reduceMod,
      Nat.reduceDiv, hits_none]
    simp [hits]
  simp only [encode, decodeCode, decodeThumb, hl, bit]
  simp (disch := decide) only [fld_append_high, fld_append_low, Nat.reduceSub, fld_self]
  simp [fld, one_eq, condOf_bits]

theorem RoundTrip.tPush (r : Bool) (list : Byte) :
    RoundTrip.Statement (.tPush r list) := by
  intro _
  have hl : thumbLine (0b1011010#7 ++ one r ++ list) = .f14 := by
    simp only [thumbLine, hits_append, Nat.reducePow, Nat.reduceMod,
      Nat.reduceDiv, hits_none]
    simp [hits]
  simp only [encode, decodeCode, decodeThumb, hl, bit]
  simp (disch := decide) only [fld_append_high, fld_append_low, Nat.reduceSub, fld_self]
  simp [fld, one_eq, condOf_bits]

theorem RoundTrip.tPop (r : Bool) (list : Byte) :
    RoundTrip.Statement (.tPop r list) := by
  intro _
  have hl : thumbLine (0b1011110#7 ++ one r ++ list) = .f14 := by
    simp only [thumbLine, hits_append, Nat.reducePow, Nat.reduceMod,
      Nat.reduceDiv, hits_none]
    simp [hits]
  simp only [encode, decodeCode, decodeThumb, hl, bit]
  simp (disch := decide) only [fld_append_high, fld_append_low, Nat.reduceSub, fld_self]
  simp [fld, one_eq, condOf_bits]

theorem RoundTrip.tUnd1011 (rest : BitVec 12) :
    RoundTrip.Statement (.tUnd1011 rest) := by
  intro hw
  simp only [Instr.wf, Bool.and_eq_true, Bool.not_eq_true'] at hw
  have h : hits (0xB#4 ++ rest : Half) 0xF000 0xB000 = true := by
    simp only [hits_append, Nat.reducePow, Nat.reduceMod, Nat.reduceDiv, hits_none]
    simp [hits]
  have hr : fld (0xB#4 ++ rest : Half) 0 12 = rest := by
    rw [fld_append_low _ _ _ _ (by decide)]; exact fld_self _
  have d0 := hits_disagree _ _ _ 0xF800 0x1800 h (by decide)
  have d1 := hits_disagree _ _ _ 0xE000 0x0000 h (by decide)
  have d2 := hits_disagree _ _ _ 0xE000 0x2000 h (by decide)
  have d3 := hits_disagree _ _ _ 0xFC00 0x4000 h (by decide)
  have d4 := hits_disagree _ _ _ 0xFC00 0x4400 h (by decide)
  have d5 := hits_disagree _ _ _ 0xF800 0x4800 h (by decide)
  have d6 := hits_disagree _ _ _ 0xF200 0x5000 h (by decide)
  have d7 := hits_disagree _ _ _ 0xF200 0x5200 h (by decide)
  have d8 := hits_disagree _ _ _ 0xE000 0x6000 h (by decide)
  have d9 := hits_disagree _ _ _ 0xF000 0x8000 h (by decide)
  have d10 := hits_disagree _ _ _ 0xF000 0x9000 h (by decide)
  have d11 := hits_disagree _ _ _ 0xF000 0xA000 h (by decide)
  have hl : thumbLine (0xB#4 ++ rest) = .und1011 := by
    simp [thumbLine, h, hw.1, hw.2, d0, d1, d2, d3, d4, d5, d6, d7, d8, d9, d10, d11]
  simp [encode, decodeCode, decodeThumb, hl, hr]

theorem RoundTrip.tStmia (rb : LowReg) (list : Byte) :
    RoundTrip.Statement (.tStmia rb list) := by
  intro _
  have hl : thumbLine (0b11000#5 ++ rb ++ list) = .f15 := by
    simp only [thumbLine, hits_append, Nat.reducePow, Nat.reduceMod,
      Nat.reduceDiv, hits_none]
    simp [hits]
  simp only [encode, decodeCode, decodeThumb, hl, bit]
  simp (disch := decide) only [fld_append_high, fld_append_low, Nat.reduceSub, fld_self]
  simp [fld, one_eq, condOf_bits]

theorem RoundTrip.tLdmia (rb : LowReg) (list : Byte) :
    RoundTrip.Statement (.tLdmia rb list) := by
  intro _
  have hl : thumbLine (0b11001#5 ++ rb ++ list) = .f15 := by
    simp only [thumbLine, hits_append, Nat.reducePow, Nat.reduceMod,
      Nat.reduceDiv, hits_none]
    simp [hits]
  simp only [encode, decodeCode, decodeThumb, hl, bit]
  simp (disch := decide) only [fld_append_high, fld_append_low, Nat.reduceSub, fld_self]
  simp [fld, one_eq, condOf_bits]

theorem RoundTrip.tSwi (value : Byte) :
    RoundTrip.Statement (.tSwi value) := by
  intro _
  have hl : thumbLine (0xDF#8 ++ value) = .f17 := by
    simp only [thumbLine, hits_append, Nat.reducePow, Nat.reduceMod,
      Nat.reduceDiv, hits_none]
    simp [hits]
  simp only [encode, decodeCode, decodeThumb, hl, bit]
  simp (disch := decide) only [fld_append_high, fld_append_low, Nat.reduceSub, fld_self]

theorem RoundTrip.tUndCond (rest : Byte) :
    RoundTrip.Statement (.tUndCond rest) := by
  intro _
  have hl : thumbLine (0xDE#8 ++ rest) = .undCond := by
    simp only [thumbLine, hits_append, Nat.reducePow, Nat.reduceMod,
      Nat.reduceDiv, hits_none]
    simp [hits]
  simp only [encode, decodeCode, decodeThumb, hl, bit]
  simp (disch := decide) only [fld_append_high, fld_append_low, Nat.reduceSub, fld_self]

theorem RoundTrip.tBCond (c : Cond) (offset : Byte) :
    RoundTrip.Statement (.tBCond c offset) := by
  intro hw
  have hc : ¬(c.bits &&& 15#4 = 15#4) ∧ ¬(c.bits &&& 15#4 = 14#4) := by
    cases c <;> simp_all [Instr.wf, Cond.bits]
  have hl : thumbLine (0xD#4 ++ c.bits ++ offset) = .f16 := by
    simp only [thumbLine, hits_append, Nat.reducePow, Nat.reduceMod,
      Nat.reduceDiv, hits_none]
    simp [hits, hc]
  simp only [encode, decodeCode, decodeThumb, hl, bit]
  simp (disch := decide) only [fld_append_high, fld_append_low, Nat.reduceSub, fld_self]
  simp [fld, one_eq, condOf_bits]

theorem RoundTrip.tB (offset : BitVec 11) :
    RoundTrip.Statement (.tB offset) := by
  intro _
  have hl : thumbLine (0b11100#5 ++ offset) = .f18 := by
    simp only [thumbLine, hits_append, Nat.reducePow, Nat.reduceMod,
      Nat.reduceDiv, hits_none]
    simp [hits]
  simp only [encode, decodeCode, decodeThumb, hl, bit]
  simp (disch := decide) only [fld_append_high, fld_append_low, Nat.reduceSub, fld_self]

theorem RoundTrip.tUnd11101 (rest : BitVec 11) :
    RoundTrip.Statement (.tUnd11101 rest) := by
  intro _
  have hl : thumbLine (0b11101#5 ++ rest) = .und11101 := by
    simp only [thumbLine, hits_append, Nat.reducePow, Nat.reduceMod,
      Nat.reduceDiv, hits_none]
    simp [hits]
  simp only [encode, decodeCode, decodeThumb, hl, bit]
  simp (disch := decide) only [fld_append_high, fld_append_low, Nat.reduceSub, fld_self]

theorem RoundTrip.tBlPrefix (offset : BitVec 11) :
    RoundTrip.Statement (.tBlPrefix offset) := by
  intro _
  have hl : thumbLine (0b11110#5 ++ offset) = .f19 := by
    simp only [thumbLine, hits_append, Nat.reducePow, Nat.reduceMod,
      Nat.reduceDiv, hits_none]
    simp [hits]
  simp only [encode, decodeCode, decodeThumb, hl, bit]
  simp (disch := decide) only [fld_append_high, fld_append_low, Nat.reduceSub, fld_self]
  simp [fld, one_eq, condOf_bits]

theorem RoundTrip.tBlSuffix (offset : BitVec 11) :
    RoundTrip.Statement (.tBlSuffix offset) := by
  intro _
  have hl : thumbLine (0b11111#5 ++ offset) = .f19 := by
    simp only [thumbLine, hits_append, Nat.reducePow, Nat.reduceMod,
      Nat.reduceDiv, hits_none]
    simp [hits]
  simp only [encode, decodeCode, decodeThumb, hl, bit]
  simp (disch := decide) only [fld_append_high, fld_append_low, Nat.reduceSub, fld_self]
  simp [fld, one_eq, condOf_bits]

end Sys2Proof.Laws
end

