-- ==== Sys2Proof/Laws/Step.lean ====
section
/-! SUPPORT. What a step can do: the fetch, the refill, and the three ways a step goes (R484). -/

namespace Sys2Proof.Laws

open Sys2Proof.Machine

theorem locate_io {p : Params} {a : Word} {o : BitVec 10} (h : locate p a = .io o) :
    isIo a = true ∧ o = a.extractLsb' 0 10 := by
  cases hio : isIo a
  · exact absurd h (locate_not_io hio o)
  · have h4 := (isIo_iff a).mp hio
    simp only [locate, h4, Target.io.injEq] at h
    exact ⟨rfl, h.symm⟩

theorem externalRead_unclaimed {o : BitVec 10} {s : State} (h : s.params.ioClaims.contains o = false) :
    externalRead o s = (0, s) := by
  rw [externalRead, h]; rfl

theorem claimed_external {a : Word} {s : State} (h : claimed a s = false) (hio : isIo a = true)
    (hr : ioReg (a.extractLsb' 0 10) = .external) : s.params.ioClaims.contains (a.extractLsb' 0 10) = false := by
  simpa [claimed, hio, hr] using h

/-- A byte read that reaches no component outside the core changes nothing. -/
theorem busRead_unclaimed {a : Word} {s : State} (h : claimed a s = false) : (busRead a s).2 = s := by
  unfold busRead
  split
  any_goals rfl
  rename_i o ho
  obtain ⟨hio, rfl⟩ := locate_io ho
  unfold ioReadByte
  split
  any_goals rfl
  rename_i hr
  rw [externalRead_unclaimed (claimed_external h hio hr)]

/-- A byte read that reaches no component outside the core depends on memory, the parameters, the open-bus latch and the
I/O registers of the core alone. -/
theorem readByte_unclaimed {a : Word} {s t : State} (h : claimed a s = false) (hm : t.mem = s.mem)
    (hp : t.params = s.params) (ho : t.openBus = s.openBus)
    (hi : t.dma = s.dma ∧ t.ie = s.ie ∧ t.iff = s.iff ∧ t.ime = s.ime) : readByte a t = readByte a s := by
  unfold readByte busRead
  rw [hp]
  split
  · simp [cellGet, hm]
  · rfl
  · rename_i o hl
    obtain ⟨hio, rfl⟩ := locate_io hl
    unfold ioReadByte
    rw [hi.1, hi.2.1, hi.2.2.1, hi.2.2.2]
    split
    any_goals rfl
    rename_i hr
    have hc := claimed_external h hio hr
    rw [externalRead_unclaimed hc, externalRead_unclaimed (by rw [hp]; exact hc)]
  · simp [openBusLane, ho]

/-- The bytes of the instruction at `a` reach no component outside the core. -/
def QuietFetch (a : Word) (s : State) : Prop :=
  ∀ k, k < (instrBytes s).toNat → claimed (a + BitVec.ofNat 32 k) s = false

theorem QuietFetch.first {a : Word} {s : State} (h : QuietFetch a s) : claimed a s = false := by
  have := h 0 (by unfold instrBytes; split <;> decide)
  rwa [show BitVec.ofNat 32 0 = 0#32 from rfl, BitVec.add_zero] at this

/-- A fetched value depends on memory, the parameters, the open-bus latch and the I/O registers of the core alone. -/
theorem fetchedAt_congr {a : Word} {s t : State} (h : QuietFetch a s) (hm : t.mem = s.mem) (hp : t.params = s.params)
    (ho : t.openBus = s.openBus) (hi : t.dma = s.dma ∧ t.ie = s.ie ∧ t.iff = s.iff ∧ t.ime = s.ime) :
    fetchedAt s.cpsr.t a t = fetchedAt s.cpsr.t a s := by
  have e k (hk : k < (instrBytes s).toNat) : readByte (a + BitVec.ofNat 32 k) t = readByte (a + BitVec.ofNat 32 k) s :=
    readByte_unclaimed (h k hk) hm hp ho hi
  have e0 : readByte a t = readByte a s := readByte_unclaimed h.first hm hp ho hi
  cases ht : s.cpsr.t <;> simp only [instrBytes, ht] at e
  · have E1 : readByte (a + 1) t = readByte (a + 1) s := e 1 (by decide)
    have E2 : readByte (a + 2) t = readByte (a + 2) s := e 2 (by decide)
    have E3 : readByte (a + 3) t = readByte (a + 3) s := e 3 (by decide)
    simp only [fetchedAt, Bool.false_eq_true, if_false, e0, E1, E2, E3]
  · have E1 : readByte (a + 1) t = readByte (a + 1) s := e 1 (by decide)
    simp only [fetchedAt, if_true, e0, E1]

/-- A fetch at an aligned address. -/
theorem fetch_eq {s : State} (h : QuietFetch s.r15 s) (ha : alignPc s.cpsr.t s.r15 = s.r15) :
    memRead (fetchWidth s) s.r15 s = (fetchedAt s.cpsr.t s.r15 s, s) := by
  have e0 : (busRead s.r15 s).2 = s := busRead_unclaimed h.first
  have e k (hk : k < (instrBytes s).toNat) : (busRead (s.r15 + BitVec.ofNat 32 k) s).2 = s := busRead_unclaimed (h k hk)
  cases ht : s.cpsr.t <;> simp only [instrBytes, ht] at e <;> rw [ht] at ha
  · have ha' : s.r15 &&& 0xFFFFFFFC = s.r15 := ha
    have E1 : (busRead (s.r15 + 1) s).2 = s := e 1 (by decide)
    have E2 : (busRead (s.r15 + 2) s).2 = s := e 2 (by decide)
    have E3 : (busRead (s.r15 + 3) s).2 = s := e 3 (by decide)
    simp only [memRead, alignTo, fetchWidth, ht, fetchedAt, readByte, Bool.false_eq_true, if_false, ha', e0, E1, E2, E3]
  · have ha' : s.r15 &&& 0xFFFFFFFE = s.r15 := ha
    have E1 : (busRead (s.r15 + 1) s).2 = s := e 1 (by decide)
    simp only [memRead, alignTo, fetchWidth, ht, fetchedAt, readByte, if_true, ha', e0, E1]

theorem refillOne_eq {s : State} (h : QuietFetch s.r15 s) (ha : alignPc s.cpsr.t s.r15 = s.r15) :
    refillOne s = { s with
      openBus := fetchedAt s.cpsr.t s.r15 s, pipe := s.pipe ++ [fetchedAt s.cpsr.t s.r15 s]
      r15 := s.r15 + instrBytes s, flushed := false } := by
  simp only [refillOne, fetch_eq h ha]

/-- The address after an aligned instruction is aligned. -/
theorem alignPc_next {thumb : Bool} {a : Word} (h : alignPc thumb a = a) :
    alignPc thumb (a + if thumb then 2 else 4) = a + if thumb then 2 else 4 := by
  cases thumb
  · simp only [alignPc, Bool.false_eq_true, if_false] at h ⊢
    have h1 := congrArg BitVec.toNat h
    apply BitVec.eq_of_toNat_eq
    have h2 := align_word_toNat a
    have h3 := align_word_toNat (a + 4)
    simp only [BitVec.ofNat_eq_ofNat, BitVec.toNat_add, BitVec.toNat_ofNat] at *
    omega
  · simp only [alignPc, if_true] at h ⊢
    have h1 := congrArg BitVec.toNat h
    apply BitVec.eq_of_toNat_eq
    have h2 := align_half_toNat a
    have h3 := align_half_toNat (a + 2)
    simp only [BitVec.ofNat_eq_ofNat, BitVec.toNat_add, BitVec.toNat_ofNat] at *
    omega

theorem two_instrBytes (a : Word) (s : State) : a + instrBytes s + instrBytes s = a + 2 * instrBytes s := by
  rw [BitVec.add_assoc]
  congr 1
  rw [instrBytes]
  split <;> rfl

/-- The refill with one entry left. -/
theorem refill_one {s : State} {x : Word} (hp : s.pipe = [x]) (h : QuietFetch s.r15 s)
    (ha : alignPc s.cpsr.t s.r15 = s.r15) :
    refill s = { s with
      openBus := fetchedAt s.cpsr.t s.r15 s, pipe := [x, fetchedAt s.cpsr.t s.r15 s]
      r15 := s.r15 + instrBytes s, flushed := false } := by
  simp only [refill, hp, List.length_singleton, refillOne_eq h ha, List.singleton_append]

/-- The refill after a flush. -/
theorem refill_two {s : State} (hp : s.pipe = []) (h : QuietFetch s.r15 s) (h2 : QuietFetch (s.r15 + instrBytes s) s)
    (ha : alignPc s.cpsr.t s.r15 = s.r15) :
    let first := fetchedAt s.cpsr.t s.r15 s
    let second := fetchedAt s.cpsr.t (s.r15 + instrBytes s) { s with openBus := first }
    refill s = { s with
      openBus := second, pipe := [first, second], r15 := s.r15 + 2 * instrBytes s, flushed := false } := by
  intro first second
  have e1 : refillOne s = { s with openBus := first, pipe := [first], r15 := s.r15 + instrBytes s, flushed := false } := by
    rw [refillOne_eq h ha, hp]; rfl
  have e2 := refillOne_eq (s := refillOne s) (by rw [e1]; exact h2) (by rw [e1]; exact alignPc_next ha)
  simp only [refill, hp, List.length_nil]
  rw [e2, e1]
  have hs : fetchedAt s.cpsr.t (s.r15 + instrBytes s)
      { s with openBus := first, pipe := [first], r15 := s.r15 + instrBytes s, flushed := false } = second :=
    fetchedAt_congr (s := { s with openBus := first }) h2 rfl rfl rfl ⟨rfl, rfl, rfl, rfl⟩
  have hi : instrBytes { s with openBus := first, pipe := [first], r15 := s.r15 + instrBytes s, flushed := false } =
      instrBytes s := rfl
  simp only [hs, hi, two_instrBytes]
  rfl

/-- A step that executes, awake or woken by an enabled source, by what the refill leaves. -/
theorem step_run {s u : State} (hh : s.halted = true → wakePending s = true)
    (hr : refill { s with halted := false } = u) (hi : (irqLine u && !u.cpsr.i) = false) :
    step s = andThen (exec (frontInstr u) { u with pipe := u.pipe.tail }) endStep := by
  have hb : beginStep s = .run (frontInstr u) { u with pipe := u.pipe.tail } := by
    unfold beginStep
    rw [if_neg]
    · simp only [hr, hi, Bool.false_eq_true, if_false]
    · cases h : s.halted
      · simp
      · simp [hh h]
  rw [step, hb]

/-- A step that takes an IRQ. -/
theorem step_irq {s : State} (hi : irqLine s = true) (hm : s.cpsr.i = false)
    (hr : (refill { s with halted := false }).ie = s.ie ∧ (refill { s with halted := false }).iff = s.iff ∧
      (refill { s with halted := false }).ime = s.ime ∧ (refill { s with halted := false }).cpsr = s.cpsr) :
    step s = endStep (takeIrq (refill { s with halted := false })) := by
  have hw : wakePending s = true := by
    simp only [irqLine, Bool.and_eq_true] at hi; exact hi.2
  have hb : beginStep s = .irq (takeIrq (refill { s with halted := false })) := by
    simp only [beginStep, hw, Bool.not_true, Bool.and_false, Bool.false_eq_true, if_false]
    rw [if_pos]
    rw [hr.2.2.2, hm]
    simp only [irqLine, wakePending, hr.1, hr.2.1, hr.2.2.1]
    simpa [irqLine, wakePending] using hi
  rw [step, hb]

/-- The ways a step goes (R484). -/
theorem step_cases {s t : State} (h : step s = .next t) :
    (s.halted = true ∧ wakePending s = false ∧ endStep s = .next t) ∨
    (irqLine (refill { s with halted := false }) = true ∧ endStep (takeIrq (refill { s with halted := false })) = .next t) ∨
    ∃ u v, refill { s with halted := false } = u ∧ exec (frontInstr u) { u with pipe := u.pipe.tail } = .next v ∧
      endStep v = .next t := by
  unfold step beginStep at h
  split at h
  · rename_i u hb
    split at hb
    · rename_i hc
      cases hb
      simp only [Bool.and_eq_true, Bool.not_eq_true'] at hc
      exact .inl ⟨hc.1, hc.2, h⟩
    · dsimp only at hb; split at hb <;> cases hb
  · rename_i u hb
    split at hb
    · cases hb
    · dsimp only at hb
      split at hb
      · rename_i hc
        cases hb
        simp only [Bool.and_eq_true] at hc
        exact .inr (.inl ⟨hc.1, h⟩)
      · cases hb
  · rename_i i u hb
    split at hb
    · cases hb
    · dsimp only at hb
      split at hb
      · cases hb
      · cases hb
        obtain ⟨v, hv, he⟩ := andThen_eq_next.mp h
        exact .inr (.inr ⟨_, v, rfl, hv, he⟩)

/-- What the refill can change (R44, R484). -/
theorem refill_only (s : State) : refill s = { s with
    r15 := (refill s).r15, pipe := (refill s).pipe, openBus := (refill s).openBus, flushed := (refill s).flushed
    ext := (refill s).ext } := by
  have one : ∀ u : State, refillOne u = { u with
      r15 := (refillOne u).r15, pipe := (refillOne u).pipe, openBus := (refillOne u).openBus
      flushed := (refillOne u).flushed, ext := (refillOne u).ext } := by
    intro u
    obtain ⟨e, he⟩ := memRead_state (fetchWidth u) u.r15 u
    simp only [refillOne, he]
  unfold refill
  split
  · rw [one (refillOne s), one s]
  · exact one s
  · rfl

end Sys2Proof.Laws
end

