-- ==== Sys2Proof/Tests/Slice0.lean ====
section
/-! SUPPORT. The model's own tests. Expected values are the spec's: the words and results of the examples in its rules
(spec 40 to 43) and of spec 95, or worked out by hand from the rule a test names; none is the model's own answer.
The last part gives, for every statement with hypotheses, a concrete case that meets them. -/

namespace Sys2Proof.Tests

open Sys2Proof.Machine

/-! Well-formedness: for each check a term it refuses. -/

theorem test_wf_undefined_spaces :
    (Instr.undStoreSh10 .al 0x1C000F0).wf = false ∧ (Instr.undStoreSh11 .al 0x1C000D0).wf = false ∧
    (Instr.undMulSwap .al 0x1000090).wf = false ∧ (Instr.undPsr .al 0x12FFF10).wf = false ∧
    (Instr.undPsr .al 0x1100000).wf = false ∧ (Instr.und011 .al 0x6000000).wf = false := by
  decide

theorem test_wf_t_forms :
    (Instr.str .al ⟨false, true, true⟩ 1 0 (.imm 4)).wf = false ∧
    (Instr.ldr .al ⟨false, true, true⟩ 1 0 (.imm 4)).wf = false ∧
    (Instr.strb .al ⟨false, true, true⟩ 1 0 (.imm 4)).wf = false ∧
    (Instr.ldrb .al ⟨false, true, true⟩ 1 0 (.imm 4)).wf = false := by
  decide

theorem test_wf_block_pc :
    (Instr.ldmReturn .al ⟨false, true, false⟩ 0 0x7FFF).wf = false ∧
    (Instr.ldmUser .al ⟨false, true, false⟩ 0 0x8000).wf = false := by
  decide

theorem test_wf_thumb :
    (Instr.tUnd1011 0x080).wf = false ∧ (Instr.tUnd1011 0x501).wf = false ∧ (Instr.tUnd1011 0xD01).wf = false ∧
    (Instr.tBCond .al 0).wf = false ∧ (Instr.tBCond .nv 0).wf = false := by
  decide

/-! Decoding: every constructor from a word written out from its encoding (R131, R145, R160), most of them the spec's
own examples. -/

theorem test_decode_branch_and_multiply :
    decodeArm 0xE12FFF10 = .bx .al 0 ∧ decodeArm 0xE0100291 = .mul .al true 0 0 2 1 ∧
    decodeArm 0xE0203291 = .mla .al false 0 3 2 1 ∧ decodeArm 0xE0810392 = .umull .al false 1 0 3 2 ∧
    decodeArm 0xE0A10392 = .umlal .al false 1 0 3 2 ∧ decodeArm 0xE0C10392 = .smull .al false 1 0 3 2 ∧
    decodeArm 0xE0E10392 = .smlal .al false 1 0 3 2 ∧ decodeArm 0xEAFFFFFE = .b .al 0xFFFFFE ∧
    decodeArm 0xEB00003E = .bl .al 0x3E ∧ decodeArm 0xEF050000 = .swi .al 0x050000 ∧
    decodeArm 0x1AFFFFFC = .b .ne 0xFFFFFC := by
  decide

theorem test_decode_data_processing :
    decodeArm 0xE0110002 = .and .al true 1 0 (.shiftImm 0 .lsl 2) ∧
    decodeArm 0xE0310001 = .eor .al true 1 0 (.shiftImm 0 .lsl 1) ∧
    decodeArm 0xE0510002 = .sub .al true 1 0 (.shiftImm 0 .lsl 2) ∧
    decodeArm 0xE2710000 = .rsb .al true 1 0 (.imm 0 0) ∧ decodeArm 0xE2901001 = .add .al true 0 1 (.imm 0 1) ∧
    decodeArm 0xE0B10002 = .adc .al true 1 0 (.shiftImm 0 .lsl 2) ∧
    decodeArm 0xE0D10002 = .sbc .al true 1 0 (.shiftImm 0 .lsl 2) ∧
    decodeArm 0xE0F10002 = .rsc .al true 1 0 (.shiftImm 0 .lsl 2) ∧ decodeArm 0xE3110001 = .tst .al 1 0 (.imm 0 1) ∧
    decodeArm 0xE1310002 = .teq .al 1 0 (.shiftImm 0 .lsl 2) ∧
    decodeArm 0xE1510002 = .cmp .al 1 0 (.shiftImm 0 .lsl 2) ∧ decodeArm 0xE3710001 = .cmn .al 1 0 (.imm 0 1) ∧
    decodeArm 0xE38100FF = .orr .al false 1 0 (.imm 0 0xFF) ∧
    decodeArm 0xE1B00081 = .mov .al true 0 0 (.shiftImm 1 .lsl 1) ∧
    decodeArm 0xE3C1000F = .bic .al false 1 0 (.imm 0 0xF) ∧ decodeArm 0xE3E00102 = .mvn .al false 0 0 (.imm 1 2) ∧
    decodeArm 0xE0810352 = .add .al false 1 0 (.shiftReg 3 .asr 2) := by
  decide

theorem test_decode_psr :
    decodeArm 0xE10F2000 = .mrs .al false 2 ∧ decodeArm 0xE14F0000 = .mrs .al true 0 ∧
    decodeArm 0xE321F0D2 = .msrImm .al false 1 0 0xD2 ∧ decodeArm 0xE128F001 = .msrReg .al false 8 1 := by
  decide

theorem test_decode_single_transfer :
    decodeArm 0xE4910004 = .ldr .al ⟨false, true, false⟩ 1 0 (.imm 4) ∧
    decodeArm 0xE5D25002 = .ldrb .al ⟨true, true, false⟩ 2 5 (.imm 2) ∧
    decodeArm 0xE5823000 = .str .al ⟨true, true, false⟩ 2 3 (.imm 0) ∧
    decodeArm 0xE5C10003 = .strb .al ⟨true, true, false⟩ 1 0 (.imm 3) ∧
    decodeArm 0xE4A10004 = .strt .al true 1 0 (.imm 4) ∧ decodeArm 0xE4B10004 = .ldrt .al true 1 0 (.imm 4) ∧
    decodeArm 0xE4E10004 = .strbt .al true 1 0 (.imm 4) ∧ decodeArm 0xE4710004 = .ldrbt .al false 1 0 (.imm 4) ∧
    decodeArm 0xE7310102 = .ldr .al ⟨true, false, true⟩ 1 0 (.reg 2 .lsl 2) := by
  decide

theorem test_decode_half_and_swap :
    decodeArm 0xE1D260B1 = .ldrh .al ⟨true, true, false⟩ 2 6 (.imm 1) ∧
    decodeArm 0xE1C100B2 = .strh .al ⟨true, true, false⟩ 1 0 (.imm 2) ∧
    decodeArm 0xE1D280D3 = .ldrsb .al ⟨true, true, false⟩ 2 8 (.imm 3) ∧
    decodeArm 0xE1D270F1 = .ldrsh .al ⟨true, true, false⟩ 2 7 (.imm 1) ∧
    decodeArm 0xE19100B2 = .ldrh .al ⟨true, true, false⟩ 1 0 (.reg 0 2) ∧
    decodeArm 0xE1020091 = .swp .al 2 0 1 ∧ decodeArm 0xE1420091 = .swpb .al 2 0 1 := by
  decide

theorem test_decode_block :
    decodeArm 0xE92D4001 = .stm .al ⟨true, false, true⟩ 13 0x4001 ∧
    decodeArm 0xE94D0003 = .stmUser .al ⟨true, false, false⟩ 13 3 ∧
    decodeArm 0xE8B00006 = .ldm .al ⟨false, true, true⟩ 0 6 ∧
    decodeArm 0xE8FD8001 = .ldmReturn .al ⟨false, true, true⟩ 13 0x8001 ∧
    decodeArm 0xE8DD0003 = .ldmUser .al ⟨false, true, false⟩ 13 3 := by
  decide

theorem test_decode_undefined_and_coprocessor :
    decodeArm 0xE1C000D0 = .undStoreSh10 .al 0x1C000D0 ∧ decodeArm 0xE1C000F0 = .undStoreSh11 .al 0x1C000F0 ∧
    decodeArm 0xE1100090 = .undMulSwap .al 0x1100090 ∧ decodeArm 0xE1200010 = .undPsr .al 0x1200010 ∧
    decodeArm 0xE6000010 = .und011 .al 0x6000010 ∧
    decodeArm 0xED912304 = .ldc .al ⟨true, true, false, false⟩ 1 2 3 4 ∧
    decodeArm 0xED812304 = .stc .al ⟨true, true, false, false⟩ 1 2 3 4 ∧
    decodeArm 0xEE123465 = .cdp .al 1 2 3 4 3 5 ∧ decodeArm 0xEE323475 = .mrc .al 1 2 3 4 3 5 ∧
    decodeArm 0xEE223475 = .mcr .al 1 2 3 4 3 5 := by
  decide

theorem test_decode_thumb_immediate :
    decodeThumb 0x1842 = .tAddReg 1 0 2 ∧ decodeThumb 0x1A42 = .tSubReg 1 0 2 ∧
    decodeThumb 0x1DC2 = .tAddImm3 7 0 2 ∧ decodeThumb 0x1E42 = .tSubImm3 1 0 2 ∧
    decodeThumb 0x0081 = .tLslImm 2 0 1 ∧ decodeThumb 0x0801 = .tLsrImm 0 0 1 ∧
    decodeThumb 0x1041 = .tAsrImm 1 0 1 ∧ decodeThumb 0x2005 = .tMovImm8 0 5 ∧ decodeThumb 0x2805 = .tCmpImm8 0 5 ∧
    decodeThumb 0x3207 = .tAddImm8 2 7 ∧ decodeThumb 0x3901 = .tSubImm8 1 1 := by
  decide

theorem test_decode_thumb_alu :
    decodeThumb 0x4008 = .tAnd 1 0 ∧ decodeThumb 0x4048 = .tEor 1 0 ∧ decodeThumb 0x4088 = .tLslReg 1 0 ∧
    decodeThumb 0x40C8 = .tLsrReg 1 0 ∧ decodeThumb 0x4108 = .tAsrReg 1 0 ∧ decodeThumb 0x4148 = .tAdc 1 0 ∧
    decodeThumb 0x4188 = .tSbc 1 0 ∧ decodeThumb 0x41C8 = .tRorReg 1 0 ∧ decodeThumb 0x4208 = .tTst 1 0 ∧
    decodeThumb 0x4248 = .tNeg 1 0 ∧ decodeThumb 0x4288 = .tCmpReg 1 0 ∧ decodeThumb 0x42C8 = .tCmn 1 0 ∧
    decodeThumb 0x4308 = .tOrr 1 0 ∧ decodeThumb 0x4348 = .tMul 1 0 ∧ decodeThumb 0x4388 = .tBic 1 0 ∧
    decodeThumb 0x43C8 = .tMvn 1 0 ∧ decodeThumb 0x4440 = .tAddHi 0 8 ∧ decodeThumb 0x4580 = .tCmpHi 8 0 ∧
    decodeThumb 0x46F7 = .tMovHi 15 14 ∧ decodeThumb 0x4770 = .tBx 0 14 := by
  decide

theorem test_decode_thumb_memory :
    decodeThumb 0x4802 = .tLdrPc 0 2 ∧ decodeThumb 0x5088 = .tStrReg 2 1 0 ∧ decodeThumb 0x5488 = .tStrbReg 2 1 0 ∧
    decodeThumb 0x5888 = .tLdrReg 2 1 0 ∧ decodeThumb 0x5C88 = .tLdrbReg 2 1 0 ∧
    decodeThumb 0x5288 = .tStrhReg 2 1 0 ∧ decodeThumb 0x5688 = .tLdsb 2 1 0 ∧ decodeThumb 0x5A88 = .tLdrhReg 2 1 0 ∧
    decodeThumb 0x5E88 = .tLdsh 2 1 0 ∧ decodeThumb 0x6048 = .tStrImm 1 1 0 ∧ decodeThumb 0x6848 = .tLdrImm 1 1 0 ∧
    decodeThumb 0x7048 = .tStrbImm 1 1 0 ∧ decodeThumb 0x7848 = .tLdrbImm 1 1 0 ∧
    decodeThumb 0x8048 = .tStrhImm 1 1 0 ∧ decodeThumb 0x8848 = .tLdrhImm 1 1 0 ∧ decodeThumb 0x9001 = .tStrSp 0 1 ∧
    decodeThumb 0x9801 = .tLdrSp 0 1 ∧ decodeThumb 0xA001 = .tAddPc 0 1 ∧ decodeThumb 0xA801 = .tAddSp 0 1 ∧
    decodeThumb 0xB084 = .tAddSpImm true 4 ∧ decodeThumb 0xB501 = .tPush true 1 ∧ decodeThumb 0xBD01 = .tPop true 1 ∧
    decodeThumb 0xC006 = .tStmia 0 6 ∧ decodeThumb 0xC806 = .tLdmia 0 6 := by
  decide

theorem test_decode_thumb_branch :
    decodeThumb 0xB100 = .tUnd1011 0x100 ∧ decodeThumb 0xDF05 = .tSwi 5 ∧ decodeThumb 0xDE01 = .tUndCond 1 ∧
    decodeThumb 0xD1FC = .tBCond .ne 0xFC ∧ decodeThumb 0xE7FE = .tB 0x7FE ∧ decodeThumb 0xE801 = .tUnd11101 1 ∧
    decodeThumb 0xF000 = .tBlPrefix 0 ∧ decodeThumb 0xF802 = .tBlSuffix 2 := by
  decide

/-! Helpers: small states about to run one instruction. -/

/-- What `f` reads of the state after one step that runs the instruction with bits `w`. -/
def after {α : Type} (nbits w : Nat) (s : State) (f : State → α) : Option α :=
  match step (s.withFetchWord nbits w) with
  | .next t => some (f t)
  | .fault _ | .refused _ => none

/-- The reset state in THUMB state. -/
def thumbReset : State :=
  { State.reset with cpsr := { State.reset.cpsr with t := true } }

/-- The next instruction is at `a`. -/
def startAt (a : Word) (s : State) : State :=
  { s with r15 := a }

def inMode (m : Mode) (s : State) : State :=
  { s with cpsr := { s.cpsr with mode := m } }

/-- NZCV from a nibble. -/
def withFlags (f : BitVec 4) (s : State) : State :=
  { s with cpsr := { s.cpsr with n := f.getLsbD 3, z := f.getLsbD 2, c := f.getLsbD 1, v := f.getLsbD 0 } }

/-- Registers R0 to R14 of the mode. -/
def withRegs (l : List (RegNum × Word)) (s : State) : State :=
  l.foldl (fun t x => putRegIn t.cpsr.mode x.1 x.2 t) s

/-- Words of memory, at word-aligned addresses. -/
def withWords (l : List (Word × Word)) (s : State) : State :=
  l.foldl (fun t x => placeBytes x.1 (bytesOf 4 x.2.toNat) t) s

def withSpsr (k : Fin 5) (w : Word) (s : State) : State :=
  { s with spsr := s.spsr.set k (Spsr.ofWord w) }

/-- NZCV. -/
def flags (s : State) : BitVec 4 :=
  nzcv s.cpsr

def wordAt (a : Word) (s : State) : Word :=
  (memRead .word a s).1

/-! One step of every instruction. -/

/-- R207. -/
theorem test_and :
    after 32 0xE0110002 (withRegs [(1, 0xF0F0F0F0), (2, 0xFF00FF00)] State.reset)
      (fun t => (getReg 0 t, flags t)) = some (0xF000F000, 0x8) := by
  decide

/-- R208. -/
theorem test_eor :
    after 32 0xE0310001 (withRegs [(1, 0x12345678)] State.reset)
      (fun t => (getReg 0 t, flags t)) = some (0, 0x4) := by
  decide

/-- R209. -/
theorem test_sub :
    after 32 0xE0510002 (withRegs [(1, 0x5), (2, 0x7)] State.reset)
      (fun t => (getReg 0 t, flags t)) = some (0xFFFFFFFE, 0x8) := by
  decide

/-- R210. -/
theorem test_rsb :
    after 32 0xE2710000 (withRegs [(1, 0x1)] State.reset)
      (fun t => (getReg 0 t, flags t)) = some (0xFFFFFFFF, 0x8) := by
  decide

/-- R211. -/
theorem test_add :
    after 32 0xE2901001 (withRegs [(0, 0x7FFFFFFF)] State.reset)
      (fun t => (getReg 1 t, flags t)) = some (0x80000000, 0x9) := by
  decide

/-- R212. -/
theorem test_adc :
    after 32 0xE0B10002 (withRegs [(1, 0xFFFFFFFF)] (withFlags 0x2 State.reset))
      (fun t => (getReg 0 t, flags t)) = some (0, 0x6) := by
  decide

/-- R213. -/
theorem test_sbc :
    after 32 0xE0D10002 (withRegs [(1, 0x5), (2, 0x2)] State.reset)
      (fun t => (getReg 0 t, flags t)) = some (2, 0x2) := by
  decide

/-- R214. -/
theorem test_rsc :
    after 32 0xE0F10002 (withRegs [(1, 0x2), (2, 0x5)] (withFlags 0x2 State.reset))
      (fun t => (getReg 0 t, flags t)) = some (3, 0x2) := by
  decide

/-- R215. -/
theorem test_tst :
    after 32 0xE3110001 (withRegs [(1, 0x2)] State.reset)
      (fun t => flags t) = some 0x4 := by
  decide

/-- R216. -/
theorem test_teq :
    after 32 0xE1310002 (withRegs [(1, 0x80000000)] State.reset)
      (fun t => flags t) = some 0x8 := by
  decide

/-- R217. -/
theorem test_cmp :
    after 32 0xE1510002 (withRegs [(1, 0x3), (2, 0x3)] State.reset)
      (fun t => flags t) = some 0x6 := by
  decide

/-- R218. -/
theorem test_cmn :
    after 32 0xE3710001 (withRegs [(1, 0xFFFFFFFF)] State.reset)
      (fun t => flags t) = some 0x6 := by
  decide

/-- R219, with the flags set before. -/
theorem test_orr :
    after 32 0xE38100FF (withRegs [(1, 0x100)] (withFlags 0xF State.reset))
      (fun t => (getReg 0 t, flags t)) = some (0x1FF, 0xF) := by
  decide

/-- R220. -/
theorem test_mov :
    after 32 0xE1B00081 (withRegs [(1, 0x80000000)] State.reset)
      (fun t => (getReg 0 t, flags t)) = some (0, 0x6) := by
  decide

/-- R221. -/
theorem test_bic :
    after 32 0xE3C1000F (withRegs [(1, 0xFF)] State.reset)
      (fun t => getReg 0 t) = some 0xF0 := by
  decide

/-- R222. -/
theorem test_mvn :
    after 32 0xE3E00102 State.reset
      (fun t => getReg 0 t) = some 0x7FFFFFFF := by
  decide

/-- R230. -/
theorem test_mrs :
    after 32 0xE10F2000 State.reset
      (fun t => getReg 2 t) = some 0x1F := by
  decide

/-- R231, P4. -/
theorem test_msr :
    after 32 0xE321F0D2 State.reset
      (fun t => (cpsrWord t.cpsr, getReg 13 t)) = some (0xD2, 0x03007FA0) := by
  decide

/-- spec 95 section 2.19. -/
theorem test_msr_user :
    after 32 0xE321F01F (inMode .usr State.reset)
      (fun t => cpsrWord t.cpsr) = some 0x10 := by
  decide

/-- R232: mask 1000 writes the flags alone. -/
theorem test_msr_register :
    after 32 0xE128F001 (withRegs [(1, 0xF00000D2)] State.reset)
      (fun t => cpsrWord t.cpsr) = some 0xF000001F := by
  decide

/-- R240. -/
theorem test_mul :
    after 32 0xE0100291 (withRegs [(1, 0xFFFFFFFF), (2, 0x2)] State.reset)
      (fun t => (getReg 0 t, t.cpsr.n, t.cpsr.z)) = some (0xFFFFFFFE, true, false) := by
  decide

/-- R241. -/
theorem test_mla :
    after 32 0xE0203291 (withRegs [(1, 0x3), (2, 0x4), (3, 0x5)] State.reset)
      (fun t => getReg 0 t) = some 17 := by
  decide

/-- R242. -/
theorem test_umull :
    after 32 0xE0810392 (withRegs [(2, 0xFFFFFFFF), (3, 0xFFFFFFFF)] State.reset)
      (fun t => (getReg 0 t, getReg 1 t)) = some (1, 0xFFFFFFFE) := by
  decide

/-- R243. -/
theorem test_umlal :
    after 32 0xE0A10392 (withRegs [(0, 0xFFFFFFFF), (2, 0x1), (3, 0x1)] State.reset)
      (fun t => (getReg 0 t, getReg 1 t)) = some (0, 1) := by
  decide

/-- R244. -/
theorem test_smull :
    after 32 0xE0C10392 (withRegs [(2, 0xFFFFFFFF), (3, 0x2)] State.reset)
      (fun t => (getReg 0 t, getReg 1 t)) = some (0xFFFFFFFE, 0xFFFFFFFF) := by
  decide

/-- R245. -/
theorem test_smlal :
    after 32 0xE0E10392 (withRegs [(0, 0x1), (2, 0xFFFFFFFF), (3, 0x1)] State.reset)
      (fun t => (getReg 0 t, getReg 1 t)) = some (0, 0) := by
  decide

/-- R251. -/
theorem test_ldr :
    after 32 0xE4910004 (withWords [(0x2000000, 0x44332211)] (withRegs [(1, 0x2000000)] State.reset))
      (fun t => (getReg 0 t, getReg 1 t)) = some (0x44332211, 0x02000004) := by
  decide

/-- R96, P2. -/
theorem test_ldr_rotates :
    after 32 0xE5924001 (withWords [(0x2000000, 0x44332211)] (withRegs [(2, 0x2000000)] State.reset))
      (fun t => getReg 4 t) = some 0x11443322 := by
  decide

/-- R252. -/
theorem test_ldrb :
    after 32 0xE5D25002 (withWords [(0x2000000, 0x44332211)] (withRegs [(2, 0x2000000)] State.reset))
      (fun t => getReg 5 t) = some 0x33 := by
  decide

/-- R253. -/
theorem test_str :
    after 32 0xE5823000 (withRegs [(2, 0x2000000), (3, 0x44332211)] State.reset)
      (fun t => (readByte 0x02000000 t, readByte 0x02000003 t)) = some (0x11, 0x44) := by
  decide

/-- R254. -/
theorem test_strb :
    after 32 0xE5C10003 (withRegs [(0, 0x1FF), (1, 0x2000000)] State.reset)
      (fun t => (readByte 0x02000003 t, readByte 0x02000002 t)) = some (0xFF, 0) := by
  decide

/-- R94: both bytes of the halfword. -/
theorem test_strb_vram :
    after 32 0xE5C10003 (withRegs [(0, 0x1FF), (1, 0x6000000)] State.reset)
      (fun t => (readByte 0x06000002 t, readByte 0x06000003 t)) = some (0xFF, 0xFF) := by
  decide

/-- R255. -/
theorem test_ldrt :
    after 32 0xE4B10004 (withWords [(0x2000000, 0x44332211)] (withRegs [(1, 0x2000000)] State.reset))
      (fun t => (getReg 0 t, getReg 1 t)) = some (0x44332211, 0x02000004) := by
  decide

/-- R255. -/
theorem test_strt :
    after 32 0xE4A10004 (withRegs [(0, 0x7), (1, 0x2000000)] State.reset)
      (fun t => (readByte 0x02000000 t, getReg 1 t)) = some (7, 0x02000004) := by
  decide

/-- R255. -/
theorem test_ldrbt :
    after 32 0xE4F10004 (withWords [(0x2000000, 0x44332211)] (withRegs [(1, 0x2000000)] State.reset))
      (fun t => (getReg 0 t, getReg 1 t)) = some (0x11, 0x02000004) := by
  decide

/-- R255. -/
theorem test_strbt :
    after 32 0xE4E10004 (withRegs [(0, 0x7), (1, 0x2000000)] State.reset)
      (fun t => (readByte 0x02000000 t, getReg 1 t)) = some (7, 0x02000004) := by
  decide

/-- R261. -/
theorem test_ldrh :
    after 32 0xE1D260B1 (withWords [(0x2000000, 0x44332211)] (withRegs [(2, 0x2000000)] State.reset))
      (fun t => getReg 6 t) = some 0x11000022 := by
  decide

/-- R262. -/
theorem test_strh :
    after 32 0xE1C100B2 (withRegs [(0, 0xABCD1234), (1, 0x2000000)] State.reset)
      (fun t => (readByte 0x02000002 t, readByte 0x02000003 t, readByte 0x02000004 t)) = some (0x34, 0x12, 0) := by
  decide

/-- R263. -/
theorem test_ldrsb :
    after 32 0xE1D280D3 (withWords [(0x2000000, 0x80332211)] (withRegs [(2, 0x2000000)] State.reset))
      (fun t => getReg 8 t) = some 0xFFFFFF80 := by
  decide

/-- R264. -/
theorem test_ldrsh :
    after 32 0xE1D270F1 (withWords [(0x2000000, 0x44332211)] (withRegs [(2, 0x2000000)] State.reset))
      (fun t => getReg 7 t) = some 0x22 := by
  decide

/-- R271. -/
theorem test_ldm :
    after 32 0xE8B00006 (withWords [(0x2000000, 0x1), (0x2000004, 0x2)] (withRegs [(0, 0x2000000)] State.reset))
      (fun t => (getReg 1 t, getReg 2 t, getReg 0 t)) = some (1, 2, 0x02000008) := by
  decide

/-- R272. -/
theorem test_stm :
    after 32 0xE92D4001 (withRegs [(0, 0x7), (14, 0x8000123)] State.reset)
      (fun t => (wordAt 0x03007EF8 t, wordAt 0x03007EFC t, getReg 13 t)) = some (7, 0x08000123, 0x03007EF8) := by
  decide

/-- R274. -/
theorem test_stm_empty :
    after 32 0xE8A00000 (withRegs [(0, 0x2000000)] State.reset)
      (fun t => (wordAt 0x02000000 t, getReg 0 t)) = some (0x0800000C, 0x02000040) := by
  decide

/-- R275: R13 and R14 of the USR view, stored from IRQ mode at R13_irq. -/
theorem test_stm_user :
    after 32 0xE8CD6000 (inMode .irq State.reset)
      (fun t => (wordAt 0x03007FA0 t, wordAt 0x03007FA4 t)) = some (0x03007F00, 0) := by
  decide

/-- R276: into R13_usr and R14_usr, from IRQ mode. -/
theorem test_ldm_user :
    after 32 0xE8D06000 (withWords [(0x2000000, 0x5)] (withRegs [(0, 0x2000000)] (inMode .irq State.reset)))
      (fun t => (getRegIn .usr 13 t, getReg 13 t)) = some (5, 0x03007FA0) := by
  decide

/-- R277: the SPSR of IRQ mode holds THUMB state and SYS mode. -/
theorem test_ldm_return :
    after 32 0xE8F08002 (withWords [(0x2000000, 0x5), (0x2000004, 0x8000123)] (withRegs [(0, 0x2000000)] (withSpsr 1 0x3F (inMode .irq State.reset))))
      (fun t => (cpsrWord t.cpsr, t.r15, getReg 1 t)) = some (0x3F, 0x08000122, 5) := by
  decide

/-- R285. -/
theorem test_swp :
    after 32 0xE1020091 (withWords [(0x2000000, 0x44332211)] (withRegs [(1, 0x5), (2, 0x2000000)] State.reset))
      (fun t => (getReg 0 t, wordAt 0x02000000 t)) = some (0x44332211, 5) := by
  decide

/-- R286. -/
theorem test_swpb :
    after 32 0xE1420091 (withWords [(0x2000000, 0x44332211)] (withRegs [(1, 0x1FF), (2, 0x2000000)] State.reset))
      (fun t => (getReg 0 t, wordAt 0x02000000 t)) = some (0x11, 0x443322FF) := by
  decide

/-- R300. -/
theorem test_b :
    after 32 0xEAFFFFFE (startAt 0x8000014 State.reset)
      (fun t => t.r15) = some 0x08000014 := by
  decide

/-- R301. -/
theorem test_bl :
    after 32 0xEB00003E State.reset
      (fun t => (getReg 14 t, t.r15)) = some (0x08000004, 0x08000100) := by
  decide

/-- R305. -/
theorem test_bx :
    after 32 0xE12FFF10 (withRegs [(0, 0x8000009)] State.reset)
      (fun t => (t.cpsr.t, t.r15)) = some (true, 0x08000008) := by
  decide

/-- R308. -/
theorem test_swi :
    after 32 0xEF050000 State.reset
      (fun t => (cpsrWord t.cpsr, (spsrWord t.spsr[2]), getRegIn .svc 14 t, t.r15)) = some (0x93, 0x1F, 0x08000004, 8) := by
  decide

/-- R310. -/
theorem test_und011 :
    after 32 0xE6000010 State.reset
      (fun t => (cpsrWord t.cpsr, getRegIn .und 14 t, t.r15)) = some (0x9B, 0x08000004, 4) := by
  decide

/-- R170, R310. -/
theorem test_und_store_sh10 :
    after 32 0xE1C000D0 State.reset
      (fun t => (cpsrWord t.cpsr, getRegIn .und 14 t, t.r15)) = some (0x9B, 0x08000004, 4) := by
  decide

/-- R170, R310. -/
theorem test_und_store_sh11 :
    after 32 0xE1C000F0 State.reset
      (fun t => (cpsrWord t.cpsr, getRegIn .und 14 t, t.r15)) = some (0x9B, 0x08000004, 4) := by
  decide

/-- R170, R310. -/
theorem test_und_mul_swap :
    after 32 0xE1100090 State.reset
      (fun t => (cpsrWord t.cpsr, getRegIn .und 14 t, t.r15)) = some (0x9B, 0x08000004, 4) := by
  decide

/-- R170, R310. -/
theorem test_und_psr :
    after 32 0xE1200010 State.reset
      (fun t => (cpsrWord t.cpsr, getRegIn .und 14 t, t.r15)) = some (0x9B, 0x08000004, 4) := by
  decide

/-- R312. -/
theorem test_ldc :
    after 32 0xED912304 State.reset
      (fun t => (cpsrWord t.cpsr, getRegIn .und 14 t, t.r15)) = some (0x9B, 0x08000004, 4) := by
  decide

/-- R312. -/
theorem test_stc :
    after 32 0xED812304 State.reset
      (fun t => (cpsrWord t.cpsr, getRegIn .und 14 t, t.r15)) = some (0x9B, 0x08000004, 4) := by
  decide

/-- R312. -/
theorem test_cdp :
    after 32 0xEE123465 State.reset
      (fun t => (cpsrWord t.cpsr, getRegIn .und 14 t, t.r15)) = some (0x9B, 0x08000004, 4) := by
  decide

/-- R312. -/
theorem test_mrc :
    after 32 0xEE323475 State.reset
      (fun t => (cpsrWord t.cpsr, getRegIn .und 14 t, t.r15)) = some (0x9B, 0x08000004, 4) := by
  decide

/-- R312. -/
theorem test_mcr :
    after 32 0xEE223475 State.reset
      (fun t => (cpsrWord t.cpsr, getRegIn .und 14 t, t.r15)) = some (0x9B, 0x08000004, 4) := by
  decide

/-- R331. -/
theorem test_thumb_lsl_imm :
    after 16 0x0081 (withRegs [(0, 0x5)] thumbReset)
      (fun t => (getReg 1 t, flags t)) = some (20, 0) := by
  decide

/-- R332. -/
theorem test_thumb_lsr_imm :
    after 16 0x0801 (withRegs [(0, 0x80000000)] thumbReset)
      (fun t => (getReg 1 t, flags t)) = some (0, 0x6) := by
  decide

/-- R333. -/
theorem test_thumb_asr_imm :
    after 16 0x1041 (withRegs [(0, 0x80000001)] thumbReset)
      (fun t => (getReg 1 t, flags t)) = some (0xC0000000, 0xA) := by
  decide

/-- R334. -/
theorem test_thumb_add_reg :
    after 16 0x1842 (withRegs [(0, 0x1), (1, 0x2)] (withFlags 0xF thumbReset))
      (fun t => (getReg 2 t, flags t)) = some (3, 0) := by
  decide

/-- R335. -/
theorem test_thumb_sub_reg :
    after 16 0x1A42 (withRegs [(0, 0x1), (1, 0x2)] thumbReset)
      (fun t => (getReg 2 t, flags t)) = some (0xFFFFFFFF, 0x8) := by
  decide

/-- R336. -/
theorem test_thumb_add_imm3 :
    after 16 0x1DC2 (withRegs [(0, 0xFFFFFFF9)] thumbReset)
      (fun t => (getReg 2 t, flags t)) = some (0, 0x6) := by
  decide

/-- R337. -/
theorem test_thumb_sub_imm3 :
    after 16 0x1E42 (withRegs [(0, 0x0)] thumbReset)
      (fun t => (getReg 2 t, flags t)) = some (0xFFFFFFFF, 0x8) := by
  decide

/-- R338: C and V unchanged. -/
theorem test_thumb_mov_imm8 :
    after 16 0x2005 (withFlags 0xF thumbReset)
      (fun t => (getReg 0 t, flags t)) = some (5, 0x3) := by
  decide

/-- R339. -/
theorem test_thumb_cmp_imm8 :
    after 16 0x2805 (withRegs [(0, 0x5)] thumbReset)
      (fun t => flags t) = some 0x6 := by
  decide

/-- R340. -/
theorem test_thumb_add_imm8 :
    after 16 0x3207 (withRegs [(2, 0xE)] thumbReset)
      (fun t => (getReg 2 t, flags t)) = some (21, 0) := by
  decide

/-- R341. -/
theorem test_thumb_sub_imm8 :
    after 16 0x3901 (withRegs [(1, 0x1)] thumbReset)
      (fun t => (getReg 1 t, flags t)) = some (0, 0x6) := by
  decide

/-- R342. -/
theorem test_thumb_and :
    after 16 0x4008 (withRegs [(0, 0xFF), (1, 0xF)] thumbReset)
      (fun t => getReg 0 t) = some 0x0F := by
  decide

/-- R343. -/
theorem test_thumb_eor :
    after 16 0x4048 (withRegs [(0, 0xAA), (1, 0xAA)] thumbReset)
      (fun t => (getReg 0 t, flags t)) = some (0, 0x4) := by
  decide

/-- R344. -/
theorem test_thumb_lsl_reg :
    after 16 0x4088 (withRegs [(0, 0x1), (1, 0x20)] thumbReset)
      (fun t => (getReg 0 t, flags t)) = some (0, 0x6) := by
  decide

/-- R345. -/
theorem test_thumb_lsr_reg :
    after 16 0x40C8 (withRegs [(0, 0x80000000), (1, 0x21)] thumbReset)
      (fun t => (getReg 0 t, flags t)) = some (0, 0x4) := by
  decide

/-- R346. -/
theorem test_thumb_asr_reg :
    after 16 0x4108 (withRegs [(0, 0x80000000), (1, 0x28)] thumbReset)
      (fun t => (getReg 0 t, flags t)) = some (0xFFFFFFFF, 0xA) := by
  decide

/-- R347. -/
theorem test_thumb_adc :
    after 16 0x4148 (withRegs [(0, 0x1), (1, 0x1)] (withFlags 0x2 thumbReset))
      (fun t => (getReg 0 t, flags t)) = some (3, 0) := by
  decide

/-- R348. -/
theorem test_thumb_sbc :
    after 16 0x4188 (withRegs [(0, 0x3), (1, 0x1)] thumbReset)
      (fun t => (getReg 0 t, flags t)) = some (1, 0x2) := by
  decide

/-- R349. -/
theorem test_thumb_ror :
    after 16 0x41C8 (withRegs [(0, 0x1), (1, 0x1)] thumbReset)
      (fun t => (getReg 0 t, flags t)) = some (0x80000000, 0xA) := by
  decide

/-- R350. -/
theorem test_thumb_tst :
    after 16 0x4208 (withRegs [(0, 0x1), (1, 0x2)] thumbReset)
      (fun t => flags t) = some 0x4 := by
  decide

/-- R351. -/
theorem test_thumb_neg :
    after 16 0x4248 (withRegs [(1, 0x1)] thumbReset)
      (fun t => (getReg 0 t, flags t)) = some (0xFFFFFFFF, 0x8) := by
  decide

/-- R352. -/
theorem test_thumb_cmp :
    after 16 0x4288 (withRegs [(0, 0x1), (1, 0x2)] thumbReset)
      (fun t => flags t) = some 0x8 := by
  decide

/-- R353. -/
theorem test_thumb_cmn :
    after 16 0x42C8 (withRegs [(0, 0x1), (1, 0xFFFFFFFF)] thumbReset)
      (fun t => flags t) = some 0x6 := by
  decide

/-- R354. -/
theorem test_thumb_orr :
    after 16 0x4308 (withRegs [(0, 0xF0), (1, 0xF)] thumbReset)
      (fun t => getReg 0 t) = some 0xFF := by
  decide

/-- R355. -/
theorem test_thumb_mul :
    after 16 0x4348 (withRegs [(0, 0x6), (1, 0x7)] (withFlags 0x1 thumbReset))
      (fun t => (getReg 0 t, t.cpsr.v)) = some (42, true) := by
  decide

/-- R356. -/
theorem test_thumb_bic :
    after 16 0x4388 (withRegs [(0, 0xFF), (1, 0xF)] thumbReset)
      (fun t => getReg 0 t) = some 0xF0 := by
  decide

/-- R357. -/
theorem test_thumb_mvn :
    after 16 0x43C8 thumbReset
      (fun t => (getReg 0 t, flags t)) = some (0xFFFFFFFF, 0x8) := by
  decide

/-- R358. -/
theorem test_thumb_add_hi :
    after 16 0x4440 (withRegs [(0, 0x1), (8, 0x2)] (withFlags 0xF thumbReset))
      (fun t => (getReg 0 t, flags t)) = some (3, 0xF) := by
  decide

/-- R359. -/
theorem test_thumb_cmp_hi :
    after 16 0x4580 (withRegs [(0, 0x2), (8, 0x2)] thumbReset)
      (fun t => flags t) = some 0x6 := by
  decide

/-- R360. -/
theorem test_thumb_mov_hi :
    after 16 0x46F7 (withRegs [(14, 0x8000041)] thumbReset)
      (fun t => (t.r15, t.cpsr.t)) = some (0x08000040, true) := by
  decide

/-- R361. -/
theorem test_thumb_bx :
    after 16 0x4770 (withRegs [(14, 0x8000017)] thumbReset)
      (fun t => (t.r15, t.cpsr.t)) = some (0x08000016, true) := by
  decide

/-- R361. -/
theorem test_thumb_bx_pc :
    after 16 0x4778 (startAt 0x8000100 thumbReset)
      (fun t => (t.r15, t.cpsr.t)) = some (0x08000104, false) := by
  decide

/-- R362. -/
theorem test_thumb_ldr_pc :
    after 16 0x4802 (withWords [(0x800010C, 0xABCD)] (startAt 0x8000102 thumbReset))
      (fun t => getReg 0 t) = some 0xABCD := by
  decide

/-- R363. -/
theorem test_thumb_str_reg :
    after 16 0x5088 (withRegs [(0, 0x9), (1, 0x2000000), (2, 0x4)] thumbReset)
      (fun t => wordAt 0x02000004 t) = some 9 := by
  decide

/-- R364. -/
theorem test_thumb_strb_reg :
    after 16 0x5488 (withRegs [(0, 0x1FF), (1, 0x2000000), (2, 0x2)] thumbReset)
      (fun t => wordAt 0x02000000 t) = some 0xFF0000 := by
  decide

/-- R365. -/
theorem test_thumb_ldr_reg :
    after 16 0x5888 (withWords [(0x2000000, 0x44332211)] (withRegs [(1, 0x2000000), (2, 0x3)] thumbReset))
      (fun t => getReg 0 t) = some 0x33221144 := by
  decide

/-- R366. -/
theorem test_thumb_ldrb_reg :
    after 16 0x5C88 (withWords [(0x2000000, 0x44332211)] (withRegs [(1, 0x2000000), (2, 0x1)] thumbReset))
      (fun t => getReg 0 t) = some 0x22 := by
  decide

/-- R367. -/
theorem test_thumb_strh_reg :
    after 16 0x5288 (withRegs [(0, 0xABCD1234), (1, 0x2000000), (2, 0x2)] thumbReset)
      (fun t => wordAt 0x02000000 t) = some 0x12340000 := by
  decide

/-- R368. -/
theorem test_thumb_ldsb :
    after 16 0x5688 (withWords [(0x2000000, 0x80)] (withRegs [(1, 0x2000000), (2, 0x0)] thumbReset))
      (fun t => getReg 0 t) = some 0xFFFFFF80 := by
  decide

/-- R369. -/
theorem test_thumb_ldrh_reg :
    after 16 0x5A88 (withWords [(0x2000000, 0x44332211)] (withRegs [(1, 0x2000000), (2, 0x1)] thumbReset))
      (fun t => getReg 0 t) = some 0x11000022 := by
  decide

/-- R370. -/
theorem test_thumb_ldsh :
    after 16 0x5E88 (withWords [(0x2000000, 0x8001)] (withRegs [(1, 0x2000000), (2, 0x0)] thumbReset))
      (fun t => getReg 0 t) = some 0xFFFF8001 := by
  decide

/-- R371. -/
theorem test_thumb_str_imm :
    after 16 0x6048 (withRegs [(0, 0x9), (1, 0x2000000)] thumbReset)
      (fun t => wordAt 0x02000004 t) = some 9 := by
  decide

/-- R372. -/
theorem test_thumb_ldr_imm :
    after 16 0x6848 (withWords [(0x2000004, 0x9)] (withRegs [(1, 0x2000000)] thumbReset))
      (fun t => getReg 0 t) = some 9 := by
  decide

/-- R373. -/
theorem test_thumb_strb_imm :
    after 16 0x7048 (withRegs [(0, 0x1FF), (1, 0x2000000)] thumbReset)
      (fun t => wordAt 0x02000000 t) = some 0xFF00 := by
  decide

/-- R374. -/
theorem test_thumb_ldrb_imm :
    after 16 0x7848 (withWords [(0x2000000, 0x44332211)] (withRegs [(1, 0x2000000)] thumbReset))
      (fun t => getReg 0 t) = some 0x22 := by
  decide

/-- R375. -/
theorem test_thumb_strh_imm :
    after 16 0x8048 (withRegs [(0, 0xABCD1234), (1, 0x2000000)] thumbReset)
      (fun t => wordAt 0x02000000 t) = some 0x12340000 := by
  decide

/-- R376. -/
theorem test_thumb_ldrh_imm :
    after 16 0x8848 (withWords [(0x2000000, 0x44332211)] (withRegs [(1, 0x2000000)] thumbReset))
      (fun t => getReg 0 t) = some 0x4433 := by
  decide

/-- R377. -/
theorem test_thumb_str_sp :
    after 16 0x9001 (withRegs [(0, 0x9)] thumbReset)
      (fun t => wordAt 0x03007F04 t) = some 9 := by
  decide

/-- R378. -/
theorem test_thumb_ldr_sp :
    after 16 0x9801 (withWords [(0x3007F04, 0x9)] thumbReset)
      (fun t => getReg 0 t) = some 9 := by
  decide

/-- R379. -/
theorem test_thumb_add_pc :
    after 16 0xA001 (startAt 0x8000102 thumbReset)
      (fun t => getReg 0 t) = some 0x08000108 := by
  decide

/-- R380. -/
theorem test_thumb_add_sp :
    after 16 0xA801 thumbReset
      (fun t => getReg 0 t) = some 0x03007F04 := by
  decide

/-- R381. -/
theorem test_thumb_add_sp_imm :
    after 16 0xB084 thumbReset
      (fun t => getReg 13 t) = some 0x03007EF0 := by
  decide

/-- R382. -/
theorem test_thumb_push :
    after 16 0xB501 (withRegs [(0, 0x7), (14, 0x8000123)] thumbReset)
      (fun t => (wordAt 0x03007EF8 t, wordAt 0x03007EFC t, getReg 13 t)) = some (7, 0x08000123, 0x03007EF8) := by
  decide

/-- R383. -/
theorem test_thumb_pop :
    after 16 0xBD01 (withWords [(0x3007EF8, 0x7), (0x3007EFC, 0x8000123)] (withRegs [(13, 0x3007EF8)] thumbReset))
      (fun t => (getReg 0 t, t.r15, t.cpsr.t, getReg 13 t)) = some (7, 0x08000122, true, 0x03007F00) := by
  decide

/-- R384. -/
theorem test_thumb_stmia :
    after 16 0xC006 (withRegs [(0, 0x2000000), (1, 0x1), (2, 0x2)] thumbReset)
      (fun t => (wordAt 0x02000000 t, wordAt 0x02000004 t, getReg 0 t)) = some (1, 2, 0x02000008) := by
  decide

/-- R385. -/
theorem test_thumb_ldmia :
    after 16 0xC806 (withWords [(0x2000000, 0x1), (0x2000004, 0x2)] (withRegs [(0, 0x2000000)] thumbReset))
      (fun t => (getReg 1 t, getReg 2 t, getReg 0 t)) = some (1, 2, 0x02000008) := by
  decide

/-- R386. -/
theorem test_thumb_b_cond :
    after 16 0xD1FC (startAt 0x8000010 thumbReset)
      (fun t => t.r15) = some 0x0800000C := by
  decide

/-- R386: the next instruction is at 0x08000012. -/
theorem test_thumb_b_cond_fails :
    after 16 0xD1FC (withFlags 0x4 (startAt 0x8000010 thumbReset))
      (fun t => nextAddr t) = some 0x08000012 := by
  decide

/-- R387. -/
theorem test_thumb_swi :
    after 16 0xDF05 (startAt 0x8000020 thumbReset)
      (fun t => (cpsrWord t.cpsr, (spsrWord t.spsr[2]), getRegIn .svc 14 t)) = some (0x93, 0x3F, 0x08000022) := by
  decide

/-- R388. -/
theorem test_thumb_b :
    after 16 0xE7FE (startAt 0x8000016 thumbReset)
      (fun t => t.r15) = some 0x08000016 := by
  decide

/-- R389. -/
theorem test_thumb_bl_prefix :
    after 16 0xF000 (startAt 0x8000012 thumbReset)
      (fun t => getReg 14 t) = some 0x08000016 := by
  decide

/-- R390. -/
theorem test_thumb_bl_suffix :
    after 16 0xF802 (withRegs [(14, 0x8000016)] (startAt 0x8000014 thumbReset))
      (fun t => (t.r15, getReg 14 t)) = some (0x0800001A, 0x08000017) := by
  decide

/-- R391, R414. -/
theorem test_thumb_und1011 :
    after 16 0xB100 thumbReset
      (fun t => (cpsrWord t.cpsr, getRegIn .und 14 t, t.r15)) = some (0x9B, 0x08000002, 4) := by
  decide

/-- R391, R414. -/
theorem test_thumb_und_cond :
    after 16 0xDE01 thumbReset
      (fun t => (cpsrWord t.cpsr, getRegIn .und 14 t, t.r15)) = some (0x9B, 0x08000002, 4) := by
  decide

/-- R391, R414. -/
theorem test_thumb_und11101 :
    after 16 0xE801 thumbReset
      (fun t => (cpsrWord t.cpsr, getRegIn .und 14 t, t.r15)) = some (0x9B, 0x08000002, 4) := by
  decide
/-! Faults and refusals, exceptions, the I/O registers, DMA and the scheduler. -/

/-- R252: LDRB to R15 is refused by name. -/
theorem test_refused_ldrb_pc : step (State.reset.withFetchWord 32 0xE5D2F002) = .refused .ldrbToPc :=
  rfl

/-- R142: condition 1111 never executes. -/
theorem test_never : after 32 0xFF050000 State.reset (fun t => (cpsrWord t.cpsr, nextAddr t)) =
    some (0x1F, 0x08000004) := by
  decide

/-- Spec 95 section 2.18, scenario 4. -/
theorem test_irq_entry :
    (match step (startAt 0x080000F8 { State.reset with ime := true, ie := 1, iff := 1 }) with
      | .next t => some (getRegIn .irq 14 t, spsrWord t.spsr[1], cpsrWord t.cpsr, t.r15, t.pipe)
      | .fault _ | .refused _ => none) = some (0x080000FC, 0x1F, 0x92, 0x18, []) := by
  decide

/-- Spec 95 section 2.18, IRQ in THUMB, from a halted machine. -/
theorem test_irq_thumb :
    (match step (startAt 0x08000200 { thumbReset with ime := true, ie := 1, iff := 1, halted := true }) with
      | .next t => some (getRegIn .irq 14 t, spsrWord t.spsr[1], cpsrWord t.cpsr, t.r15, t.halted)
      | .fault _ | .refused _ => none) = some (0x08000204, 0x3F, 0x92, 0x18, false) := by
  decide

/-- Spec 95 section 2.15: one word store writes IE and clears IF bit 0. -/
theorem test_ie_if_word_store :
    after 32 0xE5810000 (withRegs [(0, 0x00010001), (1, 0x04000200)] { State.reset with iff := 1 })
      (fun t => (t.ie, t.iff)) = some (1, 0) := by
  decide

/-- Spec 95 section 2.15: a store to HALTCNT halts. -/
theorem test_haltcnt :
    after 32 0xE5C10000 (withRegs [(1, 0x04000301)] State.reset) (fun t => (t.halted, t.now)) = some (true, 1) := by
  decide

/-- Spec 95 section 2.16, src decrement: the store of CNT_H runs two halfword units and costs two cycles. -/
theorem test_dma_decrement :
    after 32 0xE5810000 (withRegs [(0, 0x80800002), (1, 0x040000B8)] (withWords [(0x0200000C, 0xAAAA0000),
        (0x02000010, 0xBBBB)] { State.reset with dma := State.reset.dma.set 0 ⟨0x02000010, 0x02001000, 0, 0, 0, 0⟩ }))
      (fun t => (wordAt 0x02001000 t, t.dma[0].isrc, t.dma[0].idst, t.dma[0].cntH, t.now)) =
    some (0xAAAABBBB, 0x0200000C, 0x02001004, 0x0080, 3) := by
  decide +kernel

/-- Spec 95 section 2.16, IRQ on end, here for channel 2: IF bit 10. -/
theorem test_dma_irq :
    (match startDma 2 { State.reset with dma := State.reset.dma.set 2 ⟨0, 0, 1, 0xC000, 0x02000000, 0x02001000⟩ } with
      | .next t => some (t.iff, t.dma[2].cntH, t.pendingCycles)
      | .fault _ | .refused _ => none) = some (0x400, 0x4000, 1) := by
  decide

/-- A channel that disables itself and then, through the same register, starts itself again: SAD holds the halfwords 0x0000 and
0x8040, and DAD is its own CNT_H. -/
def restarting : State :=
  { State.reset with
    mem := [(0x02000002, 0x40), (0x02000003, 0x80)]
    dma := State.reset.dma.set 0 ⟨0x02000000, 0x040000BA, 2, 0x8040, 0x02000000, 0x040000BA⟩ }

set_option maxRecDepth 20000 in
/-- By R453 its transfer is one unit, and then the same transfer from the same state. -/
theorem test_dma_restarts (run : Fin 4 → State → Result) :
    let p := dmaPlan 0 restarting.dma[0]
    runBody run 0 restarting =
      andThen
        (andThen
          (andThen (run 0 restarting) fun s1 => .next (setDma 0
            { s1.dma[0] with
              isrc := s1.dma[0].isrc + dmaDelta p.src p.width, idst := s1.dma[0].idst + dmaDelta p.dst p.width } s1))
          (dmaUnits run 0 p 0))
        fun s1 => .next (dmaFinish 0 0x8040 p s1) :=
  rfl

/-- So the rules give it no state after: the one case of `dmaEndless` (log entry 6). -/
theorem test_dma_endless : startDma 0 restarting = .fault .dmaEndless := by
  have h (k : Nat) : dmaRun k 0 restarting = .fault .dmaEndless := by
    induction k with
    | zero => rfl
    | succ k ih => exact (test_dma_restarts (dmaRun k)).trans (by rw [ih]; rfl)
  obtain ⟨k, hk⟩ := (Laws.dmaRun_limit 0 restarting).exists
  rw [← hk, h]

/-- Spec 95 section 2.17, source property: a, c, b. -/
theorem test_event_order :
    nextDue 10 [⟨5, 0, 100⟩, ⟨10, 1, 101⟩, ⟨5, 2, 102⟩] = some ⟨5, 0, 100⟩ ∧
    nextDue 10 [⟨10, 1, 101⟩, ⟨5, 2, 102⟩] = some ⟨5, 2, 102⟩ ∧ nextDue 4 [⟨10, 1, 101⟩, ⟨5, 2, 102⟩] = none := by
  decide

/-- A fetched instruction is the one placed, in both states (log entry 3). -/
theorem test_table_word :
    decodeTableWord 32 0xE2901001 = some (.add .al true 0 1 (.imm 0 1)) ∧
    decodeTableWord 16 0x1842 = some (.tAddReg 1 0 2) := by
  decide

def completes (r : Result) : Bool :=
  match r with
  | .next _ => true
  | .fault _ | .refused _ => false

theorem next_of_completes {r : Result} (h : completes r = true) : ∃ t, r = .next t := by
  cases r
  · exact ⟨_, rfl⟩
  · cases h
  · cases h

/-! Witnesses: cases that meet the hypotheses of each statement. -/

/-- DecodeEncode. -/
theorem test_witness_DecodeEncode : (Instr.undPsr .al 0x1200010).wf = true ∧ (Instr.tBCond .le 0xFF).wf = true := by
  decide

/-- DecodeBytesEncode, the clause on short input: three bytes and one. -/
theorem test_witness_DecodeBytesEncode :
    ([0, 0, 0] : List Byte).length < (if false then 2 else 4) ∧ ([0] : List Byte).length < (if true then 2 else 4) := by
  decide

/-- StepRunsDecoded, in ARM state at reset, and in THUMB state at the last addresses below the I/O region, halted with an
enabled source pending while IME is off. -/
theorem test_witness_StepRunsDecoded :
    (State.reset.halted = false ∧ State.reset.pipe = [] ∧ noIrq State.reset = true ∧
      (∀ k, k < 2 * (instrBytes State.reset).toNat → claimed (State.reset.r15 + BitVec.ofNat 32 k) State.reset = false) ∧
      alignPc false State.reset.r15 = State.reset.r15 ∧
      decodeBytes false (codeBytes false State.reset.r15 State.reset) = .ok (.and .eq false 0 0 (.shiftImm 0 .lsl 0), [])) ∧
    (let s := { startAt 0x03FFFFFC thumbReset with halted := true, ie := 1, iff := 1 };
      s.ie &&& s.iff ≠ 0 ∧ s.pipe = [] ∧ noIrq s = true ∧
      (∀ k, k < 2 * (instrBytes s).toNat → claimed (s.r15 + BitVec.ofNat 32 k) s = false) ∧
      alignPc true s.r15 = s.r15 ∧ decodeBytes true (codeBytes true s.r15 s) = .ok (.tLslImm 0 0 0, [])) := by
  decide

/-- StepRunsPrefetched, fetching from the I/O region, where a component claims another offset. -/
theorem test_witness_StepRunsPrefetched :
    let s := { startAt 0x04000200 State.reset with
      pipe := [0xE3A00005], params := { standardParams with ioClaims := [0x204] } }
    s.halted = false ∧ s.pipe = [0xE3A00005] ∧ noIrq s = true ∧
    (∀ k, k < (instrBytes s).toNat → claimed (s.r15 + BitVec.ofNat 32 k) s = false) ∧ alignPc s.cpsr.t s.r15 = s.r15 ∧
    claimed 0x04000204 s = true := by
  decide

/-- StepTakesIrq. -/
theorem test_witness_StepTakesIrq :
    let s := { thumbReset with pipe := [5], ime := true, ie := 0x2000, iff := 0x2000, halted := true }
    s.pipe.length ≤ 1 ∧ irqLine s = true ∧ s.cpsr.i = false := by
  decide

/-- HaltedStepIdles, with an event due one cycle later. -/
theorem test_witness_HaltedStepIdles :
    let s := { State.reset with halted := true, ie := 1, iff := 2, pendingCycles := 3, queue := [⟨5, 0, 1⟩] }
    s.halted = true ∧ s.ie &&& s.iff = 0 ∧ ∀ e ∈ s.queue, s.now + 1 + s.pendingCycles < e.due := by
  decide

/-- NextDueIsLeast: an event due exactly now, and none. -/
theorem test_witness_NextDueIsLeast :
    nextDue 5 [⟨6, 0, 1⟩, ⟨5, 1, 2⟩] = some ⟨5, 1, 2⟩ ∧ nextDue 4 [⟨6, 0, 1⟩, ⟨5, 1, 2⟩] = none := by
  decide

/-- StepTicks, StepKeepsInv, StepKeepsRom: a step from a state with the invariant completes. -/
theorem test_witness_step : Inv State.reset ∧ ∃ t, step State.reset = .next t := by
  refine ⟨⟨⟨rfl, ?_, ?_, ?_, ?_, ?_, ?_⟩, ?_, ?_, ?_, ?_⟩, next_of_completes (by decide)⟩ <;> decide

/-- ResetValues: parameters with each boot. -/
theorem test_witness_ResetValues :
    standardParams.boot = .cartridgeDirect ∧ ({ standardParams with boot := .bios } : Params).boot = .bios :=
  ⟨rfl, rfl⟩

/-- ConditionFails: EQ with Z clear, NV always, and the THUMB branch. -/
theorem test_witness_ConditionFails :
    (Instr.bl .eq 0).cond = some .eq ∧ condPassed .eq State.reset = false ∧ (Instr.swi .nv 0).cond = some .nv ∧
    condPassed .nv State.reset = false ∧ (Instr.tBCond .ne 0).cond = some .ne ∧
    condPassed .ne (withFlags 4 State.reset) = false := by
  decide

/-- ShiftImmediate and ShiftRegister: the amounts where their clauses meet. -/
theorem test_witness_shifts :
    (1 : BitVec 5) ≠ 0 ∧ (31 : BitVec 5) ≠ 0 ∧ (0 : Byte).toNat = 0 ∧ 1 ≤ (31 : Byte).toNat ∧ (31 : Byte).toNat ≤ 31 ∧
    (32 : Byte).toNat = 32 ∧ 32 < (33 : Byte).toNat ∧ (64 : Byte).toNat % 32 = 0 ∧ (255 : Byte).toNat % 32 ≠ 0 := by
  decide

/-- OperandForms, the register-shifted clause; BankedViews; DataProcResult, DataProcBranch, DataProcReturn, CompareResult,
MsrResult, BranchResult, SoftwareInterrupt, UndefinedInstruction, RefusedForms, ThumbBranchResult. -/
theorem test_witness_operands :
    State.reset.cpsr.t = false ∧ (14 : RegNum) ≠ 15 ∧ condPassed .al State.reset = true ∧
    condPassed .ne State.reset = true ∧
    dataProcForms .al true 1 14 (.imm 0 5) (getReg 1 State.reset) ⟨5, false⟩ State.reset.cpsr ≠ [] := by
  decide

/-- MsrResult: its three modes, a mask with and without each field, and mode numbers valid and not (R31, R37). -/
theorem test_witness_MsrResult :
    spsrIndex Mode.usr = none ∧ spsrIndex Mode.und = some 4 ∧ (8 : BitVec 4).getLsbD 0 = false ∧
    (1 : BitVec 4).getLsbD 0 = true ∧ State.reset.cpsr.mode ≠ .usr ∧
    modeBits .fiq = BitVec.extractLsb' 0 5 (0xD1 : Word) ∧ (∀ m, modeBits m ≠ BitVec.extractLsb' 0 5 (0 : Word)) := by
  refine ⟨rfl, rfl, rfl, rfl, by decide, rfl, ?_⟩
  intro m
  cases m <;> decide

/-- MrsResult: a mode with an SPSR and one without. -/
theorem test_witness_MrsResult :
    condPassed .al State.reset = true ∧ (14 : RegNum) ≠ 15 ∧ spsrIndex State.reset.cpsr.mode = none ∧
    spsrIndex (inMode .fiq State.reset).cpsr.mode = some 0 := by
  decide

/-- MultiplyResult, LongMultiplyResult, SwapResult: registers below 15, distinct where they must be, outside I/O, and a store to
an I/O register that completes. -/
theorem test_witness_registers :
    (∃ u, store .byte 0x04000301 5 State.reset = .next u) ∧
    condPassed .al State.reset = true ∧ (14 : RegNum) ≠ 15 ∧ (13 : RegNum) ≠ 15 ∧ (13 : RegNum) ≠ 14 ∧
    isIo (getReg 13 State.reset) = false ∧ Memory.wf State.reset.mem = true :=
  ⟨next_of_completes (by decide), by decide⟩

/-- ReadValues: the last byte below the I/O region and the first above it. -/
theorem test_witness_ReadValues : isIo 0x03FFFFFF = false ∧ isIo 0x05000000 = false := by
  decide

/-- LoadResult, LoadToPc, StoreResult: a written-back base below 15, no writeback with base R15, the halfword forms with
W = 1 and P = 1, a store outside I/O, and a store to an I/O register that completes. -/
theorem test_witness_transfers :
    (let s := withRegs [(1, 0x03FFFFFF)] State.reset;
      let tr := transferAt ⟨false, true, false⟩ 1 4 s;
      condPassed .al s = true ∧ (0 : RegNum) ≠ 15 ∧ tr.wb = true ∧ (1 : RegNum) ≠ 15 ∧ isIo tr.addr = false ∧
      Memory.wf s.mem = true) ∧
    (transferAt ⟨true, true, false⟩ 15 4 State.reset).wb = false ∧
    ((⟨true, true, true⟩ : Index).w = true → (⟨true, true, true⟩ : Index).p = true) ∧
    ∃ u, store .word 0x04000200 5 State.reset = .next u := by
  exact ⟨by decide, by decide, by decide, next_of_completes (by decide)⟩

/-- BlockLoad, BlockStore, BlockReturn, UserBank, ThumbBlockTransfer: sixteen words that end just below the I/O region, and
the empty list. -/
theorem test_witness_blocks :
    (let s := withRegs [(0, 0x03FFFFC0)] State.reset;
      condPassed .al s = true ∧ (0 : RegNum) ≠ 15 ∧ (0xFFFF : BitVec 16).getLsbD 15 = true ∧ Memory.wf s.mem = true ∧
      (∀ k, k < 16 → isIo (blockStart ⟨false, true, true⟩ (getReg 0 s) 0x40 + BitVec.ofNat 32 (4 * k)) = false)) ∧
    movedRegs (listed (0xFFFF : BitVec 16)) = [0, 1, 2, 3, 4, 5, 6, 7, 8, 9, 10, 11, 12, 13, 14, 15] ∧
    movedBytes (listed (0xFFFF : BitVec 16)) = 0x40 ∧ movedRegs (listed (0 : BitVec 16)) = [15] ∧
    (∀ k, k < 9 → isIo (getReg 13 State.reset - 36 + BitVec.ofNat 32 (4 * k)) = false) := by
  decide

/-- UserBank: the forms without writeback. -/
theorem test_witness_UserBank :
    (⟨true, false, false⟩ : Index).w = false ∧
    (∀ k, k < 1 → isIo (getReg 13 (inMode .irq State.reset) + BitVec.ofNat 32 (4 * k)) = false) := by
  decide

/-- UndefinedInstruction: both policies. -/
theorem test_witness_UndefinedInstruction :
    State.reset.params.undefPolicy = .trap ∧
    ({ State.reset with params := { standardParams with undefPolicy := .skip } } : State).params.undefPolicy = .skip := by
  decide

/-- ThumbAluResult and the other THUMB statements quantify over all states; ThumbStoreResult needs a store outside I/O. -/
theorem test_witness_ThumbStoreResult :
    Memory.wf State.reset.mem = true ∧
    ((Instr.tStrSp 0 1, Width.word, (0x03007F04 : Word)) ∈ thumbStores 0 1 0 1 1 State.reset) ∧
    isIo 0x03007F04 = false := by
  decide

/-- RegisterFrame, StatusFrame, MemoryFrame: instructions that complete, storing and not; a register none of them names. -/
theorem test_witness_frames :
    (∃ t, exec (.mov .al true 0 1 (.imm 0 5)) State.reset = .next t) ∧
    (∃ t, exec (.tPush true 1) State.reset = .next t) ∧
    (Instr.mov .al true 0 1 (.imm 0 5)).storing = false ∧ (Instr.tPush true 1).storing = true ∧
    (Instr.mov .al true 0 1 (.imm 0 5)).writesSpsr = false ∧
    (∀ x ∈ (Instr.mov .al true 0 1 (.imm 0 5)).writes .sys, x.2 ≠ 15 → physIndex .sys 0 ≠ physIndex x.1 x.2) := by
  exact ⟨next_of_completes (by decide), next_of_completes (by decide), rfl, rfl, rfl, by decide⟩

/-- UserConfined: MSR of every field in USR mode. -/
theorem test_witness_UserConfined :
    (inMode .usr State.reset).cpsr.mode = .usr ∧ (∃ t, exec (.msrImm .al false 9 0 0xD1) (inMode .usr State.reset) = .next t) ∧
    (Instr.msrImm .al false 9 0 0xD1).raises = none :=
  ⟨rfl, next_of_completes (by decide), rfl⟩

/-- RegionMap: the boundary addresses of its clauses. -/
theorem test_witness_RegionMap :
    (0x01FFFFFF : Word).toNat / 0x01000000 ≤ 1 ∧ (0x02FFFFFF : Word).toNat / 0x01000000 = 2 ∧
    (0x03000000 : Word).toNat / 0x01000000 = 3 ∧ (0x05FFFFFF : Word).toNat / 0x01000000 = 5 ∧
    (0x06017FFF : Word).toNat % 0x20000 < 0x18000 ∧ 0x18000 ≤ (0x06018000 : Word).toNat % 0x20000 ∧
    (0x06018000 : Word).toNat / 0x01000000 = 6 ∧ (0x07000000 : Word).toNat / 0x01000000 = 7 ∧
    (0x0DFFFFFF : Word).toNat / 0x01000000 ≤ 13 ∧ 8 ≤ (0x08000000 : Word).toNat / 0x01000000 ∧
    14 ≤ (0x0E000000 : Word).toNat / 0x01000000 ∧ (0x0FFFFFFF : Word).toNat / 0x01000000 ≤ 15 ∧
    16 ≤ (0x10000000 : Word).toNat / 0x01000000 := by
  decide

/-- InterruptFlags, IoRegisters, DmaRegisters: the registers' addresses, the last of them at the last mirror. -/
theorem test_witness_io :
    isIo 0x04000202 = true ∧ (0x04000203 : Word).toNat % 0x400 = 0x202 + 1 ∧ isIo 0x04FFFE00 = true ∧
    (0x04FFFE00 : Word).toNat % 0x400 = 0x200 ∧ (0x04000208 : Word).toNat % 0x400 = 0x208 ∧
    (0x04000301 : Word).toNat % 0x400 = 0x301 ∧ (0x040000DE : Word).toNat % 0x400 = 0xB0 + 12 * (3 : Fin 4).val + 10 ∧
    (0x040000B0 : Word).toNat % 0x400 = 0xB0 + 12 * (0 : Fin 4).val := by
  decide

/-- DmaRegisters: no edge, an edge with another timing, an edge with Immediate timing. -/
theorem test_witness_DmaRegisters :
    (State.reset.dma[0].cntH).getLsbD 15 = false ∧ (0x8000 : Word).getLsbD 15 = true ∧
    (0x8000 : Word).extractLsb' 12 2 = 0 ∧ (0xB000 : Word).extractLsb' 12 2 ≠ 0 ∧ (0x7FFF : Word).getLsbD 15 = false := by
  decide

/-- DmaTransfer, its last clause: two units downward from the first address above the I/O region, in a channel whose state is reset's. -/
theorem test_witness_DmaTransfer :
    let s := { State.reset with dma := State.reset.dma.set 0 ⟨0, 0, 2, 0x8000, 0x05000000, 0x03FFFFFC⟩ }
    s.dma[0].cntL.toNat = 2 ∧
    ∀ k, k < 2 → isIo (s.dma[0].isrc + BitVec.ofNat 32 k * 2) = false ∧
      isIo (s.dma[0].idst + BitVec.ofNat 32 k * 2) = false := by
  decide

/-- DmaCopies: adjacent ranges of words that end with EWRAM. -/
theorem test_witness_DmaCopies :
    let s := { State.reset with dma := State.reset.dma.set 3 ⟨0, 0, 4, 0x8400, 0x0203FFE0, 0x0203FFF0⟩ }
    let d := s.dma[3]
    Memory.wf s.mem = true ∧ d.cntL ≠ 0 ∧ d.cntH.extractLsb' 12 2 ≠ 3 ∧
    d.cntH.extractLsb' 7 2 = 0 ∧ d.cntH.extractLsb' 5 2 = 0 ∧ 4 = (if d.cntH.getLsbD 10 then 4 else 2) ∧
    d.isrc.toNat % 4 = 0 ∧ d.idst.toNat % 4 = 0 ∧ 0x02000000 ≤ d.isrc.toNat ∧
    d.isrc.toNat + d.cntL.toNat * 4 ≤ 0x02040000 ∧ 0x02000000 ≤ d.idst.toNat ∧
    d.idst.toNat + d.cntL.toNat * 4 ≤ 0x02040000 ∧ d.isrc.toNat + d.cntL.toNat * 4 ≤ d.idst.toNat := by
  decide

end Sys2Proof.Tests
end

/-! The banked views of R33 (O21). -/

namespace Sys2Proof.Proofs

open Sys2Proof.Machine Sys2Proof.Laws

/-- The stack registers of R33 are R13 and R14, or a pair from 20 up that starts at an even index. -/
theorem stackIndex_shape (m : Mode) : stackIndex m = 13 ∨ (20 ≤ stackIndex m ∧ stackIndex m % 2 = 0) := by
  cases m <;> decide

/-- USR and SYS share their R13 and R14; every other mode has its own (R33). -/
theorem stackIndex_eq_iff (m m' : Mode) :
    stackIndex m = stackIndex m' ↔ m = m' ∨ (m = .usr ∧ m' = .sys) ∨ (m = .sys ∧ m' = .usr) := by
  cases m <;> cases m' <;> decide

/-- Where two views below R15 share a physical register (R33): the three ranges of numbers, R0 to R7, R8 to R12 and
R13 to R14, have indices that do not meet. -/
theorem physIndex_eq_iff {m m' : Mode} {n n' : RegNum} (hn : n ≠ 15) (hn' : n' ≠ 15) :
    physIndex m n = physIndex m' n' ↔
      n' = n ∧ (n.toNat < 8 ∨ (n.toNat < 13 ∧ (m = .fiq ↔ m' = .fiq)) ∨
        (13 ≤ n.toNat ∧ (m = m' ∨ (m = .usr ∧ m' = .sys) ∨ (m = .sys ∧ m' = .usr)))) := by
  have hlt : n.toNat < 15 := by bv_omega
  have hlt' : n'.toNat < 15 := by bv_omega
  have hm := stackIndex_shape m
  have hm' := stackIndex_shape m'
  rw [← stackIndex_eq_iff, ← BitVec.toNat_inj]
  simp only [physIndex]
  generalize stackIndex m = a at *
  generalize stackIndex m' = a' at *
  by_cases hf : m = .fiq <;> by_cases hf' : m' = .fiq <;>
    simp only [hf, hf', if_true, if_false, iff_true, iff_false, not_true, and_true, and_false, false_or] <;>
    split_ifs <;> omega

/-- Reading one view below R15 after writing another (R12, R33). -/
theorem getRegIn_setRegIn {m m' : Mode} {n n' : RegNum} (hn : n ≠ 15) (v : Word) (s : State) :
    getRegIn m' n' (setRegIn m n v s) =
      if n' ≠ 15 ∧ physIndex m n = physIndex m' n' then v else getRegIn m' n' s := by
  rw [setRegIn, if_neg hn]
  split
  case isTrue h =>
    rw [getRegIn_regs h.1]
    simp [h.2]
  case isFalse h =>
    by_cases hn' : n' = 15
    · subst hn'; rfl
    · exact getRegIn_putRegIn_other (fun he => h ⟨hn', he.symm⟩) v s

/-- Writing R15 through any view is a branch (R41). -/
theorem setRegIn_pc (m : Mode) (v : Word) (s : State) : setRegIn m 15 v s = branchTo v s := rfl

theorem alignPc_eq_and (thumb : Bool) (v : Word) :
    alignPc thumb v = v &&& (if thumb then 0xFFFFFFFE else 0xFFFFFFFC) := by
  cases thumb <;> rfl

/-- Settles O21: two views below R15 share storage exactly where their physical indices agree, and a write of R15 is
`branchTo`. -/
theorem bankedViews : Obligations.BankedViews := by
  refine ⟨fun m m' n n' v s hn => ?_, fun m v s => ⟨getRegIn_pc m s, ?_⟩⟩
  · rw [getRegIn_setRegIn hn]
    by_cases hn' : n' = 15
    · subst hn'
      rw [if_neg (by simp), if_neg fun h => hn h.1.symm]
    · simp only [hn', ne_eq, not_false_eq_true, true_and, physIndex_eq_iff hn hn']
  · rw [setRegIn_pc, ← alignPc_eq_and]
    rfl

/-! The banked registers no instruction names (O51). `KeepsViewsBut ws` names the registers that may change by mode and
number, as `Instr.writes` does; each shared operation gets one lemma, and the instructions cite them. -/

/-- Every banked register below R15 is unchanged but those `ws` names, each through the view of its mode. -/
def KeepsViewsBut (ws : List (Mode × RegNum)) (s t : State) : Prop :=
  ∀ m n, n ≠ 15 → (∀ x ∈ ws, x.2 ≠ 15 → physIndex m n ≠ physIndex x.1 x.2) → getRegIn m n t = getRegIn m n s

/-- The next state of a result, if it has one, keeps every register but those `ws` names. -/
def ResultKeeps (ws : List (Mode × RegNum)) (s : State) (r : Result) : Prop :=
  ∀ t, r = .next t → KeepsViewsBut ws s t

section
variable {ws : List (Mode × RegNum)} {s t u : State}

theorem KeepsViewsBut.of_regs (h : t.regs = s.regs) : KeepsViewsBut ws s t :=
  fun _ _ hn _ => getRegIn_congr hn h

theorem KeepsViewsBut.trans (h : KeepsViewsBut ws s t) (h' : KeepsViewsBut ws t u) : KeepsViewsBut ws s u :=
  fun m n hn hw => (h' m n hn hw).trans (h m n hn hw)

theorem KeepsViewsBut.thenRegs (h : KeepsViewsBut ws s t) (hr : u.regs = t.regs) : KeepsViewsBut ws s u :=
  h.trans (.of_regs hr)

/-- What is kept but for registers of the current mode is kept but for a list that names them. -/
theorem keepsViews_of_keepsRegs {rs : List RegNum} (h : KeepsRegsBut rs s t) (hr : ∀ n ∈ rs, (s.cpsr.mode, n) ∈ ws) :
    KeepsViewsBut ws s t :=
  fun m n hn hw => h m n hn fun r hm h15 => hw (s.cpsr.mode, r) (hr r hm) h15

theorem keepsViews_putRegIn {m : Mode} {n : RegNum} (hm : (m, n) ∈ ws) (hn : n ≠ 15) (v : Word) (s : State) :
    KeepsViewsBut ws s (putRegIn m n v s) :=
  fun _ _ _ hw => getRegIn_putRegIn_other (hw (m, n) hm hn) v s

theorem KeepsViewsBut.thenSetReg (h : KeepsViewsBut ws s t) (hc : t.cpsr = s.cpsr) {n : RegNum}
    (hn : (s.cpsr.mode, n) ∈ ws) (v : Word) : KeepsViewsBut ws s (setReg n v t) :=
  h.trans (keepsViews_of_keepsRegs (keeps_setReg (List.mem_singleton_self n) v t) (by simpa [hc] using hn))

theorem keepsViews_setReg {n : RegNum} (hn : (s.cpsr.mode, n) ∈ ws) (v : Word) : KeepsViewsBut ws s (setReg n v s) :=
  (KeepsViewsBut.of_regs rfl).thenSetReg rfl hn v

theorem KeepsViewsBut.thenWriteBack (h : KeepsViewsBut ws s t) (hc : t.cpsr = s.cpsr) {tr : Transfer} {n : RegNum}
    (hn : tr.wb = true → (s.cpsr.mode, n) ∈ ws) : KeepsViewsBut ws s (writeBack tr n t) := by
  unfold writeBack
  split
  · exact h.thenSetReg hc (hn ‹_›) _
  · exact h

/-! Results. -/

variable {r : Result} {k : State → Result}

theorem ResultKeeps.next (h : KeepsViewsBut ws s t) : ResultKeeps ws s (.next t) := by
  rintro _ ⟨⟩
  exact h

theorem ResultKeeps.refused (f : Refusal) : ResultKeeps ws s (.refused f) := by
  rintro _ ⟨⟩

/-- A refused form has no next state. -/
theorem ResultKeeps.refusedIf {p : Prop} [Decidable p] {f : Refusal} (h : ResultKeeps ws s r) :
    ResultKeeps ws s (if p then .refused f else r) := by
  split
  · exact .refused f
  · exact h

theorem ResultKeeps.whenPassed {c : Cond} (h : ResultKeeps ws s (k s)) : ResultKeeps ws s (whenPassed c k s) := by
  unfold Machine.whenPassed
  split
  · exact h
  · exact .next (.of_regs rfl)

theorem ResultKeeps.of_frame (hr : ∀ u, r = .next u → BusFrame s u) : ResultKeeps ws s r :=
  fun u hu => .of_regs (by rw [(hr u hu).core])

/-- After a store the registers and the mode are those before it. -/
theorem ResultKeeps.afterFrame (hr : ∀ u, r = .next u → BusFrame s u)
    (hk : ∀ u, u.regs = s.regs → u.cpsr = s.cpsr → ResultKeeps ws s (k u)) : ResultKeeps ws s (andThen r k) := by
  intro t ht
  obtain ⟨u, hu, hkt⟩ := andThen_eq_next.mp ht
  have hc := (hr u hu).core
  exact hk u (by rw [hc]) (by rw [hc]) t hkt

end

/-! Data processing, PSR transfers and multiplies. -/

theorem returnFromException_regs (v : Word) (s : State) : (returnFromException v s).regs = s.regs := by
  rw [returnFromException, restoreCpsr_only]
  rfl

theorem writeResult_keeps (sf : Bool) (rd : RegNum) (a : Alu) (s : State) :
    KeepsViewsBut [(s.cpsr.mode, rd)] s (writeResult sf rd a s) := by
  have hset : KeepsViewsBut [(s.cpsr.mode, rd)] s (setReg rd a.res s) := keepsViews_setReg (by simp) _
  unfold writeResult
  split
  · split
    · exact .of_regs (returnFromException_regs _ _)
    · exact hset.thenRegs rfl
  · exact hset

theorem dataProc_keeps (f : AluOp) (c : Cond) (sf : Bool) (rn rd : RegNum) (op2 : Operand2) (s : State) :
    ResultKeeps [(s.cpsr.mode, rd)] s (dataProc f c sf rn rd op2 s) :=
  .whenPassed (.next (writeResult_keeps sf rd _ s))

theorem compareOp_keeps (f : AluOp) (c : Cond) (rn : RegNum) (op2 : Operand2) (s : State) :
    ResultKeeps [] s (compareOp f c rn op2 s) :=
  .whenPassed (.next (.of_regs rfl))

theorem mulFinish_keeps (sf : Bool) (rd : RegNum) (res : Word) (s : State) :
    KeepsViewsBut [(s.cpsr.mode, rd)] s (mulFinish sf rd res s) := by
  have hset : KeepsViewsBut [(s.cpsr.mode, rd)] s (setReg rd res s) := keepsViews_setReg (by simp) _
  unfold mulFinish
  split
  · exact hset.thenRegs rfl
  · exact hset

theorem mull_keeps (sf : Bool) (hi lo rs rm : RegNum) (p : State → BitVec 64) (s : State) :
    ResultKeeps [(s.cpsr.mode, hi), (s.cpsr.mode, lo)] s (mull sf hi lo rs rm p s) := by
  have hlo : KeepsViewsBut [(s.cpsr.mode, hi), (s.cpsr.mode, lo)] s (setReg lo ((p s).extractLsb' 0 32) s) :=
    keepsViews_setReg (by simp) _
  have hhi := hlo.thenSetReg (setReg_mode _ _ _) (n := hi) (by simp) ((p s).extractLsb' 32 32)
  refine .refusedIf (.next (hhi.thenRegs ?_))
  unfold mullFinish
  split <;> rfl

theorem readSpsr_state (s : State) : ∃ d, (readSpsr s).2 = { s with draws := d } := by
  unfold readSpsr
  split
  · exact ⟨s.draws, rfl⟩
  · exact ⟨s.draws + 1, rfl⟩

theorem mrsTo_keeps (spsr : Bool) (rd : RegNum) (s : State) :
    ResultKeeps [(s.cpsr.mode, rd)] s (mrsTo spsr rd s) := by
  obtain ⟨d, hd⟩ := readSpsr_state s
  refine .refusedIf ?_
  split
  · refine .next (.thenSetReg (.of_regs ?_) ?_ (by simp) _) <;> rw [hd]
  · exact .next (keepsViews_setReg (by simp) _)

theorem writeSpsr_regs (v : Word) (mask : BitVec 4) (s : State) : (writeSpsr v mask s).regs = s.regs := by
  unfold writeSpsr
  split <;> rfl

theorem msrFrom_keeps (spsr : Bool) (mask : BitVec 4) (v : Word) (s : State) :
    ResultKeeps [] s (msrFrom spsr mask v s) := by
  refine .next (.of_regs ?_)
  split
  · exact writeSpsr_regs v mask s
  · rfl

/-! Single transfers and swaps. -/

theorem mem_writtenBase {ix : Index} {rn : RegNum} {off : Word} {s : State} (h : (transferAt ix rn off s).wb = true) :
    rn ∈ writtenBase ix rn := by
  rw [writtenBase, if_pos (show (!ix.p || ix.w) = true from h)]
  exact List.mem_singleton_self rn

theorem reads_regs {read : Word → State → Word × State} (hr : Reads read) (a : Word) (s : State) :
    (read a s).2.regs = s.regs := by
  obtain ⟨e, he⟩ := hr a s
  rw [he]

theorem reads_cpsr {read : Word → State → Word × State} (hr : Reads read) (a : Word) (s : State) :
    (read a s).2.cpsr = s.cpsr := by
  obtain ⟨e, he⟩ := hr a s
  rw [he]

theorem loadTo_keeps {read : Word → State → Word × State} (hr : Reads read) (ix : Index) (rn rd : RegNum) (off : Word)
    (s : State) :
    ResultKeeps ((rd :: writtenBase ix rn).map (s.cpsr.mode, ·)) s (loadTo read ix rn rd off s) := by
  refine .refusedIf (.next (.thenSetReg
    (.thenWriteBack (.of_regs (reads_regs hr _ s)) (reads_cpsr hr _ s) fun h => ?_) ?_ ?_ _))
  · exact List.mem_map_of_mem (List.mem_cons_of_mem _ (mem_writtenBase h))
  · rw [writeBack_cpsr, reads_cpsr hr]
  · exact List.mem_map_of_mem List.mem_cons_self

theorem loadByteTo_keeps (ix : Index) (rn rd : RegNum) (off : Word) (s : State) :
    ResultKeeps ((rd :: writtenBase ix rn).map (s.cpsr.mode, ·)) s (loadByteTo ix rn rd off s) :=
  .refusedIf (loadTo_keeps (reads_memRead .byte) ix rn rd off s)

theorem storeFrom_keeps (w : Width) (ix : Index) (rn rd : RegNum) (off : Word) (s : State) :
    ResultKeeps ((writtenBase ix rn).map (s.cpsr.mode, ·)) s (storeFrom w ix rn rd off s) :=
  .refusedIf (.afterFrame (store_frame _ _ _ s) fun _ hr hc =>
    .next (.thenWriteBack (.of_regs hr) hc fun h => List.mem_map_of_mem (mem_writtenBase h)))

theorem ResultKeeps.halfTransfer {ws : List (Mode × RegNum)} {ix : Index} {rd : RegNum} {k : State → Result} {s : State}
    (h : ResultKeeps ws s (k s)) : ResultKeeps ws s (halfTransfer ix rd k s) := by
  unfold Machine.halfTransfer
  split
  · exact .refused _
  · exact h

theorem swap_keeps {read : Word → State → Word × State} (hr : Reads read) (w : Width) (rn rd rm : RegNum) (s : State) :
    ResultKeeps [(s.cpsr.mode, rd)] s (swap read w rn rd rm s) := by
  have hread : BusFrame s (read (getReg rn s) s).2 := by
    obtain ⟨e, he⟩ := hr (getReg rn s) s
    rw [he]
    exact frame_ext s e
  exact .refusedIf (.afterFrame (fun u hu => hread.trans (store_frame _ _ _ _ u hu)) fun _ hr hc =>
    .next (.thenSetReg (.of_regs hr) hc List.mem_cons_self _))

/-! Block transfers. -/

/-- R15 comes last in a block transfer (R270, R274). -/
theorem blockRegs_pc_last {n : Nat} (list : BitVec n) : (blockRegs list).Pairwise fun r _ => r ≠ 15 := by
  have h : (listed list).Pairwise fun r _ => r ≠ 15 := List.Pairwise.filter _ (by decide)
  unfold blockRegs
  split
  · exact List.pairwise_singleton _ _
  · rename_i hl
    rwa [hl] at h

theorem mem_listed_of_mem_blockRegs {n : Nat} {list : BitVec n} {r : RegNum} (h : r ∈ blockRegs list) (hr : r ≠ 15) :
    r ∈ listed list := by
  unfold blockRegs at h
  split at h
  · exact absurd (List.mem_singleton.mp h) hr
  · rename_i hl
    rwa [hl]

/-- A block load writes the listed registers, in the view of mode `m`; `put` writes one, and loading R15 comes last. -/
theorem loadWords_keeps {ws : List (Mode × RegNum)} {put : RegNum → Word → State → State} {m : Mode} {p : Cpsr}
    (hput : ∀ r v (u : State), r ≠ 15 → u.cpsr = p → put r v u = putRegIn m r v u)
    (hpc : ∀ v u, (put 15 v u).regs = u.regs) (regs : List RegNum) (addr : Word) (s : State)
    (hlast : regs.Pairwise fun r _ => r ≠ 15) (hws : ∀ r ∈ regs, r ≠ 15 → (m, r) ∈ ws) (hp : s.cpsr = p) :
    KeepsViewsBut ws s (loadWords put regs addr s) := by
  induction regs generalizing addr s with
  | nil => exact .of_regs rfl
  | cons r rest ih =>
    obtain ⟨hne, hlast'⟩ := List.pairwise_cons.mp hlast
    have hregs := reads_regs (reads_memRead .word) addr s
    have hcpsr := (reads_cpsr (reads_memRead .word) addr s).trans hp
    simp only [loadWords]
    by_cases hr : r = 15
    · have hrest : rest = [] := List.eq_nil_iff_forall_not_mem.mpr fun r' h => hne r' h hr
      subst hr hrest
      exact .of_regs ((hpc _ _).trans hregs)
    · rw [hput _ _ _ hr hcpsr]
      have hwrite := keepsViews_putRegIn (hws r List.mem_cons_self hr) hr (memRead .word addr s).1
        (memRead .word addr s).2
      exact (KeepsViewsBut.of_regs hregs).trans
        (hwrite.trans (ih _ _ hlast' (fun r' h => hws r' (List.mem_cons_of_mem _ h)) hcpsr))

theorem blockBack_cpsr (ix : Index) (rn : RegNum) (base size : Word) (s : State) :
    (blockBack ix rn base size s).cpsr = s.cpsr := by
  unfold blockBack
  split
  · exact setReg_mode _ _ _
  · rfl

theorem KeepsViewsBut.thenBlockBack {ws : List (Mode × RegNum)} {s t : State} (h : KeepsViewsBut ws s t)
    (hc : t.cpsr = s.cpsr) {ix : Index} {rn : RegNum} (hn : ∀ r ∈ writtenBlockBase ix rn, (s.cpsr.mode, r) ∈ ws)
    (base size : Word) : KeepsViewsBut ws s (blockBack ix rn base size t) := by
  unfold blockBack
  split
  · rename_i hw
    exact h.thenSetReg hc (hn rn (by simp [writtenBlockBase, hw])) _
  · exact h

theorem loadMultiple_keeps {ws : List (Mode × RegNum)} {put : RegNum → Word → State → State} {m : Mode} {s : State}
    (hput : ∀ r v (u : State), r ≠ 15 → u.cpsr = s.cpsr → put r v u = putRegIn m r v u)
    (hpc : ∀ v u, (put 15 v u).regs = u.regs) (ix : Index) (rn : RegNum) (list : BitVec 16)
    (hbase : ∀ r ∈ writtenBlockBase ix rn, (s.cpsr.mode, r) ∈ ws) (hlist : ∀ r ∈ listed list, (m, r) ∈ ws) :
    ResultKeeps ws s (loadMultiple put ix rn list s) :=
  .refusedIf (.next (.trans (.thenBlockBack (.of_regs rfl) rfl hbase _ _)
    (loadWords_keeps hput hpc _ _ _ (blockRegs_pc_last list)
      (fun r h hr => hlist r (mem_listed_of_mem_blockRegs h hr)) (blockBack_cpsr _ _ _ _ _))))

theorem putReturning_eq_putRegIn (s : State) (r : RegNum) (v : Word) (u : State) (hr : r ≠ 15) (hu : u.cpsr = s.cpsr) :
    putReturning r v u = putRegIn s.cpsr.mode r v u := by
  rw [putReturning, if_neg hr, put_setReg s r v u hr hu]

theorem storeWords_frame (get : RegNum → State → Word) (regs : List RegNum) (addr : Word) :
    Framed (storeWords get regs addr) := by
  induction regs generalizing addr with
  | nil => rintro s _ ⟨⟩; exact .refl s
  | cons r rest ih => exact fun s t h => Framed.andThen h (store_frame _ _ _ s) (ih _)

theorem storeBlock_keeps {ws : List (Mode × RegNum)} {get : RegNum → State → Word} {back : State → State} {s : State}
    (hback : ∀ u, u.regs = s.regs → u.cpsr = s.cpsr → KeepsViewsBut ws s (back u)) (regs : List RegNum) (addr : Word) :
    ResultKeeps ws s (storeBlock get back regs addr s) := by
  cases regs with
  | nil => exact .next (hback s rfl rfl)
  | cons r rest =>
    refine .afterFrame (store_frame _ _ _ s) fun u hr hc t ht => ?_
    exact (hback u hr hc).trans (ResultKeeps.of_frame (storeWords_frame get rest _ (back u)) t ht)

theorem storeMultiple_keeps (get : RegNum → State → Word) (ix : Index) (rn : RegNum) (list : BitVec 16) (s : State) :
    ResultKeeps ((writtenBlockBase ix rn).map (s.cpsr.mode, ·)) s (storeMultiple get ix rn list s) :=
  .refusedIf (storeBlock_keeps
    (fun _ hr hc => .thenBlockBack (.of_regs hr) hc (fun _ h => List.mem_map_of_mem h) _ _) _ _)

/-- User-bank transfers never write back: with W = 1 they are refused (R275, R276). -/
theorem ldmUser_keeps (ix : Index) (rn : RegNum) (list : BitVec 16) (s : State) :
    ResultKeeps ((listed list).map (.usr, ·)) s
      (if ix.w then .refused .userBankLdmWithWriteback else loadMultiple (setRegIn .usr) ix rn list s) := by
  split
  · exact .refused _
  · rename_i hw
    exact loadMultiple_keeps (fun r v u hr _ => if_neg hr) (fun _ _ => rfl) ix rn list
      (by simp [writtenBlockBase, hw]) (fun r h => List.mem_map_of_mem h)

theorem stmUser_keeps (ix : Index) (rn : RegNum) (list : BitVec 16) (s : State) :
    ResultKeeps [] s
      (if ix.w then .refused .userBankStmWithWriteback else storeMultiple storedUserReg ix rn list s) := by
  split
  · exact .refused _
  · rename_i hw
    have h := storeMultiple_keeps storedUserReg ix rn list s
    rwa [writtenBlockBase, if_neg hw] at h

/-! Exceptions. -/

theorem enterException_keeps {m : Mode} {vector : Word} (hm : spsrIndex m ≠ none) (hv : alignPc false vector = vector)
    (lr : Word) (s : State) : KeepsViewsBut [(m, 14)] s (enterException m vector lr s) :=
  fun m' n hn hw => (entered_enterException hm lr hv s).keeps m' n hn
    (hw (m, 14) List.mem_cons_self (by simp))

theorem takeSwi_keeps (s : State) : KeepsViewsBut [(.svc, 14)] s (takeSwi s) :=
  enterException_keeps (by decide) (by decide) _ s

theorem undefinedEncoding_keeps (s : State) : KeepsViewsBut [(.und, 14)] s (undefinedEncoding s) := by
  unfold undefinedEncoding
  split
  · exact enterException_keeps (by decide) (by decide) _ s
  · exact .of_regs rfl

theorem undefinedArm_keeps (c : Cond) (s : State) : ResultKeeps [(.und, 14)] s (undefinedArm c s) :=
  .whenPassed (.next (undefinedEncoding_keeps s))

/-! THUMB. -/

/-- A next state whose registers are those of one register write; flags and R15 may differ. -/
theorem next_keeps_of_setReg {rd : RegNum} {v : Word} {s t : State} (h : t.regs = (setReg rd v s).regs) :
    ResultKeeps [(s.cpsr.mode, rd)] s (.next t) :=
  .next ((keepsViews_setReg List.mem_cons_self v).thenRegs h)

theorem thumbLoad_keeps {read : Word → State → Word × State} (hr : Reads read) (rd : LowReg) (addr : Word) (s : State) :
    ResultKeeps [(s.cpsr.mode, low rd)] s (thumbLoad read rd addr s) :=
  .next (.thenSetReg (.of_regs (reads_regs hr addr s)) (reads_cpsr hr addr s) List.mem_cons_self _)

theorem thumbStore_keeps (w : Width) (rd : LowReg) (addr : Word) (s : State) :
    ResultKeeps [] s (thumbStore w rd addr s) :=
  .of_frame (store_frame _ _ _ s)

theorem mem_listed {n : Nat} {list : BitVec n} {r : RegNum} : r ∈ listed list ↔ list.getLsbD r.toNat = true := by
  rw [listed, List.mem_filter, and_iff_right]
  revert r
  decide

/-- The list of POP names the low registers and R15 alone (R383). -/
theorem mem_listed_of_mem_stackList {r : Bool} {list : Byte} {n : RegNum} (h : n ∈ listed (stackList r 15 list))
    (hn : n ≠ 15) : n ∈ listed list := by
  have hpc : ∀ n : RegNum, n ≠ 15 → (1#16 <<< 15).getLsbD n.toNat = false := by decide
  rw [mem_listed, stackList, BitVec.getLsbD_or, Bool.or_eq_true] at h
  rw [mem_listed]
  rcases h with hlow | hextra
  · rw [BitVec.getLsbD_setWidth, Bool.and_eq_true] at hlow
    exact hlow.2
  · cases r
    · simp at hextra
    · rw [if_pos rfl, hpc n hn] at hextra
      cases hextra

theorem execTPush_keeps (r : Bool) (list : Byte) (s : State) :
    ResultKeeps [(s.cpsr.mode, 13)] s (execTPush r list s) :=
  .afterFrame (storeWords_frame _ _ _ s) fun _ hr hc => .next (.thenSetReg (.of_regs hr) hc List.mem_cons_self _)

theorem loadWords_setReg_cpsr (regs : List RegNum) (addr : Word) (s : State) :
    (loadWords setReg regs addr s).cpsr = s.cpsr := by
  induction regs generalizing addr s with
  | nil => rfl
  | cons r rest ih => rw [loadWords, ih, setReg_mode, reads_cpsr (reads_memRead .word)]

theorem execTPop_keeps (r : Bool) (list : Byte) (s : State) :
    ResultKeeps ((13 :: listed list).map (s.cpsr.mode, ·)) s (execTPop r list s) := by
  refine .next (.thenSetReg ?_ (loadWords_setReg_cpsr _ _ s) (List.mem_map_of_mem List.mem_cons_self) _)
  refine loadWords_keeps (put_setReg s) (fun _ _ => rfl) _ _ s (blockRegs_pc_last _) (fun n h hn => ?_) rfl
  exact List.mem_map_of_mem
    (List.mem_cons_of_mem _ (mem_listed_of_mem_stackList (mem_listed_of_mem_blockRegs h hn) hn))

theorem execTStmia_keeps (rb : LowReg) (list : Byte) (s : State) :
    ResultKeeps [(s.cpsr.mode, low rb)] s (execTStmia rb list s) :=
  storeBlock_keeps (fun _ hr hc => .thenSetReg (.of_regs hr) hc List.mem_cons_self _) _ _

theorem execTLdmia_keeps (rb : LowReg) (list : Byte) (s : State) :
    ResultKeeps ((low rb :: listed list).map (s.cpsr.mode, ·)) s (execTLdmia rb list s) := by
  refine .next (.trans (keepsViews_setReg (List.mem_map_of_mem List.mem_cons_self) _)
    (loadWords_keeps (put_setReg s) (fun _ _ => rfl) _ _ _ (blockRegs_pc_last _) (fun n h hn => ?_)
      (setReg_mode _ _ s)))
  exact List.mem_map_of_mem (List.mem_cons_of_mem _ (mem_listed_of_mem_blockRegs h hn))

/-! Every instruction. -/

/-- Every instruction keeps the registers it does not name. -/
theorem exec_keeps (i : Instr) (s : State) : ResultKeeps (i.writes s.cpsr.mode) s (exec i s) := by
  unfold exec
  cases i with
  | and | eor | sub | rsb | add | adc | sbc | rsc | orr | mov | bic | mvn => exact dataProc_keeps _ _ _ _ _ _ _
  | tst | teq | cmp | cmn => exact compareOp_keeps _ _ _ _ _
  | mrs => exact .whenPassed (mrsTo_keeps _ _ _)
  | msrReg | msrImm => exact .whenPassed (msrFrom_keeps _ _ _ _)
  | mul | mla => exact .whenPassed (.refusedIf (.next (mulFinish_keeps _ _ _ _)))
  | umull | umlal | smull | smlal => exact .whenPassed (mull_keeps _ _ _ _ _ _ _)
  | b | bx => exact .whenPassed (.next (.of_regs rfl))
  | bl => exact .whenPassed (next_keeps_of_setReg rfl)
  | swi => exact .whenPassed (.next (takeSwi_keeps _))
  | undStoreSh10 | undStoreSh11 | undMulSwap | undPsr | und011 | ldc | stc | cdp | mrc | mcr =>
    exact undefinedArm_keeps _ _
  | ldr | ldrt => exact .whenPassed (loadTo_keeps reads_memReadRot _ _ _ _ _)
  | ldrb | ldrbt => exact .whenPassed (loadByteTo_keeps _ _ _ _ _)
  | str | strt | strb | strbt => exact .whenPassed (storeFrom_keeps _ _ _ _ _ _)
  | ldrh => exact .whenPassed (.halfTransfer (loadTo_keeps reads_memReadHalfRot _ _ _ _ _))
  | ldrsb => exact .whenPassed (.halfTransfer (loadTo_keeps reads_memReadByteSigned _ _ _ _ _))
  | ldrsh => exact .whenPassed (.halfTransfer (loadTo_keeps reads_memReadHalfSigned _ _ _ _ _))
  | strh => exact .whenPassed (.halfTransfer (storeFrom_keeps _ _ _ _ _ _))
  | swp => exact .whenPassed (swap_keeps reads_memReadRot _ _ _ _ _)
  | swpb => exact .whenPassed (swap_keeps (reads_memRead .byte) _ _ _ _ _)
  | ldm c ix rn list =>
    exact .whenPassed (loadMultiple_keeps (put_setReg s) (fun _ _ => rfl) _ _ _
      (fun _ h => List.mem_map_of_mem (List.mem_append_left _ h))
      (fun _ h => List.mem_map_of_mem (List.mem_append_right _ h)))
  | ldmReturn c ix rn list =>
    exact .whenPassed (loadMultiple_keeps (putReturning_eq_putRegIn s) (fun _ _ => returnFromException_regs _ _) _ _ _
      (fun _ h => List.mem_map_of_mem (List.mem_append_left _ h))
      (fun _ h => List.mem_map_of_mem (List.mem_append_right _ h)))
  | ldmUser c ix rn list => exact .whenPassed (ldmUser_keeps _ _ _ _)
  | stm => exact .whenPassed (storeMultiple_keeps _ _ _ _ _)
  | stmUser => exact .whenPassed (stmUser_keeps _ _ _ _)
  | tAddReg | tSubReg | tAddImm3 | tSubImm3 | tLslImm | tLsrImm | tAsrImm | tMovImm8 | tAddImm8 | tSubImm8 | tAnd | tEor
  | tLslReg | tLsrReg | tAsrReg | tAdc | tSbc | tRorReg | tNeg | tOrr | tMul | tBic | tMvn | tAddHi | tMovHi | tAddPc
  | tAddSp | tAddSpImm | tBlPrefix => exact next_keeps_of_setReg rfl
  | tCmpImm8 | tTst | tCmpReg | tCmn | tCmpHi | tBx | tB => exact .next (.of_regs rfl)
  | tBCond => exact .whenPassed (.next (.of_regs rfl))
  | tBlSuffix => exact .next (.thenSetReg (s := s) (t := branchTo _ s) (.of_regs rfl) rfl List.mem_cons_self _)
  | tLdrPc => exact thumbLoad_keeps (reads_memRead .word) _ _ _
  | tLdrReg | tLdrImm | tLdrSp => exact thumbLoad_keeps reads_memReadRot _ _ _
  | tLdrbReg | tLdrbImm => exact thumbLoad_keeps (reads_memRead .byte) _ _ _
  | tLdrhReg | tLdrhImm => exact thumbLoad_keeps reads_memReadHalfRot _ _ _
  | tLdsb => exact thumbLoad_keeps reads_memReadByteSigned _ _ _
  | tLdsh => exact thumbLoad_keeps reads_memReadHalfSigned _ _ _
  | tStrReg | tStrbReg | tStrhReg | tStrImm | tStrbImm | tStrhImm | tStrSp => exact thumbStore_keeps _ _ _ _
  | tPush => exact execTPush_keeps _ _ _
  | tPop => exact execTPop_keeps _ _ _
  | tStmia => exact execTStmia_keeps _ _ _
  | tLdmia => exact execTLdmia_keeps _ _ _
  | tSwi => exact .next (takeSwi_keeps _)
  | tUnd1011 | tUndCond | tUnd11101 => exact .next (undefinedEncoding_keeps _)

/-- Settles O51: a case split over the instructions, each case one lemma about the operation it calls. -/
theorem registerFrame : Obligations.RegisterFrame :=
  fun i s t h => exec_keeps i s t h

end Sys2Proof.Proofs

/-! What every instruction leaves (O11, O13, O52, O54). `Effect k e b` bounds the change an instruction may make: `k`
what of CPSR, `e` whether an exception may be raised, `b` whether an SPSR may be written. Each shared operation gets one
lemma, and `exec_effect` splits over the instructions once for all four statements. -/

namespace Sys2Proof.Proofs

open Sys2Proof.Machine Sys2Proof.Laws

theorem allows_refl (k : Status) (p : Cpsr) : k.Allows p p := by
  cases k with
  | all => trivial
  | _ => rfl

theorem allows_trans {k : Status} {p q r : Cpsr} (h : k.Allows p q) (h' : k.Allows q r) : k.Allows p r := by
  cases k with
  | keep | allButT => exact Eq.trans h' h
  | nz | nzc | nzcv | thumb =>
    simp only [Status.Allows] at h h' ⊢
    rw [h', h]
  | all => trivial

/-- The BIOS and ROM images and the parameters of `s` are those of `t` (R64, R83, R87). -/
def SameImages (s t : State) : Prop :=
  t.params = s.params ∧ ∀ k, romKey k → memGet t.mem k = memGet s.mem k

theorem SameImages.trans {s t u : State} (h : SameImages s t) (h' : SameImages t u) : SameImages s u :=
  ⟨h'.1.trans h.1, fun k hk => (h'.2 k hk).trans (h.2 k hk)⟩

theorem SameImages.of_frame {s t : State} (h : BusFrame s t) : SameImages s t :=
  ⟨by rw [h.core], h.rom⟩

/-- The mode, I and F of `s` are those of `t` (R55). -/
def SameControl (s t : State) : Prop :=
  t.cpsr.mode = s.cpsr.mode ∧ t.cpsr.i = s.cpsr.i ∧ t.cpsr.f = s.cpsr.f

theorem SameControl.of_cpsr {s t : State} (h : t.cpsr = s.cpsr) : SameControl s t :=
  ⟨by rw [h], by rw [h], by rw [h]⟩

/-- From `s` to `t`: the invariant and the images are kept, CPSR changes only as `k` allows, USR mode is confined unless
an exception is raised (`e`), and the SPSRs are kept unless one is written (`b`). -/
structure Effect (k : Status) (e b : Bool) (s t : State) : Prop where
  inv : Inv s → Inv t
  images : SameImages s t
  status : k.Allows s.cpsr t.cpsr
  user : e = false → s.cpsr.mode = .usr → SameControl s t
  spsr : b = false → t.spsr = s.spsr

/-- The next state of a result, if it has one, is bounded so. -/
def ResultEffect (k : Status) (e b : Bool) (s : State) (r : Result) : Prop :=
  ∀ t, r = .next t → Effect k e b s t

section
variable {k : Status} {e b : Bool} {s t u : State}

theorem Effect.trans (h : Effect k e b s t) (h' : Effect k e b t u) : Effect k e b s u where
  inv i := h'.inv (h.inv i)
  images := h.images.trans h'.images
  status := allows_trans h.status h'.status
  user he hm := by
    obtain ⟨hmode, hi, hf⟩ := h.user he hm
    obtain ⟨hmode', hi', hf'⟩ := h'.user he (hmode.trans hm)
    exact ⟨hmode'.trans hmode, hi'.trans hi, hf'.trans hf⟩
  spsr hb := (h'.spsr hb).trans (h.spsr hb)

/-- What leaves CPSR and the SPSRs alone is within every bound. -/
theorem Effect.of_keep (h : Effect .keep false false s t) : Effect k e b s t where
  inv := h.inv
  images := h.images
  status := by rw [show t.cpsr = s.cpsr from h.status]; exact allows_refl k _
  user _ := h.user rfl
  spsr _ := h.spsr rfl

/-- The invariant depends on the data, R15, the pipeline and T alone. -/
theorem inv_of_data (i : Inv s) (hd : DataInv t) (hp : t.pipe = s.pipe) (hf : t.flushed = s.flushed)
    (hr : t.r15 = s.r15) (ht : t.cpsr.t = s.cpsr.t) : Inv t where
  data := hd
  pipe := hp ▸ i.pipe
  flushed := by rw [hf, hp]; exact i.flushed
  aligned := by rw [hr, ht]; exact i.aligned
  halves := by rw [ht, hp]; exact i.halves

/-- `DataInv` depends on memory, the DMA registers and the events alone. -/
theorem dataInv_congr (d : DataInv s) (hm : t.mem = s.mem) (hd : t.dma = s.dma) (hq : t.queue = s.queue)
    (hs : t.seq = s.seq) : DataInv t where
  mem := hm ▸ d.mem
  sad := hd ▸ d.sad
  dad := hd ▸ d.dad
  cntL := hd ▸ d.cntL
  cntH := hd ▸ d.cntH
  below := by rw [hq, hs]; exact d.below
  distinct := hq ▸ d.distinct

theorem Effect.of_frame (h : BusFrame s t) : Effect .keep false false s t where
  inv i := inv_of_data i (h.data i.data) (by rw [h.core]) (by rw [h.core]) (by rw [h.core]) (by rw [h.core])
  images := .of_frame h
  status := by rw [h.core]; rfl
  user _ _ := .of_cpsr (by rw [h.core])
  spsr _ := by rw [h.core]

theorem Effect.refl (s : State) : Effect k e b s s :=
  .of_keep (.of_frame (.refl s))

/-- An operation on CPSR, the SPSRs and the free values alone that keeps T. -/
theorem Effect.of_psr (h : t = { s with cpsr := t.cpsr, spsr := t.spsr, draws := t.draws }) (ht : t.cpsr.t = s.cpsr.t)
    (hk : k.Allows s.cpsr t.cpsr) (hu : s.cpsr.mode = .usr → SameControl s t) (hs : b = false → t.spsr = s.spsr) :
    Effect k e b s t where
  inv i :=
    have d := dataInv_congr i.data (t := t) (by rw [h]) (by rw [h]) (by rw [h]) (by rw [h])
    inv_of_data i d (by rw [h]) (by rw [h]) (by rw [h]) ht
  images := ⟨by rw [h], fun _ _ => by rw [h]⟩
  status := hk
  user _ := hu
  spsr := hs

theorem alignPc_alignPc (thumb : Bool) (v : Word) : alignPc thumb (alignPc thumb v) = alignPc thumb v := by
  cases thumb <;> exact (BitVec.and_assoc _ _ _).trans (congrArg _ (by decide))

/-- A branch, after an operation on the registers, CPSR and the SPSRs alone. -/
theorem Effect.of_branch (v : Word) (h : u = { s with regs := u.regs, cpsr := u.cpsr, spsr := u.spsr })
    (hk : k.Allows s.cpsr u.cpsr) (hu : e = false → s.cpsr.mode = .usr → SameControl s u)
    (hs : b = false → u.spsr = s.spsr) : Effect k e b s (branchTo v u) where
  inv i :=
    { data := dataInv_congr i.data (by rw [h]; rfl) (by rw [h]; rfl) (by rw [h]; rfl) (by rw [h]; rfl)
      pipe := Nat.zero_le 1
      flushed := fun _ => rfl
      aligned := alignPc_alignPc _ v
      halves := by simp }
  images := ⟨by rw [h]; rfl, fun _ _ => by rw [h]; rfl⟩
  status := hk
  user := hu
  spsr := hs

theorem putRegIn_effect (m : Mode) (n : RegNum) (v : Word) (s : State) :
    Effect .keep false false s (putRegIn m n v s) where
  inv i := inv_of_data i (dataInv_congr i.data rfl rfl rfl rfl) rfl rfl rfl rfl
  images := ⟨rfl, fun _ _ => rfl⟩
  status := rfl
  user _ _ := .of_cpsr rfl
  spsr _ := rfl

theorem branchTo_effect (v : Word) (s : State) : Effect .keep false false s (branchTo v s) :=
  .of_branch v rfl rfl (fun _ _ => .of_cpsr rfl) fun _ => rfl

theorem setRegIn_effect (m : Mode) (n : RegNum) (v : Word) (s : State) :
    Effect .keep false false s (setRegIn m n v s) := by
  unfold setRegIn
  split
  · exact branchTo_effect v s
  · exact putRegIn_effect m n v s

theorem setReg_effect (n : RegNum) (v : Word) (s : State) : Effect .keep false false s (setReg n v s) :=
  setRegIn_effect _ n v s

theorem writeBack_effect (tr : Transfer) (n : RegNum) (s : State) : Effect .keep false false s (writeBack tr n s) := by
  unfold writeBack
  split
  · exact setReg_effect n _ s
  · exact .refl s

theorem reads_effect {read : Word → State → Word × State} (hr : Reads read) (a : Word) (s : State) :
    Effect .keep false false s (read a s).2 := by
  obtain ⟨x, hx⟩ := hr a s
  rw [hx]
  exact .of_frame (frame_ext s x)

/-- Flags written after an operation that keeps CPSR. -/
theorem Effect.thenFlags (h : Effect .keep false false s t) (hu : u = { t with cpsr := u.cpsr, draws := u.draws })
    (hk : k.Allows t.cpsr u.cpsr) (ht : u.cpsr.t = t.cpsr.t) (hc : SameControl t u) : Effect k e b s u :=
  h.of_keep.trans (.of_psr (by rw [hu]) ht hk (fun _ => hc) fun _ => by rw [hu])

/-! Results. -/

variable {r : Result} {g : State → Result}

theorem ResultEffect.next (h : Effect k e b s t) : ResultEffect k e b s (.next t) := by
  rintro _ ⟨⟩
  exact h

theorem ResultEffect.refusedIf {p : Prop} [Decidable p] {f : Refusal} (h : ResultEffect k e b s r) :
    ResultEffect k e b s (if p then .refused f else r) := by
  split
  · rintro _ ⟨⟩
  · exact h

theorem ResultEffect.whenPassed {c : Cond} (h : ResultEffect k e b s (g s)) :
    ResultEffect k e b s (whenPassed c g s) := by
  unfold Machine.whenPassed
  split
  · exact h
  · exact .next (.refl s)

theorem ResultEffect.halfTransfer {ix : Index} {rd : RegNum} (h : ResultEffect k e b s (g s)) :
    ResultEffect k e b s (halfTransfer ix rd g s) := by
  unfold Machine.halfTransfer
  split
  · rintro _ ⟨⟩
  · exact h

theorem ResultEffect.andThen (h : ResultEffect k e b s r) (hg : ∀ u, ResultEffect k e b u (g u)) :
    ResultEffect k e b s (andThen r g) := by
  intro t ht
  obtain ⟨u, hu, hgt⟩ := andThen_eq_next.mp ht
  exact (h u hu).trans (hg u t hgt)

theorem ResultEffect.of_framed {f : State → Result} (h : Framed f) (s : State) :
    ResultEffect .keep false false s (f s) :=
  fun t ht => .of_frame (h s t ht)

end

/-! Data processing, PSR transfers and multiplies. -/

/-- Only a mode with an SPSR restores CPSR; USR has none (R54). -/
theorem restoreCpsr_user {s : State} (h : s.cpsr.mode = .usr) : restoreCpsr s = s := by
  rw [restoreCpsr, h]
  rfl

theorem returnFromException_effect (v : Word) (s : State) : Effect .all false false s (returnFromException v s) := by
  refine .of_branch v ?_ trivial (fun _ hm => .of_cpsr (by rw [restoreCpsr_user hm])) fun _ => ?_ <;>
    rw [restoreCpsr_only s]

theorem writeResult_effect {k : Status} {r : Alu} {s : State} (hk : k.Allows s.cpsr (flagsOf r s.cpsr)) (sf : Bool)
    (rd : RegNum) : Effect (dataStatus sf rd k) false false s (writeResult sf rd r s) := by
  unfold writeResult dataStatus
  have hc : (setReg rd r.res s).cpsr = s.cpsr := setReg_mode rd r.res s
  split
  · split
    · exact returnFromException_effect _ s
    · refine (setReg_effect rd r.res s).thenFlags rfl ?_ rfl ⟨rfl, rfl, rfl⟩
      rw [setFlags_cpsr, hc]
      exact hk
  · exact setReg_effect rd r.res s

theorem dataProc_effect {f : AluOp} {k : Status} (hk : ∀ a b p, k.Allows p (flagsOf (f a b p) p)) (c : Cond) (sf : Bool)
    (rn rd : RegNum) (op2 : Operand2) (s : State) :
    ResultEffect (dataStatus sf rd k) false false s (dataProc f c sf rn rd op2 s) :=
  .whenPassed (.next (writeResult_effect (hk _ _ _) sf rd))

theorem compareOp_effect {f : AluOp} {k : Status} (hk : ∀ a b p, k.Allows p (flagsOf (f a b p) p)) (c : Cond)
    (rn : RegNum) (op2 : Operand2) (s : State) : ResultEffect k false false s (compareOp f c rn op2 s) :=
  .whenPassed (.next ((Effect.refl s).thenFlags rfl (hk _ _ _) rfl ⟨rfl, rfl, rfl⟩))

theorem mulFinish_effect (sf : Bool) (rd : RegNum) (res : Word) (s : State) :
    Effect (if sf then .nzc else .keep) false false s (mulFinish sf rd res s) := by
  unfold mulFinish
  split
  · exact (setReg_effect rd res s).thenFlags rfl rfl rfl ⟨rfl, rfl, rfl⟩
  · exact setReg_effect rd res s

theorem mull_effect (sf : Bool) (hi lo rs rm : RegNum) (p : State → BitVec 64) (s : State) :
    ResultEffect (if sf then .nzcv else .keep) false false s (mull sf hi lo rs rm p s) := by
  refine .refusedIf (.next ?_)
  have hset := (setReg_effect lo ((p s).extractLsb' 0 32) s).trans (setReg_effect hi ((p s).extractLsb' 32 32) _)
  unfold mullFinish
  split
  · exact hset.thenFlags rfl rfl rfl ⟨rfl, rfl, rfl⟩
  · exact hset

theorem mrsTo_effect (spsr : Bool) (rd : RegNum) (s : State) :
    ResultEffect .keep false false s (mrsTo spsr rd s) := by
  obtain ⟨d, hd⟩ := readSpsr_state s
  refine .refusedIf ?_
  split
  · have hdraw : Effect .keep false false s { s with draws := d } :=
      .of_psr rfl rfl rfl (fun _ => .of_cpsr rfl) fun _ => rfl
    rw [hd]
    exact .next (hdraw.trans (setReg_effect rd _ _))
  · exact .next (setReg_effect rd _ s)

/-- MSR never writes T in CPSR (R233). -/
theorem writeCpsr_thumb (v : Word) (mask : BitVec 4) (s : State) : (writeCpsr v mask s).cpsr.t = s.cpsr.t := by
  unfold writeCpsr
  dsimp only
  split <;> split <;> rfl

/-- MSR without mask bit 0, or in USR mode, keeps I, F and the mode (R55, R232). -/
theorem writeCpsr_keepsControl {v : Word} {mask : BitVec 4} {s : State}
    (h : mask.getLsbD 0 = false ∨ s.cpsr.mode = .usr) : SameControl s (writeCpsr v mask s) := by
  have h0 : (mask.getLsbD 0 && s.cpsr.mode != .usr) = false := by
    rcases h with h | h
    · rw [h, Bool.false_and]
    · rw [h, bne_self_eq_false, Bool.and_false]
  simp only [SameControl, writeCpsr, h0, Bool.false_eq_true, if_false]
  split <;> simp

theorem writeCpsr_effect (v : Word) (mask : BitVec 4) (s : State) :
    Effect .allButT false false s (writeCpsr v mask s) :=
  .of_psr rfl (writeCpsr_thumb v mask s) (writeCpsr_thumb v mask s)
    (fun hm => writeCpsr_keepsControl (.inr hm)) fun _ => rfl

theorem writeSpsr_effect (v : Word) (mask : BitVec 4) (s : State) : Effect .keep false true s (writeSpsr v mask s) := by
  unfold writeSpsr
  split
  · exact .of_psr rfl rfl rfl (fun _ => .of_cpsr rfl) nofun
  · exact .refl s

theorem msrFrom_effect (spsr : Bool) (mask : BitVec 4) (v : Word) (s : State) :
    ResultEffect (if spsr then .keep else .allButT) false spsr s (msrFrom spsr mask v s) := by
  cases spsr with
  | true => exact .next (writeSpsr_effect v mask s)
  | false => exact .next (writeCpsr_effect v mask s)

/-! Transfers. -/

theorem loadTo_effect {read : Word → State → Word × State} (hr : Reads read) (ix : Index) (rn rd : RegNum) (off : Word)
    (s : State) : ResultEffect .keep false false s (loadTo read ix rn rd off s) :=
  .refusedIf (.next ((reads_effect hr _ s).trans ((writeBack_effect _ rn _).trans (setReg_effect rd _ _))))

theorem loadByteTo_effect (ix : Index) (rn rd : RegNum) (off : Word) (s : State) :
    ResultEffect .keep false false s (loadByteTo ix rn rd off s) :=
  .refusedIf (loadTo_effect (reads_memRead .byte) ix rn rd off s)

theorem store_effect (w : Width) (a v : Word) (s : State) : ResultEffect .keep false false s (store w a v s) :=
  .of_framed (store_frame w a v) s

theorem storeFrom_effect (w : Width) (ix : Index) (rn rd : RegNum) (off : Word) (s : State) :
    ResultEffect .keep false false s (storeFrom w ix rn rd off s) :=
  .refusedIf (.andThen (store_effect w _ _ s) fun u => .next (writeBack_effect _ rn u))

theorem swap_effect {read : Word → State → Word × State} (hr : Reads read) (w : Width) (rn rd rm : RegNum) (s : State) :
    ResultEffect .keep false false s (swap read w rn rd rm s) :=
  .refusedIf (.andThen (fun t ht => (reads_effect hr _ s).trans (store_effect w _ _ _ t ht))
    fun u => .next (setReg_effect rd _ u))

theorem loadWords_effect {k : Status} {put : RegNum → Word → State → State}
    (hput : ∀ r v u, Effect k false false u (put r v u)) (regs : List RegNum) (addr : Word) (s : State) :
    Effect k false false s (loadWords put regs addr s) := by
  induction regs generalizing addr s with
  | nil => exact .refl s
  | cons r rest ih => exact (reads_effect (reads_memRead .word) addr s).of_keep.trans ((hput r _ _).trans (ih _ _))

theorem blockBack_effect (ix : Index) (rn : RegNum) (base size : Word) (s : State) :
    Effect .keep false false s (blockBack ix rn base size s) := by
  unfold blockBack
  split
  · exact setReg_effect rn _ s
  · exact .refl s

theorem loadMultiple_effect {k : Status} {put : RegNum → Word → State → State}
    (hput : ∀ r v u, Effect k false false u (put r v u)) (ix : Index) (rn : RegNum) (list : BitVec 16) (s : State) :
    ResultEffect k false false s (loadMultiple put ix rn list s) :=
  .refusedIf (.next ((blockBack_effect ix rn _ _ s).of_keep.trans (loadWords_effect hput _ _ _)))

theorem putReturning_effect (r : RegNum) (v : Word) (s : State) : Effect .all false false s (putReturning r v s) := by
  unfold putReturning
  split
  · exact returnFromException_effect v s
  · exact (setReg_effect r v s).of_keep

theorem storeBlock_effect {get : RegNum → State → Word} {back : State → State}
    (hback : ∀ u, Effect .keep false false u (back u)) (regs : List RegNum) (addr : Word) (s : State) :
    ResultEffect .keep false false s (storeBlock get back regs addr s) := by
  cases regs with
  | nil => exact .next (hback s)
  | cons r rest =>
    exact .andThen (store_effect _ _ _ s) fun u t ht =>
      (hback u).trans (ResultEffect.of_framed (storeWords_frame get rest _) (back u) t ht)

theorem storeMultiple_effect (get : RegNum → State → Word) (ix : Index) (rn : RegNum) (list : BitVec 16) (s : State) :
    ResultEffect .keep false false s (storeMultiple get ix rn list s) :=
  .refusedIf (storeBlock_effect (blockBack_effect ix rn _ _) _ _ s)

theorem execTPush_effect (r : Bool) (list : Byte) (s : State) :
    ResultEffect .keep false false s (execTPush r list s) :=
  .andThen (.of_framed (storeWords_frame _ _ _) s) fun u => .next (setReg_effect 13 _ u)

/-! Branches and exceptions. -/

theorem exchangeTo_effect (v : Word) (s : State) : Effect .thumb false false s (exchangeTo v s) :=
  .of_branch v rfl rfl (fun _ _ => ⟨rfl, rfl, rfl⟩) fun _ => rfl

theorem saveSpsr_only (m : Mode) (p : Cpsr) (s : State) :
    saveSpsr m p s = { s with spsr := (saveSpsr m p s).spsr } := by
  unfold saveSpsr
  split <;> rfl

theorem enterException_effect (m : Mode) (vector lr : Word) (s : State) :
    Effect .all true true s (enterException m vector lr s) := by
  refine .of_branch vector ?_ trivial nofun nofun
  rw [saveSpsr_only]
  rfl

theorem undefinedEncoding_effect (s : State) : Effect .all true true s (undefinedEncoding s) := by
  unfold undefinedEncoding
  split
  · exact enterException_effect _ _ _ s
  · exact .refl s

theorem undefinedArm_effect (c : Cond) (s : State) : ResultEffect .all true true s (undefinedArm c s) :=
  .whenPassed (.next (undefinedEncoding_effect s))

/-! THUMB. -/

theorem thumbWrite_effect (rd : LowReg) (r : Alu) (s : State) : ResultEffect .nzcv false false s (thumbWrite rd r s) :=
  .next ((setReg_effect _ _ s).thenFlags rfl rfl rfl ⟨rfl, rfl, rfl⟩)

theorem thumbShift_effect (rd : LowReg) (r : Shifted) (s : State) :
    ResultEffect .nzc false false s (thumbShift rd r s) :=
  .next ((setReg_effect _ _ s).thenFlags rfl rfl rfl ⟨rfl, rfl, rfl⟩)

theorem thumbLogic_effect (rd : LowReg) (res : Word) (s : State) :
    ResultEffect .nz false false s (thumbLogic rd res s) :=
  .next ((setReg_effect _ _ s).thenFlags rfl rfl rfl ⟨rfl, rfl, rfl⟩)

theorem thumbCompare_effect (r : Alu) (s : State) : ResultEffect .nzcv false false s (thumbCompare r s) :=
  .next ((Effect.refl s).thenFlags rfl rfl rfl ⟨rfl, rfl, rfl⟩)

theorem thumbLoad_effect {read : Word → State → Word × State} (hr : Reads read) (rd : LowReg) (addr : Word)
    (s : State) : ResultEffect .keep false false s (thumbLoad read rd addr s) :=
  .next ((reads_effect hr addr s).trans (setReg_effect _ _ _))

theorem thumbStore_effect (w : Width) (rd : LowReg) (addr : Word) (s : State) :
    ResultEffect .keep false false s (thumbStore w rd addr s) :=
  store_effect _ _ _ s

/-! Every instruction. -/

/-- Every instruction changes CPSR, the SPSRs and USR mode's control bits only as its rule says, and keeps the invariant
and the images. -/
theorem exec_effect (i : Instr) (s : State) : ResultEffect i.status i.raises.isSome i.writesSpsr s (exec i s) := by
  unfold exec
  cases i with
  | and | eor | orr | mov | bic | mvn => exact dataProc_effect (k := .nzc) (by intros; rfl) _ _ _ _ _ _
  | sub | rsb | add | adc | sbc | rsc => exact dataProc_effect (k := .nzcv) (by intros; rfl) _ _ _ _ _ _
  | tst | teq => exact compareOp_effect (k := .nzc) (by intros; rfl) _ _ _ _
  | cmp | cmn => exact compareOp_effect (k := .nzcv) (by intros; rfl) _ _ _ _
  | mrs => exact .whenPassed (mrsTo_effect _ _ _)
  | msrReg | msrImm => exact .whenPassed (msrFrom_effect _ _ _ _)
  | mul | mla => exact .whenPassed (.refusedIf (.next (mulFinish_effect _ _ _ _)))
  | umull | umlal | smull | smlal => exact .whenPassed (mull_effect _ _ _ _ _ _ _)
  | b => exact .whenPassed (.next (branchTo_effect _ _))
  | bl => exact .whenPassed (.next ((setReg_effect _ _ _).trans (branchTo_effect _ _)))
  | bx => exact .whenPassed (.next (exchangeTo_effect _ _))
  | swi => exact .whenPassed (.next (enterException_effect _ _ _ _))
  | undStoreSh10 | undStoreSh11 | undMulSwap | undPsr | und011 | ldc | stc | cdp | mrc | mcr =>
    exact undefinedArm_effect _ _
  | ldr | ldrt => exact .whenPassed (loadTo_effect reads_memReadRot _ _ _ _ _)
  | ldrb | ldrbt => exact .whenPassed (loadByteTo_effect _ _ _ _ _)
  | str | strt | strb | strbt => exact .whenPassed (storeFrom_effect _ _ _ _ _ _)
  | ldrh => exact .whenPassed (.halfTransfer (loadTo_effect reads_memReadHalfRot _ _ _ _ _))
  | ldrsb => exact .whenPassed (.halfTransfer (loadTo_effect reads_memReadByteSigned _ _ _ _ _))
  | ldrsh => exact .whenPassed (.halfTransfer (loadTo_effect reads_memReadHalfSigned _ _ _ _ _))
  | strh => exact .whenPassed (.halfTransfer (storeFrom_effect _ _ _ _ _ _))
  | swp => exact .whenPassed (swap_effect reads_memReadRot _ _ _ _ _)
  | swpb => exact .whenPassed (swap_effect (reads_memRead .byte) _ _ _ _ _)
  | ldm => exact .whenPassed (loadMultiple_effect setReg_effect _ _ _ _)
  | ldmReturn => exact .whenPassed (loadMultiple_effect putReturning_effect _ _ _ _)
  | ldmUser => exact .whenPassed (.refusedIf (loadMultiple_effect (setRegIn_effect .usr) _ _ _ _))
  | stm => exact .whenPassed (storeMultiple_effect _ _ _ _ _)
  | stmUser => exact .whenPassed (.refusedIf (storeMultiple_effect _ _ _ _ _))
  | tAddReg | tSubReg | tAddImm3 | tSubImm3 | tAddImm8 | tSubImm8 | tAdc | tSbc | tNeg => exact thumbWrite_effect _ _ _
  | tLslImm | tLsrImm | tAsrImm | tLslReg | tLsrReg | tAsrReg | tRorReg => exact thumbShift_effect _ _ _
  | tMovImm8 | tAnd | tEor | tOrr | tBic | tMvn => exact thumbLogic_effect _ _ _
  | tCmpImm8 | tCmpReg | tCmn | tCmpHi => exact thumbCompare_effect _ _
  | tTst => exact .next ((Effect.refl s).thenFlags rfl rfl rfl ⟨rfl, rfl, rfl⟩)
  | tMul => exact .next (mulFinish_effect true _ _ s)
  | tAddHi | tMovHi | tAddPc | tAddSp | tAddSpImm | tBlPrefix => exact .next (setReg_effect _ _ s)
  | tBx => exact .next (exchangeTo_effect _ s)
  | tB => exact .next (branchTo_effect _ s)
  | tBCond => exact .whenPassed (.next (branchTo_effect _ _))
  | tBlSuffix => exact .next ((branchTo_effect _ s).trans (setReg_effect 14 _ _))
  | tLdrPc => exact thumbLoad_effect (reads_memRead .word) _ _ _
  | tLdrReg | tLdrImm | tLdrSp => exact thumbLoad_effect reads_memReadRot _ _ _
  | tLdrbReg | tLdrbImm => exact thumbLoad_effect (reads_memRead .byte) _ _ _
  | tLdrhReg | tLdrhImm => exact thumbLoad_effect reads_memReadHalfRot _ _ _
  | tLdsb => exact thumbLoad_effect reads_memReadByteSigned _ _ _
  | tLdsh => exact thumbLoad_effect reads_memReadHalfSigned _ _ _
  | tStrReg | tStrbReg | tStrhReg | tStrImm | tStrbImm | tStrhImm | tStrSp => exact thumbStore_effect _ _ _ _
  | tPush => exact execTPush_effect _ _ _
  | tPop => exact .next ((loadWords_effect setReg_effect _ _ s).trans (setReg_effect 13 _ _))
  | tStmia => exact storeBlock_effect (setReg_effect _ _) _ _ _
  | tLdmia => exact .next ((setReg_effect _ _ s).trans (loadWords_effect setReg_effect _ _ _))
  | tSwi => exact .next (enterException_effect _ _ _ s)
  | tUnd1011 | tUndCond | tUnd11101 => exact .next (undefinedEncoding_effect s)

/-- Settles O52: a case split over the instructions, each case one lemma about the operation it calls. -/
theorem statusFrame : Obligations.StatusFrame :=
  fun i s t h => ⟨(exec_effect i s t h).status, (exec_effect i s t h).spsr⟩

/-- Settles O54: of what can write the control bits, MSR and an exception return do not in USR mode. -/
theorem userConfined : Obligations.UserConfined := by
  intro i s t hm h hr
  obtain ⟨hmode, hi, hf⟩ := (exec_effect i s t h).user (by rw [hr]; rfl) hm
  exact ⟨hmode.trans hm, hi, hf⟩

end Sys2Proof.Proofs

/-! The step keeps the invariant and the images (O11, O13): it reaches its tick from a state that has them
(`step_reaches_tick`), and the tick keeps them. -/

namespace Sys2Proof.Proofs

open Sys2Proof.Machine Sys2Proof.Laws

/-- What the invariant says of the state while the pipeline is refilled. -/
structure FetchInv (s : State) : Prop where
  data : DataInv s
  aligned : alignPc s.cpsr.t s.r15 = s.r15
  halves : s.cpsr.t = true → ∀ v ∈ s.pipe, v.toNat < 0x10000

/-- A halfword read is zero-extended (R13). -/
theorem memRead_half_lt (a : Word) (s : State) : (memRead .half a s).1.toNat < 0x10000 := by
  rw [memRead, BitVec.toNat_setWidth]
  exact lt_of_le_of_lt (Nat.mod_le _ _) (BitVec.isLt _)

theorem refillOne_eq_read (s : State) : ∃ x, refillOne s = { s with
    openBus := (memRead (fetchWidth s) s.r15 s).1, pipe := s.pipe ++ [(memRead (fetchWidth s) s.r15 s).1]
    r15 := s.r15 + instrBytes s, flushed := false, ext := x } := by
  obtain ⟨x, hx⟩ := memRead_state (fetchWidth s) s.r15 s
  exact ⟨x, by rw [refillOne, hx]; rfl⟩

theorem fetchInv_refillOne {s : State} (i : FetchInv s) : FetchInv (refillOne s) := by
  obtain ⟨x, hx⟩ := refillOne_eq_read s
  rw [hx]
  refine ⟨dataInv_congr i.data rfl rfl rfl rfl, alignPc_next i.aligned, fun ht v hv => ?_⟩
  rcases List.mem_append.mp hv with hold | hnew
  · exact i.halves ht v hold
  · have hw : fetchWidth s = .half := if_pos ht
    rw [List.mem_singleton.mp hnew, hw]
    exact memRead_half_lt _ s

/-- The refill leaves two entries (R484). -/
theorem refill_fetched {s : State} (i : Inv s) :
    FetchInv (refill s) ∧ (refill s).pipe.length = 2 ∧ (refill s).flushed = false := by
  have hf : FetchInv s := ⟨i.data, i.aligned, i.halves⟩
  have hlen (u : State) : (refillOne u).pipe.length = u.pipe.length + 1 := by
    obtain ⟨x, hx⟩ := refillOne_eq_read u
    rw [hx]
    exact List.length_append
  obtain h | h := Nat.le_one_iff_eq_zero_or_eq_one.mp i.pipe <;> simp only [refill, h]
  · exact ⟨fetchInv_refillOne (fetchInv_refillOne hf), by rw [hlen, hlen, h], rfl⟩
  · exact ⟨fetchInv_refillOne hf, by rw [hlen, h], rfl⟩

/-- The state in which a step executes: awake, the pipeline refilled, and the oldest entry taken from it. -/
def readied (s : State) : State :=
  { refill { s with halted := false } with pipe := (refill { s with halted := false }).pipe.tail }

theorem inv_readied {s : State} (i : Inv s) : Inv (readied s) := by
  have awake : Inv { s with halted := false } := inv_of_data i (dataInv_congr i.data rfl rfl rfl rfl) rfl rfl rfl rfl
  obtain ⟨hf, hlen, hflushed⟩ := refill_fetched awake
  exact
    { data := dataInv_congr hf.data rfl rfl rfl rfl
      pipe := by simp [readied, hlen]
      flushed := fun h => absurd (hflushed.symm.trans h) Bool.false_ne_true
      aligned := hf.aligned
      halves := fun ht v hv => hf.halves ht v (List.mem_of_mem_tail hv) }

theorem sameImages_readied (s : State) : SameImages s (readied s) := by
  unfold readied
  rw [refill_only]
  exact ⟨rfl, fun _ _ => rfl⟩

/-- An IRQ entry flushes the pipeline, whatever it held (R412). -/
theorem takeIrq_readied (s : State) : takeIrq (refill { s with halted := false }) = takeIrq (readied s) := rfl

/-- A step is its tick, from a state that has the invariant and the images. -/
theorem step_reaches_tick {s t : State} (h : step s = .next t) :
    ∃ v : State, (Machine.Inv s → Machine.Inv v) ∧ SameImages s v ∧ endStep v = .next t := by
  obtain ⟨-, -, hidle⟩ | ⟨-, hirq⟩ | ⟨u, v, rfl, hexec, htick⟩ := step_cases h
  · exact ⟨s, id, ⟨rfl, fun _ _ => rfl⟩, hidle⟩
  · rw [takeIrq_readied] at hirq
    have heff : Effect .all true true (readied s) (takeIrq (readied s)) := enterException_effect _ _ _ _
    exact ⟨_, fun i => heff.inv (inv_readied i), (sameImages_readied s).trans heff.images, hirq⟩
  · have heff := exec_effect _ (readied s) v hexec
    exact ⟨v, fun i => heff.inv (inv_readied i), (sameImages_readied s).trans heff.images, htick⟩

/-- Settles O11: `exec_effect` for the instruction, `endStep_frame` for the tick. -/
theorem stepKeepsInv : Obligations.StepKeepsInv := by
  intro s t i h
  obtain ⟨v, hinv, -, htick⟩ := step_reaches_tick h
  have iv := hinv i
  exact (Effect.of_frame (endStep_frame htick)).inv
    (inv_of_data iv (dataInv_congr iv.data rfl rfl rfl rfl) rfl rfl rfl rfl)

/-- Settles O13: the keys of the BIOS and of the ROM are among those `SameImages` covers. -/
theorem stepKeepsRom : Obligations.StepKeepsRom := by
  intro s t h
  obtain ⟨v, -, himages, htick⟩ := step_reaches_tick h
  have hv : SameImages v { v with pendingCycles := 0, now := v.now + (1 + v.pendingCycles) } := ⟨rfl, fun _ _ => rfl⟩
  obtain ⟨hparams, hmem⟩ := himages.trans (hv.trans (.of_frame (endStep_frame htick)))
  refine ⟨hparams, fun o ho => hmem _ (.inl ?_), fun o ho => hmem _ (.inr ?_)⟩ <;>
    simp only [regionBase] <;> omega

end Sys2Proof.Proofs

/-! Data processing into R15, PSR transfers and operand forms, stores (O20, O22, O24, O27, O28, O34). -/

namespace Sys2Proof.Proofs

open Sys2Proof.Machine Sys2Proof.Laws

theorem whenPassed_pos {c : Cond} {s : State} (h : condPassed c s = true) (k : State → Result) :
    whenPassed c k s = k s := if_pos h

/-- Each operation that writes Rd is `dataProc` with its own operation (R204, R207 to R222). -/
theorem dataProcForms_exec (c : Cond) (sf : Bool) (rn rd : RegNum) (op2 : Operand2) (a : Word) (b : Shifted)
    (p : Cpsr) :
    ∀ x ∈ dataProcForms c sf rn rd op2 a b p,
      ∃ f : AluOp, x.2 = f a b p ∧ ∀ s, exec x.1 s = dataProc f c sf rn rd op2 s := by
  simp only [dataProcForms, List.forall_mem_cons]
  exact ⟨⟨andOp, rfl, fun _ => rfl⟩, ⟨eorOp, rfl, fun _ => rfl⟩, ⟨subOp, rfl, fun _ => rfl⟩, ⟨rsbOp, rfl, fun _ => rfl⟩,
    ⟨addOp, rfl, fun _ => rfl⟩, ⟨adcOp, rfl, fun _ => rfl⟩, ⟨sbcOp, rfl, fun _ => rfl⟩, ⟨rscOp, rfl, fun _ => rfl⟩,
    ⟨orrOp, rfl, fun _ => rfl⟩, ⟨movOp, rfl, fun _ => rfl⟩, ⟨bicOp, rfl, fun _ => rfl⟩, ⟨mvnOp, rfl, fun _ => rfl⟩,
    List.forall_mem_nil _⟩

/-- Settles O24: with S = 0 a write of R15 is `branchTo`. -/
theorem dataProcBranch : Obligations.DataProcBranch := by
  intro s c rn op2 hc x hx
  obtain ⟨f, hf, hexec⟩ := dataProcForms_exec _ _ _ _ _ _ _ _ x hx
  refine ⟨branchTo x.2.res s, ?_, jumps_branchTo _ s⟩
  rw [hexec, dataProc, whenPassed_pos hc, hf]
  rfl

/-! PSR transfers. -/

/-- Settles O27: reading SPSR draws a free word where the mode has none, and changes no register. -/
theorem mrsResult : Obligations.MrsResult := by
  intro s c rd hc hd
  have hexec (spsr : Bool) : exec (.mrs c spsr rd) s =
      if spsr then .next (setReg rd (readSpsr s).1 (readSpsr s).2) else .next (setReg rd (cpsrWord s.cpsr) s) :=
    (whenPassed_pos hc _).trans (if_neg hd)
  refine ⟨⟨_, hexec false, sets_setReg hd _ s⟩, fun k hk => ⟨_, hexec true, ?_⟩, fun hnone => ⟨_, hexec true, ?_⟩⟩
  · simp only [readSpsr, hk]
    exact sets_setReg hd _ s
  · simp only [readSpsr, hnone, drawWord]
    have hset := sets_setReg hd (Config.freeWord s.draws) { s with draws := s.draws + 1 }
    refine ⟨hset.cpsr, fun m n hn hr => (hset.keeps m n hn hr).trans (getRegIn_congr hn rfl), ?_⟩
    rw [setReg_eq hd]
    rfl

/-- The bits of a PSR word (R50, R54). -/
theorem spsrWord_layout (p : Spsr) :
    ((spsrWord p).getLsbD 31 = p.n ∧ (spsrWord p).getLsbD 30 = p.z ∧ (spsrWord p).getLsbD 29 = p.c ∧
      (spsrWord p).getLsbD 28 = p.v) ∧
    ((spsrWord p).getLsbD 7 = p.i ∧ (spsrWord p).getLsbD 6 = p.f ∧ (spsrWord p).getLsbD 5 = p.t) ∧
    (spsrWord p).extractLsb' 8 20 = 0 ∧ (spsrWord p).extractLsb' 0 5 = p.mode := by
  simp (disch := decide) only [spsrWord, BitVec.getLsbD_append, extract_high, extract_low, extract_self, Nat.reduceSub]
  simp

/-- CPSR is laid out as the SPSR that saves it. -/
theorem cpsrWord_eq_spsrWord (p : Cpsr) : cpsrWord p = spsrWord (saveCpsr p) := rfl

/-- Settles O22: CPSR has the layout of the SPSR that saves it; the modes are seven cases. -/
theorem psrLayout : Obligations.PsrLayout := by
  refine ⟨fun p => ?_, spsrWord_layout, rfl, rfl, rfl, rfl, rfl, rfl, rfl, fun m => ?_, fun m m' k => ?_⟩
  · rw [cpsrWord_eq_spsrWord]
    exact spsrWord_layout (saveCpsr p)
  · cases m <;> decide
  · cases m <;> cases m' <;> revert k <;> decide

/-- A rotation right by less than the width, as two shifts. -/
theorem rotateRight_eq_or {w k : Nat} (v : BitVec w) (h : k < w) : v.rotateRight k = v >>> k ||| v <<< (w - k) := by
  rw [BitVec.rotateRight_def, Nat.mod_eq_of_lt h]

/-- The rotated immediate, as two shifts (R147, R148). -/
theorem rotatedImm_eq_or (rot : BitVec 4) (imm8 : Byte) : rotatedImm rot imm8 =
    (imm8.setWidth 32 : Word) >>> (2 * rot.toNat) ||| (imm8.setWidth 32 : Word) <<< (32 - 2 * rot.toNat) :=
  rotateRight_eq_or _ (by have := rot.isLt; omega)

theorem writeCpsr_flags (v : Word) (mask : BitVec 4) (s : State) :
    let p := (writeCpsr v mask s).cpsr
    (⟨p.n, p.z, p.c, p.v⟩ : Bool × Bool × Bool × Bool) =
      if mask.getLsbD 3 then ⟨v.getLsbD 31, v.getLsbD 30, v.getLsbD 29, v.getLsbD 28⟩
      else ⟨s.cpsr.n, s.cpsr.z, s.cpsr.c, s.cpsr.v⟩ := by
  cases h3 : mask.getLsbD 3 <;> simp only [writeCpsr, h3, Bool.false_eq_true, if_false, if_true] <;> split <;> rfl

/-- MSR with mask bit 0 outside USR mode writes I, F and the mode, if its number is a mode's (R37, R232, R233). -/
theorem writeCpsr_control {v : Word} {mask : BitVec 4} {s : State} (h0 : mask.getLsbD 0 = true)
    (hm : s.cpsr.mode ≠ .usr) :
    let p := (writeCpsr v mask s).cpsr
    p.i = v.getLsbD 7 ∧ p.f = v.getLsbD 6 ∧ p.mode = (modeOf (v.extractLsb' 0 5)).getD s.cpsr.mode := by
  simp [writeCpsr, h0, hm]

theorem modeOf_getD {b : BitVec 5} {m : Mode} (h : modeBits m = b) (old : Mode) : (modeOf b).getD old = m := by
  rw [← h, modeOf_bits]
  rfl

theorem modeOf_getD_invalid {b : BitVec 5} (h : ∀ m, modeBits m ≠ b) (old : Mode) : (modeOf b).getD old = old := by
  cases hb : modeOf b with
  | none => rfl
  | some m => exact absurd (modeBits_of hb) (h m)

/-- The flags of a word are its bits 31 to 28 (R50). -/
theorem extract_flags (v : Word) : v.extractLsb' 28 4 = BitVec.ofBool (v.getLsbD 31) ++ BitVec.ofBool (v.getLsbD 30) ++
    BitVec.ofBool (v.getLsbD 29) ++ BitVec.ofBool (v.getLsbD 28) := by
  apply BitVec.eq_of_getLsbD_eq
  intro i hi
  interval_cases i <;> simp only [BitVec.getLsbD_append, BitVec.getLsbD_extractLsb'] <;> simp

/-- The low byte of a word is I, F, T and the mode number (R50). -/
theorem extract_control (v : Word) : v.extractLsb' 0 8 = BitVec.ofBool (v.getLsbD 7) ++ BitVec.ofBool (v.getLsbD 6) ++
    BitVec.ofBool (v.getLsbD 5) ++ v.extractLsb' 0 5 := by
  apply BitVec.eq_of_getLsbD_eq
  intro i hi
  interval_cases i <;> simp only [BitVec.getLsbD_append, BitVec.getLsbD_extractLsb'] <;> simp

theorem spsrWord_flags (p : Spsr) : (spsrWord p).extractLsb' 28 4 =
    BitVec.ofBool p.n ++ BitVec.ofBool p.z ++ BitVec.ofBool p.c ++ BitVec.ofBool p.v := by
  obtain ⟨⟨hn, hz, hc, hv⟩, -⟩ := spsrWord_layout p
  rw [extract_flags, hn, hz, hc, hv]

theorem spsrWord_control (p : Spsr) : (spsrWord p).extractLsb' 0 8 =
    BitVec.ofBool p.i ++ BitVec.ofBool p.f ++ BitVec.ofBool p.t ++ p.mode := by
  obtain ⟨-, ⟨hi, hf, ht⟩, -, hm⟩ := spsrWord_layout p
  rw [extract_control, hi, hf, ht, hm]

/-- MSR to SPSR writes the flags by mask bit 3 and bits 7 to 0 by mask bit 0 (R231). -/
theorem writtenSpsr_word (v : Word) (mask : BitVec 4) (old : Spsr) :
    (spsrWord (writtenSpsr v mask old)).extractLsb' 28 4 =
      (if mask.getLsbD 3 then v.extractLsb' 28 4 else (spsrWord old).extractLsb' 28 4) ∧
    (spsrWord (writtenSpsr v mask old)).extractLsb' 0 8 =
      (if mask.getLsbD 0 then v.extractLsb' 0 8 else (spsrWord old).extractLsb' 0 8) := by
  simp only [spsrWord_flags, spsrWord_control, extract_flags v, extract_control v, writtenSpsr]
  constructor <;> split <;> split <;> rfl

/-- Settles O28: both forms are `msrFrom` of their operand; the clauses are the `writeCpsr` and `writtenSpsr` lemmas. -/
theorem msrResult : Obligations.MsrResult := by
  intro s c mask rot imm8 rm hc x hx
  have hexec (spsr : Bool) : exec (x.1 spsr) s = msrFrom spsr mask x.2 s := by
    simp only [List.mem_cons, List.not_mem_nil, or_false] at hx
    rcases hx with rfl | rfl
    · exact whenPassed_pos hc _
    · exact (whenPassed_pos hc _).trans (by rw [rotatedImm_eq_or])
  refine ⟨⟨(writeCpsr x.2 mask s).cpsr, hexec false, writeCpsr_thumb x.2 mask s, writeCpsr_flags x.2 mask s,
    fun h0 hm => ?_, fun h => ?_⟩, fun hnone => ?_, fun k hk => ?_⟩
  · obtain ⟨hi, hf, hmode⟩ := writeCpsr_control h0 hm
    exact ⟨hi, hf, fun m h => hmode.trans (modeOf_getD h _), fun h => hmode.trans (modeOf_getD_invalid h _)⟩
  · obtain ⟨hmode, hi, hf⟩ := writeCpsr_keepsControl h
    exact ⟨hi, hf, hmode⟩
  · rw [hexec, msrFrom, if_pos rfl, writeSpsr, hnone]
  · refine ⟨writtenSpsr x.2 mask s.spsr[k], ?_, writtenSpsr_word _ _ _⟩
    rw [hexec, msrFrom, if_pos rfl, writeSpsr, hk]

/-! Operands (O20). -/

theorem getReg_pc (s : State) : getReg 15 s = instrAddr s + if s.cpsr.t then 4 else 8 := by
  have hr : getReg 15 s = s.r15 := rfl
  rw [hr, instrAddr, instrBytes]
  split <;> exact (BitVec.sub_add_cancel _ _).symm

/-- Settles O20: R15 by its distance from InstrAddr, an immediate by its rotation, lists by `listed`. -/
theorem operandForms : Obligations.OperandForms := by
  refine ⟨fun s => ⟨getReg_pc s, rfl, rfl⟩, fun s rot imm8 => ?_, fun _ _ _ _ => rfl, fun s ty rs rm _ => ?_,
    fun _ imm12 _ _ _ => ⟨(BitVec.ofNat_toNat 32 imm12).symm, rfl⟩,
    fun _ imm8 _ _ => ⟨(BitVec.ofNat_toNat 32 imm8).symm, rfl⟩, fun s ix rn offset => ⟨rfl, rfl, ?_⟩,
    fun n list => ⟨fun r => mem_listed, List.Pairwise.filter _ (by decide)⟩,
    fun list base w => ⟨blockBytes_eq list, blockRegs_eq list, rfl, rfl, rfl, rfl⟩⟩
  · simp only [operand2, rotatedImm_eq_or]
  · simp only [operand2, dataProcReg, Bool.true_and, beq_iff_eq, BitVec.setWidth_eq_extractLsb' (show 8 ≤ 32 by decide)]
  · simp [transferAt]

/-! Stores (O34). -/

/-- Each single store is `storeFrom` with its index bits and width (R253 to R255). -/
theorem singleStores_exec {c : Cond} {s : State} (hc : condPassed c s = true) (ix : Index) (rn rd : RegNum)
    (off : Offset) :
    ∀ x ∈ singleStores c ix rn rd off, exec x.1 s = storeFrom x.2.2 x.2.1 rn rd (transferOffset off s) s := by
  simp only [singleStores, List.forall_mem_cons]
  refine ⟨?_, ?_, ?_, ?_, List.forall_mem_nil _⟩
  all_goals
    unfold exec
    exact whenPassed_pos hc _

/-- A store instruction at any address, and outside the I/O region (R250, R253). -/
theorem stores_of_exec {i : Instr} {w : Width} {ix : Index} {rn rd : RegNum} {off : Word} {s : State}
    (hexec : exec i s = storeFrom w ix rn rd off s) (hw : (transferAt ix rn off s).wb = true → rn ≠ 15) :
    (∀ u, store w (transferAt ix rn off s).addr (storedReg rd s) s = .next u →
      ∃ t, exec i s = .next t ∧ WrittenBack (transferAt ix rn off s) rn u t) ∧
    (Memory.wf s.mem = true → isIo (transferAt ix rn off s).addr = false →
      ∃ t, exec i s = .next t ∧ Stored w (storedReg rd s) (transferAt ix rn off s) rn s t) := by
  rw [hexec]
  exact ⟨fun u => storeFrom_back _ _ _ _ _ s u hw, fun hm hio => storeFrom_spec _ _ _ _ _ s hw hio hm⟩

/-- Settles O34: every form is `storeFrom`; STRH stores no R15. -/
theorem storeResult : Obligations.StoreResult := by
  intro s c ix rn rd hc
  refine ⟨fun off x hx hw => stores_of_exec (singleStores_exec hc ix rn rd off x hx) hw, fun off hd hw hp => ?_⟩
  have hexec : exec (.strh c ix rn rd off) s = storeFrom .half ix rn rd (halfOffset off s) s :=
    (whenPassed_pos hc _).trans (halfTransfer_ok hp hd _ s)
  have hv : storedReg rd s = getReg rd s := if_neg hd
  have := stores_of_exec hexec hw
  rwa [hv] at this

end Sys2Proof.Proofs

/-! A step that executes, and reset (O5, O6, O12, O14). -/

namespace Sys2Proof.Proofs

open Sys2Proof.Machine Sys2Proof.Laws

/-- The bytes of an instruction decode as the value fetched there does (R81, R130). -/
theorem decodeBytes_codeBytes (thumb : Bool) (a : Word) (s : State) : decodeBytes thumb (codeBytes thumb a s) =
    .ok (if thumb then decodeThumb ((fetchedAt thumb a s).setWidth 16) else decodeArm (fetchedAt thumb a s), []) := by
  cases thumb
  · rfl
  · simp [decodeBytes, codeBytes, fetchedAt]

/-- Without an IRQ to take before the refill there is none after it. -/
theorem noIrq_iff {s : State} : noIrq s = true ↔ (irqLine s && !s.cpsr.i) = false := by
  unfold noIrq
  cases irqLine s <;> cases s.cpsr.i <;> decide

/-- What is fetched does not depend on whether the machine is halted. -/
theorem fetchedAt_awake {a : Word} {s : State} (h : QuietFetch a s) (latch : Word) :
    fetchedAt s.cpsr.t a { s with halted := false, openBus := latch } =
      fetchedAt s.cpsr.t a { s with openBus := latch } :=
  fetchedAt_congr (s := { s with openBus := latch }) h rfl rfl rfl ⟨rfl, rfl, rfl, rfl⟩

/-- Two instructions in a row are fetched as one after the other. -/
theorem quietFetch_two {s : State}
    (h : ∀ k, k < 2 * (instrBytes s).toNat → claimed (s.r15 + BitVec.ofNat 32 k) s = false) :
    QuietFetch s.r15 s ∧ QuietFetch (s.r15 + instrBytes s) s := by
  refine ⟨fun k hk => h k (by omega), fun k hk => ?_⟩
  have := h ((instrBytes s).toNat + k) (by omega)
  rwa [BitVec.ofNat_add, BitVec.ofNat_toNat, BitVec.setWidth_eq, ← BitVec.add_assoc] at this

/-- Settles O5: `refill_two` for an awake machine, then `step_run`. -/
theorem stepRunsDecoded : Obligations.StepRunsDecoded := by
  intro s i hh hp hirq hq ha hd second
  obtain ⟨hq1, hq2⟩ := quietFetch_two hq
  have hfirst : fetchedAt s.cpsr.t s.r15 { s with halted := false } = fetchedAt s.cpsr.t s.r15 s :=
    fetchedAt_awake hq1 s.openBus
  have hsecond : fetchedAt s.cpsr.t (s.r15 + instrBytes s)
      { s with halted := false, openBus := fetchedAt s.cpsr.t s.r15 s } = second := fetchedAt_awake hq2 _
  have hbytes : instrBytes { s with halted := false } = instrBytes s := rfl
  have hr := refill_two (s := { s with halted := false }) hp hq1 hq2 ha
  simp only [hfirst, hbytes, hsecond] at hr
  rw [decodeBytes_codeBytes] at hd
  simp only [Except.ok.injEq, Prod.mk.injEq, and_true] at hd
  rw [step_run (by simpa [wakePending] using hh) hr (noIrq_iff.mp hirq), ← hd]
  rfl

/-- Settles O6: `refill_one` for an awake machine, then `step_run`. -/
theorem stepRunsPrefetched : Obligations.StepRunsPrefetched := by
  intro s x hh hp hirq hq ha fetched
  have hr := refill_one (s := { s with halted := false }) hp hq ha
  have hfetched : fetchedAt s.cpsr.t s.r15 { s with halted := false } = fetched := fetchedAt_awake hq s.openBus
  simp only [hfetched] at hr
  rw [step_run (by simpa [wakePending] using hh) hr (noIrq_iff.mp hirq)]
  rfl

/-! Reset. -/

/-- Settles O12: nothing is listed, scheduled or fetched at reset. -/
theorem resetInv : Obligations.ResetInv where
  data :=
    { mem := reset_wf
      sad := by decide
      dad := by decide
      cntL := by decide
      cntH := by decide
      below := nofun
      distinct := List.nodup_nil }
  pipe := Nat.zero_le 1
  flushed := fun _ => rfl
  aligned := rfl
  halves := nofun

/-- With no cell listed, storage reads as unlisted (R70). -/
theorem readByte_unlisted {s : State} (hm : s.mem = []) {a : Word} {r : Region} {o : Nat}
    (hl : locate s.params a = .cell r o) : readByte a s = unlisted (regionBase r + o) := by
  simp only [readByte, busRead, hl, cellGet, hm, memGet]

/-- What reset leaves whatever the boot sets: registers, CPSR, SPSRs and draws (R70, R480, R481). -/
theorem resetShared (p : Params) (regs : Vector Word 30) (r15 : Word) (cpsr : Cpsr) (spsr : Vector Spsr 5)
    (draws : Nat) :
    ResetShared { State.resetCartridge p with
      regs := regs, r15 := r15, cpsr := cpsr, spsr := spsr, draws := draws } where
  pipe := ⟨rfl, rfl, rfl⟩
  interrupts := ⟨rfl, rfl, rfl, rfl⟩
  dma ch := by fin_cases ch <;> rfl
  scheduler := ⟨rfl, rfl, rfl, rfl⟩
  ram a ha := by
    have hv := vramOffset_lt a.toNat
    simp only [List.mem_cons, List.not_mem_nil, or_false] at ha
    rcases ha with h | h | h | h | h
    all_goals
      rw [readByte_unlisted rfl (by simp only [locate, h]; rfl)]
      exact if_neg (by simp only [regionBase]; omega)
  sram a ha := by
    simp only [List.mem_cons, List.not_mem_nil, or_false] at ha
    rcases ha with h | h
    all_goals
      rw [readByte_unlisted rfl (by simp only [locate, h]; rfl)]
      exact if_pos (Nat.le_add_right _ _)

theorem regsReset_zero (m : Mode) {n : RegNum} (hn : n ≠ 15)
    (h : ¬ (n = 13 ∧ (m = .usr ∨ m = .sys ∨ m = .irq ∨ m = .svc))) :
    regsReset[physIndex m n]'(physIndex_lt m n) = 0 := by
  revert n
  cases m <;> decide

theorem regsResetBios_zero (m : Mode) {n : RegNum} (hn : n ≠ 15) (h : ¬ (n = 14 ∧ m = .svc)) :
    regsResetBios[physIndex m n]'(physIndex_lt m n) = 0 := by
  revert n
  cases m <;> decide

theorem resetWith_cartridge {p : Params} (h : p.boot = .cartridgeDirect) :
    State.resetWith p = State.resetCartridge p := by
  rw [State.resetWith, h]

theorem resetWith_bios {p : Params} (h : p.boot = .bios) : State.resetWith p = State.resetBios p := by
  rw [State.resetWith, h]

/-- Settles O14: the boots share all but registers and status, and each of those has one of finitely many places. -/
theorem resetValues : Obligations.ResetValues := by
  refine ⟨fun p hp => ?_, fun p hp => ?_⟩
  · rw [resetWith_cartridge hp]
    have hcpsr : cpsrWord Cpsr.reset = 0x0000001F := by decide
    have hspsr : ∀ k : Fin 5, spsrWord (#v[.zero, .zero, .zero, .zero, .zero] : Vector Spsr 5)[k] = 0 := by decide
    exact ⟨hcpsr, rfl, resetShared p _ _ _ _ _, rfl, rfl, rfl,
      fun m n hn h => (getRegIn_regs hn _).trans (regsReset_zero m hn h), hspsr⟩
  · rw [resetWith_bios hp]
    have hcpsr : cpsrWord Cpsr.resetBios = 0x000000D3 := by decide
    have hspsr : ∀ k : Fin 5, spsrIndex .svc ≠ some k →
        spsrWord (#v[.zero, .zero, Spsr.ofWord (Config.freeWord 1), .zero, .zero] : Vector Spsr 5)[k] = 0 := by decide
    exact ⟨hcpsr, rfl, resetShared p _ _ _ _ _,
      fun m n hn h => (getRegIn_regs hn _).trans (regsResetBios_zero m hn h), hspsr⟩

end Sys2Proof.Proofs

/-! The interrupt and halt registers through the bus (O57). -/

namespace Sys2Proof.Proofs

open Sys2Proof.Machine Sys2Proof.Laws

/-- An address of the I/O region reaches the offset of its low ten bits, at every mirror (R110). -/
theorem locate_at_io {a : Word} (hio : isIo a = true) {n : Nat} (h : a.toNat % 0x400 = n) (p : Params) :
    locate p a = .io (BitVec.ofNat 10 n) := by
  have h4 := (isIo_iff a).mp hio
  have hn : a.extractLsb' 0 10 = BitVec.ofNat 10 n := by
    apply BitVec.eq_of_toNat_eq
    simp [← h]
  simp only [locate, h4, hn]

/-- The byte after an even I/O address is an I/O byte. -/
theorem io_next {a : Word} (hio : isIo a = true) {n : Nat} (h : a.toNat % 0x400 = n) (heven : n % 2 = 0) :
    isIo (a + 1) = true ∧ (a + 1).toNat % 0x400 = n + 1 := by
  have h4 := (isIo_iff a).mp hio
  have hnext : (a + 1).toNat = a.toNat + 1 := by
    simp only [BitVec.toNat_add, BitVec.ofNat_eq_ofNat, BitVec.toNat_ofNat]
    omega
  exact ⟨(isIo_iff _).mpr (by omega), by omega⟩

theorem alignTo_half_of_even {a : Word} (h : a.toNat % 2 = 0) : alignTo .half a = a := by
  exact BitVec.eq_of_toNat_eq ((align_half_toNat a).trans (by omega))

/-- A halfword store to an even I/O offset writes its two bytes one after another (R81, R110). -/
theorem store_half_io {a : Word} (hio : isIo a = true) {n : Nat} (h : a.toNat % 0x400 = n) (heven : n % 2 = 0)
    (v : Word) (s : State) : store .half a v s =
      andThen (ioWriteByte startDma (BitVec.ofNat 10 n) (byteAt v 0) s)
        (ioWriteByte startDma (BitVec.ofNat 10 (n + 1)) (byteAt v 1)) := by
  obtain ⟨hio1, h1⟩ := io_next hio h heven
  simp only [store, memWrite, alignTo_half_of_even (show a.toNat % 2 = 0 by omega), busWrite, locate_at_io hio h,
    locate_at_io hio1 h1]

/-- A halfword read of an even I/O offset the core owns. -/
theorem memRead_half_io {a : Word} (hio : isIo a = true) {n : Nat} (h : a.toNat % 0x400 = n) (heven : n % 2 = 0)
    {s : State} {b0 b1 : Byte} (h0 : ioReadByte (BitVec.ofNat 10 n) s = (b0, s))
    (h1 : ioReadByte (BitVec.ofNat 10 (n + 1)) s = (b1, s)) : memRead .half a s = ((b1 ++ b0).setWidth 32, s) := by
  obtain ⟨hio1, hn1⟩ := io_next hio h heven
  simp only [memRead, alignTo_half_of_even (show a.toNat % 2 = 0 by omega), busRead, locate_at_io hio h,
    locate_at_io hio1 hn1, h0, h1]

theorem getLsbD_byteAt {n : Nat} (v : BitVec n) (k i : Nat) (hi : i < 8) :
    (byteAt v k).getLsbD i = v.getLsbD (8 * k + i) := by
  rw [byteAt, BitVec.getLsbD_extractLsb', decide_eq_true hi, Bool.true_and]

/-- A byte moved up to byte `k` of a wider value. -/
theorem getLsbD_setWidth_shiftLeft {n : Nat} (b : Byte) (k : Nat) {i : Nat} (hi : i < n) :
    (b.setWidth n <<< (8 * k)).getLsbD i = if i / 8 = k then b.getLsbD (i % 8) else false := by
  rw [BitVec.getLsbD_shiftLeft, BitVec.getLsbD_setWidth]
  by_cases hk : i / 8 = k
  · have : i - 8 * k = i % 8 := by omega
    simp [hk, this, hi, show ¬ i < 8 * k by omega, show i % 8 < n by omega]
  · rcases Nat.lt_or_gt_of_ne hk with h | h
    · simp [hk, show i < 8 * k by omega]
    · simp [hk, BitVec.getLsbD_of_ge b (i - 8 * k) (by omega)]

/-- Replacing byte `k` changes the bits of that byte alone. -/
theorem getLsbD_withByte {n : Nat} (v : BitVec n) (k : Nat) (b : Byte) {i : Nat} (hi : i < n) :
    (withByte v k b).getLsbD i = if i / 8 = k then b.getLsbD (i % 8) else v.getLsbD i := by
  have hff : (0xFF#8).getLsbD (i % 8) = true := by
    rw [show 0xFF#8 = BitVec.allOnes 8 from rfl, BitVec.getLsbD_allOnes]
    exact decide_eq_true (Nat.mod_lt i (by decide))
  rw [withByte, BitVec.getLsbD_or, BitVec.getLsbD_and, BitVec.getLsbD_not, getLsbD_setWidth_shiftLeft _ _ hi,
    getLsbD_setWidth_shiftLeft _ _ hi, hff]
  split <;> simp [hi]

/-- A halfword is its two bytes. -/
theorem bytes_append (v : Half) : byteAt v 1 ++ byteAt v 0 = v := by
  apply BitVec.eq_of_getLsbD_eq
  intro i hi
  rw [BitVec.getLsbD_append]
  split
  · rw [getLsbD_byteAt v 0 i (by omega), Nat.mul_zero, Nat.zero_add]
  · rw [getLsbD_byteAt v 1 _ (by omega)]
    congr 1
    omega

/-- Both bytes of IE written, its fourteen bits are the value's (R56). -/
theorem withBytes_ie (old : BitVec 14) (v : Word) :
    (withByte (((withByte (old.setWidth 16) 0 (byteAt v 0)).setWidth 14).setWidth 16) 1 (byteAt v 1)).setWidth 14 =
      v.setWidth 14 := by
  apply BitVec.eq_of_getLsbD_eq
  intro i hi
  have hmod := Nat.mod_lt i (show 0 < 8 by decide)
  simp only [BitVec.getLsbD_setWidth, getLsbD_withByte _ _ _ (show i < 16 by omega), getLsbD_byteAt _ _ _ hmod, hi,
    decide_true, Bool.true_and, show i < 16 by omega]
  have hdiv := Nat.div_add_mod i 8
  split
  case isTrue h => rw [← h, hdiv]
  case isFalse h => rw [if_pos (show i / 8 = 0 by omega), show 8 * 0 + i % 8 = i by omega]

/-- Both bytes written to IF, the bits set in the value are cleared (R403). -/
theorem clearBytes_iff (old : BitVec 14) (v : Word) :
    old &&& ~~~(((byteAt v 0).setWidth 16 <<< (8 * 0)).setWidth 14) &&&
      ~~~(((byteAt v 1).setWidth 16 <<< (8 * 1)).setWidth 14) = old &&& ~~~(v.setWidth 14) := by
  apply BitVec.eq_of_getLsbD_eq
  intro i hi
  have hmod := Nat.mod_lt i (show 0 < 8 by decide)
  simp only [BitVec.getLsbD_and, BitVec.getLsbD_not, BitVec.getLsbD_setWidth,
    getLsbD_setWidth_shiftLeft _ _ (show i < 16 by omega), getLsbD_byteAt _ _ _ hmod, hi, decide_true, Bool.true_and]
  have hdiv := Nat.div_add_mod i 8
  by_cases h : i / 8 = 0
  · simp [h, show i % 8 = i by omega]
  · have h1 : i / 8 = 1 := by omega
    simp [h1, show 8 + i % 8 = i by omega]

/-- Settles O57: each register is found by its offset, a halfword byte by byte. -/
theorem ioRegisters : Obligations.IoRegisters := by
  intro s a v hio
  refine ⟨fun h => ⟨?_, ?_⟩, fun h => ⟨?_, ?_⟩, fun h => ⟨?_, ?_⟩, fun h => ⟨?_, ?_⟩⟩
  · rw [store_half_io hio h rfl, ← withBytes_ie s.ie v]
    rfl
  · rw [memRead_half_io hio h rfl rfl rfl, bytes_append, BitVec.setWidth_setWidth (by decide)]
  · rw [store_half_io hio h rfl, ← clearBytes_iff s.iff v]
    rfl
  · rw [memRead_half_io hio h rfl rfl rfl, bytes_append, BitVec.setWidth_setWidth (by decide)]
  · rw [store_half_io hio h rfl, ← getLsbD_byteAt v 0 0 (by decide)]
    rfl
  · rw [memRead_half_io hio h rfl rfl rfl]
    cases s.ime <;> rfl
  · simp only [store, memWrite, alignTo, byteWrite, busWrite, locate_at_io hio h]
    rfl
  · simp only [memRead, alignTo, busRead, locate_at_io hio h]
    rfl

end Sys2Proof.Proofs

/-! Reads, the region map and instructions decoded from bytes (O3, O31, O55). -/

namespace Sys2Proof.Proofs

open Sys2Proof.Machine Sys2Proof.Laws

/-! Decoding bytes (O3). -/

/-- A number's low `n + 8` bits, its lowest byte last (R81). -/
theorem ofNat_byte (n k : Nat) : BitVec.ofNat n (k / 256) ++ BitVec.ofNat 8 k = BitVec.ofNat (n + 8) k := by
  have h8 : BitVec.ofNat 8 (k % 2 ^ 8) = BitVec.ofNat 8 k := BitVec.eq_of_toNat_eq (Nat.mod_mod k (2 ^ 8))
  rw [ofNat_append n 8 k, h8]
  rfl

/-- Settles O3: the bytes of a word, put together again, are the word. -/
theorem decodeBytesEncode : Obligations.DecodeBytesEncode := by
  refine ⟨fun w rest => ?_, fun h rest => ?_, fun thumb bytes hlen => ?_⟩
  · have hw : BitVec.ofNat 8 (w.toNat / 256 / 256 / 256) ++ BitVec.ofNat 8 (w.toNat / 256 / 256) ++
        BitVec.ofNat 8 (w.toNat / 256) ++ BitVec.ofNat 8 w.toNat = w := by
      rw [ofNat_byte, ofNat_byte, ofNat_byte, BitVec.ofNat_toNat, BitVec.setWidth_eq]
    simp only [bytesOf, List.cons_append, List.nil_append, decodeBytes, hw, Bool.false_eq_true, if_false, decodeCode]
  · have hh : BitVec.ofNat 8 (h.toNat / 256) ++ BitVec.ofNat 8 h.toNat = h := by
      rw [ofNat_byte, BitVec.ofNat_toNat, BitVec.setWidth_eq]
    simp only [bytesOf, List.cons_append, List.nil_append, decodeBytes, hh, if_true, decodeCode]
  · match bytes, thumb with
    | [], _ | [_], _ | [_, _], false | [_, _, _], false => rfl
    | _ :: _ :: _, true | _ :: _ :: _ :: _ :: _, false =>
      simp only [List.length_cons, Bool.false_eq_true, if_true, if_false] at hlen
      omega

/-! The reads (O31). -/

theorem getLsbD_zero_iff (a : Word) : a.getLsbD 0 = true ↔ a.toNat % 2 = 1 := by
  rw [BitVec.getLsbD, Nat.testBit_zero, decide_eq_true_eq]

/-- Settles O31: `memRead_noIo` for the bytes, then each read's own turn or extension. -/
theorem readValues : Obligations.ReadValues := by
  intro s a hio w h word half turn
  have hword : memRead .word a s = (word, s) := memRead_noIo .word hio s
  have hhalf : memRead .half a s = (half.setWidth 32, s) := memRead_noIo .half hio s
  have hbyte : memRead .byte a s = ((readByte a s).setWidth 32, s) := memRead_noIo .byte hio s
  have hsigned : memReadByteSigned a s = (BitVec.ofInt 32 (readByte a s).toInt, s) := by
    rw [memReadByteSigned, hbyte, BitVec.setWidth_setWidth (by decide), BitVec.setWidth_eq]
    rfl
  refine ⟨hword, hhalf, hbyte, ?_, ?_, hsigned, ?_⟩
  · rw [memReadRot, hword, rotateRight_eq_or _ (by omega)]
  · simp only [memReadHalfRot, hhalf, getLsbD_zero_iff, rotateRight_eq_or _ (show 8 < 32 by decide)]
  · simp only [memReadHalfSigned, getLsbD_zero_iff]
    split
    · exact hsigned
    · rw [hhalf, BitVec.setWidth_setWidth (by decide), BitVec.setWidth_eq]
      rfl

/-! The region map (O55). -/

theorem readByte_cell {s : State} {a : Word} {r : Region} {o : Nat} (h : locate s.params a = .cell r o) :
    readByte a s = cellGet r o s := by
  simp only [readByte, busRead, h]

theorem readByte_zero {s : State} {a : Word} (h : locate s.params a = .zero) : readByte a s = 0 := by
  simp only [readByte, busRead, h]

theorem readByte_unmapped {s : State} {a : Word} (h : locate s.params a = .unmapped) :
    readByte a s = s.openBus.extractLsb' (8 * (a.toNat % 4)) 8 := by
  simp only [readByte, busRead, h, openBusLane]
  rfl

/-- Regions 0 and 1 are BIOS up to 16 KiB and read 0 beyond (R83). -/
theorem locate_bios {p : Params} {a : Word} (h : a.toNat / 0x01000000 ≤ 1) :
    locate p a = if a.toNat < 0x4000 then .cell .bios a.toNat else .zero := by
  obtain h | h : a.toNat / 0x01000000 = 0 ∨ a.toNat / 0x01000000 = 1 := by omega
  all_goals simp only [locate, h, Nat.lt_succ_iff]

/-- Regions 8 to 13 are the ROM (R87). -/
theorem locate_rom {p : Params} {a : Word} (h8 : 8 ≤ a.toNat / 0x01000000) (h13 : a.toNat / 0x01000000 ≤ 13) :
    locate p a = romTarget p a.toNat := by
  generalize hr : a.toNat / 0x01000000 = r at h8 h13
  interval_cases r <;> simp only [locate, hr]

/-- Regions 14 and 15 are the SRAM (R88). -/
theorem locate_sram {p : Params} {a : Word} (h14 : 14 ≤ a.toNat / 0x01000000) (h15 : a.toNat / 0x01000000 ≤ 15) :
    locate p a = .cell .sram (a.toNat % 2 ^ p.sramBits) := by
  generalize hr : a.toNat / 0x01000000 = r at h14 h15
  interval_cases r <;> simp only [locate, hr]

/-- Regions from 16 up are unmapped (R90). -/
theorem locate_high {p : Params} {a : Word} (h : 16 ≤ a.toNat / 0x01000000) : locate p a = .unmapped := by
  unfold locate
  dsimp only
  split
  any_goals omega
  rfl

/-- Settles O55: the place of each region's addresses, then the byte there. -/
theorem regionMap : Obligations.RegionMap := by
  intro s a
  dsimp only
  refine ⟨fun h => ?_, fun h => readByte_cell (by simp only [locate, h]),
    fun h => readByte_cell (by simp only [locate, h]), fun h => readByte_cell (by simp only [locate, h]),
    fun h hlow => readByte_cell ?_, fun h hhigh => readByte_cell ?_,
    fun h => readByte_cell (by simp only [locate, h]), fun h8 h13 => ?_,
    fun h14 h15 => readByte_cell (locate_sram h14 h15), fun h => readByte_unmapped (locate_high h)⟩
  · have hl := locate_bios (p := s.params) h
    split at hl
    · rw [if_pos ‹_›, readByte_cell hl]
    · rw [if_neg ‹_›, readByte_zero hl]
  · simp only [locate, h, vramOffset, if_neg (Nat.not_le.mpr hlow)]
  · simp only [locate, h, vramOffset, if_pos hhigh]
  · have hl := locate_rom (p := s.params) h8 h13
    unfold romTarget at hl
    dsimp only at hl
    split at hl
    · rw [if_pos ‹_›, readByte_cell hl]
    · rw [if_neg ‹_›]
      split at hl
      · rw [if_pos ‹_›, readByte_cell hl]
      · rw [if_neg ‹_›, readByte_unmapped hl]

end Sys2Proof.Proofs

/-! What every instruction leaves of the machine around the registers (O53). `InstrFrame` says it for instructions that
store and for those that do not; each shared operation gets one lemma, and `exec_frame` splits over the instructions. -/

namespace Sys2Proof.Proofs

open Sys2Proof.Machine Sys2Proof.Laws

/-- What may differ from `s` to `t`: without a store, the registers, the pipeline, the status registers and the free
values; with one, the registers and what the bus reaches. -/
def InstrFrame : (storing : Bool) → State → State → Prop
  | false, s, t => t = { s with
      regs := t.regs, r15 := t.r15, pipe := t.pipe, flushed := t.flushed, cpsr := t.cpsr, spsr := t.spsr
      draws := t.draws, ext := t.ext }
  | true, s, t => t = { s with
      regs := t.regs, mem := t.mem, ie := t.ie, iff := t.iff, ime := t.ime, halted := t.halted, dma := t.dma
      queue := t.queue, seq := t.seq, pendingCycles := t.pendingCycles, ext := t.ext }

/-- The next state of a result, if it has one, is framed so. -/
def ResultFrame (b : Bool) (s : State) (r : Result) : Prop :=
  ∀ t, r = .next t → InstrFrame b s t

section
variable {b : Bool} {s t u : State}

/-- An operation on the registers below R15 and the external components alone is within both frames. -/
theorem InstrFrame.of_regs (h : t = { s with regs := t.regs, ext := t.ext }) : InstrFrame b s t := by
  cases b <;> rw [h] <;> rfl

theorem InstrFrame.refl (s : State) : InstrFrame b s s :=
  .of_regs rfl

theorem InstrFrame.trans (h : InstrFrame b s t) (h' : InstrFrame b t u) : InstrFrame b s u := by
  cases b <;> exact h'.trans (by rw [h])

theorem InstrFrame.of_bus (h : BusFrame s t) : InstrFrame true s t := by
  rw [h.core]
  rfl

/-- Without a store no byte outside the I/O region changes. -/
theorem InstrFrame.sameMemory (h : InstrFrame false s t) : SameMemory s t :=
  fun _ ha => readByte_congr ha (by rw [h]) (by rw [h]) (by rw [h])

/-! The shared operations. -/

theorem branchTo_instrFrame (v : Word) (s : State) : InstrFrame false s (branchTo v s) :=
  rfl

theorem setRegIn_instrFrame (m : Mode) (n : RegNum) (v : Word) (s : State) : InstrFrame false s (setRegIn m n v s) := by
  unfold setRegIn
  split
  · exact branchTo_instrFrame v s
  · exact .of_regs rfl

theorem setReg_instrFrame (n : RegNum) (v : Word) (s : State) : InstrFrame false s (setReg n v s) :=
  setRegIn_instrFrame _ n v s

/-- Below R15 a register write is within the frame of a store too. -/
theorem setReg_instrFrame_of_ne {n : RegNum} (hn : n ≠ 15) (v : Word) (s : State) : InstrFrame b s (setReg n v s) :=
  .of_regs (by rw [setReg_eq hn]; rfl)

theorem writeBack_instrFrame {tr : Transfer} {n : RegNum} (hn : tr.wb = true → n ≠ 15) (s : State) :
    InstrFrame b s (writeBack tr n s) :=
  .of_regs (by rw [writeBack_only hn s])

theorem blockBack_instrFrame (ix : Index) {n : RegNum} (hn : n ≠ 15) (base size : Word) (s : State) :
    InstrFrame b s (blockBack ix n base size s) := by
  unfold blockBack
  split
  · exact setReg_instrFrame_of_ne hn _ s
  · exact .refl s

theorem reads_instrFrame {read : Word → State → Word × State} (hr : Reads read) (a : Word) (s : State) :
    InstrFrame b s (read a s).2 := by
  obtain ⟨x, hx⟩ := hr a s
  rw [hx]
  exact .of_regs rfl

/-! Results. -/

variable {r : Result} {g : State → Result}

theorem ResultFrame.next (h : InstrFrame b s t) : ResultFrame b s (.next t) := by
  rintro _ ⟨⟩
  exact h

/-- A form that completes is not a refused one. -/
theorem ResultFrame.refusedIf {p : Prop} [Decidable p] {f : Refusal} (h : ¬ p → ResultFrame b s r) :
    ResultFrame b s (if p then .refused f else r) := by
  split
  · rintro _ ⟨⟩
  · exact h ‹_›

theorem ResultFrame.whenPassed {c : Cond} (h : ResultFrame b s (g s)) : ResultFrame b s (whenPassed c g s) := by
  unfold Machine.whenPassed
  split
  · exact h
  · exact .next (.refl s)

theorem ResultFrame.halfTransfer {ix : Index} {rd : RegNum} (h : ResultFrame b s (g s)) :
    ResultFrame b s (halfTransfer ix rd g s) := by
  unfold Machine.halfTransfer
  split
  · rintro _ ⟨⟩
  · exact h

theorem ResultFrame.andThen (h : ResultFrame b s r) (hg : ∀ u, ResultFrame b u (g u)) :
    ResultFrame b s (andThen r g) := by
  intro t ht
  obtain ⟨u, hu, hgt⟩ := andThen_eq_next.mp ht
  exact (h u hu).trans (hg u t hgt)

theorem ResultFrame.of_framed {f : State → Result} (h : Framed f) (s : State) : ResultFrame true s (f s) :=
  fun t ht => .of_bus (h s t ht)

end

/-! Instructions that do not store. -/

theorem restoreCpsr_instrFrame (s : State) : InstrFrame false s (restoreCpsr s) := by
  rw [restoreCpsr_only]
  rfl

theorem returnFromException_instrFrame (v : Word) (s : State) : InstrFrame false s (returnFromException v s) :=
  (restoreCpsr_instrFrame s).trans (branchTo_instrFrame v _)

theorem writeResult_instrFrame (sf : Bool) (rd : RegNum) (a : Alu) (s : State) :
    InstrFrame false s (writeResult sf rd a s) := by
  unfold writeResult
  split
  · split
    · exact returnFromException_instrFrame _ s
    · exact (setReg_instrFrame rd _ s).trans rfl
  · exact setReg_instrFrame rd _ s

theorem dataProc_instrFrame (f : AluOp) (c : Cond) (sf : Bool) (rn rd : RegNum) (op2 : Operand2) (s : State) :
    ResultFrame false s (dataProc f c sf rn rd op2 s) :=
  .whenPassed (.next (writeResult_instrFrame sf rd _ s))

theorem compareOp_instrFrame (f : AluOp) (c : Cond) (rn : RegNum) (op2 : Operand2) (s : State) :
    ResultFrame false s (compareOp f c rn op2 s) :=
  .whenPassed (.next rfl)

theorem mulFinish_instrFrame (sf : Bool) (rd : RegNum) (res : Word) (s : State) :
    InstrFrame false s (mulFinish sf rd res s) := by
  unfold mulFinish
  split
  · exact (setReg_instrFrame rd res s).trans rfl
  · exact setReg_instrFrame rd res s

theorem mull_instrFrame (sf : Bool) (hi lo rs rm : RegNum) (p : State → BitVec 64) (s : State) :
    ResultFrame false s (mull sf hi lo rs rm p s) := by
  have hset := (setReg_instrFrame lo ((p s).extractLsb' 0 32) s).trans
    (setReg_instrFrame hi ((p s).extractLsb' 32 32) _)
  refine .refusedIf fun _ => .next ?_
  unfold mullFinish
  split
  · exact hset.trans rfl
  · exact hset

theorem mrsTo_instrFrame (spsr : Bool) (rd : RegNum) (s : State) : ResultFrame false s (mrsTo spsr rd s) := by
  obtain ⟨d, hd⟩ := readSpsr_state s
  refine .refusedIf fun _ => ?_
  split
  · rw [hd]
    exact .next (.trans (t := { s with draws := d }) rfl (setReg_instrFrame rd _ _))
  · exact .next (setReg_instrFrame rd _ s)

theorem msrFrom_instrFrame (spsr : Bool) (mask : BitVec 4) (v : Word) (s : State) :
    ResultFrame false s (msrFrom spsr mask v s) := by
  refine .next ?_
  unfold writeSpsr
  split
  · split <;> rfl
  · rfl

theorem saveSpsr_instrFrame (m : Mode) (p : Cpsr) (s : State) : InstrFrame false s (saveSpsr m p s) := by
  rw [saveSpsr_only]
  rfl

theorem enterException_instrFrame (m : Mode) (vector lr : Word) (s : State) :
    InstrFrame false s (enterException m vector lr s) :=
  .trans (.trans (t := { s with cpsr := { s.cpsr with mode := m, t := false, i := true } }) rfl
    (saveSpsr_instrFrame m s.cpsr _)) rfl

theorem undefinedEncoding_instrFrame (s : State) : InstrFrame false s (undefinedEncoding s) := by
  unfold undefinedEncoding
  split
  · exact enterException_instrFrame _ _ _ s
  · exact .refl s

theorem undefinedArm_instrFrame (c : Cond) (s : State) : ResultFrame false s (undefinedArm c s) :=
  .whenPassed (.next (undefinedEncoding_instrFrame s))

theorem exchangeTo_instrFrame (v : Word) (s : State) : InstrFrame false s (exchangeTo v s) :=
  rfl

/-- The condition R250 refuses, where it does not hold. -/
theorem base_ne_of_not_refused {wb : Bool} {rn : RegNum} (h : ¬ (wb && rn == 15) = true) (hw : wb = true) :
    rn ≠ 15 := by
  simpa [hw] using h

theorem loadTo_instrFrame {read : Word → State → Word × State} (hr : Reads read) (ix : Index) (rn rd : RegNum)
    (off : Word) (s : State) : ResultFrame false s (loadTo read ix rn rd off s) :=
  .refusedIf fun h => .next ((reads_instrFrame hr _ s).trans
    ((writeBack_instrFrame (base_ne_of_not_refused h) _).trans (setReg_instrFrame rd _ _)))

theorem loadByteTo_instrFrame (ix : Index) (rn rd : RegNum) (off : Word) (s : State) :
    ResultFrame false s (loadByteTo ix rn rd off s) :=
  .refusedIf fun _ => loadTo_instrFrame (reads_memRead .byte) ix rn rd off s

theorem loadWords_instrFrame {put : RegNum → Word → State → State} (hput : ∀ r v u, InstrFrame false u (put r v u))
    (regs : List RegNum) (addr : Word) (s : State) : InstrFrame false s (loadWords put regs addr s) := by
  induction regs generalizing addr s with
  | nil => exact .refl s
  | cons r rest ih => exact (reads_instrFrame (reads_memRead .word) addr s).trans ((hput r _ _).trans (ih _ _))

theorem loadMultiple_instrFrame {put : RegNum → Word → State → State} (hput : ∀ r v u, InstrFrame false u (put r v u))
    (ix : Index) (rn : RegNum) (list : BitVec 16) (s : State) :
    ResultFrame false s (loadMultiple put ix rn list s) :=
  .refusedIf fun h => .next ((blockBack_instrFrame ix h _ _ s).trans (loadWords_instrFrame hput _ _ _))

theorem putReturning_instrFrame (r : RegNum) (v : Word) (s : State) : InstrFrame false s (putReturning r v s) := by
  unfold putReturning
  split
  · exact returnFromException_instrFrame v s
  · exact setReg_instrFrame r v s

theorem thumbLoad_instrFrame {read : Word → State → Word × State} (hr : Reads read) (rd : LowReg) (addr : Word)
    (s : State) : ResultFrame false s (thumbLoad read rd addr s) :=
  .next ((reads_instrFrame hr addr s).trans (setReg_instrFrame _ _ _))

/-! Instructions that store. -/

theorem store_instrFrame (w : Width) (a v : Word) (s : State) : ResultFrame true s (store w a v s) :=
  .of_framed (store_frame w a v) s

theorem thumbStore_instrFrame (w : Width) (rd : LowReg) (addr : Word) (s : State) :
    ResultFrame true s (thumbStore w rd addr s) :=
  store_instrFrame w _ _ s

theorem storeFrom_instrFrame (w : Width) (ix : Index) (rn rd : RegNum) (off : Word) (s : State) :
    ResultFrame true s (storeFrom w ix rn rd off s) :=
  .refusedIf fun h => .andThen (store_instrFrame w _ _ s)
    fun u => .next (writeBack_instrFrame (base_ne_of_not_refused h) u)

theorem swap_instrFrame {read : Word → State → Word × State} (hr : Reads read) (w : Width) (rn rd rm : RegNum)
    (s : State) : ResultFrame true s (swap read w rn rd rm s) :=
  .refusedIf fun h => .andThen (fun t ht => (reads_instrFrame hr _ s).trans (store_instrFrame w _ _ _ t ht))
    fun u => .next (setReg_instrFrame_of_ne (fun hd => h (.inr (.inl hd))) _ u)

theorem storeBlock_instrFrame {get : RegNum → State → Word} {back : State → State}
    (hback : ∀ u, InstrFrame true u (back u)) (regs : List RegNum) (addr : Word) (s : State) :
    ResultFrame true s (storeBlock get back regs addr s) := by
  cases regs with
  | nil => exact .next (hback s)
  | cons r rest =>
    exact .andThen (store_instrFrame _ _ _ s) fun u t ht =>
      (hback u).trans (ResultFrame.of_framed (storeWords_frame get rest _) (back u) t ht)

theorem storeMultiple_instrFrame (get : RegNum → State → Word) (ix : Index) (rn : RegNum) (list : BitVec 16)
    (s : State) : ResultFrame true s (storeMultiple get ix rn list s) :=
  .refusedIf fun h => storeBlock_instrFrame (blockBack_instrFrame ix h _ _) _ _ s

theorem execTPush_instrFrame (r : Bool) (list : Byte) (s : State) : ResultFrame true s (execTPush r list s) :=
  .andThen (.of_framed (storeWords_frame _ _ _) s) fun u => .next (setReg_instrFrame_of_ne (by decide) _ u)

/-! Every instruction. -/

/-- Every instruction keeps what its frame names. -/
theorem exec_instrFrame (i : Instr) (s : State) : ResultFrame i.storing s (exec i s) := by
  unfold exec
  cases i with
  | and | eor | sub | rsb | add | adc | sbc | rsc | orr | mov | bic | mvn => exact dataProc_instrFrame _ _ _ _ _ _ s
  | tst | teq | cmp | cmn => exact compareOp_instrFrame _ _ _ _ s
  | mrs => exact .whenPassed (mrsTo_instrFrame _ _ s)
  | msrReg | msrImm => exact .whenPassed (msrFrom_instrFrame _ _ _ s)
  | mul | mla => exact .whenPassed (.refusedIf fun _ => .next (mulFinish_instrFrame _ _ _ s))
  | umull | umlal | smull | smlal => exact .whenPassed (mull_instrFrame _ _ _ _ _ _ s)
  | b => exact .whenPassed (.next (branchTo_instrFrame _ s))
  | bl => exact .whenPassed (.next ((setReg_instrFrame _ _ s).trans (branchTo_instrFrame _ _)))
  | bx => exact .whenPassed (.next (exchangeTo_instrFrame _ s))
  | swi => exact .whenPassed (.next (enterException_instrFrame _ _ _ s))
  | undStoreSh10 | undStoreSh11 | undMulSwap | undPsr | und011 | ldc | stc | cdp | mrc | mcr =>
    exact undefinedArm_instrFrame _ s
  | ldr | ldrt => exact .whenPassed (loadTo_instrFrame reads_memReadRot _ _ _ _ s)
  | ldrb | ldrbt => exact .whenPassed (loadByteTo_instrFrame _ _ _ _ s)
  | str | strt | strb | strbt => exact .whenPassed (storeFrom_instrFrame _ _ _ _ _ s)
  | ldrh => exact .whenPassed (.halfTransfer (loadTo_instrFrame reads_memReadHalfRot _ _ _ _ s))
  | ldrsb => exact .whenPassed (.halfTransfer (loadTo_instrFrame reads_memReadByteSigned _ _ _ _ s))
  | ldrsh => exact .whenPassed (.halfTransfer (loadTo_instrFrame reads_memReadHalfSigned _ _ _ _ s))
  | strh => exact .whenPassed (.halfTransfer (storeFrom_instrFrame _ _ _ _ _ s))
  | swp => exact .whenPassed (swap_instrFrame reads_memReadRot _ _ _ _ s)
  | swpb => exact .whenPassed (swap_instrFrame (reads_memRead .byte) _ _ _ _ s)
  | ldm => exact .whenPassed (loadMultiple_instrFrame setReg_instrFrame _ _ _ s)
  | ldmReturn => exact .whenPassed (loadMultiple_instrFrame putReturning_instrFrame _ _ _ s)
  | ldmUser =>
    exact .whenPassed (.refusedIf fun _ => loadMultiple_instrFrame (setRegIn_instrFrame .usr) _ _ _ s)
  | stm => exact .whenPassed (storeMultiple_instrFrame _ _ _ _ s)
  | stmUser => exact .whenPassed (.refusedIf fun _ => storeMultiple_instrFrame _ _ _ _ s)
  | tAddReg | tSubReg | tAddImm3 | tSubImm3 | tAddImm8 | tSubImm8 | tAdc | tSbc | tNeg | tLslImm | tLsrImm | tAsrImm
  | tLslReg | tLsrReg | tAsrReg | tRorReg | tMovImm8 | tAnd | tEor | tOrr | tBic | tMvn =>
    exact .next ((setReg_instrFrame _ _ s).trans rfl)
  | tCmpImm8 | tCmpReg | tCmn | tCmpHi | tTst => exact .next rfl
  | tMul => exact .next (mulFinish_instrFrame true _ _ s)
  | tAddHi | tMovHi | tAddPc | tAddSp | tAddSpImm | tBlPrefix => exact .next (setReg_instrFrame _ _ s)
  | tBx => exact .next (exchangeTo_instrFrame _ s)
  | tB => exact .next (branchTo_instrFrame _ s)
  | tBCond => exact .whenPassed (.next (branchTo_instrFrame _ s))
  | tBlSuffix => exact .next ((branchTo_instrFrame _ s).trans (setReg_instrFrame 14 _ _))
  | tLdrPc => exact thumbLoad_instrFrame (reads_memRead .word) _ _ s
  | tLdrReg | tLdrImm | tLdrSp => exact thumbLoad_instrFrame reads_memReadRot _ _ s
  | tLdrbReg | tLdrbImm => exact thumbLoad_instrFrame (reads_memRead .byte) _ _ s
  | tLdrhReg | tLdrhImm => exact thumbLoad_instrFrame reads_memReadHalfRot _ _ s
  | tLdsb => exact thumbLoad_instrFrame reads_memReadByteSigned _ _ s
  | tLdsh => exact thumbLoad_instrFrame reads_memReadHalfSigned _ _ s
  | tStrReg | tStrbReg | tStrhReg | tStrImm | tStrbImm | tStrhImm | tStrSp => exact thumbStore_instrFrame _ _ _ s
  | tPush => exact execTPush_instrFrame _ _ s
  | tPop => exact .next ((loadWords_instrFrame setReg_instrFrame _ _ s).trans (setReg_instrFrame 13 _ _))
  | tStmia => exact storeBlock_instrFrame (setReg_instrFrame_of_ne (low_ne _) _) _ _ s
  | tLdmia => exact .next ((setReg_instrFrame _ _ s).trans (loadWords_instrFrame setReg_instrFrame _ _ _))
  | tSwi => exact .next (enterException_instrFrame _ _ _ s)
  | tUnd1011 | tUndCond | tUnd11101 => exact .next (undefinedEncoding_instrFrame s)

/-- Settles O53: a case split over the instructions, each case one lemma about the operation it calls; memory outside
the I/O region depends on nothing that may change without a store. -/
theorem memoryFrame : Obligations.MemoryFrame := by
  intro i s t h
  have hf := exec_instrFrame i s t h
  refine ⟨fun hs => ?_, fun hs => ?_⟩ <;> rw [hs] at hf
  · exact ⟨hf.sameMemory, hf⟩
  · exact hf

end Sys2Proof.Proofs

/-! The DMA registers through the bus (O58). -/

namespace Sys2Proof.Proofs

open Sys2Proof.Machine Sys2Proof.Laws

/-! Word accesses to the I/O region. -/

/-- The bytes of an aligned word at an I/O address are I/O bytes. -/
theorem io_word_byte {a : Word} (hio : isIo a = true) {n : Nat} (h : a.toNat % 0x400 = n) (haligned : n % 4 = 0)
    {k : Nat} (hk : k < 4) (p : Params) : locate p (a + BitVec.ofNat 32 k) = .io (BitVec.ofNat 10 (n + k)) := by
  have h4 := (isIo_iff a).mp hio
  have hbyte : (a + BitVec.ofNat 32 k).toNat = a.toNat + k := by
    simp only [BitVec.toNat_add, BitVec.toNat_ofNat]
    omega
  exact locate_at_io ((isIo_iff _).mpr (by omega)) (by omega) p

theorem alignTo_word_of_aligned {a : Word} (h : a.toNat % 4 = 0) : alignTo .word a = a :=
  BitVec.eq_of_toNat_eq ((align_word_toNat a).trans (by omega))

/-- A word store to an I/O register writes its four bytes one after another (R81, R110); `put` writes one. -/
theorem store_word_io {a : Word} (hio : isIo a = true) {n : Nat} (h : a.toNat % 0x400 = n) (haligned : n % 4 = 0)
    {put : Nat → Byte → State → State}
    (hput : ∀ k < 4, ∀ b s, ioWriteByte startDma (BitVec.ofNat 10 (n + k)) b s = .next (put k b s)) (v : Word)
    (s : State) : store .word a v s =
      .next (put 3 (byteAt v 3) (put 2 (byteAt v 2) (put 1 (byteAt v 1) (put 0 (byteAt v 0) s)))) := by
  have hbyte {k : Nat} (hk : k < 4) (b : Byte) (s : State) :
      busWrite startDma (a + BitVec.ofNat 32 k) b s = .next (put k b s) := by
    simp only [busWrite, io_word_byte hio h haligned hk, hput k hk]
  have h0 (b : Byte) (s : State) : busWrite startDma a b s = .next (put 0 b s) := by
    simpa using hbyte (k := 0) (by decide) b s
  simp only [store, memWrite, alignTo_word_of_aligned (show a.toNat % 4 = 0 by omega), h0, andThen_next,
    show ∀ b s, busWrite startDma (a + 1) b s = _ from hbyte (k := 1) (by decide),
    show ∀ b s, busWrite startDma (a + 2) b s = _ from hbyte (k := 2) (by decide),
    show ∀ b s, busWrite startDma (a + 3) b s = _ from hbyte (k := 3) (by decide)]

/-- A word read of an aligned I/O offset whose four bytes read 0. -/
theorem memRead_word_io_zero {a : Word} (hio : isIo a = true) {n : Nat} (h : a.toNat % 0x400 = n)
    (haligned : n % 4 = 0) {s : State} (hz : ∀ k < 4, ioReadByte (BitVec.ofNat 10 (n + k)) s = (0, s)) :
    memRead .word a s = (0, s) := by
  have hbyte {k : Nat} (hk : k < 4) : busRead (a + BitVec.ofNat 32 k) s = (0, s) := by
    simp only [busRead, io_word_byte hio h haligned hk, hz k hk]
  have h0 : busRead a s = (0, s) := by simpa using hbyte (k := 0) (by decide)
  simp only [memRead, alignTo_word_of_aligned (show a.toNat % 4 = 0 by omega), h0,
    show busRead (a + 1) s = _ from hbyte (k := 1) (by decide),
    show busRead (a + 2) s = _ from hbyte (k := 2) (by decide),
    show busRead (a + 3) s = _ from hbyte (k := 3) (by decide)]
  rfl

/-! Registers written byte by byte, each byte masked (R450, R451). -/

/-- Byte `k` replaced by that of `v`. -/
theorem getLsbD_withByte_byteAt {n m : Nat} (old : BitVec n) (v : BitVec m) (k : Nat) {i : Nat} (hi : i < n) :
    (withByte old k (byteAt v k)).getLsbD i = if i / 8 = k then v.getLsbD i else old.getLsbD i := by
  rw [getLsbD_withByte _ _ _ hi, getLsbD_byteAt _ _ _ (Nat.mod_lt i (by decide))]
  split
  case isTrue h => rw [← h, Nat.div_add_mod]
  case isFalse => rfl

theorem masked_word_bytes (old v m : Word) :
    withByte (withByte (withByte (withByte old 0 (byteAt v 0) &&& m) 1 (byteAt v 1) &&& m) 2 (byteAt v 2) &&& m) 3
      (byteAt v 3) &&& m = v &&& m := by
  apply BitVec.eq_of_getLsbD_eq
  intro i hi
  have hbyte : i / 8 = 0 ∨ i / 8 = 1 ∨ i / 8 = 2 ∨ i / 8 = 3 := by omega
  simp only [BitVec.getLsbD_and, getLsbD_withByte_byteAt _ _ _ hi]
  rcases hbyte with h | h | h | h <;> simp [h]

theorem masked_half_bytes (old m : Half) (v : Word) :
    withByte (withByte old 0 (byteAt v 0) &&& m) 1 (byteAt v 1) &&& m = v.setWidth 16 &&& m := by
  apply BitVec.eq_of_getLsbD_eq
  intro i hi
  have hbyte : i / 8 = 0 ∨ i / 8 = 1 := by omega
  simp only [BitVec.getLsbD_and, BitVec.getLsbD_setWidth, getLsbD_withByte_byteAt _ _ _ hi, hi, decide_true,
    Bool.true_and]
  rcases hbyte with h | h <;> simp [h]

/-! The registers of a channel. -/

theorem setDma_get_same (ch : Fin 4) (d : DmaChannel) (s : State) : (setDma ch d s).dma[ch] = d := by
  rw [setDma_get, if_pos rfl]

theorem setDma_setDma (ch : Fin 4) (d d' : DmaChannel) (s : State) : setDma ch d' (setDma ch d s) = setDma ch d' s := by
  simp only [setDma, Vector.set_set]

theorem latchDma_setDma (ch : Fin 4) (d : DmaChannel) (s : State) :
    latchDma ch (setDma ch d s) = setDma ch { d with isrc := d.sad, idst := d.dad } s := by
  rw [latchDma, setDma_get_same, setDma_setDma]

section

variable (ch : Fin 4) {k : Nat}

/-! The offsets of a channel's registers (R111). -/

theorem ioReg_sad (hk : k < 4) : ioReg (BitVec.ofNat 10 (0xB0 + 12 * ch.val + k)) = .sad ch k := by
  revert ch k
  decide

theorem ioReg_dad (hk : k < 4) : ioReg (BitVec.ofNat 10 (0xB0 + 12 * ch.val + 4 + k)) = .dad ch k := by
  revert ch k
  decide

theorem ioReg_cntL (hk : k < 2) : ioReg (BitVec.ofNat 10 (0xB0 + 12 * ch.val + 8 + k)) = .cntL ch k := by
  revert ch k
  decide

theorem ioReg_cntH (hk : k < 2) : ioReg (BitVec.ofNat 10 (0xB0 + 12 * ch.val + 10 + k)) = .cntH ch k := by
  revert ch k
  decide

variable {a : Word} (v : Word) (s : State) (run : Fin 4 → State → Result)

theorem ioWriteByte_sad (hk : k < 4) (b : Byte) :
    ioWriteByte run (BitVec.ofNat 10 (0xB0 + 12 * ch.val + k)) b s =
      .next (setDma ch { s.dma[ch] with sad := withByte s.dma[ch].sad k b &&& sadMask ch } s) := by
  simp only [ioWriteByte, ioReg_sad ch hk]

theorem ioWriteByte_dad (hk : k < 4) (b : Byte) :
    ioWriteByte run (BitVec.ofNat 10 (0xB0 + 12 * ch.val + 4 + k)) b s =
      .next (setDma ch { s.dma[ch] with dad := withByte s.dma[ch].dad k b &&& dadMask ch } s) := by
  simp only [ioWriteByte, ioReg_dad ch hk]

theorem ioWriteByte_cntL (hk : k < 2) (b : Byte) :
    ioWriteByte run (BitVec.ofNat 10 (0xB0 + 12 * ch.val + 8 + k)) b s =
      .next (setDma ch { s.dma[ch] with cntL := withByte s.dma[ch].cntL k b &&& cntLMask ch } s) := by
  simp only [ioWriteByte, ioReg_cntL ch hk]

/-- SAD stores its implemented bits and reads 0 (R451). -/
theorem sad_access (hio : isIo a = true) (h : a.toNat % 0x400 = 0xB0 + 12 * ch.val) :
    memRead .word a s = (0, s) ∧
      store .word a v s = .next (setDma ch { s.dma[ch] with sad := v &&& sadMask ch } s) := by
  constructor
  · exact memRead_word_io_zero hio h (by omega) fun k hk => by simp only [ioReadByte, ioReg_sad ch hk]
  · rw [store_word_io hio h (by omega) fun k hk b u => ioWriteByte_sad ch u startDma hk b]
    simp only [setDma_get_same, setDma_setDma, masked_word_bytes]

/-- DAD stores its implemented bits and reads 0 (R451). -/
theorem dad_access (hio : isIo a = true) (h : a.toNat % 0x400 = 0xB0 + 12 * ch.val + 4) :
    memRead .word a s = (0, s) ∧
      store .word a v s = .next (setDma ch { s.dma[ch] with dad := v &&& dadMask ch } s) := by
  constructor
  · exact memRead_word_io_zero hio h (by omega) fun k hk => by simp only [ioReadByte, ioReg_dad ch hk]
  · rw [store_word_io hio h (by omega) fun k hk b u => ioWriteByte_dad ch u startDma hk b]
    simp only [setDma_get_same, setDma_setDma, masked_word_bytes]

/-- CNT_L stores its implemented bits and reads 0 (R451). -/
theorem cntL_access (hio : isIo a = true) (h : a.toNat % 0x400 = 0xB0 + 12 * ch.val + 8) :
    memRead .half a s = (0, s) ∧
      store .half a v s = .next (setDma ch { s.dma[ch] with cntL := v.setWidth 16 &&& cntLMask ch } s) := by
  have hread {k : Nat} (hk : k < 2) : ioReadByte (BitVec.ofNat 10 (0xB0 + 12 * ch.val + 8 + k)) s = (0, s) := by
    simp only [ioReadByte, ioReg_cntL ch hk]
  constructor
  · exact memRead_half_io hio h (by omega) (hread (k := 0) (by decide)) (hread (k := 1) (by decide))
  · have hlow := ioWriteByte_cntL (k := 0) ch s startDma (by decide) (byteAt v 0)
    rw [Nat.add_zero] at hlow
    rw [store_half_io hio h (by omega), hlow, andThen_next, ioWriteByte_cntL (k := 1) ch _ _ (by decide),
      setDma_get_same, setDma_setDma, masked_half_bytes]

/-- CNT_H reads its bits back (R450). -/
theorem cntH_read (hio : isIo a = true) (h : a.toNat % 0x400 = 0xB0 + 12 * ch.val + 10) :
    memRead .half a s = (s.dma[ch].cntH.setWidth 32, s) := by
  have hread {k : Nat} (hk : k < 2) :
      ioReadByte (BitVec.ofNat 10 (0xB0 + 12 * ch.val + 10 + k)) s = (byteAt s.dma[ch].cntH k, s) := by
    simp only [ioReadByte, ioReg_cntH ch hk]
  rw [memRead_half_io hio h (by omega) (hread (k := 0) (by decide)) (hread (k := 1) (by decide)), bytes_append]

/-- The implemented bits of CNT_H include enable and timing (R450). -/
theorem dmaEnabled_masked (c : Half) : dmaEnabled (c &&& cntHMask ch) = c.getLsbD 15 := by
  have hmask : (cntHMask ch).getLsbD 15 = true := by
    revert ch
    decide
  rw [dmaEnabled, BitVec.getLsbD_and, hmask, Bool.and_true]

theorem dmaTiming_masked (c : Half) : dmaTiming (c &&& cntHMask ch) = c.extractLsb' 12 2 := by
  have hmask : (cntHMask ch).extractLsb' 12 2 = BitVec.allOnes 2 := by
    revert ch
    decide
  rw [dmaTiming, BitVec.extractLsb'_and, hmask, BitVec.and_allOnes]

/-- A channel at the enable edge, control value `c`: the latches take SAD and DAD (R452). -/
def armedChannel (d : DmaChannel) (c : BitVec 16) : DmaChannel :=
  { d with cntH := c, isrc := d.sad, idst := d.dad }

/-- The high byte of CNT_H, after the low one (R452). -/
theorem writeCntHigh_afterLow (d : DmaChannel) :
    writeCntHigh run ch (byteAt v 1)
        (setDma ch { d with cntH := withByte d.cntH 0 (byteAt v 0) &&& cntHMask ch } s) =
      let c := v.setWidth 16 &&& cntHMask ch
      if d.cntH.getLsbD 15 = false ∧ v.getLsbD 15 = true then
        if v.extractLsb' 12 2 = 0 then run ch (setDma ch (armedChannel d c) s)
        else .next (setDma ch (armedChannel d c) s)
      else .next (setDma ch { d with cntH := c } s) := by
  have hold : dmaEnabled (withByte d.cntH 0 (byteAt v 0) &&& cntHMask ch) = d.cntH.getLsbD 15 := by
    rw [dmaEnabled_masked, getLsbD_withByte_byteAt _ _ _ (by decide)]
    rfl
  have hnew : dmaEnabled (v.setWidth 16 &&& cntHMask ch) = v.getLsbD 15 := by
    rw [dmaEnabled_masked, BitVec.getLsbD_setWidth]
    rfl
  have htiming : dmaTiming (v.setWidth 16 &&& cntHMask ch) = v.extractLsb' 12 2 := by
    rw [dmaTiming_masked, BitVec.extractLsb'_setWidth_of_le (by decide)]
  simp only [writeCntHigh, setDma_get_same, setDma_setDma, masked_half_bytes, latchDma_setDma, hold, hnew, htiming,
    Bool.and_eq_true, Bool.not_eq_true', armedChannel]

/-- A halfword store to CNT_H stores its bits; on the enable edge it latches the addresses, and with Immediate timing
starts the transfer (R450, R452). -/
theorem cntH_store (hio : isIo a = true) (h : a.toNat % 0x400 = 0xB0 + 12 * ch.val + 10) :
    store .half a v s =
      let c := v.setWidth 16 &&& cntHMask ch
      if s.dma[ch].cntH.getLsbD 15 = false ∧ v.getLsbD 15 = true then
        if v.extractLsb' 12 2 = 0 then startDma ch (setDma ch (armedChannel s.dma[ch] c) s)
        else .next (setDma ch (armedChannel s.dma[ch] c) s)
      else .next (setDma ch { s.dma[ch] with cntH := c } s) := by
  have hlow : ioWriteByte startDma (BitVec.ofNat 10 (0xB0 + 12 * ch.val + 10)) (byteAt v 0) s =
      .next (setDma ch { s.dma[ch] with cntH := withByte s.dma[ch].cntH 0 (byteAt v 0) &&& cntHMask ch } s) := by
    simp only [ioWriteByte, show ioReg _ = _ from ioReg_cntH ch (k := 0) (by decide), if_true]
  have hhigh (u : State) : ioWriteByte startDma (BitVec.ofNat 10 (0xB0 + 12 * ch.val + 10 + 1)) (byteAt v 1) u =
      writeCntHigh startDma ch (byteAt v 1) u := by
    simp only [ioWriteByte, ioReg_cntH ch (k := 1) (by decide), one_ne_zero, if_false]
  rw [store_half_io hio h (by omega), hlow, andThen_next, hhigh]
  exact writeCntHigh_afterLow ch v s startDma s.dma[ch]

end

/-- Settles O58: each register's accesses; the three ways of CNT_H are the branches of `cntH_store`. -/
theorem dmaRegisters : Obligations.DmaRegisters := by
  intro s ch a v hio
  refine ⟨sad_access ch v s hio, dad_access ch v s hio, cntL_access ch v s hio, fun h => ?_⟩
  have hstore := cntH_store ch v s hio h
  refine ⟨cntH_read ch s hio h, fun hedge => ?_, fun hold hnew htiming => ?_, fun hold hnew htiming => ?_⟩
  · have hno : ¬ (s.dma[ch].cntH.getLsbD 15 = false ∧ v.getLsbD 15 = true) := by
      rintro ⟨hold, hnew⟩
      rcases hedge with h | h
      · exact Bool.false_ne_true (hold.symm.trans h)
      · exact Bool.false_ne_true (h.symm.trans hnew)
    exact hstore.trans (if_neg hno)
  · exact hstore.trans ((if_pos ⟨hold, hnew⟩).trans (if_neg htiming))
  · exact hstore.trans ((if_pos ⟨hold, hnew⟩).trans (if_pos htiming))

end Sys2Proof.Proofs

/-! The round trips (O1, O2): a word is the concatenation of its fields; the decoder's line fixes the bits that are in
no field. -/

namespace Sys2Proof.Proofs

open Sys2Proof.Machine Sys2Proof.Laws


/-- `x` is the field of `w` whose lowest bit is `lo`. -/
def Fits {n k : Nat} (x : BitVec n) (w : BitVec k) (lo : Nat) : Prop :=
  x = fld w lo n

section
variable {n m k : Nat} {w : BitVec k} {lo : Nat}

theorem fits_self {x : BitVec k} : Fits x w 0 ↔ x = w := by
  rw [Fits, fld_self]

/-- A concatenation fits where each of its parts does. (The simp set leaves `Nat.reduceAdd` out where this is used: the
width of a concatenation must stay a sum.) -/
@[simp] theorem fits_append {x : BitVec n} {y : BitVec m} :
    Fits (x ++ y) w lo ↔ Fits x w (lo + m) ∧ Fits y w lo := by
  have hcut : fld w lo (n + m) = fld w (lo + m) n ++ fld w lo m := by
    apply BitVec.eq_of_getLsbD_eq
    intro i hi
    simp only [fld, BitVec.getLsbD_append, BitVec.getLsbD_extractLsb']
    by_cases hm : i < m
    · simp [hm, hi]
    · simp [hm, hi, show i - m < n by omega, show lo + m + (i - m) = lo + i by omega]
  rw [Fits, hcut, append_inj, Fits, Fits]

@[simp] theorem fits_fld : Fits (fld w lo n) w lo :=
  rfl

@[simp] theorem fits_one_bit : Fits (one (bit w lo)) w lo := by
  rw [Fits, bit_eq, fld_bit, one]

@[simp] theorem fits_condOf : Fits (condOf (fld w lo 4)).bits w lo := by
  rw [Fits]
  generalize fld w lo 4 = b
  revert b
  decide

@[simp] theorem fits_shiftOf : Fits (shiftOf (fld w lo 2)).bits w lo := by
  rw [Fits]
  generalize fld w lo 2 = b
  revert b
  decide

/-- The bits a mask test fixes. -/
theorem fits_of_hits {mask value : Nat} (h : hits w mask value = true) {x : BitVec n}
    (hm : fld (BitVec.ofNat k mask) lo n = BitVec.allOnes n) (hx : fld (BitVec.ofNat k value) lo n = x) :
    Fits x w lo := by
  rw [Fits, fld_of_hits w mask value lo n h hm, hx]

/-- Two mask tests as one. -/
theorem hits_or {m₁ v₁ m₂ v₂ : Nat} (h₁ : hits w m₁ v₁ = true) (h₂ : hits w m₂ v₂ = true) :
    hits w (m₁ ||| m₂) (v₁ ||| v₂) = true := by
  simp only [hits, beq_iff_eq, BitVec.ofNat_or] at *
  rw [BitVec.and_or_distrib_left, h₁, h₂]

/-- A bit as a mask test. -/
theorem hits_of_bit {i : Nat} {b : Bool} (h : bit w i = b) : hits w (2 ^ i) (if b then 2 ^ i else 0) = true := by
  have hpow : BitVec.ofNat k (2 ^ i) = BitVec.twoPow k i :=
    BitVec.eq_of_toNat_eq (by rw [BitVec.toNat_twoPow, BitVec.toNat_ofNat])
  rw [bit_eq] at h
  rw [hits, beq_iff_eq, hpow, BitVec.and_twoPow, h]
  cases b
  · rfl
  · exact hpow.symm

theorem hits_and_bit {mask value i : Nat} {b : Bool} (h : hits w mask value = true) (hb : bit w i = b) :
    hits w (mask ||| 2 ^ i) (value ||| if b then 2 ^ i else 0) = true :=
  hits_or h (hits_of_bit hb)

end

/-- `i` is well formed and is encoded by `code`. -/
structure Encodes (i : Instr) (code : Code) : Prop where
  wf : i.wf = true
  encode : encode i = code

theorem Encodes.arm {i : Instr} {x w : Word} (hwf : i.wf = true) (hi : Sys2Proof.encode i = .arm x) (hx : Fits x w 0) :
    Encodes i (.arm w) :=
  ⟨hwf, hi.trans (congrArg _ (fits_self.mp hx))⟩

theorem Encodes.thumb {i : Instr} {x h : Half} (hwf : i.wf = true) (hi : Sys2Proof.encode i = .thumb x)
    (hx : Fits x h 0) : Encodes i (.thumb h) :=
  ⟨hwf, hi.trans (congrArg _ (fits_self.mp hx))⟩

/-- What a word on a line of R145 satisfies: the line's match, and of the matches before it those its instructions rest
on. -/
def armLineAccepts (w : Word) : ArmLine → Bool
  | .bx => hits w 0x0FFFFFF0 0x012FFF10
  | .mul => hits w 0x0FC000F0 0x00000090
  | .mull => hits w 0x0F8000F0 0x00800090
  | .swp => hits w 0x0FB00FF0 0x01000090
  | .half => hits w 0x0E000090 0x00000090 && !hits w 0x00000060 0
  | .mulSwapSpace => inMulSwapSpace w
  | .mrs => hits w 0x0FBF0FFF 0x010F0000
  | .msrReg => hits w 0x0FB0FFF0 0x0120F000
  | .msrImm => hits w 0x0FB0F000 0x0320F000
  | .psrSpace => inPsrSpace w
  | .dataProc => hits w 0x0C000000 0x00000000 && !hits w 0x0E000090 0x00000090 && !hits w 0x0D900000 0x01000000
  | .undef => hits w 0x0E000010 0x06000010
  | .single => hits w 0x0C000000 0x04000000 && !hits w 0x0E000010 0x06000010
  | .block => hits w 0x0E000000 0x08000000
  | .branch => hits w 0x0E000000 0x0A000000
  | .coproc => !hits w 0x0F000000 0x0F000000 && hits w 0x0C000000 0x0C000000
  | .swi => hits w 0x0F000000 0x0F000000

/-- Bits 7 and 4 set in the space 000: a halfword transfer or the space of line 6. -/
theorem not_hits_of_not_half {w : Word} (hhalf : ¬(hits w 0x0E000090 0x00000090 && !hits w 0x00000060 0) = true)
    (hspace : ¬hits w 0x0E0000F0 0x00000090 = true) : hits w 0x0E000090 0x00000090 = false := by
  rw [Bool.eq_false_iff]
  intro h
  have hsh : hits w 0x00000060 0 = true := by simpa [h] using hhalf
  exact hspace (hits_or h hsh)

/-- Bits 27..24 leave a word to one of the last lines. -/
theorem late_armLine (w : Word) :
    (hits w 0x0C000000 0x00000000 || hits w 0x0C000000 0x04000000 || hits w 0x0E000000 0x08000000
      || hits w 0x0E000000 0x0A000000 || (!hits w 0x0F000000 0x0F000000 && hits w 0x0C000000 0x0C000000)
      || hits w 0x0F000000 0x0F000000) = true := by
  rw [← fld_split (n := 8) (m := 24) w]
  generalize fld w 24 8 = x
  simp only [hits_append, Nat.reducePow, Nat.reduceMod, Nat.reduceDiv, hits_none, beq_self_eq_true, Bool.true_and]
  revert x
  decide

theorem armLine_accepts (w : Word) : armLineAccepts w (armLine w) = true := by
  fun_cases armLine w <;> simp only [armLineAccepts, inMulSwapSpace, inPsrSpace]
  case case6 hmul hmull hswp _ h => simp only [h, hmul, hmull, hswp, Bool.not_false, Bool.and_self]
  case case10 hbx _ _ _ hhalf hspace hmrs hreg himm h =>
    simp only [h, hbx, not_hits_of_not_half hhalf hspace, hmrs, hreg, himm, Bool.not_false, Bool.and_self]
  case case11 hhalf hspace _ _ _ hpsr h =>
    simp only [h, not_hits_of_not_half hhalf hspace, hpsr, Bool.not_false, Bool.and_self]
  case case13 hund h => simp only [h, hund, Bool.not_false, Bool.and_self]
  case case17 hdata _ hsingle hblock hbranch hcop =>
    simpa only [hdata, hsingle, hblock, hbranch, hcop, Bool.false_or] using late_armLine w
  all_goals assumption

section
variable {w : Word}

/-- A condition and the other 28 bits. -/
theorem cond_append_rest (w : Word) : (condOf (fld w 28 4)).bits ++ fld w 0 28 = w :=
  fits_self.mp (by simp [-Nat.reduceAdd])

/-- An instruction that keeps the whole word, its condition apart, where its space `p` holds of the word. -/
theorem Encodes.rest {i : Instr} (p : Word → Bool) (hwf : i.wf = p ((condOf (fld w 28 4)).bits ++ fld w 0 28))
    (hi : Sys2Proof.encode i = .arm ((condOf (fld w 28 4)).bits ++ fld w 0 28)) (h : p w = true) :
    Encodes i (.arm w) := by
  rw [cond_append_rest] at hwf hi
  exact ⟨hwf.trans h, hi⟩

theorem encodes_decodeMul (h : hits w 0x0FC000F0 0x00000090 = true) :
    Encodes (decodeMul (condOf (fld w 28 4)) w) (.arm w) := by
  unfold decodeMul
  cases ha : bit w 21 <;>
    exact .arm rfl rfl (by simp (disch := decide) [-Nat.reduceAdd, fits_of_hits (hits_and_bit h ha)])

theorem encodes_decodeMull (h : hits w 0x0F8000F0 0x00800090 = true) :
    Encodes (decodeMull (condOf (fld w 28 4)) w) (.arm w) := by
  unfold decodeMull
  cases hs : bit w 22 <;> cases ha : bit w 21 <;>
    exact .arm rfl rfl (by
      simp (disch := decide) [-Nat.reduceAdd, encodeMull, fits_of_hits (hits_and_bit (hits_and_bit h hs) ha)])

theorem encodes_decodeSwp (h : hits w 0x0FB00FF0 0x01000090 = true) :
    Encodes (decodeSwp (condOf (fld w 28 4)) w) (.arm w) := by
  unfold decodeSwp
  cases hb : bit w 22 <;>
    exact .arm rfl rfl (by simp (disch := decide) [-Nat.reduceAdd, fits_of_hits (hits_and_bit h hb)])

@[simp] theorem decodeHalfOffset_immBit : (decodeHalfOffset w).immBit = one (bit w 22) := by
  unfold decodeHalfOffset
  cases bit w 22 <;> rfl

@[simp] theorem decodeHalfOffset_high : (decodeHalfOffset w).high = fld w 8 4 := by
  unfold decodeHalfOffset
  cases bit w 22
  · rfl
  · exact (extract_high _ _ 4 4 (by decide)).trans (extract_self _)

@[simp] theorem decodeHalfOffset_low : (decodeHalfOffset w).low = fld w 0 4 := by
  unfold decodeHalfOffset
  cases bit w 22
  · rfl
  · exact (extract_low _ _ 0 4 (by decide)).trans (extract_self _)

/-- SH is not 00 on line 5. -/
theorem bit5_of_bit6 (hsh : hits w 0x00000060 0 = false) (h6 : bit w 6 = false) : bit w 5 = true := by
  by_contra h5
  exact Bool.false_ne_true (hsh.symm.trans (hits_or (hits_of_bit h6) (hits_of_bit (eq_false_of_ne_true h5))))

theorem encodes_decodeHalf (h : hits w 0x0E000090 0x00000090 = true) (hsh : hits w 0x00000060 0 = false) :
    Encodes (decodeHalf (condOf (fld w 28 4)) w) (.arm w) := by
  unfold decodeHalf
  cases hl : bit w 20 <;> cases h6 : bit w 6 <;> cases h5 : bit w 5
  all_goals have hfixed := hits_and_bit (hits_and_bit (hits_and_bit h hl) h6) h5
  case false.true.false | false.true.true =>
    exact .rest (hits · _ _) rfl rfl hfixed
  case false.false.false | true.false.false =>
    exact absurd (h5.symm.trans (bit5_of_bit6 hsh h6)) Bool.false_ne_true
  all_goals
    exact .arm rfl rfl (by simp (disch := decide) [-Nat.reduceAdd, encodeHalf, decodeIndex, fits_of_hits hfixed])

@[simp] theorem decodeOperand2_iBit : (decodeOperand2 w).iBit = one (bit w 25) := by
  unfold decodeOperand2
  cases bit w 25
  · cases bit w 4 <;> rfl
  · rfl

/-- Operand 2 with bits 7 and 4 both set is a word of lines 2 to 6. -/
theorem fits_decodeOperand2 (h : hits w 0x0C000000 0x00000000 = true) (hhalf : hits w 0x0E000090 0x00000090 = false) :
    Fits (decodeOperand2 w).bits w 0 := by
  unfold decodeOperand2
  cases h25 : bit w 25
  · cases h4 : bit w 4
    · simp (disch := decide) [-Nat.reduceAdd, Operand2.bits, fits_of_hits (hits_of_bit h4)]
    · have h7 : bit w 7 = false := by
        by_contra h7
        exact Bool.false_ne_true (hhalf.symm.trans
          (hits_and_bit (hits_and_bit (hits_and_bit h h25) h4) (eq_true_of_ne_false h7)))
      simp (disch := decide) [-Nat.reduceAdd, Operand2.bits, fits_of_hits (hits_and_bit (hits_of_bit h4) h7)]
  · simp [-Nat.reduceAdd, Operand2.bits]

theorem bit_fld {n : Nat} {x : BitVec n} {lo len i : Nat} (hi : i < len) : bit (fld x lo len) i = bit x (lo + i) := by
  simp only [bit_eq, fld, BitVec.getLsbD_extractLsb', hi, decide_true, Bool.true_and]

theorem exists_eq_ofNat (op : BitVec 4) : ∃ k < 16, op = BitVec.ofNat 4 k :=
  ⟨op.toNat, op.isLt, BitVec.eq_of_toNat_eq (by simp)⟩

/-- A word whose comparisons (opcodes 10xx) have S = 1 is re-encoded opcode for opcode. -/
theorem encode_decodeDataProc (c : Cond)
    (hs : (fld w 21 4).getLsbD 3 = true → (fld w 21 4).getLsbD 2 = false → bit w 20 = true) :
    (decodeDataProc c w).wf = true ∧ encode (decodeDataProc c w) =
      .arm (encodeDataProc c (fld w 21 4) (bit w 20) (fld w 16 4) (fld w 12 4) (decodeOperand2 w)) := by
  unfold decodeDataProc
  generalize fld w 21 4 = op at *
  generalize bit w 20 = sf at *
  obtain ⟨k, hk, rfl⟩ := exists_eq_ofNat op
  cases sf with
  | true => interval_cases k <;> exact ⟨rfl, rfl⟩
  | false =>
    have hwrites : k < 8 ∨ 12 ≤ k := by
      by_contra hcompares
      obtain ⟨hlow, hhigh⟩ : 8 ≤ k ∧ k < 12 := by omega
      interval_cases k <;> exact absurd (hs (by decide) (by decide)) Bool.false_ne_true
    rcases hwrites with hlow | hhigh <;> interval_cases k <;> exact ⟨rfl, rfl⟩

theorem encodes_decodeDataProc (h : hits w 0x0C000000 0x00000000 = true)
    (hhalf : hits w 0x0E000090 0x00000090 = false) (hpsr : hits w 0x0D900000 0x01000000 = false) :
    Encodes (decodeDataProc (condOf (fld w 28 4)) w) (.arm w) := by
  obtain ⟨hwf, henc⟩ := encode_decodeDataProc (w := w) (condOf (fld w 28 4)) fun h24 h23 => by
    rw [← bit_eq, bit_fld (by decide)] at h24 h23
    by_contra h20
    exact Bool.false_ne_true (hpsr.symm.trans
      (hits_and_bit (hits_and_bit (hits_and_bit h h24) h23) (eq_false_of_ne_true h20)))
  exact .arm hwf henc (by
    simp (disch := decide) [-Nat.reduceAdd, encodeDataProc, fits_decodeOperand2 h hhalf, fits_of_hits h])

@[simp] theorem decodeOffset_iBit : (decodeOffset w).iBit = one (bit w 25) := by
  unfold decodeOffset
  cases bit w 25 <;> rfl

/-- A register offset with bit 4 set is a word of line 10. -/
theorem fits_decodeOffset (h : hits w 0x0C000000 0x04000000 = true) (hund : hits w 0x0E000010 0x06000010 = false) :
    Fits (decodeOffset w).bits w 0 := by
  unfold decodeOffset
  cases h25 : bit w 25
  · exact fits_fld
  · have h4 : bit w 4 = false := by
      by_contra h4
      exact Bool.false_ne_true (hund.symm.trans (hits_and_bit (hits_and_bit h h25) (eq_true_of_ne_false h4)))
    simp (disch := decide) [-Nat.reduceAdd, Offset.bits, fits_of_hits (hits_of_bit h4)]

theorem encodes_decodeSingle (h : hits w 0x0C000000 0x04000000 = true) (hund : hits w 0x0E000010 0x06000010 = false) :
    Encodes (decodeSingle (condOf (fld w 28 4)) w) (.arm w) := by
  have hoff := fits_decodeOffset h hund
  cases ht : (decodeIndex w).notT <;> simp only [decodeSingle, ht, Bool.false_eq_true, if_false, if_true]
  · obtain ⟨h24, h21⟩ : bit w 24 = false ∧ bit w 21 = true := by simpa [Index.notT, decodeIndex] using ht
    cases hl : bit w 20 <;> cases hb : bit w 22 <;>
      have hfixed := hits_and_bit (hits_and_bit (hits_and_bit (hits_and_bit h h24) h21) hl) hb <;>
      exact .arm rfl rfl (by
        simp (disch := decide) [-Nat.reduceAdd, encodeSingle, decodeIndex, hoff, fits_of_hits hfixed])
  · cases hl : bit w 20 <;> cases hb : bit w 22 <;>
      have hfixed := hits_and_bit (hits_and_bit h hl) hb <;>
      exact .arm ht rfl (by
        simp (disch := decide) [-Nat.reduceAdd, encodeSingle, decodeIndex, hoff, fits_of_hits hfixed])

theorem encodes_decodeBlock (h : hits w 0x0E000000 0x08000000 = true) :
    Encodes (decodeBlock (condOf (fld w 28 4)) w) (.arm w) := by
  have hpc : (fld w 0 16).getLsbD 15 = bit w 15 := by rw [← bit_eq, bit_fld (by decide)]
  unfold decodeBlock
  cases hl : bit w 20 <;> cases hs : bit w 22
  all_goals have hfixed := hits_and_bit (hits_and_bit h hl) hs
  case true.true =>
    cases h15 : bit w 15
    · exact .arm (congrArg not (hpc.trans h15)) rfl (by
        simp (disch := decide) [-Nat.reduceAdd, encodeBlock, decodeIndex, fits_of_hits hfixed])
    · exact .arm (hpc.trans h15) rfl (by
        simp (disch := decide) [-Nat.reduceAdd, encodeBlock, decodeIndex, fits_of_hits hfixed])
  all_goals
    exact .arm rfl rfl (by simp (disch := decide) [-Nat.reduceAdd, encodeBlock, decodeIndex, fits_of_hits hfixed])

/-- On line 14, a data or register operation (bit 25) has bit 24 clear. -/
theorem encodes_decodeCoproc (h : hits w 0x0C000000 0x0C000000 = true) (hswi : hits w 0x0F000000 0x0F000000 = false) :
    Encodes (decodeCoproc (condOf (fld w 28 4)) w) (.arm w) := by
  unfold decodeCoproc
  cases h25 : bit w 25
  · cases hl : bit w 20 <;>
      exact .arm rfl rfl (by
        simp (disch := decide) [-Nat.reduceAdd, fits_of_hits (hits_and_bit (hits_and_bit h h25) hl)])
  · have h24 : bit w 24 = false := by
      by_contra h24
      exact Bool.false_ne_true (hswi.symm.trans (hits_and_bit (hits_and_bit h h25) (eq_true_of_ne_false h24)))
    have hcop := hits_and_bit (hits_and_bit h h25) h24
    cases h4 : bit w 4
    · exact .arm rfl rfl (by simp (disch := decide) [-Nat.reduceAdd, fits_of_hits (hits_and_bit hcop h4)])
    · cases hl : bit w 20 <;>
        exact .arm rfl rfl (by
          simp (disch := decide) [-Nat.reduceAdd, fits_of_hits (hits_and_bit (hits_and_bit hcop h4) hl)])

end

theorem encodes_decodeArm (w : Word) : Encodes (decodeArm w) (.arm w) := by
  have hacc := armLine_accepts w
  unfold decodeArm
  cases hline : armLine w <;>
    simp only [hline, armLineAccepts, Bool.and_eq_true, Bool.not_eq_true'] at hacc ⊢
  case mul => exact encodes_decodeMul hacc
  case mull => exact encodes_decodeMull hacc
  case swp => exact encodes_decodeSwp hacc
  case half => exact encodes_decodeHalf hacc.1 hacc.2
  case mulSwapSpace => exact .rest inMulSwapSpace rfl rfl hacc
  case psrSpace => exact .rest inPsrSpace rfl rfl hacc
  case dataProc =>
    obtain ⟨⟨hdata, hhalf⟩, hpsr⟩ := hacc
    exact encodes_decodeDataProc hdata hhalf hpsr
  case undef => exact .rest (hits · _ _) rfl rfl hacc
  case single => exact encodes_decodeSingle hacc.1 hacc.2
  case block => exact encodes_decodeBlock hacc
  case branch =>
    cases hl : bit w 24 <;>
      exact .arm rfl rfl (by simp (disch := decide) [-Nat.reduceAdd, fits_of_hits (hits_and_bit hacc hl)])
  case coproc => exact encodes_decodeCoproc hacc.2 hacc.1
  case bx | mrs | msrReg | msrImm | swi =>
    exact .arm rfl rfl (by simp (disch := decide) [-Nat.reduceAdd, fits_of_hits hacc])

/-- What a halfword in a row of R146 satisfies: the row's match, and of the matches before it those its instructions
rest on. -/
def thumbLineAccepts (h : Half) : ThumbLine → Bool
  | .f2 => hits h 0xF800 0x1800
  | .f1 => hits h 0xE000 0x0000 && !hits h 0xF800 0x1800
  | .f3 => hits h 0xE000 0x2000
  | .f4 => hits h 0xFC00 0x4000
  | .f5 => hits h 0xFC00 0x4400
  | .f6 => hits h 0xF800 0x4800
  | .f7 => hits h 0xF200 0x5000
  | .f8 => hits h 0xF200 0x5200
  | .f9 => hits h 0xE000 0x6000
  | .f10 => hits h 0xF000 0x8000
  | .f11 => hits h 0xF000 0x9000
  | .f12 => hits h 0xF000 0xA000
  | .f13 => hits h 0xFF00 0xB000
  | .f14 => hits h 0xF600 0xB400
  | .und1011 => hits h 0xF000 0xB000 && !hits h 0xFF00 0xB000 && !hits h 0xF600 0xB400
  | .f15 => hits h 0xF000 0xC000
  | .f17 => hits h 0xFF00 0xDF00
  | .undCond => hits h 0xFF00 0xDE00
  | .f16 => hits h 0xF000 0xD000 && !hits h 0xFF00 0xDF00 && !hits h 0xFF00 0xDE00
  | .f18 => hits h 0xF800 0xE000
  | .und11101 => hits h 0xF800 0xE800
  | .f19 => hits h 0xF000 0xF000

/-- Bits 15..9 put a halfword in one of the rows. -/
theorem some_thumbLine (h : Half) :
    (hits h 0xE000 0x0000 || hits h 0xE000 0x2000 || hits h 0xFC00 0x4000 || hits h 0xFC00 0x4400
      || hits h 0xF800 0x4800 || hits h 0xF200 0x5000 || hits h 0xF200 0x5200 || hits h 0xE000 0x6000
      || hits h 0xF000 0x8000 || hits h 0xF000 0x9000 || hits h 0xF000 0xA000 || hits h 0xF000 0xB000
      || hits h 0xF000 0xC000 || hits h 0xF000 0xD000 || hits h 0xF800 0xE000 || hits h 0xF800 0xE800
      || hits h 0xF000 0xF000) = true := by
  rw [← fld_split (n := 7) (m := 9) h]
  generalize fld h 9 7 = x
  simp only [hits_append, Nat.reducePow, Nat.reduceMod, Nat.reduceDiv, hits_none, beq_self_eq_true, Bool.true_and]
  revert x
  decide

theorem thumbLine_accepts (h : Half) : thumbLineAccepts h (thumbLine h) = true := by
  fun_cases thumbLine h <;> simp only [thumbLineAccepts]
  case case2 h2 h1 => simp only [h1, h2, Bool.not_false, Bool.and_self]
  case case15 h13 h14 hund => simp only [hund, h13, h14, Bool.not_false, Bool.and_self]
  case case19 h17 hcond h16 => simp only [h16, h17, hcond, Bool.not_false, Bool.and_self]
  case case22 h1 h3 h4 h5 h6 h7 h8 h9 h10 h11 h12 _ _ hund h15 _ _ h16 h18 hund' =>
    simpa only [h1, h3, h4, h5, h6, h7, h8, h9, h10, h11, h12, hund, h15, h16, h18, hund', Bool.false_or] using
      some_thumbLine h
  all_goals assumption

section
variable {h : Half}

theorem encode_decodeF4 :
    (decodeF4 h).wf = true ∧ encode (decodeF4 h) = .thumb (encodeF4 (fld h 6 4) (fld h 3 3) (fld h 0 3)) := by
  unfold decodeF4
  generalize fld h 6 4 = op
  obtain ⟨k, hk, rfl⟩ := exists_eq_ofNat op
  interval_cases k <;> exact ⟨rfl, rfl⟩

theorem encodes_decodeF4 (hh : hits h 0xFC00 0x4000 = true) : Encodes (decodeF4 h) (.thumb h) := by
  obtain ⟨hwf, henc⟩ := encode_decodeF4 (h := h)
  exact .thumb hwf henc (by simp (disch := decide) [-Nat.reduceAdd, encodeF4, fits_of_hits hh])

theorem encodes_decodeF5 (hh : hits h 0xFC00 0x4400 = true) : Encodes (decodeF5 h) (.thumb h) := by
  unfold decodeF5
  cases h9 : bit h 9 <;> cases h8 : bit h 8 <;>
    exact .thumb rfl rfl (by
      simp (disch := decide) only [encodeF5, extract_high, extract_low, extract_self, Nat.sub_self]
      simp (disch := decide) [-Nat.reduceAdd, fits_of_hits (hits_and_bit (hits_and_bit hh h9) h8)])

theorem encodes_tUnd1011 (hh : hits h 0xF000 0xB000 = true) (h13 : hits h 0xFF00 0xB000 = false)
    (h14 : hits h 0xF600 0xB400 = false) : Encodes (.tUnd1011 (fld h 0 12)) (.thumb h) := by
  have hrest : 0xB#4 ++ fld h 0 12 = h := fits_self.mp (by simp (disch := decide) [-Nat.reduceAdd, fits_of_hits hh])
  refine ⟨?_, congrArg Code.thumb hrest⟩
  rw [Instr.wf, hrest, h13, h14]
  rfl

/-- Conditions 1110 and 1111 are rows of their own. -/
theorem cond_of_f16 (hh : hits h 0xF000 0xD000 = true) (h17 : hits h 0xFF00 0xDF00 = false)
    (hund : hits h 0xFF00 0xDE00 = false) : (condOf (fld h 8 4) != .al && condOf (fld h 8 4) != .nv) = true := by
  rw [← fld_split (n := 8) (m := 8) h] at *
  generalize fld h 8 8 = x at *
  simp only [hits_append, Nat.reducePow, Nat.reduceMod, Nat.reduceDiv, hits_none, beq_self_eq_true, Bool.true_and] at *
  rw [fld_append_high _ _ _ _ (by decide)]
  revert x
  decide

theorem encodes_tBCond (hh : hits h 0xF000 0xD000 = true) (h17 : hits h 0xFF00 0xDF00 = false)
    (hund : hits h 0xFF00 0xDE00 = false) : Encodes (.tBCond (condOf (fld h 8 4)) (fld h 0 8)) (.thumb h) :=
  .thumb (cond_of_f16 hh h17 hund) rfl (by simp (disch := decide) [-Nat.reduceAdd, fits_of_hits hh])

end

theorem encodes_decodeThumb (h : Half) : Encodes (decodeThumb h) (.thumb h) := by
  have hacc := thumbLine_accepts h
  unfold decodeThumb
  cases hline : thumbLine h <;>
    simp only [hline, thumbLineAccepts, Bool.and_eq_true, Bool.not_eq_true'] at hacc ⊢
  case f4 => exact encodes_decodeF4 hacc
  case f5 => exact encodes_decodeF5 hacc
  case und1011 =>
    obtain ⟨⟨hh, h13⟩, h14⟩ := hacc
    exact encodes_tUnd1011 hh h13 h14
  case f16 =>
    obtain ⟨⟨hh, h17⟩, hund⟩ := hacc
    exact encodes_tBCond hh h17 hund
  case f2 =>
    cases h10 : bit h 10 <;> cases h9 : bit h 9 <;>
      exact .thumb rfl rfl (by
        simp (disch := decide) [-Nat.reduceAdd, fits_of_hits (hits_and_bit (hits_and_bit hacc h10) h9)])
  case f1 =>
    obtain ⟨hh, h2⟩ := hacc
    cases h12 : bit h 12 <;> cases h11 : bit h 11
    case true.true =>
      exact absurd (h2.symm.trans (hits_and_bit (hits_and_bit hh h12) h11)) Bool.false_ne_true
    all_goals
      exact .thumb rfl rfl (by
        simp (disch := decide) [-Nat.reduceAdd, fits_of_hits (hits_and_bit (hits_and_bit hh h12) h11)])
  case f3 | f9 =>
    cases h12 : bit h 12 <;> cases h11 : bit h 11 <;>
      exact .thumb rfl rfl (by
        simp (disch := decide) [-Nat.reduceAdd, fits_of_hits (hits_and_bit (hits_and_bit hacc h12) h11)])
  case f7 | f8 =>
    cases h11 : bit h 11 <;> cases h10 : bit h 10 <;>
      exact .thumb rfl rfl (by
        simp (disch := decide) [-Nat.reduceAdd, fits_of_hits (hits_and_bit (hits_and_bit hacc h11) h10)])
  case f10 | f11 | f12 | f14 | f15 | f19 =>
    cases h11 : bit h 11 <;>
      exact .thumb rfl rfl (by simp (disch := decide) [-Nat.reduceAdd, fits_of_hits (hits_and_bit hacc h11)])
  case f6 | f13 | f17 | undCond | f18 | und11101 =>
    exact .thumb rfl rfl (by simp (disch := decide) [-Nat.reduceAdd, fits_of_hits hacc])

/-- The family `RoundTrip` covers every instruction. -/
theorem roundTrip : ∀ i : Instr, RoundTrip.Statement i
  | .bx .. => RoundTrip.bx _ _
  | .mul .. => RoundTrip.mul _ _ _ _ _ _
  | .mla .. => RoundTrip.mla _ _ _ _ _ _
  | .umull .. => RoundTrip.umull _ _ _ _ _ _
  | .umlal .. => RoundTrip.umlal _ _ _ _ _ _
  | .smull .. => RoundTrip.smull _ _ _ _ _ _
  | .smlal .. => RoundTrip.smlal _ _ _ _ _ _
  | .swp .. => RoundTrip.swp _ _ _ _
  | .swpb .. => RoundTrip.swpb _ _ _ _
  | .strh .. => RoundTrip.strh _ _ _ _ _
  | .ldrh .. => RoundTrip.ldrh _ _ _ _ _
  | .ldrsb .. => RoundTrip.ldrsb _ _ _ _ _
  | .ldrsh .. => RoundTrip.ldrsh _ _ _ _ _
  | .undStoreSh10 .. => RoundTrip.undStoreSh10 _ _
  | .undStoreSh11 .. => RoundTrip.undStoreSh11 _ _
  | .undMulSwap .. => RoundTrip.undMulSwap _ _
  | .mrs .. => RoundTrip.mrs _ _ _
  | .msrReg .. => RoundTrip.msrReg _ _ _ _
  | .msrImm .. => RoundTrip.msrImm _ _ _ _ _
  | .undPsr .. => RoundTrip.undPsr _ _
  | .and .. => RoundTrip.and _ _ _ _ _
  | .eor .. => RoundTrip.eor _ _ _ _ _
  | .sub .. => RoundTrip.sub _ _ _ _ _
  | .rsb .. => RoundTrip.rsb _ _ _ _ _
  | .add .. => RoundTrip.add _ _ _ _ _
  | .adc .. => RoundTrip.adc _ _ _ _ _
  | .sbc .. => RoundTrip.sbc _ _ _ _ _
  | .rsc .. => RoundTrip.rsc _ _ _ _ _
  | .tst .. => RoundTrip.tst _ _ _ _
  | .teq .. => RoundTrip.teq _ _ _ _
  | .cmp .. => RoundTrip.cmp _ _ _ _
  | .cmn .. => RoundTrip.cmn _ _ _ _
  | .orr .. => RoundTrip.orr _ _ _ _ _
  | .mov .. => RoundTrip.mov _ _ _ _ _
  | .bic .. => RoundTrip.bic _ _ _ _ _
  | .mvn .. => RoundTrip.mvn _ _ _ _ _
  | .und011 .. => RoundTrip.und011 _ _
  | .strt .. => RoundTrip.strt _ _ _ _ _
  | .ldrt .. => RoundTrip.ldrt _ _ _ _ _
  | .strbt .. => RoundTrip.strbt _ _ _ _ _
  | .ldrbt .. => RoundTrip.ldrbt _ _ _ _ _
  | .str .. => RoundTrip.str _ _ _ _ _
  | .ldr .. => RoundTrip.ldr _ _ _ _ _
  | .strb .. => RoundTrip.strb _ _ _ _ _
  | .ldrb .. => RoundTrip.ldrb _ _ _ _ _
  | .stm .. => RoundTrip.stm _ _ _ _
  | .stmUser .. => RoundTrip.stmUser _ _ _ _
  | .ldm .. => RoundTrip.ldm _ _ _ _
  | .ldmReturn .. => RoundTrip.ldmReturn _ _ _ _
  | .ldmUser .. => RoundTrip.ldmUser _ _ _ _
  | .b .. => RoundTrip.b _ _
  | .bl .. => RoundTrip.bl _ _
  | .ldc .. => RoundTrip.ldc _ _ _ _ _ _
  | .stc .. => RoundTrip.stc _ _ _ _ _ _
  | .cdp .. => RoundTrip.cdp _ _ _ _ _ _ _
  | .mrc .. => RoundTrip.mrc _ _ _ _ _ _ _
  | .mcr .. => RoundTrip.mcr _ _ _ _ _ _ _
  | .swi .. => RoundTrip.swi _ _
  | .tAddReg .. => RoundTrip.tAddReg _ _ _
  | .tSubReg .. => RoundTrip.tSubReg _ _ _
  | .tAddImm3 .. => RoundTrip.tAddImm3 _ _ _
  | .tSubImm3 .. => RoundTrip.tSubImm3 _ _ _
  | .tLslImm .. => RoundTrip.tLslImm _ _ _
  | .tLsrImm .. => RoundTrip.tLsrImm _ _ _
  | .tAsrImm .. => RoundTrip.tAsrImm _ _ _
  | .tMovImm8 .. => RoundTrip.tMovImm8 _ _
  | .tCmpImm8 .. => RoundTrip.tCmpImm8 _ _
  | .tAddImm8 .. => RoundTrip.tAddImm8 _ _
  | .tSubImm8 .. => RoundTrip.tSubImm8 _ _
  | .tAnd .. => RoundTrip.tAnd _ _
  | .tEor .. => RoundTrip.tEor _ _
  | .tLslReg .. => RoundTrip.tLslReg _ _
  | .tLsrReg .. => RoundTrip.tLsrReg _ _
  | .tAsrReg .. => RoundTrip.tAsrReg _ _
  | .tAdc .. => RoundTrip.tAdc _ _
  | .tSbc .. => RoundTrip.tSbc _ _
  | .tRorReg .. => RoundTrip.tRorReg _ _
  | .tTst .. => RoundTrip.tTst _ _
  | .tNeg .. => RoundTrip.tNeg _ _
  | .tCmpReg .. => RoundTrip.tCmpReg _ _
  | .tCmn .. => RoundTrip.tCmn _ _
  | .tOrr .. => RoundTrip.tOrr _ _
  | .tMul .. => RoundTrip.tMul _ _
  | .tBic .. => RoundTrip.tBic _ _
  | .tMvn .. => RoundTrip.tMvn _ _
  | .tAddHi .. => RoundTrip.tAddHi _ _
  | .tCmpHi .. => RoundTrip.tCmpHi _ _
  | .tMovHi .. => RoundTrip.tMovHi _ _
  | .tBx .. => RoundTrip.tBx _ _
  | .tLdrPc .. => RoundTrip.tLdrPc _ _
  | .tStrReg .. => RoundTrip.tStrReg _ _ _
  | .tStrbReg .. => RoundTrip.tStrbReg _ _ _
  | .tLdrReg .. => RoundTrip.tLdrReg _ _ _
  | .tLdrbReg .. => RoundTrip.tLdrbReg _ _ _
  | .tStrhReg .. => RoundTrip.tStrhReg _ _ _
  | .tLdsb .. => RoundTrip.tLdsb _ _ _
  | .tLdrhReg .. => RoundTrip.tLdrhReg _ _ _
  | .tLdsh .. => RoundTrip.tLdsh _ _ _
  | .tStrImm .. => RoundTrip.tStrImm _ _ _
  | .tLdrImm .. => RoundTrip.tLdrImm _ _ _
  | .tStrbImm .. => RoundTrip.tStrbImm _ _ _
  | .tLdrbImm .. => RoundTrip.tLdrbImm _ _ _
  | .tStrhImm .. => RoundTrip.tStrhImm _ _ _
  | .tLdrhImm .. => RoundTrip.tLdrhImm _ _ _
  | .tStrSp .. => RoundTrip.tStrSp _ _
  | .tLdrSp .. => RoundTrip.tLdrSp _ _
  | .tAddPc .. => RoundTrip.tAddPc _ _
  | .tAddSp .. => RoundTrip.tAddSp _ _
  | .tAddSpImm .. => RoundTrip.tAddSpImm _ _
  | .tPush .. => RoundTrip.tPush _ _
  | .tPop .. => RoundTrip.tPop _ _
  | .tUnd1011 .. => RoundTrip.tUnd1011 _
  | .tStmia .. => RoundTrip.tStmia _ _
  | .tLdmia .. => RoundTrip.tLdmia _ _
  | .tSwi .. => RoundTrip.tSwi _
  | .tUndCond .. => RoundTrip.tUndCond _
  | .tBCond .. => RoundTrip.tBCond _ _
  | .tB .. => RoundTrip.tB _
  | .tUnd11101 .. => RoundTrip.tUnd11101 _
  | .tBlPrefix .. => RoundTrip.tBlPrefix _
  | .tBlSuffix .. => RoundTrip.tBlSuffix _

/-- Settles O1: each instruction by its member of the family `RoundTrip`. -/
theorem decodeEncode : Obligations.DecodeEncode :=
  fun i hwf => roundTrip i hwf

/-- Settles O2: the decoder's line fixes the bits without a field, and every other bit is in a field. -/
theorem encodeDecode : Obligations.EncodeDecode
  | .arm w => ⟨(encodes_decodeArm w).wf, (encodes_decodeArm w).encode⟩
  | .thumb h => ⟨(encodes_decodeThumb h).wf, (encodes_decodeThumb h).encode⟩

end Sys2Proof.Proofs

/-! Conditions, the barrel shifter, and words decoded (O4, O15 to O18). -/

namespace Sys2Proof.Proofs

open Sys2Proof.Machine Sys2Proof.Laws

/-- NZCV are the top four bits of CPSR (R50, R141). -/
theorem nzcv_of_cpsrWord (p : Cpsr) : (cpsrWord p >>> 28) &&& 0xF = (nzcv p).setWidth 32 := by
  have hflags : nzcv p = (cpsrWord p).extractLsb' 28 4 := (spsrWord_flags (saveCpsr p)).symm
  rw [hflags]
  apply BitVec.eq_of_toNat_eq
  rw [BitVec.toNat_and, BitVec.toNat_ushiftRight, BitVec.toNat_setWidth, BitVec.extractLsb'_toNat]
  exact (Nat.and_two_pow_sub_one_eq_mod _ 4).trans (Nat.mod_eq_of_lt (by omega)).symm

/-- The bit of a mask that a shift selects. -/
theorem selected_bit (mask : BitVec 16) (k : BitVec 4) :
    (mask.setWidth 32 >>> k.setWidth 32) &&& 1#32 = 1#32 ↔ mask.getLsbD k.toNat = true := by
  have hk : (k.setWidth 32).toNat = k.toNat := BitVec.toNat_setWidth_of_le (by decide)
  have hlt : k.toNat < 32 := by omega
  rw [BitVec.and_one_eq_setWidth_ofBool_getLsbD, BitVec.ushiftRight_eq', hk, BitVec.getLsbD_ushiftRight,
    BitVec.getLsbD_setWidth, Nat.add_zero, decide_eq_true hlt, Bool.true_and]
  cases mask.getLsbD k.toNat <;> decide

/-- Settles O15: a condition looks at the four flags alone, so its mask is checked for each value of NZCV. -/
theorem conditionTable : Obligations.ConditionTable := by
  intro s c
  constructor
  · rw [condPassed, nzcv]
    generalize s.cpsr.n = n
    generalize s.cpsr.z = z
    generalize s.cpsr.c = k
    generalize s.cpsr.v = v
    cases c <;> revert n z k v <;> decide
  · rw [nzcv_of_cpsrWord, selected_bit, condPassed]

/-- An instruction with a condition field acts under its condition (R141, R485). -/
theorem exec_eq_whenPassed {i : Instr} {c : Cond} (h : i.cond = some c) :
    ∃ k : State → Result, ∀ s, exec i s = whenPassed c k s := by
  cases i <;> cases h <;> exact ⟨_, fun _ => rfl⟩

/-- Settles O16: what acts under a failing condition does nothing. -/
theorem conditionFails : Obligations.ConditionFails := by
  intro s i c hi hc
  obtain ⟨k, hexec⟩ := exec_eq_whenPassed hi
  rw [hexec, whenPassed, if_neg (Bool.eq_false_iff.mp hc)]

section
variable (v : Word) (k : Nat)

theorem shiftLeft_toNat : (v <<< k).toNat = v.toNat * 2 ^ k % 2 ^ 32 := by
  rw [BitVec.toNat_shiftLeft, Nat.shiftLeft_eq]

theorem ushiftRight_toNat : (v >>> k).toNat = v.toNat / 2 ^ k := by
  rw [BitVec.toNat_ushiftRight, Nat.shiftRight_eq_div_pow]

theorem sshiftRight_toInt : (v.sshiftRight k).toInt = v.toInt / 2 ^ k := by
  rw [BitVec.toInt_sshiftRight, Int.shiftRight_eq_div_pow, Nat.cast_pow, Nat.cast_ofNat]

/-- ROR #0 is a rotation right through the carry (R154). -/
theorem rotateThroughCarry_toNat (cin : Bool) :
    (BitVec.ofBool cin ++ v.extractLsb' 1 31 : Word).toNat = v.toNat / 2 + if cin then 2 ^ 31 else 0 := by
  have hlt : v.toNat / 2 < 2 ^ 31 := by omega
  rw [BitVec.toNat_append, BitVec.extractLsb'_toNat, Nat.shiftRight_eq_div_pow, Nat.pow_one, Nat.mod_eq_of_lt hlt,
    ← Nat.shiftLeft_add_eq_or_of_lt hlt]
  rw [Nat.add_comm]
  cases cin <;> rfl

end

/-- Settles O17: amount 0 by definition, ROR #0 apart; the other amounts by the arithmetic of one shift. -/
theorem shiftImmediate : Obligations.ShiftImmediate := by
  intro v n cin
  refine ⟨rfl, rfl, rfl, ⟨rotateThroughCarry_toNat v cin, rfl⟩, fun hn => ?_⟩
  have hpos : n.toNat ≠ 0 := fun h => hn (BitVec.eq_of_toNat_eq h)
  simp only [shiftByImm, hpos, if_false, and_true]
  exact ⟨shiftLeft_toNat v _, ushiftRight_toNat v _, sshiftRight_toInt v _, rotateRight_eq_or v n.isLt⟩

/-- Settles O18: each range of amounts is a branch of `shiftByReg`. -/
theorem shiftRegister : Obligations.ShiftRegister := by
  intro v amount cin
  simp only [shiftByReg]
  refine ⟨fun h _ => if_pos h, fun h1 h31 => ?_, fun h => ?_, fun h => ?_, fun h => ?_, fun h1 h => ?_, fun h => ?_⟩
  · have hpos : amount.toNat ≠ 0 := by omega
    simp only [hpos, h31, if_false, if_true, and_true]
    exact ⟨shiftLeft_toNat v _, ushiftRight_toNat v _, sshiftRight_toInt v _⟩
  · simp [h]
  · simp [show amount.toNat ≠ 0 by omega, show ¬amount.toNat ≤ 31 by omega, show amount.toNat ≠ 32 by omega]
  · simp [show amount.toNat ≠ 0 by omega, show ¬amount.toNat ≤ 31 by omega, signFill]
  · simp [show amount.toNat ≠ 0 by omega, h]
  · rw [if_neg (show ¬amount.toNat = 0 by omega), if_neg h, rotateRight_eq_or v (Nat.mod_lt _ (by decide))]

/-- Settles O4: each word is a closed fact of the decoder. -/
theorem wordsDecode : Obligations.WordsDecode := by
  unfold Obligations.WordsDecode
  decide

end Sys2Proof.Proofs

/-! The arithmetic helpers, data processing, multiplies and refused forms (O19, O23, O25, O26, O29, O30, O44). -/

namespace Sys2Proof.Proofs

open Sys2Proof.Machine Sys2Proof.Laws

/-! The arithmetic helpers (O19). -/

/-- The sign of a word is its bit 31. -/
theorem getLsbD_sign (v : Word) : v.getLsbD 31 = decide (v.toInt < 0) :=
  (BitVec.msb_eq_getLsbD_last v).symm.trans BitVec.msb_eq_toInt

/-- V of an addition as signs (R200): the operands agree and the result differs. -/
theorem addOverflow_iff_signs (a b res : Word) :
    addOverflow a b res = true ↔ ((a.toInt < 0 ↔ b.toInt < 0) ∧ ¬(b.toInt < 0 ↔ res.toInt < 0)) := by
  rw [addOverflow, BitVec.getLsbD_and, BitVec.getLsbD_not, BitVec.getLsbD_xor, BitVec.getLsbD_xor]
  simp only [getLsbD_sign]
  by_cases ha : a.toInt < 0 <;> by_cases hb : b.toInt < 0 <;> by_cases hr : res.toInt < 0 <;> simp [ha, hb, hr]

/-- V of an addition with a carry-in `k` (R200, R201): the result, the exact sum brought into the signed range, is
another number than that sum. -/
theorem addOverflow_iff {a b res : Word} {k : Nat} (hk : k ≤ 1) (h : res = a + b + BitVec.ofNat 32 k) :
    addOverflow a b res = true ↔ res.toInt ≠ a.toInt + b.toInt + k := by
  have hres : res.toInt = (a.toInt + b.toInt + k).bmod (2 ^ 32) := by
    rw [h, BitVec.toInt_add, BitVec.toInt_add, BitVec.toInt_ofNat', Int.add_bmod_bmod, Int.bmod_add_bmod]
  have ha := And.intro (BitVec.le_toInt a) (BitVec.toInt_lt (x := a))
  have hb := And.intro (BitVec.le_toInt b) (BitVec.toInt_lt (x := b))
  rw [Int.bmod_def] at hres
  rw [addOverflow_iff_signs]
  generalize res.toInt = r at *
  generalize a.toInt = x at *
  generalize b.toInt = y at *
  split at hres <;> omega

/-- Result, carry and overflow of ADC: the parts of the 33-bit sum (R201). -/
theorem aluAdc_exact (a b : Word) (c : Bool) :
    (aluAdc a b c).res = a + b + BitVec.ofNat 32 c.toNat ∧
      ((aluAdc a b c).c = true ↔ 2 ^ 32 ≤ a.toNat + b.toNat + c.toNat) ∧
      ((aluAdc a b c).v = true ↔ (aluAdc a b c).res.toInt ≠ a.toInt + b.toInt + c.toNat) := by
  have hsum : (a.setWidth 33 + b.setWidth 33 + (BitVec.ofBool c).setWidth 33 : BitVec 33).toNat =
      a.toNat + b.toNat + c.toNat := by
    have hc := c.toNat_le
    simp only [BitVec.toNat_add, BitVec.toNat_setWidth, BitVec.toNat_ofBool]
    omega
  have hres : (aluAdc a b c).res = a + b + BitVec.ofNat 32 c.toNat := by
    apply BitVec.eq_of_toNat_eq
    simp only [aluAdc, BitVec.toNat_setWidth, hsum, BitVec.toNat_add, BitVec.toNat_ofNat, Nat.mod_add_mod,
      Nat.add_mod_mod]
  refine ⟨hres, ?_, addOverflow_iff c.toNat_le hres⟩
  rw [← hsum, ← decide_eq_true_iff (p := 2 ^ 32 ≤ _)]
  exact Bool.eq_iff_iff.mp ((BitVec.msb_eq_getLsbD_last _).symm.trans (BitVec.msb_eq_decide _))

/-- An addition is one without a carry-in (R200, R201): it carries where the sum wraps below an operand. -/
theorem aluAdd_eq_aluAdc (a b : Word) : aluAdd a b = aluAdc a b false := by
  obtain ⟨hres, hc, -⟩ := aluAdc_exact a b false
  have hsum : (aluAdc a b false).res = a + b := hres.trans (BitVec.add_zero _)
  have hcarry : (a + b).ult a = (aluAdc a b false).c := by
    rw [Bool.eq_iff_iff, hc, BitVec.ult_iff_lt, BitVec.lt_def, BitVec.toNat_add]
    simp only [Bool.toNat_false]
    omega
  rw [aluAdd, hcarry, ← hsum]
  rfl

/-- A subtraction adds the complement, with the carry-in as "no borrow" (R203). -/
theorem aluSbc_eq_aluAdc (a b : Word) (c : Bool) : aluSbc a b c = aluAdc a (~~~b) c := by
  obtain ⟨hres, hc, -⟩ := aluAdc_exact a (~~~b) c
  have hsum : (aluAdc a (~~~b) c).res = a - b - 1 + (BitVec.ofBool c).setWidth 32 := by
    have hcin : (BitVec.ofBool c).setWidth 32 = BitVec.ofNat 32 c.toNat := by cases c <;> rfl
    rw [hres, hcin]
    bv_omega
  have hcarry : ((b.setWidth 33 : BitVec 33) + 1 - (BitVec.ofBool c).setWidth 33).ule (a.setWidth 33) =
      (aluAdc a (~~~b) c).c := by
    rw [Bool.eq_iff_iff, hc, BitVec.ule_iff_le]
    cases c <;> bv_omega
  have hoverflow (r : Word) : subOverflow a b r = addOverflow a (~~~b) r := by
    simp only [subOverflow, addOverflow, BitVec.getLsbD_and, BitVec.getLsbD_not, BitVec.getLsbD_xor]
    cases a.getLsbD 31 <;> cases b.getLsbD 31 <;> rfl
  rw [aluSbc, hcarry, ← hsum, hoverflow]
  rfl

/-- Result, carry and overflow of SBC: those of the sum with the complement, `!c` being the borrow (R203). -/
theorem aluSbc_exact (a b : Word) (c : Bool) :
    (aluSbc a b c).res = a - b - BitVec.ofNat 32 (!c).toNat ∧
      ((aluSbc a b c).c = true ↔ b.toNat + (!c).toNat ≤ a.toNat) ∧
      ((aluSbc a b c).v = true ↔ (aluSbc a b c).res.toInt ≠ a.toInt - b.toInt - (!c).toNat) := by
  obtain ⟨hres, hc, hv⟩ := aluAdc_exact a (~~~b) c
  have hb := b.isLt
  have hnot : (~~~b).toInt = -b.toInt - 1 := by
    rw [BitVec.toInt_not, BitVec.toInt_eq_toNat_cond, Int.bmod_def]
    split <;> split <;> omega
  rw [aluSbc_eq_aluAdc, hres, hc, hv, hres, hnot, BitVec.toNat_not]
  have hborrow : (!c).toNat = 1 - c.toNat := by cases c <;> rfl
  have hle := c.toNat_le
  rw [hborrow]
  refine ⟨?_, ?_, ?_⟩
  · bv_omega
  · omega
  · omega

/-- A subtraction is one without a borrow (R202, R203). -/
theorem aluSbc_true (a b : Word) : aluSbc a b true = aluSub a b := by
  have hres : a - b - 1 + 1 = a - b := BitVec.sub_add_cancel _ _
  have hcarry : ((b.setWidth 33 : BitVec 33) + 1 - 1).ule (a.setWidth 33) = b.ule a := by
    rw [BitVec.add_sub_cancel, Bool.eq_iff_iff, BitVec.ule_iff_le, BitVec.ule_iff_le]
    bv_omega
  calc aluSbc a b true
      = ⟨a - b - 1 + 1, ((b.setWidth 33 : BitVec 33) + 1 - 1).ule (a.setWidth 33), subOverflow a b (a - b - 1 + 1)⟩ := rfl
    _ = aluSub a b := by rw [hres, hcarry]; rfl

/-- Settles O19: every helper is an addition with a carry-in, of the operand or of its complement. -/
theorem arithmeticFlags : Obligations.ArithmeticFlags := by
  intro a b c
  have hk : (if c then 1 else 0) = c.toNat := by cases c <;> rfl
  have hborrow : (if c then 0 else 1) = (!c).toNat := by cases c <;> rfl
  simp only [hk, hborrow]
  refine ⟨?_, aluAdc_exact a b c, ?_, aluSbc_exact a b c, aluSbc_true a b⟩
  · rw [aluAdd_eq_aluAdc]
    simpa using aluAdc_exact a b false
  · rw [← aluSbc_true]
    simpa using aluSbc_exact a b true

/-! Results of data processing (O23, O25, O26). -/

/-- Each operation that writes Rd goes on with `writeResult` of its result (R204). -/
theorem dataProcForms_next {c : Cond} {s : State} (hc : condPassed c s = true) (sf : Bool) (rn rd : RegNum)
    (op2 : Operand2) :
    ∀ x ∈ dataProcForms c sf rn rd op2 (dataProcReg (isShiftReg op2) rn s) (operand2 op2 s) s.cpsr,
      exec x.1 s = .next (writeResult sf rd x.2 s) := by
  intro x hx
  obtain ⟨f, hf, hexec⟩ := dataProcForms_exec _ _ _ _ _ _ _ _ x hx
  rw [hexec, dataProc, whenPassed_pos hc, hf]
  rfl

theorem setFlags_eq (r : Alu) (s : State) : setFlags r s = { s with cpsr := flagsOf r s.cpsr } := rfl

/-- A write below R15 sets Rd, and the flags if S = 1 (R204). -/
theorem sets_writeResult {rd : RegNum} (h : rd ≠ 15) (sf : Bool) (r : Alu) (s : State) :
    Sets rd r.res (if sf then flagsOf r s.cpsr else s.cpsr) s (writeResult sf rd r s) := by
  cases sf with
  | false => exact sets_setReg h r.res s
  | true =>
    rw [writeResult, if_pos rfl, if_neg h, setFlags_eq, setReg_mode]
    exact sets_setReg_cpsr h r.res (flagsOf r s.cpsr) s rfl

/-- Settles O23: every form writes its result by `writeResult`. -/
theorem dataProcResult : Obligations.DataProcResult := by
  intro s c sf rn rd op2 hc hd x hx
  exact ⟨_, dataProcForms_next hc sf rn rd op2 x hx, sets_writeResult hd sf x.2 s⟩

/-- Settles O25: with S = 1 a write of R15 is `returnFromException`. -/
theorem dataProcReturn : Obligations.DataProcReturn := by
  intro s c rn op2 hc x hx
  exact ⟨_, dataProcForms_next hc true rn 15 op2 x hx, jumps_return x.2.res s⟩

/-- An operation that only sets flags changes nothing else (R215 to R218). -/
theorem compareOp_next {c : Cond} {s : State} (hc : condPassed c s = true) (f : AluOp) (rn : RegNum) (op2 : Operand2) :
    compareOp f c rn op2 s = .next { s with cpsr := flagsOf (aluResult f rn op2 s) s.cpsr } :=
  whenPassed_pos hc _

/-- Settles O26: each form is `compareOp` with its own operation. -/
theorem compareResult : Obligations.CompareResult := by
  intro s c rn ign op2 hc
  simp only [compareForms, List.forall_mem_cons]
  exact ⟨compareOp_next hc andOp rn op2, compareOp_next hc eorOp rn op2, compareOp_next hc subOp rn op2,
    compareOp_next hc addOp rn op2, List.forall_mem_nil _⟩

/-! Multiplies (O29, O30). Drawing free values for C and V leaves the registers as the product's write left them. -/

theorem getReg_congr {n : RegNum} (h : n ≠ 15) {s t : State} (hr : t.regs = s.regs)
    (hm : t.cpsr.mode = s.cpsr.mode) : getReg n t = getReg n s := by
  rw [getReg, getReg, hm]
  exact getRegIn_congr h hr

theorem keeps_thenRegs {rs : List RegNum} {s t u : State} (h : KeepsRegsBut rs s t) (hr : u.regs = t.regs) :
    KeepsRegsBut rs s u :=
  fun m n hn hm => (getRegIn_congr hn hr).trans (h m n hn hm)

theorem mulFinish_regs (sf : Bool) (rd : RegNum) (v : Word) (s : State) :
    (mulFinish sf rd v s).regs = (setReg rd v s).regs := by
  cases sf <;> rfl

/-- CPSR after a 32-bit multiply: C is free, V is kept (R240, R246). -/
theorem mulFinish_cpsr (sf : Bool) (rd : RegNum) (v : Word) (s : State) :
    (mulFinish sf rd v s).cpsr =
      if sf then { nzOf v s.cpsr with c := (mulFinish sf rd v s).cpsr.c } else s.cpsr := by
  cases sf with
  | false => exact setReg_mode rd v s
  | true => simp [mulFinish, setReg_mode, nzOf]

/-- Everything the end of a 32-bit multiply does (R240, R246). -/
theorem mulFinish_spec {rd : RegNum} (h : rd ≠ 15) (sf : Bool) (v : Word) (s : State) :
    let t := mulFinish sf rd v s
    getReg rd t = v ∧ t.cpsr = (if sf then { nzOf v s.cpsr with c := t.cpsr.c } else s.cpsr) ∧
      KeepsRegsBut [rd] s t ∧ t = { s with regs := t.regs, cpsr := t.cpsr, draws := t.draws } := by
  have hregs := mulFinish_regs sf rd v s
  have hcpsr := mulFinish_cpsr sf rd v s
  have hmode : (mulFinish sf rd v s).cpsr.mode = (setReg rd v s).cpsr.mode := by
    rw [hcpsr, setReg_mode]
    cases sf <;> rfl
  refine ⟨(getReg_congr h hregs hmode).trans (getReg_setReg_same h v s), hcpsr,
    keeps_thenRegs (keeps_setReg (List.mem_singleton_self rd) v s) hregs, ?_⟩
  simp only [mulFinish, setReg_eq h]
  cases sf <;> rfl

theorem ofNat_product (a b : Word) : BitVec.ofNat 32 (a.toNat * b.toNat) = a * b := by
  rw [BitVec.ofNat_mul, BitVec.ofNat_toNat, BitVec.ofNat_toNat, BitVec.setWidth_eq, BitVec.setWidth_eq]

theorem ofNat_productSum (a b d : Word) : BitVec.ofNat 32 (a.toNat * b.toNat + d.toNat) = a * b + d := by
  rw [BitVec.ofNat_add, ofNat_product, BitVec.ofNat_toNat, BitVec.setWidth_eq]

/-- MUL with no operand R15 (R240). -/
theorem execMul_next {c : Cond} {s : State} (hc : condPassed c s = true) {rd rs rm : RegNum} (hd : rd ≠ 15)
    (hs : rs ≠ 15) (hm : rm ≠ 15) (sf : Bool) :
    execMul c sf rd rs rm s = .next (mulFinish sf rd (getReg rm s * getReg rs s) s) := by
  rw [execMul, whenPassed_pos hc, if_neg (not_or.mpr ⟨hd, not_or.mpr ⟨hs, hm⟩⟩)]

/-- MLA with no operand R15 (R241). -/
theorem execMla_next {c : Cond} {s : State} (hc : condPassed c s = true) {rd rn rs rm : RegNum} (hd : rd ≠ 15)
    (hn : rn ≠ 15) (hs : rs ≠ 15) (hm : rm ≠ 15) (sf : Bool) :
    execMla c sf rd rn rs rm s = .next (mulFinish sf rd (getReg rm s * getReg rs s + getReg rn s) s) := by
  rw [execMla, whenPassed_pos hc, if_neg (not_or.mpr ⟨hd, not_or.mpr ⟨hn, not_or.mpr ⟨hs, hm⟩⟩⟩)]

/-- Settles O29: every form ends in `mulFinish` of its exact product. -/
theorem multiplyResult : Obligations.MultiplyResult := by
  intro s c sf rd rn ign rs rm trs trd hc hd hn hs hm
  simp only [List.forall_mem_cons, ofNat_product, ofNat_productSum]
  exact ⟨⟨_, execMul_next hc hd hs hm sf, mulFinish_spec hd sf _ s⟩,
    ⟨_, execMla_next hc hd hn hs hm sf, mulFinish_spec hd sf _ s⟩,
    ⟨_, rfl, mulFinish_spec (low_ne trd) true _ s⟩, List.forall_mem_nil _⟩

theorem mullFinish_regs (sf : Bool) (hi lo : RegNum) (p : BitVec 64) (s : State) :
    (mullFinish sf hi lo p s).regs = (setReg hi (p.extractLsb' 32 32) (setReg lo (p.extractLsb' 0 32) s)).regs := by
  cases sf <;> rfl

/-- CPSR after a long multiply: C and V are free (R242, R246). -/
theorem mullFinish_cpsr (sf : Bool) (hi lo : RegNum) (p : BitVec 64) (s : State) :
    (mullFinish sf hi lo p s).cpsr =
      if sf then { s.cpsr with
        n := p.getLsbD 63, z := p == 0
        c := (mullFinish sf hi lo p s).cpsr.c, v := (mullFinish sf hi lo p s).cpsr.v } else s.cpsr := by
  cases sf <;> simp [mullFinish, setReg_mode]

/-- Everything the end of a long multiply does (R242, R246). -/
theorem mullFinish_spec {hi lo : RegNum} (hne : hi ≠ lo) (hhi : hi ≠ 15) (hlo : lo ≠ 15) (sf : Bool) (p : BitVec 64)
    (s : State) :
    let t := mullFinish sf hi lo p s
    getReg hi t ++ getReg lo t = p ∧
      t.cpsr = (if sf then { s.cpsr with n := p.getLsbD 63, z := p == 0, c := t.cpsr.c, v := t.cpsr.v } else s.cpsr) ∧
      KeepsRegsBut [hi, lo] s t ∧ t = { s with regs := t.regs, cpsr := t.cpsr, draws := t.draws } := by
  have hregs := mullFinish_regs sf hi lo p s
  have hcpsr := mullFinish_cpsr sf hi lo p s
  have hmode : (mullFinish sf hi lo p s).cpsr.mode =
      (setReg hi (p.extractLsb' 32 32) (setReg lo (p.extractLsb' 0 32) s)).cpsr.mode := by
    rw [hcpsr, setReg_mode, setReg_mode]
    cases sf <;> rfl
  refine ⟨?_, hcpsr, keeps_thenRegs (keeps_trans (keeps_setReg (by simp) _ s) (by rw [setReg_mode])
    (keeps_setReg (by simp) _ _)) hregs, ?_⟩
  · rw [getReg_congr hhi hregs hmode, getReg_congr hlo hregs hmode, getReg_setReg_same hhi,
      getReg_setReg_other hne.symm hlo hhi, getReg_setReg_same hlo]
    exact BitVec.extractLsb'_append_extractLsb'
  · simp only [mullFinish, setReg_eq hhi, setReg_eq hlo]
    cases sf <;> rfl

theorem mullRefused_iff {hi lo rs rm : RegNum} :
    mullRefused hi lo rs rm = true ↔ hi = lo ∨ hi = 15 ∨ lo = 15 ∨ rs = 15 ∨ rm = 15 := by
  simp only [mullRefused, Bool.or_eq_true, beq_iff_eq, or_assoc]

/-- The exact unsigned product (R242). -/
theorem ofNat_unsignedProduct (rs rm : RegNum) (s : State) :
    BitVec.ofNat 64 ((getReg rm s).toNat * (getReg rs s).toNat) = unsignedProduct rs rm s := by
  rw [BitVec.ofNat_mul, BitVec.ofNat_toNat, BitVec.ofNat_toNat, unsignedProduct]

/-- The exact signed product (R244). -/
theorem ofInt_signedProduct (rs rm : RegNum) (s : State) :
    BitVec.ofInt 64 ((getReg rm s).toInt * (getReg rs s).toInt) = signedProduct rs rm s :=
  BitVec.ofInt_mul _ _

/-- An exact unsigned sum with RdHi:RdLo (R243). -/
theorem ofNat_accumulated (x : Nat) (hi lo : RegNum) (s : State) :
    BitVec.ofNat 64 (x + ((getReg hi s).toNat * 2 ^ 32 + (getReg lo s).toNat)) =
      BitVec.ofNat 64 x + accumulator hi lo s := by
  have htoNat : (accumulator hi lo s).toNat = (getReg hi s).toNat * 2 ^ 32 + (getReg lo s).toNat := by
    rw [accumulator, BitVec.toNat_append, ← Nat.shiftLeft_add_eq_or_of_lt (getReg lo s).isLt, Nat.shiftLeft_eq]
  rw [BitVec.ofNat_add, ← htoNat, BitVec.ofNat_toNat, BitVec.setWidth_eq]

/-- An exact signed sum with RdHi:RdLo (R245). -/
theorem ofInt_accumulated (x : Int) (hi lo : RegNum) (s : State) :
    BitVec.ofInt 64 (x + ((getReg hi s).toInt * 2 ^ 32 + (getReg lo s).toNat)) =
      BitVec.ofInt 64 x + accumulator hi lo s := by
  have htoInt : (accumulator hi lo s).toInt = 2 ^ 32 * (getReg hi s).toInt + (getReg lo s).toNat := BitVec.toInt_append
  rw [BitVec.ofInt_add, Int.mul_comm, ← htoInt, BitVec.ofInt_toInt]

/-- Settles O30: every form is `mull` of its exact product. -/
theorem longMultiplyResult : Obligations.LongMultiplyResult := by
  intro s c sf hi lo rs rm hc hne hhi hlo hs hm x hx
  have haccepted : ¬mullRefused hi lo rs rm = true := by
    rw [mullRefused_iff]
    rintro (h | h | h | h | h) <;> contradiction
  have hmull (p : State → BitVec 64) :
      whenPassed c (mull sf hi lo rs rm p) s = .next (mullFinish sf hi lo (p s) s) :=
    (whenPassed_pos hc _).trans (if_neg haccepted)
  have hexec : exec x.1 s = .next (mullFinish sf hi lo x.2 s) := by
    revert x
    simp only [longForms, List.forall_mem_cons, ofNat_accumulated, ofInt_accumulated, ofNat_unsignedProduct,
      ofInt_signedProduct]
    exact ⟨hmull _, hmull _, hmull _, hmull _, List.forall_mem_nil _⟩
  exact ⟨_, hexec, mullFinish_spec hne hhi hlo sf x.2 s⟩

/-! The refused forms (O44): one lemma for each operation that refuses. -/

section
variable {c : Cond} {s : State} {ix : Index} {rn rd rs rm : RegNum}

/-- MUL with an operand R15 is refused (R240). -/
theorem execMul_refused (hc : condPassed c s = true) (h : rd = 15 ∨ rs = 15 ∨ rm = 15) (sf : Bool) :
    execMul c sf rd rs rm s = .refused .multiplyWithPc := by
  rw [execMul, whenPassed_pos hc, if_pos h]

/-- MLA with an operand R15 is refused (R241). -/
theorem execMla_refused (hc : condPassed c s = true) (h : rd = 15 ∨ rn = 15 ∨ rs = 15 ∨ rm = 15) (sf : Bool) :
    execMla c sf rd rn rs rm s = .refused .multiplyWithPc := by
  rw [execMla, whenPassed_pos hc, if_pos h]

theorem transferAt_wb_iff {off : Word} : (transferAt ix rn off s).wb = true ↔ ix.p = false ∨ ix.w = true := by
  simp [transferAt]

/-- The condition R250 refuses. -/
theorem refuses_base (hwb : ix.p = false ∨ ix.w = true) (hn : rn = 15) (off : Word) (s : State) :
    ((transferAt ix rn off s).wb && rn == 15) = true := by
  rw [transferAt_wb_iff.mpr hwb, hn]
  rfl

/-- A load with writeback to R15 is refused (R250). -/
theorem loadTo_refused (read : Word → State → Word × State) (hwb : ix.p = false ∨ ix.w = true) (hn : rn = 15)
    (off : Word) (s : State) : loadTo read ix rn rd off s = .refused .writebackToPc :=
  if_pos (refuses_base hwb hn off s)

/-- A store with writeback to R15 is refused (R250). -/
theorem storeFrom_refused (w : Width) (hwb : ix.p = false ∨ ix.w = true) (hn : rn = 15) (off : Word) (s : State) :
    storeFrom w ix rn rd off s = .refused .writebackToPc :=
  if_pos (refuses_base hwb hn off s)

/-- A byte load into another register than R15 is refused where a word load is (R250, R252). -/
theorem loadByteTo_refused (hd : rd ≠ 15) (hwb : ix.p = false ∨ ix.w = true) (hn : rn = 15) (off : Word) (s : State) :
    loadByteTo ix rn rd off s = .refused .writebackToPc :=
  (if_neg hd).trans (loadTo_refused _ hwb hn off s)

theorem halfRefusal_postIndexW (hp : ix.p = false) (hw : ix.w = true) :
    halfRefusal ix rd = some .halfwordPostIndexWithW := by
  simp [halfRefusal, hp, hw]

theorem halfRefusal_pc (h : ix.p = true ∨ ix.w = false) (hd : rd = 15) :
    halfRefusal ix rd = some .halfwordTransferWithPc := by
  rcases h with h | h <;> simp [halfRefusal, h, hd]

theorem halfTransfer_refused {r : Refusal} (h : halfRefusal ix rd = some r) (k : State → Result) (s : State) :
    halfTransfer ix rd k s = .refused r := by
  rw [halfTransfer, h]

/-- What a halfword transfer refuses, whose transfer `k` refuses writeback to R15 (R260). -/
theorem exec_refused_of_half {i : Instr} {k : State → Result} (hexec : exec i s = halfTransfer ix rd k s)
    (hk : ix.p = false ∨ ix.w = true → rn = 15 → k s = .refused .writebackToPc) :
    (ix.p = false → ix.w = true → exec i s = .refused .halfwordPostIndexWithW) ∧
    (ix.p = true ∨ ix.w = false → rd = 15 → exec i s = .refused .halfwordTransferWithPc) ∧
    (ix.p = ix.w → rd ≠ 15 → rn = 15 → exec i s = .refused .writebackToPc) := by
  rw [hexec]
  refine ⟨fun hp hw => halfTransfer_refused (halfRefusal_postIndexW hp hw) k s,
    fun h hd => halfTransfer_refused (halfRefusal_pc h hd) k s, fun h hd hn => ?_⟩
  rw [halfTransfer_ok (fun hw => h.trans hw) hd]
  refine hk ?_ hn
  rw [← h]
  exact (Bool.eq_false_or_eq_true ix.p).symm

end

/-- Settles O44: a clause for each operation that refuses, under its condition. -/
theorem refusedForms : Obligations.RefusedForms := by
  intro s c hc
  have hpass {k : State → Result} {r : Refusal} (hk : k s = .refused r) : whenPassed c k s = .refused r :=
    (whenPassed_pos hc k).trans hk
  refine ⟨fun spsr => hpass (if_pos rfl), fun sf rd ign rn rs rm h => ?_, fun sf rd rs rm => ?_,
    fun sf hi lo rs rm h => ?_, fun ix rd off hwb => ?_, fun u rd off => ?_, fun ix u rn off => ?_,
    fun ix rn rd off => ?_, fun ix list => ⟨hpass (if_pos rfl), hpass (if_pos rfl), hpass (if_pos rfl)⟩,
    fun ix rn list => ⟨fun hw => ?_, fun hw hn => ?_⟩, fun rn rd rm h => ⟨hpass (if_pos h), hpass (if_pos h)⟩⟩
  · exact ⟨execMul_refused hc h sf, execMla_refused hc (h.imp_right .inr) sf⟩
  · exact execMla_refused hc (.inr (.inl rfl)) sf
  · have hmull (p : State → BitVec 64) : whenPassed c (mull sf hi lo rs rm p) s = .refused .longMultiplyRegisters :=
      hpass (if_pos (mullRefused_iff.mpr h))
    simp only [List.forall_mem_cons]
    exact ⟨hmull _, hmull _, hmull _, hmull _, List.forall_mem_nil _⟩
  · unfold exec
    exact ⟨hpass (loadTo_refused _ hwb rfl _ s), hpass (storeFrom_refused _ hwb rfl _ s),
      hpass (storeFrom_refused _ hwb rfl _ s), fun hd => hpass (loadByteTo_refused hd hwb rfl _ s)⟩
  · have hwb : (postIndexed u).p = false ∨ (postIndexed u).w = true := .inl rfl
    unfold exec
    exact ⟨hpass (loadTo_refused _ hwb rfl _ s), hpass (storeFrom_refused _ hwb rfl _ s),
      hpass (storeFrom_refused _ hwb rfl _ s), fun hd => hpass (loadByteTo_refused hd hwb rfl _ s)⟩
  · unfold exec
    exact ⟨hpass (if_pos rfl), hpass (if_pos rfl)⟩
  · simp only [List.forall_mem_cons]
    exact ⟨exec_refused_of_half (whenPassed_pos hc _) fun hwb hn => storeFrom_refused _ hwb hn _ s,
      exec_refused_of_half (whenPassed_pos hc _) fun hwb hn => loadTo_refused _ hwb hn _ s,
      exec_refused_of_half (whenPassed_pos hc _) fun hwb hn => loadTo_refused _ hwb hn _ s,
      exec_refused_of_half (whenPassed_pos hc _) fun hwb hn => loadTo_refused _ hwb hn _ s, List.forall_mem_nil _⟩
  · unfold exec
    exact ⟨hpass (if_pos hw), hpass (if_pos hw)⟩
  · unfold exec
    exact ⟨hpass ((if_neg (Bool.eq_false_iff.mp hw)).trans (if_pos hn)),
      hpass ((if_neg (Bool.eq_false_iff.mp hw)).trans (if_pos hn))⟩

end Sys2Proof.Proofs

/-! Single loads, swaps and block transfers (O32, O33, O35 to O39). -/

namespace Sys2Proof.Proofs

open Sys2Proof.Machine Sys2Proof.Laws

/-! Single loads (O32, O33). -/

section
variable {c : Cond} {s : State} {rd : RegNum}

/-- Each single load below R15 is `loadTo` with its index bits and read (R251, R252, R255). -/
theorem singleLoads_exec (hc : condPassed c s = true) (hd : rd ≠ 15) (ix : Index) (rn : RegNum) (off : Offset) :
    ∀ x ∈ singleLoads c ix rn rd off,
      Reads x.2.2 ∧ exec x.1 s = loadTo x.2.2 x.2.1 rn rd (transferOffset off s) s := by
  simp only [singleLoads, List.forall_mem_cons]
  unfold exec
  exact ⟨⟨reads_memReadRot, whenPassed_pos hc _⟩, ⟨reads_memRead .byte, (whenPassed_pos hc _).trans (if_neg hd)⟩,
    ⟨reads_memReadRot, whenPassed_pos hc _⟩, ⟨reads_memRead .byte, (whenPassed_pos hc _).trans (if_neg hd)⟩,
    List.forall_mem_nil _⟩

/-- Each halfword or signed load R260 does not refuse is `loadTo` with its read (R261, R263, R264). -/
theorem halfLoads_exec (hc : condPassed c s = true) (hd : rd ≠ 15) {ix : Index} (hp : ix.w = true → ix.p = true)
    (rn : RegNum) (off : HalfOffset) :
    ∀ x ∈ halfLoads c ix rn rd off, Reads x.2 ∧ exec x.1 s = loadTo x.2 ix rn rd (halfOffset off s) s := by
  have hhalf (k : State → Result) : whenPassed c (halfTransfer ix rd k) s = k s :=
    (whenPassed_pos hc _).trans (halfTransfer_ok hp hd k s)
  simp only [halfLoads, List.forall_mem_cons]
  unfold exec
  exact ⟨⟨reads_memReadHalfRot, hhalf _⟩, ⟨reads_memReadByteSigned, hhalf _⟩, ⟨reads_memReadHalfSigned, hhalf _⟩,
    List.forall_mem_nil _⟩

end

/-- Settles O32: every form is `loadTo` with its read, which `loadTo_spec` describes. -/
theorem loadResult : Obligations.LoadResult := by
  intro s c ix rn rd hc hd
  refine ⟨fun off x hx hw => ?_, fun off x hx hw hp => ?_⟩
  · obtain ⟨hread, hexec⟩ := singleLoads_exec hc hd ix rn off x hx
    rw [hexec]
    exact loadTo_spec hread x.2.1 rn rd _ s hd hw
  · obtain ⟨hread, hexec⟩ := halfLoads_exec hc hd hp rn off x hx
    rw [hexec]
    exact loadTo_spec hread ix rn rd _ s hd hw

/-- Settles O33: both forms are `loadTo` of R15, which `loadTo_pc` describes. -/
theorem loadToPc : Obligations.LoadToPc := by
  intro s c ix rn off hc x hx tr hw
  have hexec : exec x.1 s = loadTo memReadRot x.2 rn 15 (transferOffset off s) s := by
    revert x
    simp only [List.forall_mem_cons]
    unfold exec
    exact ⟨fun _ => whenPassed_pos hc _, fun _ => whenPassed_pos hc _, List.forall_mem_nil _⟩
  rw [hexec]
  exact loadTo_pc x.2 rn _ s hw

/-! Swaps (O35). -/

section
variable {read : Word → State → Word × State} {w : Width} {rn rd rm : RegNum} {s u : State}

/-- A swap whose store completes goes on to write Rd (R285). -/
theorem swap_next (hn : rn ≠ 15) (hd : rd ≠ 15) (hm : rm ≠ 15)
    (hu : store w (getReg rn s) (getReg rm s) (read (getReg rn s) s).2 = .next u) :
    swap read w rn rd rm s = .next (setReg rd (read (getReg rn s) s).1 u) := by
  rw [swap, if_neg (not_or.mpr ⟨hn, not_or.mpr ⟨hd, hm⟩⟩)]
  exact congrArg (andThen · _) hu

/-- A swap outside the I/O region, where reading changes nothing (R285). -/
theorem swap_spec (hn : rn ≠ 15) (hd : rd ≠ 15) (hm : rm ≠ 15) (hread : (read (getReg rn s) s).2 = s)
    (hio : isIo (getReg rn s) = false) (hwf : Memory.wf s.mem = true) :
    ∃ t, swap read w rn rd rm s = .next t ∧ getReg rd t = (read (getReg rn s) s).1 ∧
      Wrote (bytesOfStore s.params w (getReg rn s) (getReg rm s)) s t ∧ KeepsRegsBut [rd] s t ∧
      t = { s with regs := t.regs, mem := t.mem } := by
  obtain ⟨u, hu, honly, hspec⟩ := store_spec w (getReg rm s) hio
  obtain ⟨-, hwrote⟩ := hspec hwf
  have hregs : u.regs = s.regs := by rw [honly]
  have hcpsr : u.cpsr = s.cpsr := by rw [honly]
  refine ⟨_, swap_next hn hd hm (by rw [hread, hu]), getReg_setReg_same hd _ u, fun a ha => ?_, ?_, ?_⟩
  · rw [setReg_eq hd, ← hwrote a ha]
    exact readByte_congr ha rfl rfl rfl
  · exact keeps_trans (keeps_of_regs hregs) (by rw [hcpsr]) (keeps_setReg (List.mem_singleton_self rd) _ u)
  · rw [setReg_eq hd, honly]
    rfl

end

/-- Settles O35: both forms are `swap`, whose reads change nothing outside the I/O region. -/
theorem swapResult : Obligations.SwapResult := by
  intro s c rn rd rm hc hn hd hm x hx
  obtain ⟨hexec, hread⟩ : exec x.1 s = swap x.2.1 x.2.2 rn rd rm s ∧
      (isIo (getReg rn s) = false → (x.2.1 (getReg rn s) s).2 = s) := by
    have hquiet (w : Width) (h : isIo (getReg rn s) = false) : (memRead w (getReg rn s) s).2 = s := by
      rw [memRead_noIo w h]
    revert x
    simp only [List.forall_mem_cons]
    unfold exec
    exact ⟨⟨whenPassed_pos hc _, hquiet .word⟩, ⟨whenPassed_pos hc _, hquiet .byte⟩, List.forall_mem_nil _⟩
  rw [hexec]
  refine ⟨fun u hu => ⟨_, swap_next hn hd hm hu, getReg_setReg_same hd _ u,
    keeps_setReg (List.mem_singleton_self rd) _ u, ?_⟩, fun hio hwf => swap_spec hn hd hm (hread hio) hio hwf⟩
  rw [setReg_eq hd]
  rfl

/-! Block loads (O36, O38, O39). -/

/-- The base register with the value the writeback gives it, if there is one (R270). -/
def baseAfter (ix : Index) (rn : RegNum) (base size : Word) : Option (RegNum × Word) :=
  if ix.w then some (rn, if ix.u then base + size else base - size) else none

theorem blockBack_eq_elim (ix : Index) (rn : RegNum) (base size : Word) (s : State) :
    blockBack ix rn base size s = (baseAfter ix rn base size).elim s fun x => setReg x.1 x.2 s := by
  unfold blockBack baseAfter
  split <;> rfl

theorem mem_baseAfter {ix : Index} {rn : RegNum} {base size : Word} {x : RegNum × Word}
    (h : x ∈ baseAfter ix rn base size) : ix.w = true ∧ x.1 = rn := by
  unfold baseAfter at h
  split at h
  · cases h
    exact ⟨‹_›, rfl⟩
  · cases h

/-- Without writeback the base is not written. -/
theorem baseAfter_none {ix : Index} (hw : ix.w = false) (rn : RegNum) (base size : Word) :
    baseAfter ix rn base size = none :=
  if_neg (by simp [hw])

section
variable {put : RegNum → Word → State → State} {m : Mode} {p : Cpsr} {s : State} {ix : Index} {rn : RegNum}
  {list : BitVec 16}

/-- Everything an LDM outside the I/O region does, where `put` loads a register through the view of mode `m` and loads
R15 as a branch that leaves CPSR `p` (R270, R271, R274). -/
theorem loadMultiple_spec (hput : ∀ r v t, r ≠ 15 → t.cpsr = s.cpsr → put r v t = putRegIn m r v t)
    (hpc : ∀ v t, t = { s with regs := t.regs } →
      put 15 v t = { t with r15 := alignPc p.t v, pipe := [], flushed := true, cpsr := p })
    (hp : 15 ∉ movedRegs (listed list) → p = s.cpsr) (hm : ix.w = true → m = s.cpsr.mode) (hrn : rn ≠ 15) :
    let regs := movedRegs (listed list)
    let size := movedBytes (listed list)
    let start := blockStart ix (getReg rn s) size
    BlockOutsideIo regs.length start →
      ∃ t, loadMultiple put ix rn list s = .next t ∧
        LoadedWords m regs start (baseAfter ix rn (getReg rn s) size) s t ∧ AfterLoads regs start p s t := by
  intro regs size start hio
  obtain ⟨lows, hlow, hnodup, hshape⟩ := moved_shape list
  refine ⟨loadWords put regs start (blockBack ix rn (getReg rn s) size s), ?_, ?_⟩
  · rw [loadMultiple, if_neg hrn, blockBytes_eq, blockRegs_eq]
  · exact loadWords_loaded put m (put 15) s _ (fun x hx => (mem_baseAfter hx).2 ▸ hrn)
      (fun x hx => hm (mem_baseAfter hx).1) _ (blockBack_spec ix rn hrn _ _ s) hput (fun _ _ => rfl) p hpc regs lows
      hlow hnodup hshape hp start hio

end

/-- A branch from a state that has only other registers than `s`. -/
theorem branchTo_of_regs (v : Word) {s t : State} (h : t = { s with regs := t.regs }) :
    branchTo v t = { t with r15 := alignPc s.cpsr.t v, pipe := [], flushed := true, cpsr := s.cpsr } := by
  rw [h]
  rfl

/-- A return from an exception from a state that has only other registers than `s`: the CPSR restored is that of `s`. -/
theorem returnFromException_of_regs (v : Word) {s t : State} (h : t = { s with regs := t.regs }) :
    returnFromException v t =
      { t with r15 := alignPc (restoreCpsr s).cpsr.t v, pipe := [], flushed := true, cpsr := (restoreCpsr s).cpsr } := by
  have hcpsr : (restoreCpsr t).cpsr = (restoreCpsr s).cpsr := restoreCpsr_congr (by rw [h]) (by rw [h])
  rw [← hcpsr]
  exact (jumps_return v t).2

/-- Settles O36: LDM loads through the mode's view, and R15 by `branchTo`. -/
theorem blockLoad : Obligations.BlockLoad := by
  intro s c ix rn list hc hrn regs size start back hio
  rw [show exec (.ldm c ix rn list) s = loadMultiple setReg ix rn list s from whenPassed_pos hc _]
  exact loadMultiple_spec (put_setReg s) (fun v _ ht => branchTo_of_regs v ht) (fun _ => rfl) (fun _ => rfl) hrn hio

/-- Settles O38: LDM with S = 1 loads through the mode's view, and R15 by `returnFromException`. -/
theorem blockReturn : Obligations.BlockReturn := by
  intro s c ix rn list hc hrn hlist regs size start back hio
  have hmem : (15 : RegNum) ∈ listed list := mem_listed.mpr hlist
  have hmoved : movedRegs (listed list) = regs := if_neg (List.ne_nil_of_mem hmem)
  have hload := loadMultiple_spec (putReturning_eq_putRegIn s) (fun v _ ht => returnFromException_of_regs v ht)
    (fun h => absurd (hmoved.symm ▸ hmem) h) (fun _ => rfl) hrn (ix := ix) (list := list)
  rw [hmoved] at hload
  obtain ⟨t, hnext, hwords, hafter⟩ := hload hio
  rw [show exec (.ldmReturn c ix rn list) s = loadMultiple putReturning ix rn list s from whenPassed_pos hc _]
  have hrestored : Restored s t.cpsr := hafter.cpsr ▸ restored_restoreCpsr s
  rw [← hafter.cpsr] at hafter
  exact ⟨t, hnext, hwords, hrestored, hafter⟩

/-! Block stores (O37, O39). -/

/-- An STM with another base than R15 is a block store of the registers it moves (R270, R274). -/
theorem storeMultiple_eq_storeBlock {rn : RegNum} (hrn : rn ≠ 15) (get : RegNum → State → Word) (ix : Index)
    (list : BitVec 16) (s : State) :
    let size := movedBytes (listed list)
    storeMultiple get ix rn list s = storeBlock get (blockBack ix rn (getReg rn s) size) (movedRegs (listed list))
      (blockStart ix (getReg rn s) size) s := by
  rw [storeMultiple, if_neg hrn, blockBytes_eq, blockRegs_eq]

theorem storedReg_sameRegs {s t : State} (h : SameRegs s t) (r : RegNum) : storedReg r t = storedReg r s := by
  rw [storedReg, storedReg, instrAddr_sameRegs h, getReg_sameRegs h]

/-- The first register listed is stored as it was, the base too (R272). -/
theorem blockValue_head {regs : List RegNum} {r : RegNum} (hr : r ∈ regs.head?) (base : Option (RegNum × Word))
    (s : State) : blockValue (instrAddr s + 12) regs base s r = storedReg r s := by
  simp only [blockValue, storedReg, Option.mem_def.mp hr]
  cases base <;> simp

/-- The other registers are stored as they are once the base is written (R272). -/
theorem blockValue_tail {regs : List RegNum} (hnd : regs.Nodup) {r : RegNum} (hr : r ∈ regs.tail)
    {base : Option (RegNum × Word)} (hb : ∀ x ∈ base, x.1 ≠ 15) (s : State) :
    blockValue (instrAddr s + 12) regs base s r = storedReg r (base.elim s fun x => setReg x.1 x.2 s) := by
  cases base with
  | none => rfl
  | some x =>
    have hx := hb x rfl
    have haddr : instrAddr (setReg x.1 x.2 s) = instrAddr s := by rw [setReg_eq hx]; rfl
    rw [blockValue_rest hnd hx s hr, Option.elim, storedReg, haddr]

/-- What a register store reads after the base and memory are written. -/
theorem sameRegs_base {base : Option (RegNum × Word)} (hb : ∀ x ∈ base, x.1 ≠ 15) {s t : State}
    (ht : t = { s with mem := t.mem, regs := (base.elim s fun x => putRegIn s.cpsr.mode x.1 x.2 s).regs }) :
    SameRegs (base.elim s fun x => setReg x.1 x.2 s) t := by
  rw [ht]
  cases base with
  | none => exact ⟨rfl, rfl, rfl⟩
  | some x =>
    rw [Option.elim, setReg_eq (hb x rfl)]
    exact ⟨rfl, rfl, rfl⟩

/-- Settles O37: `storeBlock_all` at any address; outside the I/O region `storeMultiple_spec` with the words of R272. -/
theorem blockStore : Obligations.BlockStore := by
  intro s c ix rn list hc hrn regs size start back words
  have hb : ∀ x ∈ back, x.1 ≠ 15 := fun x hx => (mem_baseAfter hx).2 ▸ hrn
  have hnd : regs.Nodup := moved_nodup list
  rw [show exec (.stm c ix rn list) s = storeMultiple storedReg ix rn list s from whenPassed_pos hc _]
  refine ⟨?_, fun hio hwf => storeMultiple_spec storedReg _ ix rn hrn list s hio hwf
    (fun r hr => (blockValue_head hr back s).symm) fun r hr t ht => ?_⟩
  · rw [storeMultiple_eq_storeBlock hrn]
    exact storeBlock_all 12 storedReg (fun _ _ => rfl) back hb _ (blockBack_eq_elim ix rn _ _) regs
      (movedRegs_ne _) hnd start s
  · rw [blockValue_tail hnd hr hb]
    exact storedReg_sameRegs (sameRegs_base hb ht) r

/-! The user bank (O39). -/

theorem storedUserReg_sameRegs {s t : State} (h : SameRegs s t) (r : RegNum) :
    storedUserReg r t = storedUserReg r s := by
  obtain ⟨hregs, hcpsr, hr15⟩ := h
  rw [storedUserReg, storedUserReg, instrAddr_sameRegs ⟨hregs, hcpsr, hr15⟩, getRegIn, getRegIn, hregs, hr15]

/-- Without writeback a block store is the stores of its words (R272). -/
theorem storeBlock_noBack {ix : Index} (hw : ix.w = false) (get : RegNum → State → Word) (rn : RegNum)
    (base size : Word) (regs : List RegNum) (addr : Word) (s : State) :
    storeBlock get (blockBack ix rn base size) regs addr s = storeWords get regs addr s := by
  have hback (t : State) : blockBack ix rn base size t = t := if_neg (by simp [hw])
  cases regs with
  | nil => exact congrArg _ (hback s)
  | cons r rest => simp only [storeBlock, storeWords, hback]

/-- Settles O39: the LDM is `loadMultiple_spec` in the USR view; the STM is `storeWords` of the USR view's registers,
which no store changes. -/
theorem userBank : Obligations.UserBank := by
  intro s c ix rn list hc hrn hw regs start words
  have hnw : ¬ ix.w = true := by simp [hw]
  have hback := baseAfter_none hw rn (getReg rn s) (movedBytes (listed list))
  have hload : exec (.ldmUser c ix rn list) s = loadMultiple (setRegIn .usr) ix rn list s := by
    unfold exec
    exact (whenPassed_pos hc _).trans (if_neg hnw)
  have hstore : exec (.stmUser c ix rn list) s = storeMultiple storedUserReg ix rn list s := by
    unfold exec
    exact (whenPassed_pos hc _).trans (if_neg hnw)
  rw [hload, hstore]
  refine ⟨?_, fun hio => ⟨?_, fun hmem => ?_⟩⟩
  · rw [storeMultiple_eq_storeBlock hrn, storeBlock_noBack hw]
    exact storeWords_all storedUserReg _ s regs start s ⟨rfl, rfl, rfl⟩ fun r _ t ht => storedUserReg_sameRegs ht r
  · rw [← hback]
    exact loadMultiple_spec (fun _ _ _ hr _ => if_neg hr) (fun v _ ht => branchTo_of_regs v ht) (fun _ => rfl)
      (fun h => absurd h hnw) hrn hio
  · rw [← hback]
    refine storeMultiple_spec storedUserReg _ ix rn hrn list s hio hmem (fun _ _ => rfl) fun r _ t ht =>
      storedUserReg_sameRegs ?_ r
    rw [← baseAfter, hback] at ht
    exact sameRegs_base (base := none) (by simp) ht

end Sys2Proof.Proofs

/-! ARM branches, SWI and the undefined encodings (O40 to O42). -/

namespace Sys2Proof.Proofs

open Sys2Proof.Machine Sys2Proof.Laws

/-- A branch offset with `k` zero bits appended, sign-extended, is `2 ^ k` times the signed offset (R149, R386). -/
theorem signExtend_append_zero {w : Nat} (offset : BitVec w) (k n : Nat) :
    (offset ++ 0#k).signExtend n = BitVec.ofInt n (2 ^ k * offset.toInt) := by
  rw [BitVec.signExtend, BitVec.toInt_append_zero, Int.mul_comm]

/-- `branchOffset` counts words (R149). -/
theorem branchOffset_eq (offset : BitVec 24) : branchOffset offset = BitVec.ofInt 32 (4 * offset.toInt) :=
  signExtend_append_zero offset 2 32

/-- Everything an exchange does (R305). -/
theorem jumps_exchangeTo (v : Word) (s : State) : Jumps v { s.cpsr with t := v.getLsbD 0 } s (exchangeTo v s) := rfl

/-- Settles O40: B is `branchTo`, BL the same after the write of the link, BX `exchangeTo`. -/
theorem branchResult : Obligations.BranchResult := by
  intro s c offset rm hc target
  have htarget : instrAddr s + 8 + branchOffset offset = target := by rw [branchOffset_eq]
  have hb : exec (.b c offset) s = .next (branchTo target s) := htarget ▸ if_pos hc
  have hbl : exec (.bl c offset) s = .next (branchTo target (setReg 14 (instrAddr s + 4) s)) :=
    htarget ▸ if_pos hc
  have hbx : exec (.bx c rm) s = .next (exchangeTo (getReg rm s) s) := if_pos hc
  refine ⟨⟨_, hb, jumps_branchTo target s⟩, ⟨_, _, hbl, sets_setReg (by decide) _ s, ?_⟩,
    ⟨_, hbx, jumps_exchangeTo _ s⟩⟩
  rw [← setReg_mode 14 (instrAddr s + 4) s]
  exact jumps_branchTo target _

/-- Everything SWI does (R413). -/
theorem entered_takeSwi (s : State) : Entered .svc 0x08 (instrAddr s + instrBytes s) s (takeSwi s) :=
  entered_enterException (by decide) _ (by decide) s

/-- Everything the Undefined exception does (R414). -/
theorem entered_takeUndefined (s : State) : Entered .und 0x04 (instrAddr s + instrBytes s) s (takeUndefined s) :=
  entered_enterException (by decide) _ (by decide) s

/-- Settles O41: both forms are `takeSwi`. -/
theorem softwareInterrupt : Obligations.SoftwareInterrupt := by
  intro s c comment value hc
  simp only [List.forall_mem_cons]
  exact ⟨⟨_, if_pos hc, entered_takeSwi s⟩, ⟨_, rfl, entered_takeSwi s⟩, List.forall_mem_nil _⟩

/-- The undefined and coprocessor encodings of ARM state have one meaning, `undefinedEncoding` (R310, R312). -/
theorem undefinedForms_exec {c : Cond} {s : State} (hc : condPassed c s = true) (rest : BitVec 28) (cix : CopIndex)
    (rn crd cpNum crm op1 : RegNum) (op1s op2 : BitVec 3) (offset : Byte) :
    ∀ i ∈ undefinedForms c rest cix rn crd cpNum crm op1 op1s op2 offset, exec i s = .next (undefinedEncoding s) := by
  have harm : undefinedArm c s = .next (undefinedEncoding s) := if_pos hc
  simp only [undefinedForms, List.forall_mem_cons]
  exact ⟨harm, harm, harm, harm, harm, harm, harm, harm, harm, harm, List.forall_mem_nil _⟩

/-- The undefined encodings of THUMB state have the same meaning (R391). -/
theorem thumbUndefinedForms_exec (r12 : BitVec 12) (r8 : Byte) (r11 : BitVec 11) (s : State) :
    ∀ i ∈ thumbUndefinedForms r12 r8 r11, exec i s = .next (undefinedEncoding s) := by
  simp only [thumbUndefinedForms, List.forall_mem_cons]
  exact ⟨rfl, rfl, rfl, List.forall_mem_nil _⟩

theorem undefinedEncoding_trap {s : State} (h : s.params.undefPolicy = .trap) :
    undefinedEncoding s = takeUndefined s := by
  rw [undefinedEncoding, h]

theorem undefinedEncoding_skip {s : State} (h : s.params.undefPolicy = .skip) : undefinedEncoding s = s := by
  rw [undefinedEncoding, h]

/-- Settles O42: every form is `undefinedEncoding`, which UNDEF_POLICY decides. -/
theorem undefinedInstruction : Obligations.UndefinedInstruction := by
  intro s c rest cix rn crd cpNum crm op1 op1s op2 offset r8 r12 r11 hc i hi
  have hexec : exec i s = .next (undefinedEncoding s) :=
    (List.mem_append.mp hi).elim (undefinedForms_exec hc _ _ _ _ _ _ _ _ _ _ i) (thumbUndefinedForms_exec _ _ _ s i)
  rw [hexec]
  refine ⟨fun htrap => ⟨_, rfl, ?_⟩, fun hskip => by rw [undefinedEncoding_skip hskip]⟩
  rw [undefinedEncoding_trap htrap]
  exact entered_takeUndefined s

end Sys2Proof.Proofs

/-! THUMB results: operations, branches, loads and stores (O45 to O48, O50). -/

namespace Sys2Proof.Proofs

open Sys2Proof.Machine Sys2Proof.Laws

/-- A zero-extended immediate with `k` zero bits appended is `2 ^ k` times its value (R161). -/
theorem setWidth_shiftLeft {w : Nat} (x : BitVec w) (k : Nat) :
    (x.setWidth 32 <<< k : Word) = BitVec.ofNat 32 (2 ^ k * x.toNat) := by
  apply BitVec.eq_of_toNat_eq
  simp [Nat.shiftLeft_eq, Nat.mul_comm]

theorem word8Offset_eq (w8 : Byte) : word8Offset w8 = BitVec.ofNat 32 (4 * w8.toNat) := setWidth_shiftLeft w8 2

/-- The offset counts words (R371), halfwords (R375) or bytes (R373). -/
theorem immAddr_word (o5 : BitVec 5) (rb : LowReg) (s : State) :
    immAddr 2 o5 rb s = getReg (low rb) s + BitVec.ofNat 32 (4 * o5.toNat) :=
  congrArg (getReg (low rb) s + ·) (setWidth_shiftLeft o5 2)

theorem immAddr_half (o5 : BitVec 5) (rb : LowReg) (s : State) :
    immAddr 1 o5 rb s = getReg (low rb) s + BitVec.ofNat 32 (2 * o5.toNat) :=
  congrArg (getReg (low rb) s + ·) (setWidth_shiftLeft o5 1)

theorem immAddr_byte (o5 : BitVec 5) (rb : LowReg) (s : State) :
    immAddr 0 o5 rb s = getReg (low rb) s + BitVec.ofNat 32 o5.toNat := by
  rw [immAddr, setWidth_shiftLeft, Nat.pow_zero, Nat.one_mul]

/-! Operations on low registers (O45). -/

theorem setNz_eq (v : Word) (s : State) : setNz v s = { s with cpsr := nzOf v s.cpsr } := rfl

theorem setCarry_setNz_eq (r : Shifted) (s : State) :
    setCarry r.carry (setNz r.val s) = { s with cpsr := { nzOf r.val s.cpsr with c := r.carry } } := rfl

section
variable (rd : LowReg) (s : State)

/-- A THUMB operation that writes Rd and N, Z, C, V (R334). -/
theorem thumbWrite_sets (r : Alu) :
    ∃ t, thumbWrite rd r s = .next t ∧ Sets (low rd) r.res (flagsOf r s.cpsr) s t := by
  refine ⟨_, rfl, ?_⟩
  rw [setFlags_eq, setReg_mode]
  exact sets_setReg_cpsr (low_ne rd) r.res _ s rfl

/-- A THUMB shift writes Rd and N, Z, C (R331, R344). -/
theorem thumbShift_sets (r : Shifted) :
    ∃ t, thumbShift rd r s = .next t ∧ Sets (low rd) r.val { nzOf r.val s.cpsr with c := r.carry } s t := by
  refine ⟨_, rfl, ?_⟩
  rw [setCarry_setNz_eq, setReg_mode]
  exact sets_setReg_cpsr (low_ne rd) r.val _ s rfl

/-- A THUMB logical operation writes Rd and N, Z (R338, R342). -/
theorem thumbLogic_sets (v : Word) :
    ∃ t, thumbLogic rd v s = .next t ∧ Sets (low rd) v (nzOf v s.cpsr) s t := by
  refine ⟨_, rfl, ?_⟩
  rw [setNz_eq, setReg_mode]
  exact sets_setReg_cpsr (low_ne rd) v _ s rfl

end

/-- Settles O45: a form ends in `thumbWrite`, `thumbShift` or `thumbLogic`, a comparison in `setFlags` or `setNz`. -/
theorem thumbAluResult : Obligations.ThumbAluResult := by
  intro s rn rs rd s3 s5 s8 h k
  refine ⟨?_, ?_⟩
  · simp only [thumbForms, List.forall_mem_cons, BitVec.ofNat_toNat]
    exact ⟨thumbWrite_sets rd s _, thumbWrite_sets rd s _, thumbWrite_sets rd s _, thumbWrite_sets rd s _,
      thumbShift_sets rd s _, thumbShift_sets rd s _, thumbShift_sets rd s _, thumbLogic_sets rd s _,
      thumbWrite_sets rd s _, thumbWrite_sets rd s _, thumbLogic_sets rd s _, thumbLogic_sets rd s _,
      thumbShift_sets rd s _, thumbShift_sets rd s _, thumbShift_sets rd s _, thumbWrite_sets rd s _,
      thumbWrite_sets rd s _, thumbShift_sets rd s _, thumbWrite_sets rd s _, thumbLogic_sets rd s _,
      thumbLogic_sets rd s _, thumbLogic_sets rd s _, List.forall_mem_nil _⟩
  · simp only [thumbCompares, List.forall_mem_cons, BitVec.ofNat_toNat]
    exact ⟨rfl, rfl, rfl, rfl, rfl, List.forall_mem_nil _⟩

/-! High registers and addresses (O46). -/

/-- A write of a register below 15 sets it, a write of R15 branches; no flag changes (R358, R360). -/
theorem setReg_sets_or_jumps (d : RegNum) (v : Word) (s : State) :
    (d ≠ 15 → Sets d v s.cpsr s (setReg d v s)) ∧ (d = 15 → Jumps v s.cpsr s (setReg d v s)) := by
  refine ⟨fun h => sets_setReg h v s, ?_⟩
  rintro rfl
  exact jumps_branchTo v s

/-- Settles O46: every form is `setReg` of its value. -/
theorem thumbHiAndAddress : Obligations.ThumbHiAndAddress := by
  intro s d k rd w8 w7
  have hw7 : (w7.setWidth 32 <<< 2 : Word) = BitVec.ofNat 32 (4 * w7.toNat) := setWidth_shiftLeft w7 2
  rw [← word8Offset_eq, ← hw7]
  simp only [List.forall_mem_cons]
  exact ⟨⟨⟨_, rfl, setReg_sets_or_jumps d _ s⟩, ⟨_, rfl, setReg_sets_or_jumps d _ s⟩, List.forall_mem_nil _⟩,
    ⟨⟨_, rfl, sets_setReg (low_ne rd) _ s⟩, ⟨_, rfl, sets_setReg (low_ne rd) _ s⟩, List.forall_mem_nil _⟩,
    ⟨_, rfl, sets_setReg (by decide) _ s⟩, ⟨_, rfl, sets_setReg (by decide) _ s⟩, List.forall_mem_nil _⟩

/-! Loads (O47). -/

/-- Everything a THUMB load does (R362 to R378). -/
theorem thumbLoad_spec {read : Word → State → Word × State} (hr : Reads read) (rd : LowReg) (addr : Word) (s : State) :
    ∃ t, thumbLoad read rd addr s = .next t ∧ getReg (low rd) t = (read addr s).1 ∧ KeepsRegsBut [low rd] s t ∧
      t = { s with regs := t.regs, ext := t.ext } := by
  have hkeeps := keeps_setReg (List.mem_singleton_self (low rd)) (read addr s).1 (read addr s).2
  refine ⟨_, rfl, getReg_setReg_same (low_ne rd) _ _,
    keeps_trans (keeps_of_regs (reads_regs hr addr s)) (by rw [reads_cpsr hr]) hkeeps, ?_⟩
  obtain ⟨e, he⟩ := hr addr s
  rw [setReg_eq (low_ne rd), he]
  rfl

/-- Each THUMB load is `thumbLoad` of its read at its address. -/
theorem thumbLoads_exec (ro rb rd : LowReg) (o5 : BitVec 5) (w8 : Byte) (s : State) :
    ∀ x ∈ thumbLoads ro rb rd o5 w8 s, Reads x.2.1 ∧ exec x.1 s = thumbLoad x.2.1 rd x.2.2 s := by
  simp only [thumbLoads, List.forall_mem_cons, ← word8Offset_eq, ← immAddr_word, ← immAddr_half,
    ← immAddr_byte]
  exact ⟨⟨reads_memRead .word, rfl⟩, ⟨reads_memReadRot, rfl⟩, ⟨reads_memRead .byte, rfl⟩,
    ⟨reads_memReadByteSigned, rfl⟩, ⟨reads_memReadHalfRot, rfl⟩, ⟨reads_memReadHalfSigned, rfl⟩,
    ⟨reads_memReadRot, rfl⟩, ⟨reads_memRead .byte, rfl⟩, ⟨reads_memReadHalfRot, rfl⟩, ⟨reads_memReadRot, rfl⟩,
    List.forall_mem_nil _⟩

/-- Settles O47: every form is `thumbLoad`. -/
theorem thumbLoadResult : Obligations.ThumbLoadResult := by
  intro s ro rb rd o5 w8 x hx
  obtain ⟨hread, hexec⟩ := thumbLoads_exec ro rb rd o5 w8 s x hx
  rw [hexec]
  exact thumbLoad_spec hread rd x.2.2 s

/-! Stores (O48). -/

/-- Each THUMB store is the store of Rd with its width at its address. -/
theorem thumbStores_exec (ro rb rd : LowReg) (o5 : BitVec 5) (w8 : Byte) (s : State) :
    ∀ x ∈ thumbStores ro rb rd o5 w8 s, exec x.1 s = store x.2.1 x.2.2 (getReg (low rd) s) s := by
  simp only [thumbStores, List.forall_mem_cons, ← word8Offset_eq, ← immAddr_word, ← immAddr_half,
    ← immAddr_byte]
  exact ⟨rfl, rfl, rfl, rfl, rfl, rfl, rfl, List.forall_mem_nil _⟩

/-- Settles O48: every form is `store`, which `store_spec` describes outside the I/O region. -/
theorem thumbStoreResult : Obligations.ThumbStoreResult := by
  intro s ro rb rd o5 w8 x hx
  have hexec := thumbStores_exec ro rb rd o5 w8 s x hx
  refine ⟨hexec, fun hwf hio => ?_⟩
  obtain ⟨t, hnext, honly, hspec⟩ := store_spec x.2.1 (getReg (low rd) s) hio
  obtain ⟨-, hwrote⟩ := hspec hwf
  exact ⟨t, hexec.trans hnext, hwrote, honly⟩

/-! Branches (O50). -/

/-- Settles O50: the branches are `branchTo` and `exchangeTo`, the first half of BL is a write of R14, and the second is
both: its branch and its write of R14 touch different registers. -/
theorem thumbBranchResult : Obligations.ThumbBranchResult := by
  intro s c o8 o11 ign k
  have ho8 : (o8 ++ 0#1).signExtend 32 = BitVec.ofInt 32 (2 * o8.toInt) := signExtend_append_zero o8 1 32
  have ho11 : (o11 ++ 0#1).signExtend 32 = BitVec.ofInt 32 (2 * o11.toInt) := signExtend_append_zero o11 1 32
  have hhigh : (o11 ++ 0#12).signExtend 32 = BitVec.ofInt 32 (4096 * o11.toInt) := signExtend_append_zero o11 12 32
  have hlow : (o11.setWidth 32 <<< 1 : Word) = BitVec.ofNat 32 (2 * o11.toNat) := setWidth_shiftLeft o11 1
  rw [← ho8, ← ho11, ← hhigh, ← hlow]
  refine ⟨fun hc => ⟨_, if_pos hc, jumps_branchTo _ s⟩, ⟨_, rfl, jumps_branchTo _ s⟩,
    ⟨_, rfl, jumps_exchangeTo _ s⟩, ⟨_, rfl, sets_setReg (by decide) _ s⟩,
    ⟨_, _, rfl, sets_setReg (by decide) _ s, rfl⟩⟩

end Sys2Proof.Proofs

/-! THUMB block transfers (O49): PUSH, POP, STMIA and LDMIA. -/

namespace Sys2Proof.Proofs

open Sys2Proof.Machine Sys2Proof.Laws

/-! The lists of PUSH and POP. -/

theorem listed_lt {n : Nat} (list : BitVec n) : (listed list).Pairwise (· < ·) := List.Pairwise.filter _ (by decide)

/-- A byte lists low registers alone. -/
theorem toNat_lt_of_mem_listed {list : Byte} {r : RegNum} (h : r ∈ listed list) : r.toNat < 8 :=
  BitVec.lt_of_getLsbD (mem_listed.mp h)

theorem getLsbD_stackList (extra : Bool) (k : RegNum) (list : Byte) (r : RegNum) :
    (stackList extra k.toNat list).getLsbD r.toNat = (list.getLsbD r.toNat || (extra && r == k)) := by
  have hone : (1#16 <<< k.toNat).getLsbD r.toNat = (r == k) := by revert k r; decide
  rw [stackList, BitVec.getLsbD_or, BitVec.getLsbD_setWidth, decide_eq_true r.isLt, Bool.true_and]
  cases extra
  · simp
  · rw [if_pos rfl, hone, Bool.true_and]

/-- PUSH and POP list the low registers and then LR or PC (R382, R383): both lists ascend and have the same members. -/
theorem listed_stackList (extra : Bool) {k : RegNum} (hk : 8 ≤ k.toNat) (list : Byte) :
    listed (stackList extra k.toNat list) = listed list ++ if extra then [k] else [] := by
  have hmem (r : RegNum) : (r ∈ if extra then [k] else []) ↔ extra = true ∧ r = k := by cases extra <;> simp
  have hlast : (if extra then [k] else []).Pairwise (· < ·) := by cases extra <;> simp
  refine (listed_lt _).eq_of_mem_iff (List.pairwise_append.mpr ⟨listed_lt list, hlast, ?_⟩) fun r => ?_
  · intro a ha b hb
    have hlow := toNat_lt_of_mem_listed ha
    rw [((hmem b).mp hb).2]
    exact BitVec.lt_def.mpr (by omega)
  · rw [List.mem_append, hmem, mem_listed, mem_listed, getLsbD_stackList]
    simp

theorem listed_pushed (r : Bool) (list : Byte) :
    listed (stackList r 14 list) = listed list ++ if r then [14] else [] :=
  listed_stackList r (k := 14) (by decide) list

theorem listed_popped (r : Bool) (list : Byte) :
    listed (stackList r 15 list) = listed list ++ if r then [15] else [] :=
  listed_stackList r (k := 15) (by decide) list

/-- POP never loads SP. -/
theorem sp_not_mem_popped (r : Bool) (list : Byte) : (13 : RegNum) ∉ movedRegs (listed (stackList r 15 list)) := by
  rw [← blockRegs_eq]
  intro h
  have hlow := mem_listed_of_mem_stackList (mem_listed_of_mem_blockRegs h (by decide)) (by decide)
  exact absurd (toNat_lt_of_mem_listed hlow) (by decide)

/-! Stores. -/

theorem blockOutsideIo_succ {n : Nat} {addr : Word} (h : BlockOutsideIo (n + 1) addr) :
    isIo addr = false ∧ BlockOutsideIo n (addr + 4) := by
  refine ⟨by simpa using h 0 (by simp), fun k hk => ?_⟩
  rw [next_word]
  exact h (k + 1) (by simpa using hk)

/-- Words stored one after another outside the I/O region are their bytes written one after another (R99). -/
theorem storeAll_pokes (vs : List Word) (addr : Word) (s : State) (hio : BlockOutsideIo vs.length addr) :
    storeAll addr vs s = .next (pokes (bytesOfWords s.params addr vs) s) := by
  induction vs generalizing addr s with
  | nil => rfl
  | cons v rest ih =>
    obtain ⟨ha, hrest⟩ := blockOutsideIo_succ hio
    have hparams : (pokes (bytesOfStore s.params .word addr v) s).params = s.params := by rw [pokes_mem]
    rw [storeAll, store_pokes .word v ha, andThen_next, ih _ _ hrest, ← pokes_append, hparams]
    rfl

section
variable {n : RegNum} (hn : n ≠ 15) (v : Word)
include hn

/-- A register write after memory writes writes what it would have written before them. -/
theorem setReg_pokes (l : List (Word × Byte)) (s : State) :
    setReg n v (pokes l s) = { pokes l s with regs := (putRegIn s.cpsr.mode n v s).regs } := by
  rw [setReg_eq hn, pokes_mem]
  rfl

theorem pokes_setReg (l : List (Word × Byte)) (s : State) : pokes l (setReg n v s) = setReg n v (pokes l s) := by
  rw [setReg_pokes hn, setReg_eq hn]
  exact pokes_regs l s _

/-- A block store outside the I/O region completes: writing the base after the first word or after the last is the
same (R272). -/
theorem storeAllBack_eq_storeAll {vs : List Word} (hne : vs ≠ []) {addr : Word} (hio : BlockOutsideIo vs.length addr)
    (s : State) :
    storeAllBack addr vs (some (n, v)) s = andThen (storeAll addr vs s) fun u => .next (setReg n v u) := by
  cases vs with
  | nil => exact absurd rfl hne
  | cons w rest =>
    obtain ⟨ha, hrest⟩ := blockOutsideIo_succ hio
    have hparams (u : State) : (setReg n v u).params = u.params := by rw [setReg_eq hn]; rfl
    rw [storeAllBack, storeAll, store_pokes .word w ha, andThen_next, andThen_next, storeAll_pokes _ _ _ hrest,
      storeAll_pokes _ _ _ hrest, andThen_next, Option.elim, hparams, pokes_setReg hn]

/-- Everything a block store outside the I/O region does (R272, R382). -/
theorem storeAll_thenBase (vs : List Word) {addr : Word} (hio : BlockOutsideIo vs.length addr) {s : State}
    (hwf : Memory.wf s.mem = true) :
    ∃ t, (andThen (storeAll addr vs s) fun u => .next (setReg n v u)) = .next t ∧
      StoredWords addr vs (some (n, v)) s t := by
  refine ⟨setReg n v (pokes (bytesOfWords s.params addr vs) s), ?_, ?_⟩
  · rw [storeAll_pokes vs addr s hio, andThen_next]
  · rw [setReg_pokes hn]
    exact storedWords_of (by simpa using hn) hwf

end

/-- What a THUMB store reads does not depend on memory. -/
theorem storedThumbReg_sameRegs {s t : State} (h : SameRegs s t) (r : RegNum) :
    storedThumbReg r t = storedThumbReg r s := by
  rw [storedThumbReg, storedThumbReg, instrAddr_sameRegs h, getReg_sameRegs h]

/-! Loads. -/

section
variable {m : Mode} {s u : State} {n : RegNum} {regs : List RegNum} {addr : Word} {p : Cpsr}

/-- A write of a register no load names, after the loads, is a written base. -/
theorem loadedWords_setReg (h : LoadedWords s.cpsr.mode regs addr none s u) (hc : u.cpsr = s.cpsr) (hn : n ≠ 15)
    (hmem : n ∉ regs) (v : Word) : LoadedWords s.cpsr.mode regs addr (some (n, v)) s (setReg n v u) := by
  rw [setReg_eq hn, hc]
  refine ⟨fun k r hk hr => ?_, ?_, fun m' n' hn' hregs hbase => ?_⟩
  · have hne : r ≠ n := by
      rintro rfl
      exact hmem (List.mem_of_getElem? hk)
    rw [getRegIn_putRegIn_other (fun he => hne (physIndex_inj hr hn he))]
    exact h.values k r hk hr
  · rintro _ ⟨⟩ -
    exact getRegIn_putRegIn_same hn v u
  · rw [getRegIn_putRegIn_other (hbase (n, v) rfl)]
    exact h.keeps m' n' hn' hregs (by simp)

theorem afterLoads_setReg (h : AfterLoads regs addr p s u) (hn : n ≠ 15) (v : Word) :
    AfterLoads regs addr p s (setReg n v u) := by
  rw [setReg_eq hn]
  exact ⟨h.branch, h.stay, h.cpsr, by rw [putRegIn, h.only]⟩

/-- Everything the loads of THUMB state do outside the I/O region, after the write of the base, if any (R383, R385). -/
theorem loadWords_setReg_loaded {k : Nat} (list : BitVec k) {base : Option (RegNum × Word)} (hb : ∀ x ∈ base, x.1 ≠ 15)
    (hio : BlockOutsideIo (movedRegs (listed list)).length addr) :
    let t := loadWords setReg (movedRegs (listed list)) addr (base.elim s fun x => setReg x.1 x.2 s)
    LoadedWords s.cpsr.mode (movedRegs (listed list)) addr base s t ∧
      AfterLoads (movedRegs (listed list)) addr s.cpsr s t := by
  obtain ⟨lows, hlow, hnodup, hshape⟩ := moved_shape list
  have hbase : (base.elim s fun x => setReg x.1 x.2 s) = base.elim s fun x => putRegIn s.cpsr.mode x.1 x.2 s := by
    cases base with
    | none => rfl
    | some x => exact setReg_eq (hb x rfl) x.2 s
  exact loadWords_loaded setReg s.cpsr.mode (setReg 15) s base hb (fun _ _ => rfl) _ hbase (put_setReg s)
    (fun _ _ => rfl) s.cpsr (fun v _ ht => branchTo_of_regs v ht) _ lows hlow hnodup hshape (fun _ => rfl) addr hio

end

/-! The four instructions. -/

section
variable (s : State) (r : Bool) (list : Byte) (rb : LowReg)

/-- PUSH at any address: the stores, then the write of SP (R382). -/
theorem tPush_exec :
    let pushed := listed list ++ if r then [14] else []
    let top := getReg 13 s - movedBytes pushed
    exec (.tPush r list) s = andThen (storeAll top ((movedRegs pushed).map (storedThumbReg · s)) s) fun u =>
      .next (setReg 13 top u) := by
  intro pushed top
  have hstores := storeWords_all storedThumbReg (storedThumbReg · s) s (movedRegs pushed) top s ⟨rfl, rfl, rfl⟩
    fun q _ t ht => storedThumbReg_sameRegs ht q
  change execTPush r list s = _
  rw [execTPush, blockBytes_eq, blockRegs_eq, listed_pushed, hstores]

/-- POP loads its registers and then writes SP (R383). -/
theorem tPop_exec :
    let popped := listed list ++ if r then [15] else []
    exec (.tPop r list) s = .next (setReg 13 (getReg 13 s + movedBytes popped)
      (loadWords setReg (movedRegs popped) (getReg 13 s) s)) := by
  intro popped
  change execTPop r list s = _
  rw [execTPop, blockBytes_eq, blockRegs_eq, listed_popped]

/-- STMIA at any address (R384). -/
theorem tStmia_exec :
    let regs := movedRegs (listed list)
    let base := some (low rb, getReg (low rb) s + movedBytes (listed list))
    exec (.tStmia rb list) s =
      storeAllBack (getReg (low rb) s) (regs.map (blockValue (instrAddr s + 6) regs base s)) base s := by
  intro regs base
  have hb : ∀ x ∈ base, x.1 ≠ 15 := by simpa [base] using low_ne rb
  change execTStmia rb list s = _
  rw [execTStmia, blockBytes_eq, blockRegs_eq]
  exact storeBlock_all 6 storedThumbReg (fun _ _ => rfl) base hb _ (fun _ => rfl) regs (movedRegs_ne _)
    (moved_nodup list) _ s

/-- LDMIA writes its base and then loads its registers (R385). -/
theorem tLdmia_exec :
    exec (.tLdmia rb list) s = .next (loadWords setReg (movedRegs (listed list)) (getReg (low rb) s)
      (setReg (low rb) (getReg (low rb) s + movedBytes (listed list)) s)) := by
  change execTLdmia rb list s = _
  rw [execTLdmia, blockBytes_eq, blockRegs_eq]

end

/-- Settles O49: the stores are `storeAll` and `storeAllBack`, which outside the I/O region write bytes and the base;
the loads are `loadWords`, for POP with SP written after them. -/
theorem thumbBlockTransfer : Obligations.ThumbBlockTransfer := by
  intro s r list rb regs pushed popped base back top pushedWords words
  have hpush : exec (.tPush r list) s = andThen (storeAll top pushedWords s) fun u => .next (setReg 13 top u) :=
    tPush_exec s r list
  have hstmia : exec (.tStmia rb list) s = storeAllBack base words (some (low rb, back)) s := tStmia_exec s list rb
  refine ⟨hpush, hstmia, fun hwf hio => ?_, fun hio => ?_, fun hwf hio => ?_, fun hio => ?_⟩
  · rw [hpush]
    exact storeAll_thenBase (by decide) top pushedWords (by rwa [List.length_map]) hwf
  · have hpop := tPop_exec s r list
    have hsp := sp_not_mem_popped r list
    have hload := loadWords_setReg_loaded (s := s) (addr := getReg 13 s) (stackList r 15 list) (base := none) (by simp)
    rw [listed_popped] at hsp hload
    obtain ⟨hwords, hafter⟩ := hload hio
    exact ⟨_, hpop, loadedWords_setReg hwords hafter.cpsr (by decide) hsp _, afterLoads_setReg hafter (by decide) _⟩
  · have hne : words ≠ [] := by simpa [words] using movedRegs_ne _
    have hio' : BlockOutsideIo words.length base := by rwa [List.length_map]
    rw [hstmia, storeAllBack_eq_storeAll (low_ne rb) back hne hio']
    exact storeAll_thenBase (low_ne rb) back words hio' hwf
  · exact ⟨_, tLdmia_exec s list rb, loadWords_setReg_loaded list (base := some (low rb, back))
      (by simpa using low_ne rb) hio⟩

end Sys2Proof.Proofs

/-! The scheduler and the end of a step (O8 to O10). -/

namespace Sys2Proof.Proofs

open Sys2Proof.Machine Sys2Proof.Laws

/-! The next event to fire (R441, R442). -/

/-- The (due, seq) of `a` is at most that of `b` (R442). -/
def FiresNoLater (a b : Event) : Prop :=
  a.due < b.due ∨ (a.due = b.due ∧ a.seq ≤ b.seq)

theorem firesBefore_eq_false {a b : Event} : firesBefore b a = false ↔ FiresNoLater a b := by
  simp only [firesBefore, FiresNoLater, Bool.or_eq_false_iff, Bool.and_eq_false_iff, decide_eq_false_iff_not,
    beq_eq_false_iff_ne]
  omega

theorem FiresNoLater.of_firesBefore {a b : Event} (h : firesBefore a b = true) : FiresNoLater a b := by
  simp only [firesBefore, Bool.or_eq_true, Bool.and_eq_true, decide_eq_true_eq, beq_iff_eq] at h
  exact h.imp_right fun ⟨hdue, hseq⟩ => ⟨hdue, hseq.le⟩

theorem FiresNoLater.refl (a : Event) : FiresNoLater a a :=
  .inr ⟨rfl, le_rfl⟩

theorem FiresNoLater.trans {a b c : Event} (h : FiresNoLater a b) (h' : FiresNoLater b c) : FiresNoLater a c := by
  unfold FiresNoLater at *
  omega

/-- One of the events, none of which fires before it. -/
def IsFirst (e : Event) (events : List Event) : Prop :=
  e ∈ events ∧ ∀ x ∈ events, FiresNoLater e x

/-- `earlier` keeps the first of its candidates. -/
theorem foldl_earlier (events : List Event) (a : Event) :
    ∃ e, events.foldl earlier (some a) = some e ∧ IsFirst e (a :: events) := by
  induction events generalizing a with
  | nil => exact ⟨a, rfl, by simp, by simp [FiresNoLater.refl]⟩
  | cons b rest ih =>
    rw [List.foldl_cons, earlier]
    by_cases hb : firesBefore b a = true
    · obtain ⟨e, he, hmem, hfirst⟩ := ih b
      rw [if_pos hb]
      refine ⟨e, he, List.mem_cons_of_mem a hmem, List.forall_mem_cons.mpr ⟨?_, hfirst⟩⟩
      exact (hfirst b List.mem_cons_self).trans (.of_firesBefore hb)
    · obtain ⟨e, he, hmem, hfirst⟩ := ih a
      obtain ⟨ha, hrest⟩ := List.forall_mem_cons.mp hfirst
      have hab : FiresNoLater a b := firesBefore_eq_false.mp (Bool.eq_false_of_not_eq_true hb)
      rw [if_neg hb]
      refine ⟨e, he, ?_, List.forall_mem_cons.mpr ⟨ha, List.forall_mem_cons.mpr ⟨ha.trans hab, hrest⟩⟩⟩
      exact (List.mem_cons.mp hmem).elim (fun h => h ▸ List.mem_cons_self)
        fun h => List.mem_cons_of_mem a (List.mem_cons_of_mem b h)

/-- Either no event is due, or `nextDue` gives the first of those that are. -/
theorem nextDue_cases (now : Nat) (queue : List Event) :
    (nextDue now queue = none ∧ ∀ e ∈ queue, now < e.due) ∨
      ∃ e, nextDue now queue = some e ∧ IsFirst e (queue.filter fun x => decide (x.due ≤ now)) := by
  unfold nextDue
  cases hdue : queue.filter fun x => decide (x.due ≤ now) with
  | nil => exact .inl ⟨rfl, by simpa using hdue⟩
  | cons a rest => exact .inr (foldl_earlier rest a)

theorem nextDue_eq_none {now : Nat} {queue : List Event} :
    nextDue now queue = none ↔ ∀ e ∈ queue, now < e.due := by
  rcases nextDue_cases now queue with ⟨hnone, hlate⟩ | ⟨e, hsome, hmem, -⟩
  · exact iff_of_true hnone hlate
  · obtain ⟨hqueue, hdue⟩ := List.mem_filter.mp hmem
    exact iff_of_false (by simp [hsome]) fun hlate => Nat.not_le.mpr (hlate e hqueue) (of_decide_eq_true hdue)

theorem nextDue_eq_some {now : Nat} {queue : List Event} {e : Event} (h : nextDue now queue = some e) :
    e ∈ queue ∧ e.due ≤ now ∧ ∀ x ∈ queue, x.due ≤ now → FiresNoLater e x := by
  rcases nextDue_cases now queue with ⟨hnone, -⟩ | ⟨e', hsome, hmem, hfirst⟩
  · simp [hnone] at h
  · cases hsome.symm.trans h
    obtain ⟨hqueue, hdue⟩ := List.mem_filter.mp hmem
    exact ⟨hqueue, of_decide_eq_true hdue,
      fun x hx hxdue => hfirst x (List.mem_filter.mpr ⟨hx, decide_eq_true hxdue⟩)⟩

/-- Settles O9: the loop of `tick` and a handler's calls are the recursions `fireEvents_eq` and
`runHandlerFrom_eq`. -/
theorem nextDueIsLeast : Obligations.NextDueIsLeast := by
  refine ⟨fun now queue => ⟨nextDue_eq_none, fun e he => nextDue_eq_some he⟩, fun _ _ _ => rfl, fun n s => ?_,
    fun _ _ => rfl, fun e done s => runHandlerFrom_eq e done s⟩
  exact fireEvents_eq { s with now := s.now + n }

/-! The tick leaves no event due (R441). -/

theorem fireFewer_noneDue {k : Nat} {s t : State} (h : fireFewer k s = .next t) : nextDue t.now t.queue = none := by
  induction k generalizing s with
  | zero => cases h
  | succ k ih =>
    rw [fireFewer, fireBody] at h
    split at h
    · cases h
      assumption
    · obtain ⟨u, -, hu⟩ := andThen_eq_next.mp h
      exact ih hu

theorem fireEvents_noneDue {s t : State} (h : fireEvents s = .next t) : ∀ e ∈ t.queue, t.now < e.due := by
  obtain ⟨k, hk⟩ := unbounded_next h
  exact nextDue_eq_none.mp (fireFewer_noneDue hk)

/-- The tick at the end of a step advances time by a cycle and the pending ones (R464, R484). -/
theorem endStep_now {s t : State} (h : endStep s = .next t) : t.now = s.now + (1 + s.pendingCycles) := by
  rw [(endStep_frame h).core]

/-- No instruction advances time, storing or not. -/
theorem InstrFrame.now {b : Bool} {s t : State} (h : InstrFrame b s t) : t.now = s.now := by
  cases b <;> rw [h]

/-- Time passes in the tick alone: a step is its tick, from a state with the same time. -/
theorem step_reaches_tick_now {s t : State} (h : step s = .next t) :
    ∃ v : State, v.now = s.now ∧ endStep v = .next t := by
  have hrefill : (refill { s with halted := false }).now = s.now := by rw [refill_only]
  obtain ⟨-, -, hidle⟩ | ⟨-, hirq⟩ | ⟨u, v, rfl, hexec, htick⟩ := step_cases h
  · exact ⟨s, rfl, hidle⟩
  · exact ⟨takeIrq (readied s), hrefill, hirq⟩
  · exact ⟨v, (exec_instrFrame _ (readied s) v hexec).now.trans hrefill, htick⟩

/-- Settles O10: the tick advances time by a cycle at least, and ends when no event is due. -/
theorem stepTicks : Obligations.StepTicks := by
  intro s t h
  obtain ⟨v, hnow, htick⟩ := step_reaches_tick_now h
  refine ⟨?_, fireEvents_noneDue htick⟩
  rw [endStep_now htick, hnow]
  omega

/-! Halting and interrupts at a step boundary (O7, O8). -/

/-- A step of a halted machine that nothing wakes is its tick (R421). -/
theorem step_idle {s : State} (hh : s.halted = true) (hw : wakePending s = false) : step s = endStep s := by
  have hb : beginStep s = .idle s := if_pos (by rw [hh, hw]; rfl)
  rw [step, hb]

/-- With no event due by then, the tick at the end of a step only advances time. -/
theorem endStep_quiet {s : State} (h : ∀ e ∈ s.queue, s.now + 1 + s.pendingCycles < e.due) :
    endStep s = .next { s with now := s.now + 1 + s.pendingCycles, pendingCycles := 0 } := by
  rw [endStep, tick, ← Nat.add_assoc]
  exact fireEvents_none (nextDue_eq_none.mpr h)

/-- Settles O8: the step is its tick, which finds no event due. -/
theorem haltedStepIdles : Obligations.HaltedStepIdles := by
  intro s hh hw hq
  rw [step_idle hh (by simp [wakePending, hw]), endStep_quiet hq]

/-- A fetch advances R15 by one instruction. -/
theorem refillOne_r15 (s : State) : (refillOne s).r15 = s.r15 + instrBytes s := by
  obtain ⟨x, hx⟩ := refillOne_eq_read s
  rw [hx]

theorem refillOne_instrBytes (s : State) : instrBytes (refillOne s) = instrBytes s := by
  obtain ⟨x, hx⟩ := refillOne_eq_read s
  rw [hx]
  rfl

/-- After the refill R15 is two instructions past the next one (R44). -/
theorem refill_r15 {s : State} (h : s.pipe.length ≤ 1) : (refill s).r15 = nextAddr s + 2 * instrBytes s := by
  obtain h | h := Nat.le_one_iff_eq_zero_or_eq_one.mp h <;> simp only [refill, nextAddr, h]
  · rw [refillOne_r15, refillOne_r15, refillOne_instrBytes, two_instrBytes]
    simp
  · rw [refillOne_r15]
    bv_omega

/-- The link of an IRQ is four past the next instruction, in both states (R412). -/
theorem irq_link (next : Word) (s : State) :
    next + 2 * instrBytes s - (if s.cpsr.t then 0 else 4) = next + 4 := by
  unfold instrBytes
  split <;> bv_omega

/-- An IRQ entry after the refill (R412): of what the refill changes, the open-bus latch and `ext` are left. -/
theorem takeIrq_refill {s : State} (h : s.pipe.length ≤ 1) :
    takeIrq (refill s) = enterException .irq 0x18 (nextAddr s + 4)
      { s with openBus := (refill s).openBus, ext := (refill s).ext } := by
  have hcpsr : (refill s).cpsr = s.cpsr := by rw [refill_only]
  rw [takeIrq, refill_r15 h, hcpsr, irq_link, refill_only]
  rfl

/-- Settles O7: the step is `step_irq`, whose entry has the link of the next instruction. -/
theorem stepTakesIrq : Obligations.StepTakesIrq := by
  intro s hp hirq hi
  have hstep := step_irq hirq hi (by rw [refill_only]; exact ⟨rfl, rfl, rfl, rfl⟩)
  rw [takeIrq_refill (s := { s with halted := false }) hp] at hstep
  exact ⟨_, _, _, hstep, entered_enterException (by decide) _ (by decide) _⟩

end Sys2Proof.Proofs

/-! The IF register (O56). -/

namespace Sys2Proof.Proofs

open Sys2Proof.Machine Sys2Proof.Laws

/-- The bits of IF after an interrupt is raised (R402). -/
theorem getLsbD_raised (f : BitVec 14) (k : Fin 14) (j : Nat) :
    (f ||| (1#14 <<< k.val)).getLsbD j = (f.getLsbD j || decide (j = k.val)) := by
  have hk := k.isLt
  rw [BitVec.getLsbD_or, BitVec.getLsbD_shiftLeft, BitVec.getLsbD_one]
  congr 1
  rw [Bool.eq_iff_iff]
  simp
  omega

/-- The bits of IF after a byte is written to its byte `j` (R403). -/
theorem getLsbD_cleared (f : BitVec 14) (b : Byte) (j : Nat) {i : Nat} (hi : i < 14) :
    (f &&& ~~~((b.setWidth 16 <<< (8 * j)).setWidth 14)).getLsbD i =
      (f.getLsbD i && !(decide (i / 8 = j) && b.getLsbD (i % 8))) := by
  rw [BitVec.getLsbD_and, BitVec.getLsbD_not, BitVec.getLsbD_setWidth,
    getLsbD_setWidth_shiftLeft _ _ (show i < 16 by omega)]
  by_cases hj : i / 8 = j <;> simp [hi, hj]

/-- A byte store to byte `j` of IF clears the bits it has set (R403), at every mirror. -/
theorem store_if {a : Word} (hio : isIo a = true) {j : Nat} (hj : j < 2) (h : a.toNat % 0x400 = 0x202 + j) (v : Word)
    (s : State) : store .byte a v s =
      .next { s with iff := s.iff &&& ~~~(((byteAt v 0).setWidth 16 <<< (8 * j)).setWidth 14) } := by
  have hreg : ioReg (BitVec.ofNat 10 (0x202 + j)) = .iff j := by
    obtain rfl | rfl : j = 0 ∨ j = 1 := by omega
    all_goals rfl
  simp only [store, memWrite, alignTo, byteWrite, busWrite, locate_at_io hio h, ioWriteByte, hreg]

/-- Settles O56: a raised bit is a shifted one, and a byte written to IF is masked out. -/
theorem interruptFlags : Obligations.InterruptFlags := by
  refine ⟨fun s k => ⟨_, rfl, fun j _ => getLsbD_raised s.iff k j⟩, fun s a v j hj hio h => ?_⟩
  refine ⟨_, store_if hio hj h v s, fun i hi => ?_⟩
  rw [getLsbD_cleared s.iff _ j hi, getLsbD_byteAt v 0 _ (Nat.mod_lt i (by decide)), Nat.mul_zero, Nat.zero_add]

end Sys2Proof.Proofs

/-! Returns from exceptions (O43). -/

namespace Sys2Proof.Proofs

open Sys2Proof.Machine Sys2Proof.Laws

theorem condPassed_al (s : State) : condPassed .al s = true := by
  have hall (k : BitVec 4) : (condMask .al).getLsbD k.toNat = true := by
    revert k
    decide
  exact hall _

/-- Restoring CPSR after an exception entry gives back the one saved (R411, R417). -/
theorem restoreCpsr_enterException {m : Mode} (hm : spsrIndex m ≠ none) (vector lr : Word) (s : State) :
    (restoreCpsr (enterException m vector lr s)).cpsr = s.cpsr := by
  obtain ⟨k, hk⟩ := Option.ne_none_iff_exists'.mp hm
  have hmode : (enterException m vector lr s).cpsr.mode = m := by
    cases m <;> rfl
  have hsaved : (enterException m vector lr s).spsr[k] = saveCpsr s.cpsr := by
    simp [enterException, saveSpsr, hk]
  simp only [restoreCpsr, hmode, hk, hsaved, restored_save]

/-- A return undoes an exception entry (R411, R417): CPSR and every register but R14 of the mode entered are as they
were, and R15 is the address returned to. -/
theorem return_enterException {m : Mode} (hm : spsrIndex m ≠ none) {vector : Word} (hv : alignPc false vector = vector)
    (lr v : Word) (s : State) :
    let t := returnFromException v (enterException m vector lr s)
    t.cpsr = s.cpsr ∧ t.r15 = alignPc s.cpsr.t v ∧ t.mem = s.mem ∧
      ∀ m' n, n ≠ 15 → physIndex m' n ≠ physIndex m 14 → getRegIn m' n t = getRegIn m' n s := by
  intro t
  have hentered := entered_enterException hm lr hv s
  have hcpsr : t.cpsr = s.cpsr := restoreCpsr_enterException hm vector lr s
  have hjump : Jumps v t.cpsr (enterException m vector lr s) t := (jumps_return v _).2
  refine ⟨hcpsr, ?_, ?_, fun m' n hn hp => ?_⟩
  · rw [hjump, hcpsr]
  · rw [hjump, hentered.only]
  · rw [← hentered.keeps m' n hn hp]
    exact getRegIn_congr hn (returnFromException_regs v _)

/-- In the handler R14 holds the link of the entry. -/
theorem getReg_link {m : Mode} (hm : spsrIndex m ≠ none) {vector : Word} (hv : alignPc false vector = vector)
    (lr : Word) (s : State) : getReg 14 (enterException m vector lr s) = lr :=
  (entered_enterException hm lr hv s).link

/-- `MOVS PC, R14` (R418). -/
theorem movs_pc_lr (s : State) :
    exec (.mov .al true 0 15 (.shiftImm 0 .lsl 14)) s = .next (returnFromException (getReg 14 s) s) :=
  if_pos (condPassed_al s)

/-- `SUBS PC, R14, #4` (R418). -/
theorem subs_pc_lr (s : State) :
    exec (.sub .al true 14 15 (.imm 0 4)) s = .next (returnFromException (getReg 14 s - 4) s) :=
  if_pos (condPassed_al s)

/-- What `SUBS PC, R14, #4` makes of an IRQ's link is the address of the next instruction (R412). -/
theorem irq_link_returns (s : State) :
    s.r15 - (if s.cpsr.t then 0 else 4) - 4 = s.r15 - 2 * instrBytes s := by
  unfold instrBytes
  split <;> bv_omega

/-- Settles O43: each handler's return is `returnFromException` of the link, which undoes the entry. -/
theorem exceptionReturns : Obligations.ExceptionReturns := by
  intro s
  refine ⟨⟨_, subs_pc_lr _, ?_⟩, ⟨_, movs_pc_lr _, ?_⟩, ⟨_, movs_pc_lr _, ?_⟩⟩
  · rw [takeIrq, getReg_link (by decide) (by decide), irq_link_returns]
    exact return_enterException (by decide) (by decide) _ _ s
  · rw [takeSwi, getReg_link (by decide) (by decide)]
    exact return_enterException (by decide) (by decide) _ _ s
  · rw [takeUndefined, getReg_link (by decide) (by decide)]
    exact return_enterException (by decide) (by decide) _ _ s

end Sys2Proof.Proofs

/-! DMA transfers (O59, O60). Outside the I/O region no write starts anything, so a transfer is its units' bytes written
one after another (`unitsCopied`) while the latches move (`movedChannel`). -/

namespace Sys2Proof.Proofs

open Sys2Proof.Machine Sys2Proof.Laws

/-! Triggers (R462). -/

theorem andThen_self (r : Result) : andThen r .next = r := by
  cases r <;> rfl

/-- A channel of a trigger's timing is run as `runArmed` runs it. -/
theorem triggerChannel_armed {e : DmaEvent} {timing : BitVec 2} {ch : Fin 4}
    (h : ∀ c, triggered e ch c = (dmaEnabled c && dmaTiming c == timing)) (s : State) :
    triggerChannel e ch s =
      if s.dma[ch].cntH.getLsbD 15 = true ∧ s.dma[ch].cntH.extractLsb' 12 2 = timing then startDma ch s
      else .next s := by
  simp only [triggerChannel, h, Bool.and_eq_true, beq_iff_eq]
  rfl

/-- HBlank and VBlank ask every channel in ascending order. -/
theorem triggerDma_all {e : DmaEvent} {timing : BitVec 2}
    (h : ∀ ch c, triggered e ch c = (dmaEnabled c && dmaTiming c == timing)) (s : State) :
    triggerDma e s = runArmed timing [0, 1, 2, 3] s := by
  simp only [triggerDma, runArmed, triggerChannel_armed (h _), andThen_self]

/-- A sound FIFO asks its own channel (R462). -/
theorem triggerChannel_fifo {i : Fin 2} {ch : Fin 4} (h : ch.val = i.val + 1) (s : State) :
    triggerChannel (.fifo i) ch s = runArmed 3 [ch] s := by
  have harmed (c : BitVec 16) : triggered (.fifo i) ch c = (dmaEnabled c && dmaTiming c == 3) := by
    rw [triggered, h, beq_self_eq_true, Bool.and_true]
  rw [triggerChannel_armed harmed, runArmed]
  exact (andThen_self _).symm

/-- A sound FIFO asks no other channel (R462). -/
theorem triggerChannel_fifo_other {i : Fin 2} {ch : Fin 4} (h : ch.val ≠ i.val + 1) (s : State) :
    triggerChannel (.fifo i) ch s = .next s := by
  rw [triggerChannel, triggered, beq_eq_false_iff_ne.mpr h, Bool.and_false, Bool.and_false, if_neg Bool.false_ne_true]

/-- Each sound FIFO runs one channel. -/
theorem triggerDma_fifo (s : State) :
    triggerDma (.fifo 0) s = runArmed 3 [1] s ∧ triggerDma (.fifo 1) s = runArmed 3 [2] s := by
  have hnone (i : Fin 2) (u : State) :
      triggerChannel (.fifo i) 0 u = .next u ∧ triggerChannel (.fifo i) 3 u = .next u :=
    ⟨triggerChannel_fifo_other (Nat.succ_ne_zero _).symm u, triggerChannel_fifo_other (by simp; omega) u⟩
  constructor
  · simp only [triggerDma, hnone, triggerChannel_fifo (i := 0) (ch := 1) rfl,
      triggerChannel_fifo_other (i := 0) (ch := 2) (by decide), andThen_next, andThen_self]
  · simp only [triggerDma, hnone, triggerChannel_fifo (i := 1) (ch := 2) rfl,
      triggerChannel_fifo_other (i := 1) (ch := 1) (by decide), andThen_next, andThen_self]

/-! One unit. -/

/-- The latches of a channel after `n` units (R453, R460). -/
def movedChannel (p : DmaPlan) (n : Nat) (d : DmaChannel) : DmaChannel :=
  { d with
    isrc := d.isrc + BitVec.ofNat 32 n * dmaDelta p.src p.width
    idst := d.idst + BitVec.ofNat 32 n * dmaDelta p.dst p.width }

/-- The state with one unit copied from `src` to `dst` (R454). -/
def unitCopied (w : Width) (src dst : Word) (s : State) : State :=
  pokes (bytesOfStore s.params w dst (memRead w src s).1) s

/-- The state with units copied one after another, the addresses moving as `p` says. -/
def unitsCopied (p : DmaPlan) : Nat → Word → Word → State → State
  | 0, _, _, s => s
  | n + 1, src, dst, s =>
    unitsCopied p n (src + dmaDelta p.src p.width) (dst + dmaDelta p.dst p.width) (unitCopied p.width src dst s)

/-- No unit reads or writes the I/O region. -/
def UnitsOutsideIo (p : DmaPlan) (n : Nat) (src dst : Word) : Prop :=
  ∀ k, k < n → isIo (src + BitVec.ofNat 32 k * dmaDelta p.src p.width) = false ∧
    isIo (dst + BitVec.ofNat 32 k * dmaDelta p.dst p.width) = false

theorem moved_succ (a delta : Word) (k : Nat) :
    a + delta + BitVec.ofNat 32 k * delta = a + BitVec.ofNat 32 (k + 1) * delta := by
  rw [BitVec.ofNat_add, BitVec.add_mul, BitVec.add_assoc, BitVec.add_comm delta]
  simp

theorem UnitsOutsideIo.head {p : DmaPlan} {n : Nat} {src dst : Word} (h : UnitsOutsideIo p (n + 1) src dst) :
    isIo src = false ∧ isIo dst = false := by
  simpa using h 0 n.succ_pos

theorem UnitsOutsideIo.tail {p : DmaPlan} {n : Nat} {src dst : Word} (h : UnitsOutsideIo p (n + 1) src dst) :
    UnitsOutsideIo p n (src + dmaDelta p.src p.width) (dst + dmaDelta p.dst p.width) := by
  intro k hk
  rw [moved_succ, moved_succ]
  exact h (k + 1) (Nat.succ_lt_succ hk)

theorem unitCopied_mem (w : Width) (src dst : Word) (s : State) :
    unitCopied w src dst s = { s with mem := (unitCopied w src dst s).mem } :=
  pokes_mem _ s

theorem unitsCopied_mem (p : DmaPlan) (n : Nat) (src dst : Word) (s : State) :
    unitsCopied p n src dst s = { s with mem := (unitsCopied p n src dst s).mem } := by
  induction n generalizing src dst s with
  | zero => rfl
  | succ n ih => exact only_mem_trans (unitCopied_mem p.width src dst s) (ih _ _ _)

/-! Bytes reach memory whatever the DMA registers hold. -/

theorem poke_setDma (x : Word × Byte) (ch : Fin 4) (d : DmaChannel) (s : State) :
    poke x (setDma ch d s) = setDma ch d (poke x s) := by
  simp only [poke, setDma_params]
  split
  any_goals rfl
  unfold putCell
  split <;> rfl

theorem pokes_setDma (l : List (Word × Byte)) (ch : Fin 4) (d : DmaChannel) (s : State) :
    pokes l (setDma ch d s) = setDma ch d (pokes l s) := by
  induction l generalizing s with
  | nil => rfl
  | cons x rest ih =>
    change pokes rest (poke x (setDma ch d s)) = _
    rw [poke_setDma, ih]
    rfl

theorem unitCopied_setDma {w : Width} {src : Word} (h : isIo src = false) (dst : Word) (ch : Fin 4) (d : DmaChannel)
    (s : State) : unitCopied w src dst (setDma ch d s) = setDma ch d (unitCopied w src dst s) := by
  have hread : (memRead w src (setDma ch d s)).1 = (memRead w src s).1 := memRead_congr w h rfl rfl rfl
  rw [unitCopied, hread, pokes_setDma]
  rfl

theorem unitsCopied_setDma {p : DmaPlan} {n : Nat} {src dst : Word} (h : UnitsOutsideIo p n src dst) (ch : Fin 4)
    (d : DmaChannel) (s : State) :
    unitsCopied p n src dst (setDma ch d s) = setDma ch d (unitsCopied p n src dst s) := by
  induction n generalizing src dst s with
  | zero => rfl
  | succ n ih => rw [unitsCopied, unitCopied_setDma h.head.1, ih h.tail]; rfl

/-! Units one after another. -/

theorem setDma_self (ch : Fin 4) (s : State) : setDma ch s.dma[ch] s = s := by
  simp [setDma]

theorem movedChannel_zero (p : DmaPlan) (d : DmaChannel) : movedChannel p 0 d = d := by
  simp [movedChannel]

theorem movedChannel_one (p : DmaPlan) (d : DmaChannel) :
    movedChannel p 1 d =
      { d with isrc := d.isrc + dmaDelta p.src p.width, idst := d.idst + dmaDelta p.dst p.width } := by
  simp [movedChannel]

theorem movedChannel_succ (p : DmaPlan) (n : Nat) (d : DmaChannel) :
    movedChannel p n (movedChannel p 1 d) = movedChannel p (n + 1) d := by
  rw [movedChannel_one, movedChannel, moved_succ, moved_succ]
  rfl

/-- Outside the I/O region a unit copies its bytes, and the latches move (R453, R454). -/
theorem dmaUnit_outsideIo {ch : Fin 4} (p : DmaPlan) {s : State} (hsrc : isIo s.dma[ch].isrc = false)
    (hdst : isIo s.dma[ch].idst = false) : dmaUnit startDma ch p s =
      .next (setDma ch (movedChannel p 1 s.dma[ch]) (unitCopied p.width s.dma[ch].isrc s.dma[ch].idst s)) := by
  have hread : (memRead p.width s.dma[ch].isrc s).2 = s := by rw [memRead_noIo _ hsrc]
  have hwrite : memWrite startDma p.width s.dma[ch].idst (memRead p.width s.dma[ch].isrc s).1 s =
      .next (unitCopied p.width s.dma[ch].isrc s.dma[ch].idst s) := store_pokes _ _ hdst
  have hdma : (unitCopied p.width s.dma[ch].isrc s.dma[ch].idst s).dma = s.dma := by rw [unitCopied_mem]
  simp only [dmaUnit, hread, hwrite, andThen_next, hdma, movedChannel_one]

/-- Outside the I/O region units copy their bytes one after another, and the latches move by all of them. -/
theorem dmaUnits_outsideIo {ch : Fin 4} {p : DmaPlan} {n : Nat} {s : State}
    (h : UnitsOutsideIo p n s.dma[ch].isrc s.dma[ch].idst) : dmaUnits startDma ch p n s =
      .next (setDma ch (movedChannel p n s.dma[ch]) (unitsCopied p n s.dma[ch].isrc s.dma[ch].idst s)) := by
  induction n generalizing s with
  | zero => rw [movedChannel_zero, unitsCopied, setDma_self, dmaUnits]
  | succ n ih =>
    have hmoved (u : State) := setDma_get_same ch (movedChannel p 1 s.dma[ch]) u
    have htail : UnitsOutsideIo p n (movedChannel p 1 s.dma[ch]).isrc (movedChannel p 1 s.dma[ch]).idst := by
      rw [movedChannel_one]
      exact h.tail
    rw [dmaUnits, dmaUnit_outsideIo p h.head.1 h.head.2, andThen_next, ih (by rw [hmoved]; exact htail), hmoved,
      unitsCopied_setDma htail, setDma_setDma, movedChannel_succ, unitsCopied, movedChannel_one]

/-! The plan of a transfer (R453). -/

theorem fifoTransfer_iff {ch : Fin 4} {c : BitVec 16} :
    fifoTransfer ch c = true ↔ c.extractLsb' 12 2 = 3 ∧ (ch = 1 ∨ ch = 2) := by
  simp only [fifoTransfer, dmaTiming, Bool.and_eq_true, Bool.or_eq_true, beq_iff_eq]

section
variable (ch : Fin 4) (d : DmaChannel)

theorem dmaPlan_len :
    (dmaPlan ch d).len = if fifoTransfer ch d.cntH = true then 4 else dmaLength ch d.cntL := by
  unfold dmaPlan
  cases fifoTransfer ch d.cntH <;> rfl

theorem dmaPlan_unitBytes : unitBytes (dmaPlan ch d).width =
    if fifoTransfer ch d.cntH = true ∨ dmaWordType d.cntH = true then 4 else 2 := by
  unfold dmaPlan
  cases fifoTransfer ch d.cntH <;> cases dmaWordType d.cntH <;> rfl

theorem dmaPlan_dst : (dmaPlan ch d).dst = if fifoTransfer ch d.cntH = true then 2 else dstCtrl d.cntH := by
  unfold dmaPlan
  cases fifoTransfer ch d.cntH <;> rfl

/-- Source control 3 increments, as 0 does (R456). -/
theorem dmaPlan_srcDelta (w : Width) : dmaDelta (dmaPlan ch d).src w = dmaDelta (srcCtrl d.cntH) w := by
  have hsrc : (dmaPlan ch d).src = if srcCtrl d.cntH = 3 then 0 else srcCtrl d.cntH := by
    unfold dmaPlan
    cases fifoTransfer ch d.cntH <;> rfl
  rw [hsrc]
  split
  case isTrue h =>
    rw [h]
    rfl
  case isFalse => rfl

end

/-! The whole transfer. -/

/-- The state after a transfer outside the I/O region, by its plan. -/
def transferred (ch : Fin 4) (p : DmaPlan) (s : State) : State :=
  dmaFinish ch s.dma[ch].cntH p
    (setDma ch (movedChannel p p.len s.dma[ch]) (unitsCopied p p.len s.dma[ch].isrc s.dma[ch].idst s))

theorem startDma_outsideIo {ch : Fin 4} {s : State}
    (h : UnitsOutsideIo (dmaPlan ch s.dma[ch]) (dmaPlan ch s.dma[ch]).len s.dma[ch].isrc s.dma[ch].idst) :
    startDma ch s = .next (transferred ch (dmaPlan ch s.dma[ch]) s) := by
  rw [startDma_eq, runBody, dmaUnits_outsideIo h]
  rfl

theorem raiseDmaIrq_eq (ch : Fin 4) (c : BitVec 16) (s : State) :
    raiseDmaIrq ch c s = { s with iff := if c.getLsbD 14 then s.iff ||| (1#14 <<< (8 + ch.val)) else s.iff } := by
  have hbit : (8 + ch.val) % 14 = 8 + ch.val := Nat.mod_eq_of_lt (by omega)
  unfold raiseDmaIrq dmaIrq
  split
  · simp only [raiseInterrupt, Fin.ofNat, hbit]
  · rfl

/-- What a transfer outside the I/O region leaves (R453, R455, R460, R463, R464). -/
theorem transferred_eq (ch : Fin 4) (p : DmaPlan) (s : State) :
    let d := s.dma[ch]
    transferred ch p s = { s with
      mem := (unitsCopied p p.len d.isrc d.idst s).mem
      dma := s.dma.set ch (finishedChannel d.cntH p (movedChannel p p.len d))
      iff := if d.cntH.getLsbD 14 then s.iff ||| (1#14 <<< (8 + ch.val)) else s.iff
      pendingCycles := s.pendingCycles + p.len } := by
  intro d
  rw [transferred, dmaFinish, raiseDmaIrq_eq, setDma_get_same, setDma_setDma, unitsCopied_mem]
  rfl

/-- The channel after its transfer: armed if it repeats with a timing other than Immediate, the destination reloaded
under control 3 (R453, R455). -/
theorem finishedChannel_moved (p : DmaPlan) (n : Nat) (d : DmaChannel) :
    finishedChannel d.cntH p (movedChannel p n d) = { d with
      cntH := if d.cntH.getLsbD 9 = true ∧ d.cntH.extractLsb' 12 2 ≠ 0 then d.cntH else d.cntH &&& 0x7FFF
      isrc := d.isrc + BitVec.ofNat 32 n * dmaDelta p.src p.width
      idst := if p.dst = 3 then d.dad else d.idst + BitVec.ofNat 32 n * dmaDelta p.dst p.width } := by
  simp only [finishedChannel, movedChannel, dmaRepeat, dmaTiming, Bool.and_eq_true, bne_iff_ne]

/-- Settles O59: `Run` is the recursion `startDma_eq`; outside the I/O region it is `transferred`. -/
theorem dmaTransfer : Obligations.DmaTransfer := by
  refine ⟨fun s ch => startDma_eq ch s, fun s => ⟨triggerDma_all (fun _ _ => rfl) s, triggerDma_all (fun _ _ => rfl) s,
    triggerDma_fifo s⟩, ?_⟩
  intro s ch d timing fifo len ws srcStep dstCtl dstStep hio
  have hfifo : fifoTransfer ch d.cntH = true ↔ fifo := fifoTransfer_iff
  have hlen : (dmaPlan ch d).len = len := (dmaPlan_len ch d).trans (if_congr hfifo rfl rfl)
  have hws : unitBytes (dmaPlan ch d).width = ws :=
    (dmaPlan_unitBytes ch d).trans (if_congr (or_congr_left hfifo) rfl rfl)
  have hsrc : dmaDelta (dmaPlan ch d).src (dmaPlan ch d).width = srcStep := by
    rw [dmaPlan_srcDelta, dmaDelta, hws]
    rfl
  have hctl : (dmaPlan ch d).dst = dstCtl := (dmaPlan_dst ch d).trans (if_congr hfifo rfl rfl)
  have hdst : dmaDelta (dmaPlan ch d).dst (dmaPlan ch d).width = dstStep := by
    rw [hctl, dmaDelta, hws]
  have hout : UnitsOutsideIo (dmaPlan ch d) (dmaPlan ch d).len d.isrc d.idst := by
    rw [UnitsOutsideIo, hlen, hsrc, hdst]
    exact hio
  refine ⟨_, startDma_outsideIo hout, ?_⟩
  rw [transferred_eq, finishedChannel_moved, hlen, hsrc, hdst, hctl]
  exact ⟨rfl, rfl, rfl, rfl⟩

end Sys2Proof.Proofs

/-! Incrementing transfers (O60): their units' bytes are the source range, written one after another (`copyBytes`). -/

namespace Sys2Proof.Proofs

open Sys2Proof.Machine Sys2Proof.Laws

/-! What bytes written one after another leave. -/

theorem pokes_append (l l' : List (Word × Byte)) (s : State) : pokes (l ++ l') s = pokes l' (pokes l s) :=
  List.foldl_append

theorem pokes_params (l : List (Word × Byte)) (s : State) : (pokes l s).params = s.params := by
  rw [pokes_mem]

section
variable {a : Word} {l : List (Word × Byte)} {s : State} (ha : isIo a = false) (hw : Memory.wf s.mem = true)
include ha hw

/-- An address whose place no byte is written to reads as before. -/
theorem readByte_pokes_apart (h : ∀ x ∈ l, locate s.params x.1 ≠ locate s.params a) :
    readByte a (pokes l s) = readByte a s := by
  have hnone : lastWritten s.params l a = none := by
    unfold lastWritten
    split
    · rename_i r o hl
      split
      · rfl
      · rw [Option.map_eq_none_iff, List.find?_eq_none]
        intro x hx hxl
        exact h x (List.mem_reverse.mp hx) ((beq_iff_eq.mp hxl).trans hl.symm)
    all_goals rfl
  rw [pokes_wrote l hw a ha, hnone]
  rfl

/-- An address to whose place bytes of one value only are written, at least one, reads as that value. -/
theorem readByte_pokes_same {r : Region} {o : Nat} (hl : locate s.params a = .cell r o) (hr : readOnly r = false)
    {b : Byte} (hsome : ∃ x ∈ l, locate s.params x.1 = locate s.params a)
    (hall : ∀ x ∈ l, locate s.params x.1 = locate s.params a → x.2 = b) : readByte a (pokes l s) = b := by
  obtain ⟨x, hx, hxa⟩ := hsome
  have hfound : (l.reverse.find? fun y => locate s.params y.1 == .cell r o).isSome = true :=
    List.find?_isSome.mpr ⟨x, List.mem_reverse.mpr hx, beq_iff_eq.mpr (hxa.trans hl)⟩
  obtain ⟨y, hy⟩ := Option.isSome_iff_exists.mp hfound
  have hyl : (locate s.params y.1 == .cell r o) = true := by
    simpa using List.find?_some (p := fun z : Word × Byte => locate s.params z.1 == .cell r o) hy
  have hyb : y.2 = b := hall y (List.mem_reverse.mp (List.mem_of_find?_eq_some hy)) ((beq_iff_eq.mp hyl).trans hl.symm)
  have hlast : lastWritten s.params l a = some b := by
    simp only [lastWritten, hl, hr, Bool.false_eq_true, if_false, hy, Option.map_some, hyb]
  rw [pokes_wrote l hw a ha, hlast]
  rfl

end

/-! Copying a range. -/

/-- `m` bytes read from `src` up, to be written from `dst` up. -/
def copyBytes (m : Nat) (src dst : Word) (s : State) : List (Word × Byte) :=
  (List.range m).map fun j => (dst + BitVec.ofNat 32 j, readByte (src + BitVec.ofNat 32 j) s)

theorem add_ofNat_add (a : Word) (m j : Nat) :
    a + BitVec.ofNat 32 m + BitVec.ofNat 32 j = a + BitVec.ofNat 32 (m + j) := by
  rw [BitVec.ofNat_add, BitVec.add_assoc]

theorem copyBytes_add (m k : Nat) (src dst : Word) (s : State) : copyBytes (m + k) src dst s =
    copyBytes m src dst s ++ copyBytes k (src + BitVec.ofNat 32 m) (dst + BitVec.ofNat 32 m) s := by
  simp only [copyBytes, List.range_add, List.map_append, List.map_map, add_ofNat_add]
  rfl

theorem copyBytes_congr {m : Nat} {src : Word} {s t : State}
    (h : ∀ j < m, readByte (src + BitVec.ofNat 32 j) t = readByte (src + BitVec.ofNat 32 j) s) (dst : Word) :
    copyBytes m src dst t = copyBytes m src dst s :=
  List.map_congr_left fun j hj => by rw [h j (List.mem_range.mp hj)]

theorem mem_copyBytes {m : Nat} {src dst : Word} {s : State} {x : Word × Byte} :
    x ∈ copyBytes m src dst s ↔
      ∃ j < m, (dst + BitVec.ofNat 32 j, readByte (src + BitVec.ofNat 32 j) s) = x := by
  simp [copyBytes]

theorem byteAt_self (b : Byte) : byteAt b 0 = b :=
  extract_self b

theorem byteAt_append_zero {n : Nat} (v : BitVec n) (b : Byte) : byteAt (v ++ b) 0 = b :=
  (extract_low v b 0 8 le_rfl).trans (extract_self b)

theorem byteAt_append_succ {n : Nat} (v : BitVec n) (b : Byte) (k : Nat) : byteAt (v ++ b) (k + 1) = byteAt v k :=
  extract_high v b (8 * (k + 1)) 8 (Nat.le_add_left _ _)

/-- The bytes of a halfword read, stored again. -/
theorem byteAt_halfRead (b1 b0 : Byte) :
    byteAt ((b1 ++ b0).setWidth 32) 0 = b0 ∧ byteAt ((b1 ++ b0).setWidth 32) 1 = b1 := by
  have hwide (k : Nat) (hk : k < 2) : byteAt ((b1 ++ b0).setWidth 32) k = byteAt (b1 ++ b0) k :=
    BitVec.extractLsb'_setWidth_of_le (by omega)
  constructor
  · rw [hwide 0 (by decide), byteAt_append_zero]
  · rw [hwide 1 (by decide), byteAt_append_succ, byteAt_self]

/-- The bytes of a word read, stored again. -/
theorem byteAt_wordRead (b3 b2 b1 b0 : Byte) :
    byteAt (b3 ++ b2 ++ b1 ++ b0) 0 = b0 ∧ byteAt (b3 ++ b2 ++ b1 ++ b0) 1 = b1 ∧
      byteAt (b3 ++ b2 ++ b1 ++ b0) 2 = b2 ∧ byteAt (b3 ++ b2 ++ b1 ++ b0) 3 = b3 := by
  simp only [byteAt_append_zero, byteAt_append_succ _ _ 0, byteAt_append_succ _ _ 1, byteAt_append_succ _ _ 2,
    byteAt_self, and_self]

/-- A unit at aligned addresses copies its bytes. -/
theorem unitCopied_eq_pokes {w : Width} (hw : w ≠ .byte) {src dst : Word} (hio : isIo src = false)
    (hsrc : alignTo w src = src) (hdst : alignTo w dst = dst) (s : State) :
    unitCopied w src dst s = pokes (copyBytes (unitBytes w).toNat src dst s) s := by
  have hread := congrArg Prod.fst (memRead_noIo w hio s)
  unfold unitCopied
  congr 1
  cases w with
  | byte => exact absurd rfl hw
  | half =>
    have hsrc' : src &&& 0xFFFFFFFE = src := hsrc
    have hdst' : dst &&& 0xFFFFFFFE = dst := hdst
    obtain ⟨h0, h1⟩ := byteAt_halfRead (readByte (src + 1) s) (readByte src s)
    have hcopy : copyBytes 2 src dst s = [(dst, readByte src s), (dst + 1, readByte (src + 1) s)] := by
      simp [copyBytes, List.range_succ]
    simp only [hread, bytesOfStore, hsrc', hdst', h0, h1]
    exact hcopy.symm
  | word =>
    have hsrc' : src &&& 0xFFFFFFFC = src := hsrc
    have hdst' : dst &&& 0xFFFFFFFC = dst := hdst
    obtain ⟨h0, h1, h2, h3⟩ :=
      byteAt_wordRead (readByte (src + 3) s) (readByte (src + 2) s) (readByte (src + 1) s) (readByte src s)
    have hcopy : copyBytes 4 src dst s = [(dst, readByte src s), (dst + 1, readByte (src + 1) s),
        (dst + 2, readByte (src + 2) s), (dst + 3, readByte (src + 3) s)] := by
      simp [copyBytes, List.range_succ]
    simp only [hread, bytesOfStore, hsrc', hdst', h0, h1, h2, h3]
    exact hcopy.symm

/-- `n` units from `src` and `dst` up: aligned, and no source byte in the I/O region or at the place of a destination
byte. -/
structure Copyable (p : Params) (w : Width) (n : Nat) (src dst : Word) : Prop where
  wide : w ≠ .byte
  srcAligned : alignTo w src = src
  dstAligned : alignTo w dst = dst
  outside : ∀ i < n * (unitBytes w).toNat, isIo (src + BitVec.ofNat 32 i) = false
  apart : ∀ i < n * (unitBytes w).toNat, ∀ j < n * (unitBytes w).toNat,
    locate p (dst + BitVec.ofNat 32 j) ≠ locate p (src + BitVec.ofNat 32 i)

theorem alignTo_next {w : Width} {a : Word} (h : alignTo w a = a) : alignTo w (a + unitBytes w) = a + unitBytes w := by
  cases w with
  | byte => rfl
  | half => exact alignPc_next (thumb := true) h
  | word => exact alignPc_next (thumb := false) h

section
variable {w : Width} {n : Nat} {src dst : Word} {s : State} (h : Copyable s.params w (n + 1) src dst)
include h

theorem Copyable.tail : Copyable s.params w n (src + unitBytes w) (dst + unitBytes w) := by
  have hnext {i : Nat} (hi : i < n * (unitBytes w).toNat) :
      (unitBytes w).toNat + i < (n + 1) * (unitBytes w).toNat := by
    rw [Nat.succ_mul]
    omega
  have haddr (a : Word) (i : Nat) :
      a + unitBytes w + BitVec.ofNat 32 i = a + BitVec.ofNat 32 ((unitBytes w).toNat + i) := by
    rw [← add_ofNat_add, BitVec.ofNat_toNat, BitVec.setWidth_eq]
  refine ⟨h.wide, alignTo_next h.srcAligned, alignTo_next h.dstAligned, fun i hi => ?_, fun i hi j hj => ?_⟩
  · rw [haddr]
    exact h.outside _ (hnext hi)
  · rw [haddr, haddr]
    exact h.apart _ (hnext hi) _ (hnext hj)

theorem Copyable.unit : unitCopied w src dst s = pokes (copyBytes (unitBytes w).toNat src dst s) s := by
  have hws : 0 < (n + 1) * (unitBytes w).toNat := by cases w <;> exact Nat.mul_pos n.succ_pos (by decide)
  have hio : isIo src = false := by simpa using h.outside 0 hws
  exact unitCopied_eq_pokes h.wide hio h.srcAligned h.dstAligned s

/-- The first unit changes no source byte. -/
theorem Copyable.source_kept (hwf : Memory.wf s.mem = true) {i : Nat} (hi : i < (n + 1) * (unitBytes w).toNat) :
    readByte (src + BitVec.ofNat 32 i) (pokes (copyBytes (unitBytes w).toNat src dst s) s) =
      readByte (src + BitVec.ofNat 32 i) s := by
  refine readByte_pokes_apart (h.outside i hi) hwf fun x hx => ?_
  obtain ⟨j, hj, rfl⟩ := mem_copyBytes.mp hx
  exact h.apart i hi j (hj.trans_le (Nat.le_mul_of_pos_left _ n.succ_pos))

end

/-- Units at rising addresses copy the source range, one byte after another. -/
theorem unitsCopied_eq_pokes {p : DmaPlan} (hsrc : dmaDelta p.src p.width = unitBytes p.width)
    (hdst : dmaDelta p.dst p.width = unitBytes p.width) {n : Nat} {src dst : Word} {s : State}
    (h : Copyable s.params p.width n src dst) (hwf : Memory.wf s.mem = true) :
    unitsCopied p n src dst s = pokes (copyBytes (n * (unitBytes p.width).toNat) src dst s) s := by
  induction n generalizing src dst s with
  | zero => rw [unitsCopied, Nat.zero_mul]; rfl
  | succ n ih =>
    have hbytes : (n + 1) * (unitBytes p.width).toNat = (unitBytes p.width).toNat + n * (unitBytes p.width).toNat := by
      rw [Nat.succ_mul, Nat.add_comm]
    have hrest : copyBytes (n * (unitBytes p.width).toNat) (src + unitBytes p.width) (dst + unitBytes p.width)
        (pokes (copyBytes (unitBytes p.width).toNat src dst s) s) =
        copyBytes (n * (unitBytes p.width).toNat) (src + unitBytes p.width) (dst + unitBytes p.width) s := by
      refine copyBytes_congr (fun j hj => ?_) _
      have := h.source_kept hwf (i := (unitBytes p.width).toNat + j) (by omega)
      rwa [← add_ofNat_add, BitVec.ofNat_toNat, BitVec.setWidth_eq] at this
    rw [unitsCopied, hsrc, hdst, h.unit, ih (by rw [pokes_params]; exact h.tail) (pokes_wf hwf), hrest, hbytes,
      copyBytes_add, pokes_append, BitVec.ofNat_toNat, BitVec.setWidth_eq]

/-! Ranges of EWRAM. -/

/-- `m` bytes from `a` up lie in the first image of EWRAM (R84). -/
def InEwram (a : Word) (m : Nat) : Prop :=
  0x02000000 ≤ a.toNat ∧ a.toNat + m ≤ 0x02040000

theorem InEwram.byte {a : Word} {m j : Nat} (h : InEwram a m) (hj : j < m) :
    (a + BitVec.ofNat 32 j).toNat = a.toNat + j := by
  obtain ⟨hlo, hhi⟩ := h
  rw [BitVec.toNat_add, BitVec.toNat_ofNat]
  omega

theorem InEwram.outside {a : Word} {m j : Nat} (h : InEwram a m) (hj : j < m) :
    isIo (a + BitVec.ofNat 32 j) = false := by
  have hbyte := h.byte hj
  obtain ⟨hlo, hhi⟩ := h
  rw [Bool.eq_false_iff, Ne, isIo_iff, hbyte]
  omega

theorem InEwram.place {a : Word} {m j : Nat} (h : InEwram a m) (hj : j < m) (p : Params) :
    locate p (a + BitVec.ofNat 32 j) = .cell .ewram (a.toNat + j - 0x02000000) := by
  have hbyte := h.byte hj
  obtain ⟨hlo, hhi⟩ := h
  have hregion : (a.toNat + j) / 0x01000000 = 2 := by omega
  have hoffset : (a.toNat + j) % 0x40000 = a.toNat + j - 0x02000000 := by omega
  simp only [locate, hbyte, hregion, hoffset]

/-- Different bytes of EWRAM have different places. -/
theorem InEwram.place_inj {a b : Word} {m i j : Nat} (ha : InEwram a m) (hb : InEwram b m) (hi : i < m) (hj : j < m)
    {p : Params} (h : locate p (a + BitVec.ofNat 32 i) = locate p (b + BitVec.ofNat 32 j)) :
    a.toNat + i = b.toNat + j := by
  rw [ha.place hi, hb.place hj, Target.cell.injEq] at h
  obtain ⟨halo, -⟩ := ha
  obtain ⟨hblo, -⟩ := hb
  omega

/-- Bytes copied to a range of EWRAM are there afterwards. -/
theorem readByte_copied {src dst : Word} {m : Nat} (hdst : InEwram dst m) {s : State} (hwf : Memory.wf s.mem = true)
    {j : Nat} (hj : j < m) :
    readByte (dst + BitVec.ofNat 32 j) (pokes (copyBytes m src dst s) s) = readByte (src + BitVec.ofNat 32 j) s := by
  refine readByte_pokes_same (hdst.outside hj) hwf (hdst.place hj s.params) rfl
    ⟨_, mem_copyBytes.mpr ⟨j, hj, rfl⟩, rfl⟩ fun x hx hplace => ?_
  obtain ⟨i, hi, rfl⟩ := mem_copyBytes.mp hx
  have hij := hdst.place_inj hdst hi hj hplace
  rw [show i = j by omega]

/-- Bytes copied to a range reach no other place. -/
theorem readByte_not_copied {src dst : Word} {m : Nat} {s : State} (hwf : Memory.wf s.mem = true) {a : Word}
    (ha : isIo a = false) (h : ∀ j < m, locate s.params a ≠ locate s.params (dst + BitVec.ofNat 32 j)) :
    readByte a (pokes (copyBytes m src dst s) s) = readByte a s := by
  refine readByte_pokes_apart ha hwf fun x hx => ?_
  obtain ⟨j, hj, rfl⟩ := mem_copyBytes.mp hx
  exact (h j hj).symm

/-- Aligned disjoint ranges of EWRAM are copyable. -/
theorem copyable_ewram {w : Width} (hw : w ≠ .byte) {n : Nat} {src dst : Word}
    (hsrcAligned : src.toNat % (unitBytes w).toNat = 0) (hdstAligned : dst.toNat % (unitBytes w).toNat = 0)
    (hsrc : InEwram src (n * (unitBytes w).toNat)) (hdst : InEwram dst (n * (unitBytes w).toNat))
    (hdisjoint : src.toNat + n * (unitBytes w).toNat ≤ dst.toNat ∨ dst.toNat + n * (unitBytes w).toNat ≤ src.toNat)
    (p : Params) : Copyable p w n src dst := by
  have halign {a : Word} (h : a.toNat % (unitBytes w).toNat = 0) : alignTo w a = a := by
    cases w with
    | byte => rfl
    | half => exact alignTo_half_of_even h
    | word => exact alignTo_word_of_aligned h
  refine ⟨hw, halign hsrcAligned, halign hdstAligned, fun i hi => hsrc.outside hi, fun i hi j hj hplace => ?_⟩
  have := hdst.place_inj hsrc hj hi hplace
  omega

/-! The transfer. -/

/-- Units at rising addresses of EWRAM reach no I/O register. -/
theorem unitsOutsideIo_ewram {p : DmaPlan} (hsrc : dmaDelta p.src p.width = unitBytes p.width)
    (hdst : dmaDelta p.dst p.width = unitBytes p.width) {n : Nat} {src dst : Word}
    (hs : InEwram src (n * (unitBytes p.width).toNat)) (hd : InEwram dst (n * (unitBytes p.width).toNat)) :
    UnitsOutsideIo p n src dst := by
  intro k hk
  have hbytes : BitVec.ofNat 32 k * unitBytes p.width = BitVec.ofNat 32 (k * (unitBytes p.width).toNat) := by
    rw [BitVec.ofNat_mul, BitVec.ofNat_toNat, BitVec.setWidth_eq]
  have hlt : k * (unitBytes p.width).toNat < n * (unitBytes p.width).toNat :=
    Nat.mul_lt_mul_of_pos_right hk (by cases p.width <;> decide)
  rw [hsrc, hdst, hbytes]
  exact ⟨hs.outside hlt, hd.outside hlt⟩

/-- The unit of a channel's type (R450, R460). -/
def typeWidth (c : BitVec 16) : Width :=
  if c.getLsbD 10 then .word else .half

theorem typeWidth_wide (c : BitVec 16) : typeWidth c ≠ .byte := by
  unfold typeWidth
  split <;> decide

theorem typeWidth_bytes (c : BitVec 16) : (unitBytes (typeWidth c)).toNat = if c.getLsbD 10 then 4 else 2 := by
  unfold typeWidth
  split <;> rfl

/-- Without the FIFO override a transfer with both addresses incrementing moves units of the channel's type (R453). -/
theorem dmaPlan_plain {ch : Fin 4} {d : DmaChannel} (h : d.cntH.extractLsb' 12 2 ≠ 3)
    (hsrc : d.cntH.extractLsb' 7 2 = 0) (hdst : d.cntH.extractLsb' 5 2 = 0) :
    dmaPlan ch d = ⟨typeWidth d.cntH, dmaLength ch d.cntL, 0, 0⟩ := by
  have hfifo : ¬ fifoTransfer ch d.cntH = true := fun hf => h (fifoTransfer_iff.mp hf).1
  have hs : srcCtrl d.cntH = 0 := hsrc
  have hd : dstCtrl d.cntH = 0 := hdst
  simp only [dmaPlan, if_neg hfifo, hs, hd, dmaWordType]
  rfl

/-- A transfer between copyable ranges of EWRAM leaves memory with the source bytes copied. -/
theorem startDma_copies {ch : Fin 4} {s : State} {p : DmaPlan} (hp : dmaPlan ch s.dma[ch] = p)
    (hsrc : dmaDelta p.src p.width = unitBytes p.width) (hdst : dmaDelta p.dst p.width = unitBytes p.width) {m : Nat}
    (hm : p.len * (unitBytes p.width).toNat = m) (hs : InEwram s.dma[ch].isrc m) (hd : InEwram s.dma[ch].idst m)
    (h : Copyable s.params p.width p.len s.dma[ch].isrc s.dma[ch].idst) (hwf : Memory.wf s.mem = true) :
    ∃ t, startDma ch s = .next t ∧ ∀ a, isIo a = false →
      readByte a t = readByte a (pokes (copyBytes m s.dma[ch].isrc s.dma[ch].idst s) s) := by
  subst hp hm
  refine ⟨_, startDma_outsideIo (unitsOutsideIo_ewram hsrc hdst hs hd), fun a ha => ?_⟩
  rw [transferred_eq, unitsCopied_eq_pokes hsrc hdst h hwf]
  exact readByte_congr ha rfl (pokes_params _ s).symm (by rw [pokes_mem])

/-- Settles O60: the transfer is `copyBytes` of the source range, written to the destination. -/
theorem dmaCopies : Obligations.DmaCopies := by
  intro s ch ws hwf d len htiming hsrcCtl hdstCtl hws hsrcAligned hdstAligned hsrcLo hsrcHi hdstLo hdstHi hdisjoint
  rw [← typeWidth_bytes] at hws
  subst hws
  have hsrc : InEwram d.isrc (len * (unitBytes (typeWidth d.cntH)).toNat) := ⟨hsrcLo, hsrcHi⟩
  have hdst : InEwram d.idst (len * (unitBytes (typeWidth d.cntH)).toNat) := ⟨hdstLo, hdstHi⟩
  obtain ⟨t, hrun, hread⟩ := startDma_copies (dmaPlan_plain (ch := ch) htiming hsrcCtl hdstCtl) rfl rfl rfl hsrc hdst
    (copyable_ewram (typeWidth_wide _) hsrcAligned hdstAligned hsrc hdst hdisjoint s.params) hwf
  refine ⟨t, hrun, fun j hj => ?_, fun a ha hplace => ?_⟩
  · rw [hread _ (hdst.outside hj)]
    exact readByte_copied hdst hwf hj
  · rw [hread a ha]
    exact readByte_not_copied hwf ha hplace

end Sys2Proof.Proofs
